-- ==== Sys2Proof/Word.lean ====
section
/-! DEFINITION. The words of the block: 32-bit registers and operands (10 R30, 00 R6 REG_WIDTH) and bytes of buffer memory (20 R80). -/

namespace Sys2Proof

/-- A register, operand or command word (00 R6: REG_WIDTH = 32). -/
abbrev Word := BitVec 32

/-- One byte of buffer memory (20 R80). -/
abbrev Byte := BitVec 8

/-- "a write of v to a 32-bit register stores v mod 2^32" (00 R8). -/
abbrev word (n : Nat) : Word := BitVec.ofNat 32 n

end Sys2Proof
end

