-- ==== Sys2Proof/Syntax.lean ====
section
/-! DEFINITION. The syntax: one constructor per row of spec/opcode_table.json (30 R112). -/

namespace Sys2Proof

/-- A stream's bit order, ORD (00 R10, 20 R84): 0 = LSB-first, 1 = MSB-first. -/
inductive BitOrder where
  | lsb
  | msb
  deriving DecidableEq, Repr

/-- A command (30 R112). Fields A and B are 8-bit unsigned values used as they are (30 R111), kept as numbers; a flag
field is its bit 0. The operands ARG0 to ARG3 are not part of the word: a meaning reads the latched copies. -/
inductive Instr where
  /-- NOP, OPC 0x00 (45 R353). -/
  | nop
  /-- BS_INIT, OPC 0x01, A[0] = ORD (40 R143). -/
  | bsInit (ord : BitOrder)
  /-- BS_APPEND, OPC 0x02, A = width (40 R144). -/
  | bsAppend (width : Nat)
  /-- BS_READ_BIT, OPC 0x03 (40 R145). -/
  | bsReadBit
  /-- HUF_BUILD_CANON, OPC 0x10, A = slot (41 R163). -/
  | hufBuildCanon (slot : Nat)
  /-- HUF_BUILD_WEIGHTED, OPC 0x11, A = slot (41 R165). -/
  | hufBuildWeighted (slot : Nat)
  /-- HUF_GET_CODE, OPC 0x12, A = slot (41 R167). -/
  | hufGetCode (slot : Nat)
  /-- HUF_ENCODE, OPC 0x13, A = slot (41 R173). -/
  | hufEncode (slot : Nat)
  /-- HUF_MATCH, OPC 0x14, A = slot (41 R170). -/
  | hufMatch (slot : Nat)
  /-- HUF_DECODE_BS, OPC 0x15, A = slot (41 R171). -/
  | hufDecodeBs (slot : Nat)
  /-- LZW_DEC_START, OPC 0x20, A[0] = ORD, B = L (42 R202). -/
  | lzwDecStart (ord : BitOrder) (lit : Nat)
  /-- LZW_ENC_START, OPC 0x21, A[0] = ORD, B = L (42 R220). -/
  | lzwEncStart (ord : BitOrder) (lit : Nat)
  /-- DFL_DEC_START, OPC 0x30 (43 R240). -/
  | dflDecStart
  /-- DFL_ENC_START, OPC 0x31, A = block mode (44 R290). -/
  | dflEncStart (mode : Nat)
  /-- FEED, OPC 0x40, A[0] = COMPLETE (45 R343). -/
  | feed (complete : Bool)
  /-- SESSION_END, OPC 0x41 (45 R342). -/
  | sessionEnd
  /-- LZ77_MATCH, OPC 0x50 (44 R292). -/
  | lz77Match
  /-- SOFT_RESET, OPC 0x7F (45 R354). -/
  | softReset
  deriving DecidableEq, Repr

end Sys2Proof
end

