-- ==== Sys2Proof/WellFormed.lean ====
section
/-! DEFINITION. Which terms of the syntax are commands: a numeric field fits its 8 bits (30 R110, R111).
A width, slot, literal width or block mode outside a command's legal range is NOT ill-formed: the command word exists
and executing it raises INVALID_OPERAND (30 R115). -/

namespace Sys2Proof

/-- "Field A or B ... is an 8-bit unsigned value used as is" (30 R111). -/
def fitsField (v : Nat) : Bool := v < 256

/-- Every numeric field of the command fits the 8 bits the word gives it. -/
def Instr.wellFormed : Instr → Bool
  | .nop => true
  | .bsInit _ => true
  | .bsAppend width => fitsField width
  | .bsReadBit => true
  | .hufBuildCanon slot => fitsField slot
  | .hufBuildWeighted slot => fitsField slot
  | .hufGetCode slot => fitsField slot
  | .hufEncode slot => fitsField slot
  | .hufMatch slot => fitsField slot
  | .hufDecodeBs slot => fitsField slot
  | .lzwDecStart _ lit => fitsField lit
  | .lzwEncStart _ lit => fitsField lit
  | .dflDecStart => true
  | .dflEncStart mode => fitsField mode
  | .feed _ => true
  | .sessionEnd => true
  | .lz77Match => true
  | .softReset => true

end Sys2Proof
end

