-- ==== Sys2Proof/Decode.lean ====
section
/-! DEFINITION. Decoding a command word, total (30 R113), and encoding a command (30 R116). -/

namespace Sys2Proof

/-- The two ways a word is no command (30 R113). -/
inductive DecodeReject where
  /-- OPC is none of 30 R112: the engine raises INVALID_COMMAND 0x0801. -/
  | unknownOpcode
  /-- A bit that 30 R112 fixes to 0 is 1: the engine raises INVALID_COMMAND 0x0802. -/
  | fixedBitSet
  deriving DecidableEq, Repr

/-- A row of spec/opcode_table.json: `w` selects it iff `w & mask = match` (30 R113). -/
structure OpcodeRow where
  matchBits : Word
  mask : Word
  deriving DecidableEq, Repr

/-- OPC = w[7:0] (30 R110). -/
def fieldOpc (w : Word) : BitVec 8 := w.extractLsb' 0 8
/-- A = w[15:8] (30 R110). -/
def fieldA (w : Word) : BitVec 8 := w.extractLsb' 8 8
/-- B = w[23:16] (30 R110). -/
def fieldB (w : Word) : BitVec 8 := w.extractLsb' 16 8
/-- RSV = w[31:24] (30 R110). -/
def fieldRsv (w : Word) : BitVec 8 := w.extractLsb' 24 8

/-- A flag field read as a bit order: bit 0 is ORD (30 R111, R112). -/
def orderOfFlag (a : BitVec 8) : BitOrder := if a.getLsbD 0 then .msb else .lsb

/-- A flag field uses bit 0 only; "its bits 7:1 are reserved and must be 0" (30 R111). -/
def flagClean (a : BitVec 8) : Bool := a &&& 0xFE#8 == 0#8

/-- The command `i`, or 0x0802 when a bit the opcode fixes to 0 is set (30 R113). -/
def whenFixedZero (ok : Bool) (i : Instr) : Except DecodeReject Instr :=
  if ok then .ok i else .error .fixedBitSet

/-- Decode from the four byte fields of the word (30 R112, R113). -/
def decodeFields (opc a b rsv : BitVec 8) : Except DecodeReject Instr :=
  let a0 := a == 0#8
  let b0 := b == 0#8
  let r0 := rsv == 0#8
  match opc.toNat with
  | 0x00 => whenFixedZero (a0 && b0 && r0) .nop
  | 0x01 => whenFixedZero (flagClean a && b0 && r0) (.bsInit (orderOfFlag a))
  | 0x02 => whenFixedZero (b0 && r0) (.bsAppend a.toNat)
  | 0x03 => whenFixedZero (a0 && b0 && r0) .bsReadBit
  | 0x10 => whenFixedZero (b0 && r0) (.hufBuildCanon a.toNat)
  | 0x11 => whenFixedZero (b0 && r0) (.hufBuildWeighted a.toNat)
  | 0x12 => whenFixedZero (b0 && r0) (.hufGetCode a.toNat)
  | 0x13 => whenFixedZero (b0 && r0) (.hufEncode a.toNat)
  | 0x14 => whenFixedZero (b0 && r0) (.hufMatch a.toNat)
  | 0x15 => whenFixedZero (b0 && r0) (.hufDecodeBs a.toNat)
  | 0x20 => whenFixedZero (flagClean a && r0) (.lzwDecStart (orderOfFlag a) b.toNat)
  | 0x21 => whenFixedZero (flagClean a && r0) (.lzwEncStart (orderOfFlag a) b.toNat)
  | 0x30 => whenFixedZero (a0 && b0 && r0) .dflDecStart
  | 0x31 => whenFixedZero (b0 && r0) (.dflEncStart a.toNat)
  | 0x40 => whenFixedZero (flagClean a && b0 && r0) (.feed (a.getLsbD 0))
  | 0x41 => whenFixedZero (a0 && b0 && r0) .sessionEnd
  | 0x50 => whenFixedZero (a0 && b0 && r0) .lz77Match
  | 0x7F => whenFixedZero (a0 && b0 && r0) .softReset
  | _ => .error .unknownOpcode

/-- "Decoding a command word w is total" (30 R113). -/
def decode (w : Word) : Except DecodeReject Instr :=
  decodeFields (fieldOpc w) (fieldA w) (fieldB w) (fieldRsv w)

/-- A flag field's bit 0 for a bit order (30 R111). -/
def BitOrder.flag : BitOrder → Nat
  | .lsb => 0
  | .msb => 1

/-- The OPC of a command (30 R112). -/
def Instr.opcode : Instr → Nat
  | .nop => 0x00
  | .bsInit _ => 0x01
  | .bsAppend _ => 0x02
  | .bsReadBit => 0x03
  | .hufBuildCanon _ => 0x10
  | .hufBuildWeighted _ => 0x11
  | .hufGetCode _ => 0x12
  | .hufEncode _ => 0x13
  | .hufMatch _ => 0x14
  | .hufDecodeBs _ => 0x15
  | .lzwDecStart _ _ => 0x20
  | .lzwEncStart _ _ => 0x21
  | .dflDecStart => 0x30
  | .dflEncStart _ => 0x31
  | .feed _ => 0x40
  | .sessionEnd => 0x41
  | .lz77Match => 0x50
  | .softReset => 0x7F

/-- The A field of a command (30 R112). -/
def Instr.fieldA : Instr → Nat
  | .bsInit ord => ord.flag
  | .bsAppend width => width
  | .hufBuildCanon slot => slot
  | .hufBuildWeighted slot => slot
  | .hufGetCode slot => slot
  | .hufEncode slot => slot
  | .hufMatch slot => slot
  | .hufDecodeBs slot => slot
  | .lzwDecStart ord _ => ord.flag
  | .lzwEncStart ord _ => ord.flag
  | .dflEncStart mode => mode
  | .feed complete => complete.toNat
  | .nop => 0
  | .bsReadBit => 0
  | .dflDecStart => 0
  | .sessionEnd => 0
  | .lz77Match => 0
  | .softReset => 0

/-- The B field of a command (30 R112). -/
def Instr.fieldB : Instr → Nat
  | .lzwDecStart _ lit => lit
  | .lzwEncStart _ lit => lit
  | .nop => 0
  | .bsInit _ => 0
  | .bsAppend _ => 0
  | .bsReadBit => 0
  | .hufBuildCanon _ => 0
  | .hufBuildWeighted _ => 0
  | .hufGetCode _ => 0
  | .hufEncode _ => 0
  | .hufMatch _ => 0
  | .hufDecodeBs _ => 0
  | .dflDecStart => 0
  | .dflEncStart _ => 0
  | .feed _ => 0
  | .sessionEnd => 0
  | .lz77Match => 0
  | .softReset => 0

/-- "w = (B << 16) | (A << 8) | OPC with RSV = 0" (30 R116). -/
def encode (i : Instr) : Word :=
  (word i.fieldB <<< 16) ||| (word i.fieldA <<< 8) ||| word i.opcode

/-- The row of spec/opcode_table.json a command belongs to, transcribed from its "match" and "mask". -/
def Instr.row : Instr → OpcodeRow
  | .nop => ⟨0x00000000, 0xFFFFFFFF⟩
  | .bsInit _ => ⟨0x00000001, 0xFFFFFEFF⟩
  | .bsAppend _ => ⟨0x00000002, 0xFFFF00FF⟩
  | .bsReadBit => ⟨0x00000003, 0xFFFFFFFF⟩
  | .hufBuildCanon _ => ⟨0x00000010, 0xFFFF00FF⟩
  | .hufBuildWeighted _ => ⟨0x00000011, 0xFFFF00FF⟩
  | .hufGetCode _ => ⟨0x00000012, 0xFFFF00FF⟩
  | .hufEncode _ => ⟨0x00000013, 0xFFFF00FF⟩
  | .hufMatch _ => ⟨0x00000014, 0xFFFF00FF⟩
  | .hufDecodeBs _ => ⟨0x00000015, 0xFFFF00FF⟩
  | .lzwDecStart _ _ => ⟨0x00000020, 0xFF00FEFF⟩
  | .lzwEncStart _ _ => ⟨0x00000021, 0xFF00FEFF⟩
  | .dflDecStart => ⟨0x00000030, 0xFFFFFFFF⟩
  | .dflEncStart _ => ⟨0x00000031, 0xFFFF00FF⟩
  | .feed _ => ⟨0x00000040, 0xFFFFFEFF⟩
  | .sessionEnd => ⟨0x00000041, 0xFFFFFFFF⟩
  | .lz77Match => ⟨0x00000050, 0xFFFFFFFF⟩
  | .softReset => ⟨0x0000007F, 0xFFFFFFFF⟩

/-- Every row of spec/opcode_table.json, in its order. -/
def opcodeRows : List OpcodeRow :=
  [⟨0x00000000, 0xFFFFFFFF⟩, ⟨0x00000001, 0xFFFFFEFF⟩, ⟨0x00000002, 0xFFFF00FF⟩, ⟨0x00000003, 0xFFFFFFFF⟩,
   ⟨0x00000010, 0xFFFF00FF⟩, ⟨0x00000011, 0xFFFF00FF⟩, ⟨0x00000012, 0xFFFF00FF⟩, ⟨0x00000013, 0xFFFF00FF⟩,
   ⟨0x00000014, 0xFFFF00FF⟩, ⟨0x00000015, 0xFFFF00FF⟩, ⟨0x00000020, 0xFF00FEFF⟩, ⟨0x00000021, 0xFF00FEFF⟩,
   ⟨0x00000030, 0xFFFFFFFF⟩, ⟨0x00000031, 0xFFFF00FF⟩, ⟨0x00000040, 0xFFFFFEFF⟩, ⟨0x00000041, 0xFFFFFFFF⟩,
   ⟨0x00000050, 0xFFFFFFFF⟩, ⟨0x0000007F, 0xFFFFFFFF⟩]

/-- The word whose bits, numbered as spec/opcode_table.json numbers them, are the low `nbits` of `w`; a command word is
written to CMD whole, so there is no byte order to apply (30 R110). -/
def tableWord (nbits w : Nat) : Word := word (w % 2 ^ nbits)

/-- The command the decoder reads from a table word. -/
def decodeTableWord (nbits w : Nat) : Option Instr := (decode (tableWord nbits w)).toOption

end Sys2Proof
end

