-- ==== Sys2Proof/Config.lean ====
section
/-! DEFINITION. What an implementation fixes (00 R6) and the free values: constants the spec leaves open, which no proof can evaluate. -/

namespace Sys2Proof

/-- The two parameters the spec leaves to the implementation (00 R6, 92 D7 and D25).
They are carried in State, where no step changes them, so a statement about every state is a statement about every
permitted parameter (log 1, log 2). -/
structure Params where
  /-- MEM_SIZE - 1: the highest buffer-memory address, so that 1 <= MEM_SIZE <= 2^32 holds by construction. -/
  memTop : BitVec 32
  /-- LZW_EARLY_CHANGE (42 R206): false = 0, this hardware's value; true = 1, the permitted variant. -/
  lzwEarlyChange : Bool
  deriving DecidableEq, Repr

namespace Config

/-- MEM_SIZE - 1 of the machine after reset: OPEN (00 R6, 92 D7), so nothing is known of it (log 1). -/
opaque memTop : BitVec 32

/-- The byte that address `addr` holds after power-on number `epoch`, before anything writes it: "a model gives each
byte an arbitrary value (a draw)" (20 R82, 93 U1; log 3). -/
opaque powerOnByte : (epoch addr : Nat) → Byte

/-- Which candidate value the engine's read number `site` of a raced byte returns: "each engine read of the byte may
return the old or the new value" (20 R95, 93 U4; log 7). -/
opaque racePick : (draw : Nat) → (site : List Nat) → (addr : Nat) → Nat

/-- Whether a byte both agents wrote ends with the host's value: "the final content of a byte both wrote is either
writer's value" (20 R95, 93 U4; log 7). -/
opaque raceKeepsHost : (draw addr : Nat) → Bool

/-- Whether a host read made while BUSY = 1 sees the value the running command writes (93 U7; log 9). -/
opaque busyReadSeesNew : (draw addr : Nat) → Bool

/-- HUF_SLOTS (00 R6, 92 D14). -/
abbrev hufSlots : Nat := 4
/-- HUF_MAX_SYMBOLS (00 R6, 92 D15). -/
abbrev hufMaxSymbols : Nat := 288
/-- HUF_MAX_WIDTH (00 R6, 92 D16). -/
abbrev hufMaxWidth : Nat := 16
/-- LZW_MIN_LIT (00 R6, 92 D23). -/
abbrev lzwMinLit : Nat := 2
/-- LZW_MAX_LIT (00 R6, 92 D23). -/
abbrev lzwMaxLit : Nat := 8
/-- LZW_MAX_WIDTH (00 R6, 92 D24). -/
abbrev lzwMaxWidth : Nat := 12
/-- LZ77_WINDOW (00 R6, 92 D40). -/
abbrev lz77Window : Nat := 32768
/-- LZ77_MIN_MATCH (00 R6, 92 D40). -/
abbrev lz77MinMatch : Nat := 3
/-- LZ77_MAX_MATCH (00 R6, 92 D40). -/
abbrev lz77MaxMatch : Nat := 258
/-- STORED_MAX (00 R6, 92 D38). -/
abbrev storedMax : Nat := 65535

end Config

end Sys2Proof
end

