-- ==== Sys2Proof/Machine/State.lean ====
section
/-! DEFINITION. The state of the block as plain data (10 R30 to R54), what stops it, and the state after reset (70 R420, R421). -/

namespace Sys2Proof.Machine

/-- What stops the machine with a fault. The engine never does (93: "No behaviour of this block is fault or stuck"). -/
inductive Fault where
  /-- Raised by a host memory read or write at an address at or above MEM_SIZE, which does not exist (20 R80; log 11).
  Safe: a machine that goes on is not claimed about. -/
  | hostAddressAbsent
  deriving DecidableEq, Repr

/-- What the model refuses. -/
inductive Refusal where
  /-- Raised by exec's arm of an instruction that has no meaning in the model. Safe. -/
  | notModelled (mnemonic : String)
  /-- Raised by a host register access that is not 32 bits wide or not at a multiple of 4: "a model refuses it"
  (20 R88, 60 R398, 93 V6; log 10). Safe. -/
  | registerAccessForm
  deriving DecidableEq, Repr

/-- ARG0 to ARG3, or their latched copies st.arg[0..3] (10 R34, R45). -/
structure Args where
  a0 : Word
  a1 : Word
  a2 : Word
  a3 : Word
  deriving DecidableEq, Repr

/-- The STATUS fields (10 R36) but BUSY, which is State.busy. -/
structure Status where
  overrun : Bool
  needMore : Bool
  done : Bool
  err : Bool
  errCode : BitVec 5
  deriving DecidableEq, Repr

/-- The bit-sequence registers BS_BASE, BS_CAP, BS_BITS and the fields ORD and VALID of BS_CTRL (10 R38). -/
structure BitSeq where
  base : Word
  cap : Word
  bits : Word
  ord : BitOrder
  valid : Bool
  deriving DecidableEq, Repr

/-- S_CTRL.MODE (10 R39); the values 5 to 15 never occur. -/
inductive Mode where
  | none
  | lzwDec
  | lzwEnc
  | dflDec
  | dflEnc
  deriving DecidableEq, Repr

/-- S_CTRL.SSTATE (10 R39). -/
inductive SState where
  | idle
  | active
  | done
  | error
  deriving DecidableEq, Repr

/-- The session (10 R39 to R43, R48): the fields of S_CTRL, the S_ registers and st.serr_detail. -/
structure Session where
  mode : Mode
  ord : BitOrder
  /-- S_CTRL.L, the LZW literal width. -/
  lit : BitVec 4
  bmode : BitVec 2
  sstate : SState
  serr : BitVec 5
  serrDetail : BitVec 16
  outBase : Word
  outCap : Word
  outLen : Word
  outBits : Word
  /-- S_BITPOS, which "holds ... how many bits (0..7)" (10 R41). -/
  bitpos : BitVec 3
  histBase : Word
  histCap : Word
  histLen : Word
  totalIn : Word
  deriving DecidableEq, Repr

/-- One symbol of a Huffman table (10 R46): its width, 0 when it has no code, and its code. -/
structure HufCode where
  width : Nat
  code : Nat
  deriving DecidableEq, Repr

/-- A Huffman table (10 R46): one entry per symbol in symbol order, so `n` is the length, and the largest width. -/
structure HufTable where
  entries : List HufCode
  maxw : Nat
  deriving DecidableEq, Repr

/-- A host-visible table slot (10 R46). -/
structure HufSlot where
  valid : Bool
  table : HufTable
  deriving DecidableEq, Repr

/-- The LZW decoder's dictionary (10 R49): entry i of `strs` is st.lz.str[2^L + 2 + i]. -/
structure LzwDec where
  size : Nat
  width : Nat
  prev : Option Nat
  strs : List (List Byte)
  deriving DecidableEq, Repr

/-- An entry of the LZW encoder's map from (code, byte) to code (10 R50). -/
structure LzwEntry where
  code : Nat
  byte : Byte
  newCode : Nat
  deriving DecidableEq, Repr

/-- The LZW encoder's state (10 R50). -/
structure LzwEnc where
  map : List LzwEntry
  size : Nat
  w : Option Nat
  dsize : Nat
  dwidth : Nat
  dprev : Bool
  deriving DecidableEq, Repr

/-- The DEFLATE parse state st.df.p (10 R51). -/
inductive DflParse where
  | header
  | storedLen
  | storedData
  | dynCounts
  | dynClLen
  | dynLens
  | body
  deriving DecidableEq, Repr

/-- The DEFLATE decoder's state (10 R51). -/
structure DflDec where
  p : DflParse
  final : Bool
  remaining : Nat
  nlit : Nat
  ndist : Nat
  ncl : Nat
  cli : Nat
  clw : List Nat
  cltab : HufTable
  lit : HufTable
  dist : HufTable
  lens : List Nat
  deriving DecidableEq, Repr

/-- Buffer memory (20 R80, R82): the bytes something has written since power-on, at strictly rising addresses. An
address that is not listed has not been written: its byte is the power-on draw (log 3, log 4). -/
abbrev Memory := List Host.Cell

/-- MODEL's own: what the host wrote to one buffer byte while BUSY = 1, its last write and the writes before that, and
whether the running command has written the byte too (20 R95, 93 U4; log 7, log 8). -/
structure RacedByte where
  addr : Nat
  last : Byte
  earlier : List Byte
  engineWrote : Bool
  deriving DecidableEq, Repr

/-- MODEL's own: one entry of the agenda, a host action (30 R117, 70 R436) or a turn of the engine (log 5). -/
inductive Event where
  /-- The engine takes its transition, if a command is accepted (10 R45). -/
  | engine
  /-- The host writes `value` to the register at `offset`, `bytes` bytes wide (20 R88). -/
  | regWrite (offset : Nat) (bytes : Nat) (value : Word)
  /-- The host reads the register at `offset`, `bytes` bytes wide (20 R88). -/
  | regRead (offset : Nat) (bytes : Nat)
  /-- The host writes one byte of buffer memory (30 R117 MEMW, byte by byte). -/
  | memWrite (addr : Nat) (value : Byte)
  /-- The host reads one byte of buffer memory (30 R117 MEMR, byte by byte). -/
  | memRead (addr : Nat)
  /-- "host reads STATUS until BUSY = 0 (in the model: the engine's step ...)" (30 R117; log 17). -/
  | wait
  /-- The reset input is asserted (70 R420, R422). -/
  | reset
  /-- Power is applied (70 R420; log 19). -/
  | powerOn
  deriving DecidableEq, Repr

/-- The state of the block. -/
structure State where
  /-- MEM_SIZE and LZW_EARLY_CHANGE (00 R6): never changed by a step. -/
  par : Params
  /-- CMD, the last accepted command word (10 R33). -/
  cmd : Word
  /-- ARG0 to ARG3 (10 R34). -/
  arg : Args
  /-- RES0 (10 R35). -/
  res0 : Word
  /-- RES1 (10 R35). -/
  res1 : Word
  /-- RES2 (10 R35). -/
  res2 : Word
  /-- STATUS but BUSY (10 R36). -/
  status : Status
  /-- ERR_DETAIL bits 15:0 (10 R37). -/
  errDetail : BitVec 16
  /-- The bit sequence (10 R38, R47). -/
  bs : BitSeq
  /-- The session (10 R48). -/
  ses : Session
  /-- st.busy, mirrored by STATUS.BUSY (10 R45). -/
  busy : Bool
  /-- st.cmd, the latched command (10 R45). -/
  lcmd : Word
  /-- st.arg[0..3], the latched operands (10 R45). -/
  larg : Args
  /-- st.huf[0..3] (10 R46). -/
  huf : Vector HufSlot 4
  /-- st.lz (10 R49). -/
  lz : LzwDec
  /-- st.le (10 R50). -/
  le : LzwEnc
  /-- st.df (10 R51). -/
  df : DflDec
  /-- Buffer memory (20 R80). -/
  mem : Memory
  /-- MODEL's own: host writes made while BUSY = 1 (log 7). -/
  raced : List RacedByte
  /-- MODEL's own: the number of the last power-on (log 19). -/
  powerEpoch : Nat
  /-- MODEL's own: the number of the next free choice (log 7, log 9). -/
  drawNo : Nat
  /-- MODEL's own: what happens next, in the total order of host steps and engine transitions (20 R94; log 5). -/
  agenda : List Event
  /-- MODEL's own: the value the host's last read returned (log 18). -/
  hostData : Word
  deriving DecidableEq, Repr

/-- The ARG registers, and the latched operands, after reset (70 R421). -/
def Args.zero : Args := ⟨0, 0, 0, 0⟩

/-- STATUS after reset: "all 0" (70 R421). -/
def Status.zero : Status := ⟨false, false, false, false, 0⟩

/-- The bit sequence after reset: released (70 R420). -/
def BitSeq.released : BitSeq := ⟨0, 0, 0, .lsb, false⟩

/-- "no session exists (S_CTRL.MODE = NONE, SSTATE = IDLE, all S_ registers 0, st.serr_detail = 0)" (70 R420). -/
def Session.released : Session :=
  { mode := .none, ord := .lsb, lit := 0, bmode := 0, sstate := .idle, serr := 0, serrDetail := 0, outBase := 0,
    outCap := 0, outLen := 0, outBits := 0, bitpos := 0, histBase := 0, histCap := 0, histLen := 0, totalIn := 0 }

/-- The table over no symbols: what an invalid slot holds after reset, unspecified and unread (93 U2; log 12). -/
def HufTable.empty : HufTable := ⟨[], 0⟩

/-- An invalid slot (70 R420). -/
def HufSlot.invalid : HufSlot := ⟨false, HufTable.empty⟩

/-- LZW decoder fields while no LZW decoder session exists, unspecified and unread (93 U3; log 12). -/
def LzwDec.unused : LzwDec := ⟨0, 0, none, []⟩

/-- LZW encoder fields while no LZW encoder session exists, unspecified and unread (93 U3; log 12). -/
def LzwEnc.unused : LzwEnc := ⟨[], 0, none, 0, 0, false⟩

/-- DEFLATE decoder fields while no DEFLATE decoder session exists, unspecified and unread (93 U3; log 12). -/
def DflDec.unused : DflDec :=
  { p := .header, final := false, remaining := 0, nlit := 0, ndist := 0, ncl := 0, cli := 0,
    clw := List.replicate 19 0, cltab := HufTable.empty, lit := HufTable.empty, dist := HufTable.empty, lens := [] }

/-- The state right after power-on reset of a machine with parameters `par` (70 R420, R421): every register 0, nothing
latched, no table, no bit sequence, no session, no byte of buffer memory written. -/
def State.resetWith (par : Params) : State :=
  { par := par, cmd := 0, arg := Args.zero, res0 := 0, res1 := 0, res2 := 0, status := Status.zero, errDetail := 0,
    bs := BitSeq.released, ses := Session.released, busy := false, lcmd := 0, larg := Args.zero,
    huf := Vector.replicate 4 HufSlot.invalid, lz := LzwDec.unused, le := LzwEnc.unused, df := DflDec.unused,
    mem := [], raced := [], powerEpoch := 0, drawNo := 0, agenda := [], hostData := 0 }

/-- The state right after power-on reset of this hardware: MEM_SIZE is OPEN (log 1) and LZW_EARLY_CHANGE is 0
(90 C2: "with 0 the value of this hardware"; log 2). -/
def State.reset : State := State.resetWith ⟨Config.memTop, false⟩

end Sys2Proof.Machine
end

