-- ==== Sys2Proof/Machine/Flags.lean ====
section
/-! DEFINITION. The status computations: the errors and their codes (60 R380, R381), the STATUS bits a command's start and end write (10 R36), and the word views of STATUS, BS_CTRL, S_CTRL, ERR_DETAIL and HUF_VALID (10 R36 to R39, R44). -/

namespace Sys2Proof.Machine

/-- An error: its code (60 R380) and its detail code (60 R381). -/
structure Err where
  code : BitVec 5
  detail : BitVec 16
  deriving DecidableEq, Repr

namespace Err

/-- "The high byte of a detail code is always its error code" (60 R381). -/
def ofDetail (d : BitVec 16) : Err := ⟨(d >>> 8).truncate 5, d⟩

/-- A Huffman match needs more bits than the table's longest code (60 R381). -/
def noCode : Err := ofDetail 0x0101
/-- HLIT > 29 (60 R381). -/
def hlitRange : Err := ofDetail 0x0102
/-- The code-length code cannot be built (60 R381). -/
def clTable : Err := ofDetail 0x0103
/-- Code-length symbol 16 with no previous width (60 R381). -/
def noPreviousWidth : Err := ofDetail 0x0104
/-- A repeat runs past HLIT + HDIST widths (60 R381). -/
def repeatPastEnd : Err := ofDetail 0x0105
/-- A dynamic literal/length or distance table cannot be built (60 R381). -/
def dynTable : Err := ofDetail 0x0106
/-- Literal/length symbol 286 or 287 (60 R381). -/
def litSymbol : Err := ofDetail 0x0107
/-- Distance symbol 30 or above (60 R381). -/
def distSymbol : Err := ofDetail 0x0108
/-- DEFLATE block type 3 (60 R381). -/
def blockType : Err := ofDetail 0x0201
/-- NLEN is not the complement of LEN (60 R381). -/
def storedLength : Err := ofDetail 0x0301
/-- An LZW code that is not defined (60 R381). -/
def undefinedCode : Err := ofDetail 0x0401
/-- A distance greater than S_OUT_LEN (60 R381). -/
def backReference : Err := ofDetail 0x0501
/-- COMPLETE = 1 leaves the session ACTIVE (60 R381). -/
def prematureEnd : Err := ofDetail 0x0601
/-- An opcode that is not in 30 R112 (60 R381). -/
def unknownOpcode : Err := ofDetail 0x0801
/-- A bit the opcode fixes to 0 is 1 (60 R381). -/
def fixedBit : Err := ofDetail 0x0802
/-- FEED with no session (60 R381). -/
def noSession : Err := ofDetail 0x0803
/-- BS_APPEND width outside 1..32 (60 R381). -/
def widthRange : Err := ofDetail 0x0901
/-- HUF_BUILD symbol count outside 1..288 (60 R381). -/
def symbolCount : Err := ofDetail 0x0902
/-- A value does not fit its width (60 R381). -/
def valueTooWide : Err := ofDetail 0x0903
/-- Huffman slot out of range (60 R381). -/
def slotRange : Err := ofDetail 0x0904
/-- LZW encoder input byte >= 2^L (60 R381). -/
def literalTooWide : Err := ofDetail 0x0905
/-- Symbol out of range or without a code (60 R381). -/
def noSymbol : Err := ofDetail 0x0906
/-- Huffman slot not valid (60 R381). -/
def slotInvalid : Err := ofDetail 0x0907
/-- Bit sequence not initialised (60 R381). -/
def noBitSeq : Err := ofDetail 0x0908
/-- Bit index outside the bit sequence (60 R381). -/
def bitIndex : Err := ofDetail 0x0909
/-- LZW literal width out of range (60 R381). -/
def litWidth : Err := ofDetail 0x090A
/-- DEFLATE encoder block mode > 2 (60 R381). -/
def blockMode : Err := ofDetail 0x090B
/-- HUF_MATCH bit count > 32 (60 R381). -/
def bitCount : Err := ofDetail 0x090C
/-- Regions overlap where the command forbids it (60 R381). -/
def overlap : Err := ofDetail 0x090D
/-- LZ77_MATCH position beyond the length (60 R381). -/
def matchPosition : Err := ofDetail 0x090E
/-- A region does not fit in buffer memory (60 R381). -/
def addressRange : Err := ofDetail 0x0A01
/-- Session output region full (60 R381). -/
def outputFull : Err := ofDetail 0x0B01
/-- Bit-sequence region full (60 R381). -/
def bitSeqFull : Err := ofDetail 0x0B02
/-- DEFLATE encoder history region full (60 R381). -/
def historyFull : Err := ofDetail 0x0B03
/-- A code width above 16 (60 R381). -/
def codeWidth : Err := ofDetail 0x0C01
/-- Widths over-subscribed (60 R381). -/
def overSubscribed : Err := ofDetail 0x0C02
/-- Weighted tree deeper than 16 (60 R381). -/
def treeDepth : Err := ofDetail 0x0C03
/-- LZW dictionary full (60 R381). -/
def dictionaryFull : Err := ofDetail 0x0D01

/-- "Every detail code the spec raises is listed here, and no other is ever reported" (60 R381), in its order. -/
def all : List Err :=
  [noCode, hlitRange, clTable, noPreviousWidth, repeatPastEnd, dynTable, litSymbol, distSymbol] ++
  [blockType, storedLength, undefinedCode, backReference, prematureEnd] ++
  [unknownOpcode, fixedBit, noSession] ++
  [widthRange, symbolCount, valueTooWide, slotRange, literalTooWide, noSymbol, slotInvalid, noBitSeq] ++
  [bitIndex, litWidth, blockMode, bitCount, overlap, matchPosition] ++
  [addressRange, outputFull, bitSeqFull, historyFull, codeWidth, overSubscribed, treeDepth, dictionaryFull]

end Err

/-- "When the engine starts a command it clears NEED_MORE, ERR and ERR_CODE (OVERRUN is kept)" (10 R36). -/
def Status.atStart (st : Status) : Status := { st with needMore := false, err := false, errCode := 0 }

/-- The error bits of STATUS: ERR, ERR_CODE, and NEED_MORE = 0 (60 R382). -/
def Status.withError (st : Status) (e : Err) : Status := { st with needMore := false, err := true, errCode := e.code }

/-- DONE: "1 iff S_CTRL.SSTATE = DONE after the last command" (10 R36). -/
def Session.isDone (ses : Session) : Bool := ses.sstate == .done

/-- NEED_MORE of a FEED without error: "the session still ACTIVE" (10 R36, 45 R349). -/
def Session.isActive (ses : Session) : Bool := ses.sstate == .active

/-- A field of a register word: `v` at bit `lo` (00 R8). -/
def fieldAt (v lo : Nat) : Word := word (v <<< lo)

/-- The MODE field (10 R39). -/
def Mode.toNat : Mode → Nat
  | .none => 0
  | .lzwDec => 1
  | .lzwEnc => 2
  | .dflDec => 3
  | .dflEnc => 4

/-- The SSTATE field (10 R39). -/
def SState.toNat : SState → Nat
  | .idle => 0
  | .active => 1
  | .done => 2
  | .error => 3

/-- STATUS as the host reads it (10 R36). -/
def State.statusWord (s : State) : Word :=
  fieldAt s.busy.toNat 0 ||| fieldAt s.status.overrun.toNat 1 ||| fieldAt s.status.needMore.toNat 2 |||
  fieldAt s.status.done.toNat 3 ||| fieldAt s.status.err.toNat 4 ||| fieldAt s.status.errCode.toNat 8

/-- BS_CTRL as the host reads it (10 R38). -/
def BitSeq.ctrlWord (b : BitSeq) : Word := fieldAt b.ord.flag 0 ||| fieldAt b.valid.toNat 1

/-- S_CTRL as the host reads it (10 R39). -/
def Session.ctrlWord (ses : Session) : Word :=
  fieldAt ses.mode.toNat 0 ||| fieldAt ses.ord.flag 4 ||| fieldAt ses.lit.toNat 8 ||| fieldAt ses.bmode.toNat 12 |||
  fieldAt ses.sstate.toNat 16 ||| fieldAt ses.serr.toNat 24

/-- HUF_VALID as the host reads it: "bit k (k < HUF_SLOTS) equals st.huf[k].valid" (10 R44). -/
def State.hufValidWord (s : State) : Word :=
  fieldAt s.huf[0].valid.toNat 0 ||| fieldAt s.huf[1].valid.toNat 1 ||| fieldAt s.huf[2].valid.toNat 2 ||| fieldAt s.huf[3].valid.toNat 3

/-- A host read of the register at a 4-aligned offset (10 R32); reserved offsets read 0. -/
def State.readReg (s : State) (offset : Nat) : Word :=
  match offset with
  | 0x00 => s.cmd
  | 0x04 => s.arg.a0
  | 0x08 => s.arg.a1
  | 0x0C => s.arg.a2
  | 0x10 => s.arg.a3
  | 0x14 => s.res0
  | 0x18 => s.res1
  | 0x1C => s.res2
  | 0x20 => s.statusWord
  | 0x24 => s.errDetail.zeroExtend 32
  | 0x28 => s.bs.base
  | 0x2C => s.bs.cap
  | 0x30 => s.bs.bits
  | 0x34 => s.bs.ctrlWord
  | 0x38 => s.ses.ctrlWord
  | 0x3C => s.ses.outBase
  | 0x40 => s.ses.outCap
  | 0x44 => s.ses.outLen
  | 0x48 => s.ses.outBits
  | 0x4C => s.ses.bitpos.zeroExtend 32
  | 0x50 => s.ses.histBase
  | 0x54 => s.ses.histCap
  | 0x58 => s.ses.histLen
  | 0x5C => s.ses.totalIn
  | 0x60 => s.hufValidWord
  | _ => 0

end Sys2Proof.Machine
end

