-- ==== Sys2Proof/Machine/Ops.lean ====
section
/-! DEFINITION. The shared operations: buffer memory (20), bit streams and fields (00 R10, R11), the race rule (20 R95), running a command from its start to its end, and raising an error (60 R382), which is the block's whole exception mechanism: there is no vector, no saved state and no return (60 R389, R390). -/

namespace Sys2Proof.Machine

/-! ### Buffer memory -/

/-- MEM_SIZE, 1 to 2^32 (00 R6). -/
def memSize (p : Params) : Nat := p.memTop.toNat + 1

/-- The byte written at address `a` since power-on, if any. -/
def Memory.find : Memory → Nat → Option Byte
  | [], _ => none
  | (b, v) :: rest, a => if a = b then some v else Memory.find rest a

/-- The memory after `v` is written at `a`; the other bytes keep their values. -/
def Memory.put : Memory → Nat → Byte → Memory
  | [], a, v => [(a, v)]
  | (b, w) :: rest, a, v =>
    if a < b then (a, v) :: (b, w) :: rest
    else if a = b then (a, v) :: rest
    else (b, w) :: Memory.put rest a v

/-- The canonical form: addresses strictly rising (log 4). -/
abbrev Memory.wf (m : Memory) : Prop := (m.map Prod.fst).Pairwise (· < ·)

/-- What an unlisted address reads as: the power-on draw (20 R82; log 3). -/
def unlistedByte (epoch a : Nat) : Byte := Config.powerOnByte epoch a

/-- The byte memory holds at `a`, host writes of a running command aside (20 R82). -/
def State.memByte (s : State) (a : Nat) : Byte := (Memory.find s.mem a).getD (unlistedByte s.powerEpoch a)

/-! ### Races (20 R95, 93 U4, U7; log 7) -/

/-- What the host wrote to `a` while the accepted command waits, if anything. -/
def State.racedAt (s : State) (a : Nat) : Option RacedByte := s.raced.find? (fun r => r.addr == a)

/-- The byte as the host left it: its last write while BUSY = 1, else memory. -/
def State.hostByte (s : State) (a : Nat) : Byte :=
  match s.racedAt a with
  | none => s.memByte a
  | some r => r.last

/-- The engine's read number `site` of the byte at `a`: `MemRead(a, 1)` (00 R9), and for a raced byte a free choice
among its value without the host's writes and each value the host wrote (20 R95; log 7, log 8). -/
def State.engByte (s : State) (site : List Nat) (a : Nat) : Byte :=
  match s.racedAt a with
  | none => s.memByte a
  | some r =>
    let candidates := s.memByte a :: r.last :: r.earlier
    candidates.getD (Config.racePick s.drawNo site a % candidates.length) (s.memByte a)

/-- The raced bytes after the engine writes the byte at `a`. -/
def markWritten (raced : List RacedByte) (a : Nat) : List RacedByte :=
  raced.map fun r => if r.addr = a then { r with engineWrote := true } else r

/-- The raced bytes before a command has written any. -/
def clearWritten (raced : List RacedByte) : List RacedByte := raced.map fun r => { r with engineWrote := false }

/-- The engine's `MemWrite(a, 1, v)` (00 R9). -/
def State.engWrite (s : State) (a : Nat) (v : Byte) : State :=
  { s with mem := Memory.put s.mem a v, raced := markWritten s.raced a }

/-- Memory after one raced byte is settled: the host's last write, unless the command wrote the byte too and its value
is the one that stays (20 R95). -/
def settleByte (draw : Nat) (r : RacedByte) (m : Memory) : Memory :=
  if r.engineWrote && !Config.raceKeepsHost draw r.addr then m else Memory.put m r.addr r.last

/-- The end of the interval in which host writes race: every raced byte gets its final value. -/
def State.settle (s : State) : State :=
  { s with mem := s.raced.foldr (settleByte s.drawNo) s.mem, raced := [] }

/-- A host write to `a` while BUSY = 1, added to the raced bytes. -/
def addRaced (raced : List RacedByte) (a : Nat) (v : Byte) : List RacedByte :=
  match raced with
  | [] => [⟨a, v, [], false⟩]
  | r :: rest => if r.addr = a then { r with last := v, earlier := r.last :: r.earlier } :: rest else r :: addRaced rest a v

/-! ### Bit streams and fields -/

/-- `ceil8(c) = 8 * ceil(c / 8)` (00 R9). -/
def ceil8 (c : Nat) : Nat := 8 * ((c + 7) / 8)

/-- `ceil(c / 8)`: the bytes that hold c bits. -/
def bytesOfBits (c : Nat) : Nat := (c + 7) / 8

/-- Where stream bit `i` stands in its byte (00 R10, 20 R84). -/
def bitPos (ord : BitOrder) (i : Nat) : Nat :=
  match ord with
  | .lsb => i % 8
  | .msb => 7 - i % 8

/-- "old with bit pos set to b" (40 R142). -/
def withBit (old : Byte) (pos : Nat) (b : Bool) : Byte :=
  if b then old ||| (1#8 <<< pos) else old &&& ~~~(1#8 <<< pos)

/-- `BitAt(ORD, base, i)` read by the engine (00 R10); `site` numbers the read. -/
def State.bitAt (s : State) (site : List Nat) (ord : BitOrder) (base i : Nat) : Bool :=
  (s.engByte site (base + i / 8)).getLsbD (bitPos ord i)

/-- The `w` bits of `v` in stream order: v[0] first under LSB-first, v[w-1] first under MSB-first (40 R142). -/
def fieldBits (ord : BitOrder) (v w : Nat) : List Bool :=
  match ord with
  | .lsb => (List.range w).map fun k => v.testBit k
  | .msb => (List.range w).map fun k => v.testBit (w - 1 - k)

/-- The value of a field whose bits in stream order are `bits` (00 R11). -/
def fieldValue (ord : BitOrder) (bits : List Bool) : Nat :=
  match ord with
  | .lsb => bits.foldr (fun b acc => b.toNat + 2 * acc) 0
  | .msb => bits.foldl (fun acc b => 2 * acc + b.toNat) 0

/-- `rev_w(v)`: "the w-bit value whose bit i is v[w-1-i]" (00 R9). -/
def revBits (w v : Nat) : Nat := fieldValue .msb (fieldBits .lsb v w)

/-- Write stream bit `i` of the stream at `base`: a fresh byte starts as 0, else the byte is read, changed and written
back (40 R142). -/
def State.putBit (s : State) (ord : BitOrder) (base i : Nat) (b : Bool) : State :=
  let a := base + i / 8
  let old := if i % 8 = 0 then 0#8 else s.engByte [i] a
  s.engWrite a (withBit old (bitPos ord i) b)

/-- Write `bits` at stream positions i, i+1, ... (40 R142). -/
def State.putBits (s : State) (ord : BitOrder) (base i : Nat) : List Bool → State
  | [] => s
  | b :: rest => (s.putBit ord base i b).putBits ord base (i + 1) rest

/-- "the number of bytes at ... address holds bits 7:0": the little-endian value of bytes in address order (20 R83). -/
def littleEndian (bytes : List Byte) : Nat := bytes.foldr (fun b acc => b.toNat + 256 * acc) 0

/-- `MemRead(a, n)` for the engine (00 R9); read number `site ++ [k]` is the byte at a + k. -/
def State.memRead (s : State) (site : List Nat) (a n : Nat) : Nat :=
  littleEndian ((List.range n).map fun k => s.engByte (site ++ [k]) (a + k))

/-! ### Running a command -/

/-- How far a command's effects went: to their end, or to an error, with every effect before it kept (60 R382). -/
inductive Run where
  | ok (s : State)
  | fail (s : State) (e : Err)
  deriving DecidableEq, Repr

/-- Go on with `f` unless an error was raised. -/
def Run.andThen (r : Run) (f : State → Run) : Run :=
  match r with
  | .ok s => f s
  | .fail s e => .fail s e

/-- Run `f` on each element in order, stopping at the first error. -/
def Run.each {α : Type} (f : α → State → Run) : List α → State → Run
  | [], s => .ok s
  | x :: rest, s => (f x s).andThen (Run.each f rest)

/-- The state the effects left. -/
def Run.state : Run → State
  | .ok s => s
  | .fail s _ => s

/-- What the engine does when it starts a command: RES0 to RES2 cleared (10 R35), NEED_MORE, ERR and ERR_CODE cleared
(10 R36), ERR_DETAIL cleared (10 R37). The command has written no raced byte yet (log 7). -/
def startCommand (s : State) : State :=
  { s with
    res0 := 0, res1 := 0, res2 := 0, status := s.status.atStart, errDetail := 0
    raced := clearWritten s.raced }

/-- The end of every command: DONE follows the session (10 R36), st.busy and STATUS.BUSY go to 0 (10 R45), raced bytes
take their final values (20 R95). -/
def finishCommand (s : State) : State :=
  { s.settle with busy := false, status := { s.status with done := s.ses.isDone }, drawNo := s.drawNo + 1 }

/-- `raise Error(E, D)` (60 R382): TAKING THE BLOCK'S EXCEPTION. ERR, ERR_CODE and ERR_DETAIL are written, NEED_MORE
cleared, DONE set from SSTATE, and the command ends. The error lasts until the next accepted command starts
(60 R390, `startCommand`), which is all the return there is. -/
def raiseError (e : Err) (s : State) : State :=
  finishCommand { s with status := s.status.withError e, errDetail := e.detail }

/-- The state in which a run of effects leaves the block: ended, or ended in error. -/
def Run.finish : Run → State
  | .ok s => finishCommand s
  | .fail s e => raiseError e s

/-- One command as one atomic transition (20 R94): start, effects, end. -/
def runCommand (effects : State → Run) (s : State) : Host.Outcome State Fault Refusal :=
  .next (effects (startCommand s)).finish

/-! ### Acceptance and reset -/

/-- "A host write of word w to CMD while STATUS.BUSY = 0 is accepted" (10 R33). -/
def acceptCommand (w : Word) (s : State) : State := { s with cmd := w, lcmd := w, larg := s.arg, busy := true }

/-- A CMD write while BUSY = 1: ignored, and OVERRUN is set (10 R33, 70 R431). -/
def overrunCommand (s : State) : State := { s with status := { s.status with overrun := true } }

/-- A host write of a register at a 4-aligned offset (10 R32): CMD and ARG0 to ARG3 take the value, every other offset
ignores it. -/
def State.writeReg (s : State) (offset : Nat) (v : Word) : State :=
  match offset with
  | 0x00 => if s.busy then overrunCommand s else acceptCommand v s
  | 0x04 => { s with arg := { s.arg with a0 := v } }
  | 0x08 => { s with arg := { s.arg with a1 := v } }
  | 0x0C => { s with arg := { s.arg with a2 := v } }
  | 0x10 => { s with arg := { s.arg with a3 := v } }
  | _ => s

/-- Reset of every register and of the internal state (70 R420), buffer memory and the model's own fields kept. The
fields of SOFT_RESET and of the reset input alike (70 R422). -/
def resetRegisters (s : State) : State :=
  { State.resetWith s.par with
    mem := s.mem, raced := s.raced, powerEpoch := s.powerEpoch, drawNo := s.drawNo, agenda := s.agenda,
    hostData := s.hostData }

/-- The reset input (70 R420, R422): a command accepted and not yet run is discarded, and buffer memory is unchanged,
the host's writes since its acceptance included (log 16). -/
def resetInput (s : State) : State :=
  { resetRegisters ({ s with raced := clearWritten s.raced } : State).settle with drawNo := s.drawNo + 1 }

/-- Power-on (70 R420): the same reset, and every byte of buffer memory is drawn anew (log 19). -/
def powerOnReset (s : State) : State :=
  { resetRegisters s with mem := [], raced := [], powerEpoch := s.powerEpoch + 1, drawNo := s.drawNo + 1 }

end Sys2Proof.Machine
end

