-- ==== Sys2Proof/Machine/Operands.lean ====
section
/-! DEFINITION. The operands of the commands: the latched ARG0 to ARG3 (30 R111), regions (20 R81, R90; 44 R290), slots (41 R160) and fields. -/

namespace Sys2Proof.Machine

/-- The latched ARG0, "a 32-bit unsigned value used as is" (30 R111). -/
def State.arg0 (s : State) : Nat := s.larg.a0.toNat
/-- The latched ARG1 (30 R111). -/
def State.arg1 (s : State) : Nat := s.larg.a1.toNat
/-- The latched ARG2 (30 R111). -/
def State.arg2 (s : State) : Nat := s.larg.a2.toNat
/-- The latched ARG3 (30 R111). -/
def State.arg3 (s : State) : Nat := s.larg.a3.toNat

/-- `InRange(addr, len)`: "true iff addr + len <= MEM_SIZE (exact arithmetic)" (00 R9, 20 R90). -/
def State.inRange (s : State) (addr len : Nat) : Bool := Nat.ble (addr + len) (memSize s.par)

/-- "Two regions share a byte iff both lengths are non-zero and each starts before the other ends" (44 R290). -/
def shareByte (a alen b blen : Nat) : Bool :=
  alen ≠ 0 && blen ≠ 0 && decide (a < b + blen) && decide (b < a + alen)

/-- "if A >= HUF_SLOTS: raise Error(INVALID_OPERAND, 0x0904)" (41, opening), else go on with the slot. -/
def withSlot (slot : Nat) (s : State) (f : Fin 4 → Run) : Run :=
  if h : slot < 4 then f ⟨slot, h⟩ else .fail s Err.slotRange

/-- Slot k's table, or error 0x0907 when the slot holds none (41 R167, R170, R171, R173). -/
def withTable (k : Fin 4) (s : State) (f : HufTable → Run) : Run :=
  if s.huf[k].valid then f s.huf[k].table else .fail s Err.slotInvalid

/-- Write slot k (41 R163, R165). -/
def State.setSlot (s : State) (k : Fin 4) (slot : HufSlot) : State := { s with huf := s.huf.set k slot }

/-- A command's results RES0 to RES2 (10 R35). -/
def State.setResults (s : State) (r0 r1 r2 : Nat) : State := { s with res0 := word r0, res1 := word r1, res2 := word r2 }

end Sys2Proof.Machine
end

