-- ==== Sys2Proof/Machine/BitSeq.lean ====
section
/-! DEFINITION. The bit-sequence accumulator: BS_INIT, BS_APPEND, BS_READ_BIT (40). -/

namespace Sys2Proof.Machine

/-- Appending `w` bits does not fit: "ceil((x[BS_BITS] + w) / 8) > x[BS_CAP] or x[BS_BITS] + w > 2^32 - 1" (40 R144). -/
def BitSeq.full (b : BitSeq) (w : Nat) : Bool :=
  decide (bytesOfBits (b.bits.toNat + w) > b.cap.toNat) || decide (b.bits.toNat + w > 2 ^ 32 - 1)

/-- `BSAppendField(v, w)` (40 R142). -/
def bsAppendField (v w : Nat) (s : State) : State :=
  { s.putBits s.bs.ord s.bs.base.toNat s.bs.bits.toNat (fieldBits s.bs.ord v w) with
    bs := { s.bs with bits := word (s.bs.bits.toNat + w) } }

/-- BS_INIT's effects (40 R143). -/
def bsInitEffects (ord : BitOrder) (s : State) : Run :=
  if !s.inRange s.arg0 s.arg1 then .fail s Err.addressRange
  else .ok { s with bs := { base := s.larg.a0, cap := s.larg.a1, bits := 0, ord := ord, valid := true } }

/-- BS_APPEND's effects (40 R144). -/
def bsAppendEffects (w : Nat) (s : State) : Run :=
  if w < 1 ∨ 32 < w then .fail s Err.widthRange
  else if !s.bs.valid then .fail s Err.noBitSeq
  else if w < 32 ∧ 2 ^ w ≤ s.arg0 then .fail s Err.valueTooWide
  else if s.bs.full w then .fail s Err.bitSeqFull
  else .ok (bsAppendField s.arg0 w s)

/-- BS_READ_BIT's effects (40 R145). -/
def bsReadBitEffects (s : State) : Run :=
  if !s.bs.valid then .fail s Err.noBitSeq
  else if s.bs.bits.toNat ≤ s.arg0 then .fail s Err.bitIndex
  else .ok (s.setResults (s.bitAt [s.arg0] s.bs.ord s.bs.base.toNat s.arg0).toNat 0 0)

/-- BS_INIT (40 R143). -/
def execBsInit (ord : BitOrder) (s : State) : Host.Outcome State Fault Refusal := runCommand (bsInitEffects ord) s

/-- BS_APPEND (40 R144). -/
def execBsAppend (w : Nat) (s : State) : Host.Outcome State Fault Refusal := runCommand (bsAppendEffects w) s

/-- BS_READ_BIT (40 R145). -/
def execBsReadBit (s : State) : Host.Outcome State Fault Refusal := runCommand bsReadBitEffects s

end Sys2Proof.Machine
end

