-- ==== Sys2Proof/Machine/Huffman.lean ====
section
/-! DEFINITION. The Huffman coder (41): canonical and weighted construction, symbol lookup, and the six HUF_ commands. -/

namespace Sys2Proof.Machine

/-- The number of symbols n (10 R46). -/
def HufTable.n (t : HufTable) : Nat := t.entries.length

/-- Symbol `s`'s width and code (10 R46). -/
def HufTable.entry (t : HufTable) (s : Nat) : HufCode := t.entries.getD s ⟨0, 0⟩

/-- The largest of a list of widths; "0 when every width is 0" (10 R46). -/
def maxWidth (ws : List Nat) : Nat := ws.foldl max 0

/-! ### Canonical construction (41 R162) -/

/-- K: "sum over s with W[s] > 0 of 2^(HUF_MAX_WIDTH - W[s])" (41 R162). -/
def kraftSum (ws : List Nat) : Nat :=
  ((ws.filter (0 < ·)).map fun w => 2 ^ (Config.hufMaxWidth - w)).sum

/-- "the s with W[s] > 0, sorted ascending by (W[s], s)", as pairs (W[s], s) (41 R162). -/
def canonOrder (ws : List Nat) : List (Nat × Nat) :=
  (List.range Config.hufMaxWidth).flatMap fun j => ws.zipIdx.filter fun p => p.1 == j + 1

/-- Codes along the order: 0 for the first symbol, then "(c + 1) << (W[s] - pw)"; `prev` is the last code and width
(41 R162). -/
def canonAssign (prev : Option (Nat × Nat)) : List (Nat × Nat) → List (Nat × HufCode)
  | [] => []
  | (w, s) :: rest =>
    let c := match prev with
      | none => 0
      | some (c, pw) => (c + 1) <<< (w - pw)
    (s, ⟨w, c⟩) :: canonAssign (some (c, w)) rest

/-- One entry per symbol 0 .. n-1; a symbol that got no code has width 0 and code 0 (41 R162, R164). -/
def tableOf (n : Nat) (coded : List (Nat × HufCode)) : HufTable :=
  let entries := (List.range n).map fun s => (coded.lookup s).getD ⟨0, 0⟩
  ⟨entries, maxWidth (entries.map HufCode.width)⟩

/-- `Canon(W)` (41 R162). -/
def canon (ws : List Nat) : Except Err HufTable :=
  if ws.any (Config.hufMaxWidth < ·) then .error Err.codeWidth
  else if 2 ^ Config.hufMaxWidth < kraftSum ws then .error Err.overSubscribed
  else .ok (tableOf ws.length (canonAssign none (canonOrder ws)))

/-! ### Weighted construction (41 R164) -/

/-- A node of the queue Q: its weight, its sequence number, and the leaves under it with their paths from it. -/
structure HufNode where
  weight : Nat
  seq : Nat
  leaves : List (Nat × HufCode)
  deriving DecidableEq, Repr

/-- The order of the queue: least (weight, seq) first (41 R164). -/
def HufNode.before (a b : HufNode) : Bool :=
  decide (a.weight < b.weight) || (a.weight == b.weight && decide (a.seq < b.seq))

/-- The node of `x :: rest` with the least (weight, seq), and the other nodes. -/
def popLeast (x : HufNode) : List HufNode → HufNode × List HufNode
  | [] => (x, [])
  | y :: rest =>
    if y.before x then let r := popLeast y rest; (r.1, x :: r.2)
    else let r := popLeast x rest; (r.1, y :: r.2)

/-- The path bits of a child's leaves seen from its parent: the child's bit `b` comes before them, "first (root) bit
most significant" (41 R164). -/
def underParent (b : Nat) (leaves : List (Nat × HufCode)) : List (Nat × HufCode) :=
  leaves.map fun p => (p.1, ⟨p.2.width + 1, p.2.code + b * 2 ^ p.2.width⟩)

/-- The parent of a (child 0) and b (child 1) (41 R164). -/
def mergeNodes (a b : HufNode) (seq : Nat) : HufNode :=
  ⟨a.weight + b.weight, seq, underParent 0 a.leaves ++ underParent 1 b.leaves⟩

/-- "while |Q| > 1" (41 R164); each turn makes the queue one shorter, so `fuel` = |Q| is enough. -/
def mergeAll : (fuel : Nat) → (next : Nat) → List HufNode → List HufNode
  | 0, _, q => q
  | _ + 1, _, [] => []
  | _ + 1, _, [x] => [x]
  | fuel + 1, next, x :: y :: rest =>
    let a := popLeast x (y :: rest)
    match a.2 with
    | [] => [a.1]
    | z :: zs =>
      let b := popLeast z zs
      mergeAll fuel (next + 1) (mergeNodes a.1 b.1 next :: b.2)

/-- "the s with Wt[s] > 0, ascending s; leaf j of this list has seq j, weight Wt[s]" (41 R164). -/
def weightedLeaves (wts : List Nat) : List HufNode :=
  ((wts.zipIdx.filter fun p => 0 < p.1).zipIdx).map fun q => ⟨q.1.1, q.2, [(q.1.2, ⟨0, 0⟩)]⟩

/-- `Weighted(Wt)` without its depth check (41 R164; 44 R301 uses it so). -/
def weightedTree (wts : List Nat) : HufTable :=
  match weightedLeaves wts with
  | [] => tableOf wts.length []
  | [leaf] => tableOf wts.length (leaf.leaves.map fun p => (p.1, ⟨1, 0⟩))
  | a :: b :: rest =>
    let q := a :: b :: rest
    tableOf wts.length ((mergeAll q.length q.length q).flatMap HufNode.leaves)

/-- `Weighted(Wt)`: "if max width > HUF_MAX_WIDTH: fail 0x0C03" (41 R164). -/
def weighted (wts : List Nat) : Except Err HufTable :=
  let t := weightedTree wts
  if Config.hufMaxWidth < t.maxw then .error Err.treeDepth else .ok t

/-! ### Symbol lookup (41 R169) -/

/-- What `Match(T, v, n)` answers (41 R169). -/
inductive MatchResult where
  | found (symbol used : Nat)
  | needMore
  | malformed
  deriving DecidableEq, Repr

/-- "exists s with T.width[s] = k and T.code[s] = p" (41 R169). -/
def HufTable.symbolOf (t : HufTable) (k p : Nat) : Option Nat :=
  t.entries.findIdx? fun e => e.width == k && e.code == p

/-- The shortest matching prefix of the n bits in v: its symbol and length (41 R169). -/
def HufTable.prefixOf (t : HufTable) (v n : Nat) : Option (Nat × Nat) :=
  (List.range (min n t.maxw)).findSome? fun j =>
    (t.symbolOf (j + 1) (v >>> (n - (j + 1)))).map fun s => (s, j + 1)

/-- `Match(T, v, n)` (41 R169). -/
def HufTable.lookup (t : HufTable) (v n : Nat) : MatchResult :=
  match t.prefixOf v n with
  | some (s, k) => .found s k
  | none => if t.maxw < n then .malformed else .needMore

/-- The loop of HUF_DECODE_BS and of DEFLATE's DecodeSym (41 R171, 43 R245): match, and on NEED_MORE take the next bit
`next n`, none when there is none. The answer comes with the number of bits read. At most maxw + 1 bits are read, so
`fuel` = maxw + 2 is enough. -/
def symbolLoop (t : HufTable) (next : Nat → Option Bool) : (fuel v n : Nat) → MatchResult × Nat
  | 0, _, n => (.needMore, n)
  | fuel + 1, v, n =>
    match t.lookup v n with
    | .found s k => (.found s k, n)
    | .malformed => (.malformed, n)
    | .needMore =>
      match next n with
      | none => (.needMore, n)
      | some b => symbolLoop t next fuel (2 * v + b.toNat) (n + 1)

/-- One symbol from a source of bits. -/
def HufTable.readSymbol (t : HufTable) (next : Nat → Option Bool) : MatchResult × Nat :=
  symbolLoop t next (t.maxw + 2) 0 0

/-! ### Commands -/

/-- The end of a build of slot k (41 R163, R165): the table, or the slot invalid and the error. -/
def buildSlot (k : Fin 4) (built : Except Err HufTable) (s : State) : Run :=
  match built with
  | .ok t => .ok (s.setSlot k ⟨true, t⟩)
  | .error e => .fail (s.setSlot k ⟨false, s.huf[k].table⟩) e

/-- "ARG1 < 1 or ARG1 > HUF_MAX_SYMBOLS" (41 R163, R165). -/
def symbolCountBad (n : Nat) : Bool := decide (n < 1) || decide (Config.hufMaxSymbols < n)

/-- "W[s] <- MemRead(ARG0 + s, 1) for s in 0..ARG1-1" (41 R163). -/
def State.readWidths (s : State) (a n : Nat) : List Nat := (List.range n).map fun k => (s.engByte [k] (a + k)).toNat

/-- "Wt[s] <- MemRead(ARG0 + 4s, 4) for s in 0..ARG1-1" (41 R165). -/
def State.readWeights (s : State) (a n : Nat) : List Nat := (List.range n).map fun k => s.memRead [k] (a + 4 * k) 4

/-- HUF_BUILD_CANON's effects (41 R163). -/
def hufBuildCanonEffects (slot : Nat) (s : State) : Run :=
  withSlot slot s fun k =>
    if symbolCountBad s.arg1 then .fail s Err.symbolCount
    else if !s.inRange s.arg0 s.arg1 then .fail s Err.addressRange
    else buildSlot k (canon (s.readWidths s.arg0 s.arg1)) s

/-- HUF_BUILD_WEIGHTED's effects (41 R165). -/
def hufBuildWeightedEffects (slot : Nat) (s : State) : Run :=
  withSlot slot s fun k =>
    if symbolCountBad s.arg1 then .fail s Err.symbolCount
    else if !s.inRange s.arg0 (4 * s.arg1) then .fail s Err.addressRange
    else buildSlot k (weighted (s.readWeights s.arg0 s.arg1)) s

/-- HUF_GET_CODE's effects (41 R167). -/
def hufGetCodeEffects (slot : Nat) (s : State) : Run :=
  withSlot slot s fun k =>
    withTable k s fun t =>
      if t.n ≤ s.arg0 then .fail s Err.noSymbol
      else .ok (s.setResults (t.entry s.arg0).code (t.entry s.arg0).width 0)

/-- The value whose field append puts the code's most significant bit first (40 R149, 41 R173). -/
def codeField (ord : BitOrder) (c : HufCode) : Nat :=
  match ord with
  | .msb => c.code
  | .lsb => revBits c.width c.code

/-- HUF_ENCODE's effects (41 R173). -/
def hufEncodeEffects (slot : Nat) (s : State) : Run :=
  withSlot slot s fun k =>
    withTable k s fun t =>
      let c := t.entry s.arg0
      if !s.bs.valid then .fail s Err.noBitSeq
      else if t.n ≤ s.arg0 ∨ c.width = 0 then .fail s Err.noSymbol
      else if s.bs.full c.width then .fail s Err.bitSeqFull
      else .ok ((bsAppendField (codeField s.bs.ord c) c.width s).setResults c.code c.width 0)

/-- A lookup's results in RES0 to RES2, or its error (41 R170, R171). -/
def matchResults (m : MatchResult) (s : State) : Run :=
  match m with
  | .found symbol used => .ok (s.setResults 1 symbol used)
  | .needMore => .ok (s.setResults 0 0 0)
  | .malformed => .fail s Err.noCode

/-- HUF_MATCH's effects (41 R170). -/
def hufMatchEffects (slot : Nat) (s : State) : Run :=
  withSlot slot s fun k =>
    withTable k s fun t =>
      if 32 < s.arg1 then .fail s Err.bitCount
      else if s.arg1 < 32 ∧ 2 ^ s.arg1 ≤ s.arg0 then .fail s Err.valueTooWide
      else matchResults (t.lookup s.arg0 s.arg1) s

/-- Bit `i + n` of the bit sequence, none at its end (41 R171). -/
def State.bitSeqBit (s : State) (i n : Nat) : Option Bool :=
  if s.bs.bits.toNat ≤ i + n then none else some (s.bitAt [n] s.bs.ord s.bs.base.toNat (i + n))

/-- HUF_DECODE_BS's effects (41 R171). -/
def hufDecodeBsEffects (slot : Nat) (s : State) : Run :=
  withSlot slot s fun k =>
    withTable k s fun t =>
      if !s.bs.valid then .fail s Err.noBitSeq
      else if s.bs.bits.toNat < s.arg0 then .fail s Err.bitIndex
      else matchResults (t.readSymbol (s.bitSeqBit s.arg0)).1 s

/-- HUF_BUILD_CANON (41 R163). -/
def execHufBuildCanon (slot : Nat) (s : State) : Host.Outcome State Fault Refusal := runCommand (hufBuildCanonEffects slot) s

/-- HUF_BUILD_WEIGHTED (41 R165). -/
def execHufBuildWeighted (slot : Nat) (s : State) : Host.Outcome State Fault Refusal := runCommand (hufBuildWeightedEffects slot) s

/-- HUF_GET_CODE (41 R167). -/
def execHufGetCode (slot : Nat) (s : State) : Host.Outcome State Fault Refusal := runCommand (hufGetCodeEffects slot) s

/-- HUF_ENCODE (41 R173). -/
def execHufEncode (slot : Nat) (s : State) : Host.Outcome State Fault Refusal := runCommand (hufEncodeEffects slot) s

/-- HUF_MATCH (41 R170). -/
def execHufMatch (slot : Nat) (s : State) : Host.Outcome State Fault Refusal := runCommand (hufMatchEffects slot) s

/-- HUF_DECODE_BS (41 R171). -/
def execHufDecodeBs (slot : Nat) (s : State) : Host.Outcome State Fault Refusal := runCommand (hufDecodeBsEffects slot) s

end Sys2Proof.Machine
end

