-- ==== Sys2Proof/Machine/Session.lean ====
section
/-! DEFINITION. What every session shares (45): start and end, the output primitives OutByte and OutAppendField, the input primitives InBit, InField and InAlign, and the outcome of one parse unit. -/

namespace Sys2Proof.Machine

/-! ### Sessions -/

/-- `SessionStart(mode, ord, L, out = (base, cap), bmode)` (45 R341); "every mode-specific field of the previous session
is discarded" (log 12). -/
def sessionStart (mode : Mode) (ord : BitOrder) (lit : Nat) (base cap : Word) (bmode : Nat) (s : State) : State :=
  { s with
    ses := { Session.released with
      mode := mode, ord := ord, lit := BitVec.ofNat 4 lit, bmode := BitVec.ofNat 2 bmode, sstate := .active,
      outBase := base, outCap := cap }
    lz := LzwDec.unused, le := LzwEnc.unused, df := DflDec.unused }

/-- `SessionDone()`: SSTATE becomes DONE (45 R347). -/
def sessionDone (s : State) : State := { s with ses := { s.ses with sstate := .done } }

/-- The session part of `SessionError(E, D)`: SSTATE, SERR, st.serr_detail and S_BITPOS (45 R358). -/
def markSessionError (e : Err) (s : State) : State :=
  { s with ses := { s.ses with sstate := .error, serr := e.code, serrDetail := e.detail, bitpos := 0 } }

/-! ### Output -/

/-- `OutByte(b)` (45 R357). -/
def outByte (b : Byte) (s : State) : Run :=
  if s.ses.outLen = s.ses.outCap then .fail s Err.outputFull
  else .ok { s.engWrite (s.ses.outBase.toNat + s.ses.outLen.toNat) b with
    ses := { s.ses with outLen := s.ses.outLen + 1, outBits := s.ses.outBits + 8 } }

/-- A field of w bits does not fit the output region (45 R355). -/
def Session.outFull (ses : Session) (w : Nat) : Bool :=
  decide (bytesOfBits (ses.outBits.toNat + w) > ses.outCap.toNat) || decide (ses.outBits.toNat + w > 2 ^ 32 - 1)

/-- `OutAppendField(v, w)` (45 R355). -/
def outAppendField (v w : Nat) (s : State) : Run :=
  if w = 0 then .ok s
  else if s.ses.outFull w then .fail s Err.outputFull
  else .ok { s.putBits s.ses.ord s.ses.outBase.toNat s.ses.outBits.toNat (fieldBits s.ses.ord v w) with
    ses := { s.ses with
      outBits := word (s.ses.outBits.toNat + w), outLen := word (bytesOfBits (s.ses.outBits.toNat + w)) } }

/-- `OutCode(c, w) = OutAppendField(rev_w(c), w)` (44 R296). -/
def outCode (c : HufCode) (s : State) : Run := outAppendField (revBits c.width c.code) c.width s

/-! ### Input -/

/-- The input region a FEED presents: its address and its length in bytes. -/
structure Input where
  base : Nat
  len : Nat
  deriving DecidableEq, Repr

/-- The outcome of a read phase: a value and the new cursor, not enough input, or an error (45 R345). -/
inductive Read (α : Type) where
  | got (value : α) (cursor : Nat)
  | needMore
  | bad (e : Err)
  deriving DecidableEq, Repr

/-- `InBit()` at cursor `c`: none when "c >= 8n" (45 R356). -/
def inBit (s : State) (inp : Input) (c : Nat) : Option Bool :=
  if 8 * inp.len ≤ c then none else some (s.bitAt [c] s.ses.ord inp.base c)

/-- The next `w` input bits in stream order (45 R356). -/
def inBits (s : State) (inp : Input) : (w c : Nat) → Option (List Bool)
  | 0, _ => some []
  | w + 1, c =>
    match inBit s inp c with
    | none => none
    | some b => (inBits s inp w (c + 1)).map (b :: ·)

/-- `InField(w)` at cursor `c` (45 R356). -/
def inField (s : State) (inp : Input) (w c : Nat) : Read Nat :=
  match inBits s inp w c with
  | none => .needMore
  | some bits => .got (fieldValue s.ses.ord bits) (c + w)

/-- `DecodeSym(T)` at cursor `c` (43 R245). -/
def decodeSym (s : State) (inp : Input) (t : HufTable) (c : Nat) : Read Nat :=
  let r := t.readSymbol fun n => inBit s inp (c + n)
  match r.1 with
  | .found symbol _ => .got symbol (c + r.2)
  | .needMore => .needMore
  | .malformed => .bad Err.noCode

/-! ### Parse units -/

/-- The outcome of one parse unit (45 R345, R346): it lacked input and had no effect, it raised an error, or it
completed with the cursor past its bits. -/
inductive UnitResult where
  | needMore
  | raised (s : State) (e : Err)
  | completed (s : State) (cursor : Nat)
  deriving DecidableEq, Repr

/-- Go on with a unit after a read of its read phase, which has no effect on the state (45 R345). -/
def Read.then {α : Type} (r : Read α) (s : State) (f : α → Nat → UnitResult) : UnitResult :=
  match r with
  | .got a c => f a c
  | .needMore => .needMore
  | .bad e => .raised s e

/-- The end of a unit whose effect phase ran, its read phase having ended at cursor `c` (45 R345). -/
def Run.endUnit (r : Run) (c : Nat) : UnitResult :=
  match r with
  | .ok s => .completed s c
  | .fail s e => .raised s e

end Sys2Proof.Machine
end

