-- ==== Sys2Proof/Machine/DeflateDecode.lean ====
section
/-! DEFINITION. The DEFLATE block parser (43): DFL_DEC_START, the tables, and the parse units. -/

namespace Sys2Proof.Machine

/-! ### Tables -/

/-- Length symbols 257 to 285: (base, extra bits) (43 R241). -/
def lengthTable : List (Nat × Nat) :=
  [(3, 0), (4, 0), (5, 0), (6, 0), (7, 0), (8, 0), (9, 0), (10, 0)] ++
  [(11, 1), (13, 1), (15, 1), (17, 1), (19, 2), (23, 2), (27, 2), (31, 2)] ++
  [(35, 3), (43, 3), (51, 3), (59, 3), (67, 4), (83, 4), (99, 4), (115, 4)] ++
  [(131, 5), (163, 5), (195, 5), (227, 5), (258, 0)]

/-- Distance symbols 0 to 29: (base, extra bits) (43 R242). -/
def distanceTable : List (Nat × Nat) :=
  [(1, 0), (2, 0), (3, 0), (4, 0), (5, 1), (7, 1), (9, 2), (13, 2)] ++
  [(17, 3), (25, 3), (33, 4), (49, 4), (65, 5), (97, 5), (129, 6), (193, 6)] ++
  [(257, 7), (385, 7), (513, 8), (769, 8), (1025, 9), (1537, 9), (2049, 10), (3073, 10)] ++
  [(4097, 11), (6145, 11), (8193, 12), (12289, 12), (16385, 13), (24577, 13)]

/-- LEN_BASE[s] (43 R241). -/
def lenBase (s : Nat) : Nat := (lengthTable.getD (s - 257) (0, 0)).1
/-- LEN_EXTRA[s] (43 R241). -/
def lenExtra (s : Nat) : Nat := (lengthTable.getD (s - 257) (0, 0)).2
/-- DIST_BASE[d] (43 R242). -/
def distBase (d : Nat) : Nat := (distanceTable.getD d (0, 0)).1
/-- DIST_EXTRA[d] (43 R242). -/
def distExtra (d : Nat) : Nat := (distanceTable.getD d (0, 0)).2

/-- CL_ORDER (43 R243). -/
def clOrder : List Nat := [16, 17, 18, 0, 8, 7, 9, 6, 10, 5, 11, 4, 12, 3, 13, 2, 14, 1, 15]

/-- The widths of the fixed literal/length code (43 R244). -/
def fixedLitWidths : List Nat :=
  List.replicate 144 8 ++ List.replicate 112 9 ++ List.replicate 24 7 ++ List.replicate 8 8

/-- The table of a construction that does not fail. -/
def builtOr (b : Except Err HufTable) : HufTable :=
  match b with
  | .ok t => t
  | .error _ => HufTable.empty

/-- FIXED_LIT (43 R244). -/
def fixedLit : HufTable := builtOr (canon fixedLitWidths)

/-- FIXED_DIST = Canon([5] * 30) (43 R244). -/
def fixedDist : HufTable := builtOr (canon (List.replicate 30 5))

/-! ### Parse units -/

/-- Change the DEFLATE decoder's state. -/
def State.setDf (s : State) (df : DflDec) : State := { s with df := df }

/-- `EndBlock()` (43 R249). -/
def endBlock (s : State) : State := if s.df.final then sessionDone s else s.setDf { s.df with p := .header }

/-- HEADER (43 R246). -/
def headerUnit (s : State) (inp : Input) (c : Nat) : UnitResult :=
  (inField s inp 1 c).then s fun f c1 =>
  (inField s inp 2 c1).then s fun t c2 =>
    let df := { s.df with final := f == 1 }
    if t = 3 then .raised s Err.blockType
    else if t = 0 then .completed (s.setDf { df with p := .storedLen }) c2
    else if t = 1 then .completed (s.setDf { df with p := .body, lit := fixedLit, dist := fixedDist }) c2
    else .completed (s.setDf { df with p := .dynCounts }) c2

/-- STORED_LEN (43 R247); InAlign is ceil8 of the cursor (45 R356). -/
def storedLenUnit (s : State) (inp : Input) (c : Nat) : UnitResult :=
  (inField s inp 16 (ceil8 c)).then s fun len c1 =>
  (inField s inp 16 c1).then s fun nlen c2 =>
    if nlen ≠ len ^^^ 0xFFFF then .raised s Err.storedLength
    else
      let s' := s.setDf { s.df with remaining := len }
      .completed (if len = 0 then endBlock s' else s'.setDf { s'.df with p := .storedData }) c2

/-- STORED_DATA (43 R248). -/
def storedDataUnit (s : State) (inp : Input) (c : Nat) : UnitResult :=
  (inField s inp 8 c).then s fun b c1 =>
    ((outByte (BitVec.ofNat 8 b) s).andThen fun s1 =>
      let s2 := s1.setDf { s1.df with remaining := s1.df.remaining - 1 }
      .ok (if s2.df.remaining = 0 then endBlock s2 else s2)).endUnit c1

/-- DYN_COUNTS (43 R250). -/
def dynCountsUnit (s : State) (inp : Input) (c : Nat) : UnitResult :=
  (inField s inp 5 c).then s fun hlit c1 =>
  (inField s inp 5 c1).then s fun hdist c2 =>
  (inField s inp 4 c2).then s fun hclen c3 =>
    if 29 < hlit then .raised s Err.hlitRange
    else .completed (s.setDf { s.df with
      nlit := hlit + 257, ndist := hdist + 1, ncl := hclen + 4, clw := List.replicate 19 0, cli := 0, p := .dynClLen }) c3

/-- DYN_CLLEN (43 R251). -/
def dynClLenUnit (s : State) (inp : Input) (c : Nat) : UnitResult :=
  (inField s inp 3 c).then s fun w c1 =>
    let s1 := s.setDf { s.df with clw := s.df.clw.set (clOrder.getD s.df.cli 0) w, cli := s.df.cli + 1 }
    if s1.df.cli = s1.df.ncl then
      match canon s1.df.clw with
      | .error _ => .raised s1 Err.clTable
      | .ok t => .completed (s1.setDf { s1.df with cltab := t, lens := [], p := .dynLens }) c1
    else .completed s1 c1

/-- The widths a code-length symbol adds, with the cursor after its extra bits (43 R252). -/
def dynLensAdd (s : State) (inp : Input) (sym c : Nat) : Read (List Nat) :=
  if sym < 16 then .got [sym] c
  else if sym = 16 then
    match inField s inp 2 c with
    | .got r c1 =>
      match s.df.lens.getLast? with
      | none => .bad Err.noPreviousWidth
      | some w => .got (List.replicate (3 + r) w) c1
    | .needMore => .needMore
    | .bad e => .bad e
  else if sym = 17 then
    match inField s inp 3 c with
    | .got r c1 => .got (List.replicate (3 + r) 0) c1
    | .needMore => .needMore
    | .bad e => .bad e
  else
    match inField s inp 7 c with
    | .got r c1 => .got (List.replicate (11 + r) 0) c1
    | .needMore => .needMore
    | .bad e => .bad e

/-- The effect phase of DYN_LENS: the widths appended, and the tables built once all are there (43 R252). -/
def dynLensEffects (add : List Nat) (s : State) : Run :=
  let total := s.df.nlit + s.df.ndist
  if total < s.df.lens.length + add.length then .fail s Err.repeatPastEnd
  else
    let s1 := s.setDf { s.df with lens := s.df.lens ++ add }
    if s1.df.lens.length = total then
      match canon (s1.df.lens.take s1.df.nlit), canon (s1.df.lens.drop s1.df.nlit) with
      | .ok lit, .ok dist => .ok (s1.setDf { s1.df with lit := lit, dist := dist, p := .body })
      | .error _, _ => .fail s1 Err.dynTable
      | .ok _, .error _ => .fail s1 Err.dynTable
    else .ok s1

/-- DYN_LENS (43 R252). -/
def dynLensUnit (s : State) (inp : Input) (c : Nat) : UnitResult :=
  (decodeSym s inp s.df.cltab c).then s fun sym c1 =>
  (dynLensAdd s inp sym c1).then s fun add c2 =>
    (dynLensEffects add s).endUnit c2

/-- `Copy(len, dist)`: one byte at a time from the output as it is in memory; the output length numbers the read
(43 R256). -/
def copyBack (dist : Nat) : (len : Nat) → State → Run
  | 0, s => .ok s
  | len + 1, s =>
    let out := s.ses.outLen.toNat
    (outByte (s.engByte [out] (s.ses.outBase.toNat + out - dist)) s).andThen fun s1 => copyBack dist len s1

/-- BODY (43 R253). -/
def bodyUnit (s : State) (inp : Input) (c : Nat) : UnitResult :=
  (decodeSym s inp s.df.lit c).then s fun sym c1 =>
    if sym ≤ 255 then (outByte (BitVec.ofNat 8 sym) s).endUnit c1
    else if sym = 256 then .completed (endBlock s) c1
    else if 286 ≤ sym then .raised s Err.litSymbol
    else
      (inField s inp (lenExtra sym) c1).then s fun e c2 =>
      (decodeSym s inp s.df.dist c2).then s fun d c3 =>
        if 30 ≤ d then .raised s Err.distSymbol
        else
          (inField s inp (distExtra d) c3).then s fun f c4 =>
            let dist := distBase d + f
            if s.ses.outLen.toNat < dist then .raised s Err.backReference
            else (copyBack dist (lenBase sym + e) s).endUnit c4

/-- "A DEFLATE decoder parse unit is chosen by st.df.p" (43 R246). -/
def dflDecUnit (s : State) (inp : Input) (c : Nat) : UnitResult :=
  match s.df.p with
  | .header => headerUnit s inp c
  | .storedLen => storedLenUnit s inp c
  | .storedData => storedDataUnit s inp c
  | .dynCounts => dynCountsUnit s inp c
  | .dynClLen => dynClLenUnit s inp c
  | .dynLens => dynLensUnit s inp c
  | .body => bodyUnit s inp c

/-- DFL_DEC_START's effects (43 R240). -/
def dflDecStartEffects (s : State) : Run :=
  if !s.inRange s.arg0 s.arg1 then .fail s Err.addressRange
  else
    let s' := sessionStart .dflDec .lsb 0 s.larg.a0 s.larg.a1 0 s
    .ok (s'.setDf { s'.df with p := .header, final := false })

/-- DFL_DEC_START (43 R240). -/
def execDflDecStart (s : State) : Host.Outcome State Fault Refusal := runCommand dflDecStartEffects s

end Sys2Proof.Machine
end

