-- ==== Sys2Proof/Machine/DeflateEncode.lean ====
section
/-! DEFINITION. The LZ77 matcher and the DEFLATE framer (44): LZ77_MATCH, DFL_ENC_START, the encoder's byte step and its finish in the three block modes. -/

namespace Sys2Proof.Machine

/-! ### LZ77 matcher (44 R292) -/

/-- The match at distance `d`, `l` bytes long so far and at most `l + fuel` (44 R292, inner loop). -/
def matchLength (s : State) (base p d : Nat) : (fuel l : Nat) → Nat
  | 0, l => l
  | fuel + 1, l =>
    if s.engByte [p, d, l, 0] (base + p - d + l) = s.engByte [p, d, l, 1] (base + p + l)
    then matchLength s base p d fuel (l + 1)
    else l

/-- The search from distance `d` on, `fuel` distances left, with the best length and distance so far (44 R292, outer
loop). -/
def matchSearch (s : State) (base p maxlen : Nat) : (fuel d bl bd : Nat) → Nat × Nat
  | 0, _, bl, bd => (bl, bd)
  | fuel + 1, d, bl, bd =>
    let l := matchLength s base p d maxlen 0
    if bl < l then
      if l = maxlen then (l, d) else matchSearch s base p maxlen fuel (d + 1) l d
    else matchSearch s base p maxlen fuel (d + 1) bl bd

/-- `Lz77Match(base, p, n)` (44 R292). -/
def lz77MatchAt (s : State) (base p n : Nat) : Nat × Nat :=
  let maxlen := min Config.lz77MaxMatch (n - p)
  if maxlen < Config.lz77MinMatch then (0, 0)
  else
    let best := matchSearch s base p maxlen (min p Config.lz77Window) 1 0 0
    if best.1 < Config.lz77MinMatch then (0, 0) else best

/-- A token of the greedy parse (44 R293). -/
inductive Token where
  | lit (b : Byte)
  | copy (len dist : Nat)
  deriving DecidableEq, Repr

/-- `Tokens(base, n)` from position `p` on; each token is at least one byte, so `fuel` = n - p is enough (44 R293). -/
def tokensFrom (s : State) (base n : Nat) : (fuel p : Nat) → List Token
  | 0, _ => []
  | fuel + 1, p =>
    if p < n then
      let m := lz77MatchAt s base p n
      if 0 < m.1 then .copy m.1 m.2 :: tokensFrom s base n fuel (p + m.1)
      else .lit (s.engByte [p] (base + p)) :: tokensFrom s base n fuel (p + 1)
    else []

/-- `Tokens(base, n)` (44 R293). -/
def tokens (s : State) (base n : Nat) : List Token := tokensFrom s base n n 0

/-! ### Symbols (44 R295) -/

/-- The largest index of a table whose base is at most `v`. -/
def lastBase (table : List (Nat × Nat)) (v : Nat) : Nat := (table.takeWhile fun r => r.1 ≤ v).length - 1

/-- `LenSym(l)`: the symbol and its extra value (44 R295). -/
def lenSym (l : Nat) : Nat × Nat :=
  if l = 258 then (285, 0)
  else
    let s := 257 + lastBase (lengthTable.take 28) l
    (s, l - lenBase s)

/-- `DistSym(d)`: the symbol and its extra value (44 R295). -/
def distSym (d : Nat) : Nat × Nat :=
  let j := lastBase distanceTable d
  (j, d - distBase j)

/-! ### Emission (44 R296, R297) -/

/-- One token with the tables LIT and DIST (44 R297). -/
def putToken (lit dist : HufTable) (t : Token) (s : State) : Run :=
  match t with
  | .lit b => outCode (lit.entry b.toNat) s
  | .copy len d =>
    let ls := lenSym len
    let ds := distSym d
    (((outCode (lit.entry ls.1) s).andThen (outAppendField ls.2 (lenExtra ls.1))).andThen
      (outCode (dist.entry ds.1))).andThen (outAppendField ds.2 (distExtra ds.1))

/-- `PutTokens(T, LIT, DIST)` (44 R297). -/
def putTokens (ts : List Token) (lit dist : HufTable) (s : State) : Run :=
  (Run.each (putToken lit dist) ts s).andThen (outCode (lit.entry 256))

/-! ### Stored blocks (44 R299) -/

/-- Zero bits up to the next byte boundary of the output (44 R299). -/
def padToByte (s : State) : Run := outAppendField 0 (ceil8 s.ses.outBits.toNat - s.ses.outBits.toNat) s

/-- One stored block: the `m` bytes at offset `a` of the history (44 R299). -/
def storedBlock (base a m : Nat) (last : Bool) (s : State) : Run :=
  (((((outAppendField last.toNat 1 s).andThen (outAppendField 0 2)).andThen padToByte).andThen
    (outAppendField m 16)).andThen (outAppendField (m ^^^ 0xFFFF) 16)).andThen
  (Run.each (fun j s1 => outAppendField (s1.engByte [a + j] (base + a + j)).toNat 8 s1) (List.range m))

/-- The number of stored blocks k = max(1, ceil(N / STORED_MAX)) (44 R299). -/
def storedBlocks (n : Nat) : Nat := max 1 ((n + (Config.storedMax - 1)) / Config.storedMax)

/-- `Stored(H, N)` (44 R299). -/
def storedOutput (base n : Nat) (s : State) : Run :=
  let k := storedBlocks n
  Run.each (fun i s1 =>
    let a := i * Config.storedMax
    storedBlock base a (min Config.storedMax (n - a)) (i == k - 1) s1) (List.range k) s

/-! ### Fixed blocks (44 R300) -/

/-- `Fixed(T)` (44 R300). -/
def fixedOutput (ts : List Token) (s : State) : Run :=
  ((outAppendField 1 1 s).andThen (outAppendField 1 2)).andThen (putTokens ts fixedLit fixedDist)

/-! ### Dynamic blocks (44 R301, R302) -/

/-- How often each of the symbols 0 .. n-1 occurs in `xs`. -/
def countsOf (n : Nat) (xs : List Nat) : List Nat := (List.range n).map fun s => xs.count s

/-- The literal/length symbols of the tokens, in order (44 R301). -/
def litSymbols (ts : List Token) : List Nat :=
  ts.map fun t => match t with
    | .lit b => b.toNat
    | .copy len _ => (lenSym len).1

/-- The distance symbols of the tokens, in order (44 R301). -/
def distSymbols (ts : List Token) : List Nat :=
  ts.filterMap fun t => match t with
    | .lit _ => none
    | .copy _ d => some (distSym d).1

/-- The widths of a table, in symbol order. -/
def HufTable.widths (t : HufTable) : List Nat := t.entries.map HufCode.width

/-- 1 + the largest index with a non-zero element, 0 when there is none. -/
def usedLength (ws : List Nat) : Nat := (ws.reverse.dropWhile (· == 0)).length

/-- Code 16's repeats of a width: "while rem >= 3: r <- min(rem, 6) ..." and the rest one by one (44 R302). Each turn
takes at least 3, so `fuel` = rem is enough. -/
def repeatRuns (v : Nat) : (fuel rem : Nat) → List (Nat × Nat)
  | 0, rem => List.replicate rem (v, 0)
  | fuel + 1, rem =>
    if 3 ≤ rem then (16, min rem 6 - 3) :: repeatRuns v fuel (rem - min rem 6) else List.replicate rem (v, 0)

/-- "the number of consecutive elements equal to v from i" (44 R302). -/
def runLength (v : Nat) (xs : List Nat) : Nat := (xs.takeWhile (· == v)).length

/-- `RLE(S)` (44 R302), as pairs (symbol, extra value), 0 standing for no extra value; each turn takes at least one
element, so `fuel` = len(S) is enough. -/
def rleFrom : (fuel : Nat) → List Nat → List (Nat × Nat)
  | 0, _ => []
  | _ + 1, [] => []
  | fuel + 1, v :: rest =>
    let run := 1 + runLength v rest
    let xs := v :: rest
    if v = 0 then
      if 11 ≤ run then (18, min run 138 - 11) :: rleFrom fuel (xs.drop (min run 138))
      else if 3 ≤ run then (17, run - 3) :: rleFrom fuel (xs.drop run)
      else (0, 0) :: rleFrom fuel rest
    else (v, 0) :: (repeatRuns v (run - 1) (run - 1) ++ rleFrom fuel (xs.drop run))

/-- `RLE(S)` (44 R302). -/
def rle (xs : List Nat) : List (Nat × Nat) := rleFrom xs.length xs

/-- The extra bits of a code-length symbol (43 R252, 44 R301). -/
def clExtra (sym : Nat) : Nat := if sym = 16 then 2 else if sym = 17 then 3 else if sym = 18 then 7 else 0

/-- What `Dynamic(T)` writes (44 R301): the header counts, the code-length widths in CL_ORDER, the coded widths with
their table, and the tables of the body. -/
structure DynHeader where
  nlit : Nat
  ndist : Nat
  ncl : Nat
  clWidths : List Nat
  runs : List (Nat × Nat)
  cl : HufTable
  lit : HufTable
  dist : HufTable
  deriving DecidableEq, Repr

/-- "ncl <- 19; while ncl > 4 and CW[CL_ORDER[ncl-1]] = 0: ncl <- ncl - 1" (44 R301). -/
def trimClCount (cw : List Nat) : Nat := max 4 (usedLength (clOrder.map fun s => cw.getD s 0))

/-- The choices of `Dynamic(T)`, none when it fails (44 R301). That a canonical construction fails here cannot happen
(log 15) and counts as a failure too. -/
def dynHeader (ts : List Token) : Option DynHeader :=
  let lw := (weightedTree (countsOf 286 (litSymbols ts ++ [256]))).widths
  let dw := (weightedTree (countsOf 30 (distSymbols ts))).widths
  if 15 < maxWidth lw ∨ 15 < maxWidth dw then none
  else
    let nlit := max 257 (usedLength lw)
    let ndist := max 1 (usedLength dw)
    let runs := rle (lw.take nlit ++ dw.take ndist)
    let cw := (weightedTree (countsOf 19 (runs.map Prod.fst))).widths
    if 7 < maxWidth cw then none
    else
      match canon cw, canon (lw.take nlit), canon dw with
      | .ok cl, .ok lit, .ok dist =>
        let ncl := trimClCount cw
        some ⟨nlit, ndist, ncl, (clOrder.take ncl).map fun s => cw.getD s 0, runs, cl, lit, dist⟩
      | .error _, _, _ => none
      | .ok _, .error _, _ => none
      | .ok _, .ok _, .error _ => none

/-- The output of `Dynamic(T)` (44 R301). -/
def dynOutput (h : DynHeader) (ts : List Token) (s : State) : Run :=
  (((((((outAppendField 1 1 s).andThen (outAppendField 2 2)).andThen
    (outAppendField (h.nlit - 257) 5)).andThen (outAppendField (h.ndist - 1) 5)).andThen
    (outAppendField (h.ncl - 4) 4)).andThen
    (Run.each (fun w => outAppendField w 3) h.clWidths)).andThen
    (Run.each (fun r s1 => (outCode (h.cl.entry r.1) s1).andThen (outAppendField r.2 (clExtra r.1))) h.runs)).andThen
  (putTokens ts h.lit h.dist)

/-! ### Encoder steps -/

/-- `DflEncByte(b)` (44 R294). -/
def dflEncByte (b : Byte) (s : State) : Run :=
  if s.ses.histLen = s.ses.histCap then .fail s Err.historyFull
  else .ok { s.engWrite (s.ses.histBase.toNat + s.ses.histLen.toNat) b with
    ses := { s.ses with histLen := s.ses.histLen + 1 } }

/-- The block or blocks `DflEncFinish()` writes (44 R298). -/
def dflEncOutput (s : State) : Run :=
  let base := s.ses.histBase.toNat
  let n := s.ses.histLen.toNat
  if s.ses.bmode = 0 then storedOutput base n s
  else
    let ts := tokens s base n
    if s.ses.bmode = 2 then
      match dynHeader ts with
      | some h => dynOutput h ts s
      | none => fixedOutput ts s
    else fixedOutput ts s

/-- `DflEncFinish()` (44 R298). -/
def dflEncFinish (s : State) : Run := (dflEncOutput s).andThen fun s1 => .ok (sessionDone s1)

/-- DFL_ENC_START's effects (44 R290). -/
def dflEncStartEffects (mode : Nat) (s : State) : Run :=
  if 2 < mode then .fail s Err.blockMode
  else if !s.inRange s.arg0 s.arg1 then .fail s Err.addressRange
  else if !s.inRange s.arg2 s.arg3 then .fail s Err.addressRange
  else if shareByte s.arg0 s.arg1 s.arg2 s.arg3 then .fail s Err.overlap
  else
    let s' := sessionStart .dflEnc .lsb 0 s.larg.a0 s.larg.a1 mode s
    .ok { s' with ses := { s'.ses with histBase := s.larg.a2, histCap := s.larg.a3, histLen := 0 } }

/-- LZ77_MATCH's effects (44 R292). -/
def lz77MatchEffects (s : State) : Run :=
  if s.arg2 < s.arg1 then .fail s Err.matchPosition
  else if !s.inRange s.arg0 s.arg2 then .fail s Err.addressRange
  else
    let m := lz77MatchAt s s.arg0 s.arg1 s.arg2
    .ok (s.setResults m.1 m.2 0)

/-- DFL_ENC_START (44 R290). -/
def execDflEncStart (mode : Nat) (s : State) : Host.Outcome State Fault Refusal := runCommand (dflEncStartEffects mode) s

/-- LZ77_MATCH (44 R292). -/
def execLz77Match (s : State) : Host.Outcome State Fault Refusal := runCommand lz77MatchEffects s

end Sys2Proof.Machine
end

