-- ==== Sys2Proof/Machine/Lzw.lean ====
section
/-! DEFINITION. The LZW decoder and encoder (42): the start commands, the decoder's parse unit, and the encoder's byte step and finish. -/

namespace Sys2Proof.Machine

/-- "B < LZW_MIN_LIT or B > LZW_MAX_LIT" (42 R202, R220). -/
def litWidthBad (lit : Nat) : Bool := decide (lit < Config.lzwMinLit) || decide (Config.lzwMaxLit < lit)

/-- L of the session (10 R39). -/
def State.litWidth (s : State) : Nat := s.ses.lit.toNat

/-- The clear code 2^L (42 R200). -/
def State.clearCode (s : State) : Nat := 2 ^ s.litWidth

/-- The end code 2^L + 1 (42 R200). -/
def State.endCode (s : State) : Nat := 2 ^ s.litWidth + 1

/-- The first dictionary code 2^L + 2 (42 R203). -/
def State.firstCode (s : State) : Nat := 2 ^ s.litWidth + 2

/-- The width grows when the size reaches 2^width - LZW_EARLY_CHANGE, up to LZW_MAX_WIDTH (42 R204, R206, R221). -/
def grownWidth (par : Params) (size width : Nat) : Nat :=
  if size = 2 ^ width - par.lzwEarlyChange.toNat ∧ width < Config.lzwMaxWidth then width + 1 else width

/-! ### Decoder -/

/-- `LzwReset()` (42 R203). -/
def lzwReset (s : State) : State :=
  { s with lz := { size := s.firstCode, width := s.litWidth + 1, prev := none, strs := [] } }

/-- `Str(c)`: the one-byte string of a literal, or the dictionary entry (42 R203). DESIGN CHOICE: a code that has no
string, the clear and the end code among them (10 R49), gives the empty one; no rule asks for it in a reachable state
(log 15). -/
def State.lzwStr (s : State) (c : Nat) : List Byte :=
  if c < s.clearCode then [BitVec.ofNat 8 c]
  else if c < s.firstCode then []
  else s.lz.strs.getD (c - s.firstCode) []

/-- The string a data code stands for, none when it is undefined (42 R204, R205). -/
def State.lzwDecoded (s : State) (c : Nat) : Option (List Byte) :=
  if c < s.lz.size then some (s.lzwStr c)
  else match s.lz.prev with
    | none => none
    | some p => if c = s.lz.size then some (s.lzwStr p ++ (s.lzwStr p).take 1) else none

/-- The dictionary's update after the data code `c` with string `str` (42 R204): a new entry if there was a previous
code, the width's growth, and the new previous code. -/
def lzwLearn (c : Nat) (str : List Byte) (s : State) : State :=
  match s.lz.prev with
  | none => { s with lz := { s.lz with prev := some c } }
  | some p =>
    let size := s.lz.size + 1
    { s with lz := {
        size := size
        width := grownWidth s.par size s.lz.width
        prev := some c
        strs := s.lz.strs ++ [s.lzwStr p ++ str.take 1] } }

/-- A data code's effect phase (42 R204, R207). -/
def lzwData (c : Nat) (s : State) : Run :=
  match s.lzwDecoded c with
  | none => .fail s Err.undefinedCode
  | some str =>
    if s.lz.prev.isSome && s.lz.size == 2 ^ Config.lzwMaxWidth then .fail s Err.dictionaryFull
    else (Run.each outByte str s).andThen fun s' => .ok (lzwLearn c str s')

/-- `LzwDecUnit()` (42 R204). -/
def lzwDecUnit (s : State) (inp : Input) (cursor : Nat) : UnitResult :=
  (inField s inp s.lz.width cursor).then s fun c cursor' =>
    if c = s.clearCode then .completed (lzwReset s) cursor'
    else if c = s.endCode then .completed (sessionDone s) cursor'
    else (lzwData c s).endUnit cursor'

/-- LZW_DEC_START's effects (42 R202). -/
def lzwDecStartEffects (ord : BitOrder) (lit : Nat) (s : State) : Run :=
  if litWidthBad lit then .fail s Err.litWidth
  else if !s.inRange s.arg0 s.arg1 then .fail s Err.addressRange
  else .ok (lzwReset (sessionStart .lzwDec ord lit s.larg.a0 s.larg.a1 0 s))

/-! ### Encoder -/

/-- `EmitCode(c)` (42 R221). -/
def emitCode (c : Nat) (s : State) : Run := outAppendField c s.le.dwidth s

/-- The shadow of the decoder after it reads a data code (42 R221, R222). -/
def shadowData (s : State) : State :=
  if s.le.dprev then
    let size := s.le.dsize + 1
    { s with le := { s.le with dsize := size, dwidth := grownWidth s.par size s.le.dwidth, dprev := true } }
  else { s with le := { s.le with dprev := true } }

/-- `EmitData(c)` (42 R221). -/
def emitData (c : Nat) (s : State) : Run := (emitCode c s).andThen fun s' => .ok (shadowData s')

/-- What `LzwEncClear()` sets after the clear code is emitted (42 R221). -/
def clearEncoder (s : State) : State :=
  { s with le := { s.le with
      map := [], size := s.firstCode, dsize := s.firstCode, dwidth := s.litWidth + 1, dprev := false } }

/-- `LzwEncClear()` (42 R221). -/
def lzwEncClear (s : State) : Run := (emitCode s.clearCode s).andThen fun s' => .ok (clearEncoder s')

/-- st.le.map[(code, byte)] (42 R223). -/
def LzwEnc.find (le : LzwEnc) (code : Nat) (byte : Byte) : Option Nat :=
  (le.map.find? fun e => e.code == code && e.byte == byte).map LzwEntry.newCode

/-- st.le.w becomes `w` (42 R223). -/
def setMatched (w : Option Nat) (s : State) : State := { s with le := { s.le with w := w } }

/-- A new entry (code, byte) of the encoder's map (42 R223). -/
def learnPair (code : Nat) (byte : Byte) (s : State) : State :=
  { s with le := { s.le with map := ⟨code, byte, s.le.size⟩ :: s.le.map, size := s.le.size + 1 } }

/-- `LzwEncByte(k)` (42 R223). -/
def lzwEncByte (k : Byte) (s : State) : Run :=
  if 2 ^ s.litWidth ≤ k.toNat then .fail s Err.literalTooWide
  else match s.le.w with
    | none => .ok (setMatched (some k.toNat) s)
    | some w =>
      match s.le.find w k with
      | some code => .ok (setMatched (some code) s)
      | none =>
        ((emitData w s).andThen fun s1 =>
          if s1.le.size < 2 ^ Config.lzwMaxWidth then .ok (learnPair w k s1) else lzwEncClear s1).andThen
        fun s2 => .ok (setMatched (some k.toNat) s2)

/-- `LzwEncFinish()` (42 R224). -/
def lzwEncFinish (s : State) : Run :=
  ((match s.le.w with
    | none => Run.ok s
    | some w => emitData w s).andThen fun s1 => emitCode s1.endCode s1).andThen fun s2 => .ok (sessionDone s2)

/-- LZW_ENC_START's effects (42 R220). The first clear code is written at width L + 1: "The output after START is already
one code (S_OUT_BITS = L + 1)" (log 13). -/
def lzwEncStartEffects (ord : BitOrder) (lit : Nat) (s : State) : Run :=
  if litWidthBad lit then .fail s Err.litWidth
  else if !s.inRange s.arg0 s.arg1 then .fail s Err.addressRange
  else if s.arg1 < bytesOfBits (lit + 1) then .fail s Err.outputFull
  else (lzwEncClear (clearEncoder (sessionStart .lzwEnc ord lit s.larg.a0 s.larg.a1 0 s))).andThen
    fun s' => .ok (setMatched none s')

/-- LZW_DEC_START (42 R202). -/
def execLzwDecStart (ord : BitOrder) (lit : Nat) (s : State) : Host.Outcome State Fault Refusal :=
  runCommand (lzwDecStartEffects ord lit) s

/-- LZW_ENC_START (42 R220). -/
def execLzwEncStart (ord : BitOrder) (lit : Nat) (s : State) : Host.Outcome State Fault Refusal :=
  runCommand (lzwEncStartEffects ord lit) s

end Sys2Proof.Machine
end

