-- ==== Sys2Proof/Machine/Stream.lean ====
section
/-! DEFINITION. The push-stream adapter (45): FEED, SESSION_END, NOP and SOFT_RESET. -/

namespace Sys2Proof.Machine

/-- `FeedResults(consumed)` (45 R349); `out0` is S_OUT_LEN when the FEED began, `clean` that it raised no error. DONE
is set at the command's end. -/
def feedResults (consumed : Nat) (out0 : Word) (clean : Bool) (s : State) : State :=
  { s with
    res0 := word consumed, res1 := s.ses.outLen - out0, res2 := s.ses.outLen
    ses := { s.ses with totalIn := s.ses.totalIn + word consumed }
    status := { s.status with needMore := clean && s.ses.isActive } }

/-- `SessionError(E, D)` (45 R358). -/
def sessionError (e : Err) (consumed : Nat) (out0 : Word) (s : State) : Run :=
  .fail (feedResults consumed out0 false (markSessionError e s)) e

/-- How a loop over the input ended: at a bit or byte position, or with the error raised by the unit or byte that
began there. -/
inductive LoopEnd where
  | stopped (s : State) (at_ : Nat)
  | raised (s : State) (e : Err) (at_ : Nat)
  deriving DecidableEq, Repr

/-- One parse unit of the decoder session (45 R345). -/
def decodeUnit (s : State) (inp : Input) (c : Nat) : UnitResult :=
  if s.ses.mode = .lzwDec then lzwDecUnit s inp c else dflDecUnit s inp c

/-- The loop of `FeedDecode`: "while S_CTRL.SSTATE = ACTIVE" (45 R346). Every completed unit reads at least one of the
8n input bits, so `fuel` = 8n + 1 is enough (log 15). -/
def decodeLoop (inp : Input) : (fuel c : Nat) → State → LoopEnd
  | 0, c, s => .stopped s c
  | fuel + 1, c, s =>
    if s.ses.isActive then
      match decodeUnit s inp c with
      | .needMore => .stopped s c
      | .raised s' e => .raised s' e c
      | .completed s' c' => decodeLoop inp fuel c' s'
    else .stopped s c

/-- S_BITPOS becomes `n` (45 R346). -/
def setBitpos (n : Nat) (s : State) : State := { s with ses := { s.ses with bitpos := BitVec.ofNat 3 n } }

/-- `FeedDecode(in, n, complete)` (45 R346, R347). -/
def feedDecode (inp : Input) (complete : Bool) (out0 : Word) (s : State) : Run :=
  match decodeLoop inp (8 * inp.len + 1) s.ses.bitpos.toNat s with
  | .raised s' e u => sessionError e (u / 8) out0 s'
  | .stopped s' c =>
    if s'.ses.isDone then .ok (feedResults (bytesOfBits c) out0 true (setBitpos 0 s'))
    else
      let s'' := setBitpos (c % 8) s'
      if complete then sessionError Err.prematureEnd (c / 8) out0 s''
      else .ok (feedResults (c / 8) out0 true s'')

/-- One input byte of the encoder session (45 R348). -/
def encodeByte (b : Byte) (s : State) : Run :=
  if s.ses.mode = .lzwEnc then lzwEncByte b s else dflEncByte b s

/-- The byte loop of `FeedEncode`, `left` bytes from byte `j` on (45 R348). -/
def encodeLoop (inp : Input) : (left j : Nat) → State → LoopEnd
  | 0, j, s => .stopped s j
  | left + 1, j, s =>
    match encodeByte (s.engByte [j] (inp.base + j)) s with
    | .ok s' => encodeLoop inp left (j + 1) s'
    | .fail s' e => .raised s' e j

/-- The encoder session's finish (45 R348). -/
def encodeFinish (s : State) : Run :=
  if s.ses.mode = .lzwEnc then lzwEncFinish s else dflEncFinish s

/-- `FeedEncode(in, n, complete)` (45 R348). -/
def feedEncode (inp : Input) (complete : Bool) (out0 : Word) (s : State) : Run :=
  match encodeLoop inp inp.len 0 s with
  | .raised s' e j => sessionError e j out0 s'
  | .stopped s' _ =>
    if complete then
      match encodeFinish s' with
      | .ok s'' => .ok (feedResults inp.len out0 true s'')
      | .fail s'' e => sessionError e inp.len out0 s''
    else .ok (feedResults inp.len out0 true s')

/-- `FeedAfterEnd()`: a DONE session answers with no error, an ERROR session raises its stored error again (45 R344). -/
def feedAfterEnd (s : State) : Run :=
  let s' := { s with res0 := 0, res1 := 0, res2 := s.ses.outLen }
  if s.ses.isDone then .ok s' else .fail s' ⟨s.ses.serr, s.ses.serrDetail⟩

/-- The input region overlaps the output or the history region (45 R343). -/
def State.inputOverlaps (s : State) : Bool :=
  shareByte s.arg0 s.arg1 s.ses.outBase.toNat s.ses.outCap.toNat ||
  shareByte s.arg0 s.arg1 s.ses.histBase.toNat s.ses.histCap.toNat

/-- The processing of a FEED on a session, by SSTATE and MODE (45 R343). -/
def feedProcess (complete : Bool) (s : State) : Run :=
  let inp : Input := ⟨s.arg0, s.arg1⟩
  if !s.ses.isActive then feedAfterEnd s
  else if s.ses.mode = .lzwDec ∨ s.ses.mode = .dflDec then feedDecode inp complete s.ses.outLen s
  else feedEncode inp complete s.ses.outLen s

/-- FEED's effects (45 R343). -/
def feedEffects (complete : Bool) (s : State) : Run :=
  if s.ses.mode = .none then .fail s Err.noSession
  else if !s.inRange s.arg0 s.arg1 then .fail s Err.addressRange
  else if s.inputOverlaps then .fail s Err.overlap
  else feedProcess complete s

/-- SESSION_END's effects (45 R342). -/
def sessionEndEffects (s : State) : Run := .ok { s with ses := Session.released }

/-- NOP's effects: "none beyond the start-of-command clearing" (45 R353). -/
def nopEffects (s : State) : Run := .ok s

/-- SOFT_RESET's effects: "the reset ... without touching buffer memory" (45 R354). -/
def softResetEffects (s : State) : Run := .ok (resetRegisters s)

/-- NOP (45 R353). -/
def execNop (s : State) : Host.Outcome State Fault Refusal := runCommand nopEffects s

/-- FEED (45 R343). -/
def execFeed (complete : Bool) (s : State) : Host.Outcome State Fault Refusal := runCommand (feedEffects complete) s

/-- SESSION_END (45 R342). -/
def execSessionEnd (s : State) : Host.Outcome State Fault Refusal := runCommand sessionEndEffects s

/-- SOFT_RESET (45 R354). -/
def execSoftReset (s : State) : Host.Outcome State Fault Refusal := runCommand softResetEffects s

end Sys2Proof.Machine
end

