-- ==== Sys2Proof/Machine/Dispatch.lean ====
section
/-! DEFINITION. One arm per command of the opcode table (30 R112), each one call of its meaning. -/

namespace Sys2Proof.Machine

def exec (i : Instr) (s : State) : Host.Outcome State Fault Refusal :=
  match i with
  | .nop => Sys2Proof.Machine.execNop s
  | .bsInit ord => Sys2Proof.Machine.execBsInit ord s
  | .bsAppend width => Sys2Proof.Machine.execBsAppend width s
  | .bsReadBit => Sys2Proof.Machine.execBsReadBit s
  | .hufBuildCanon slot => Sys2Proof.Machine.execHufBuildCanon slot s
  | .hufBuildWeighted slot => Sys2Proof.Machine.execHufBuildWeighted slot s
  | .hufGetCode slot => Sys2Proof.Machine.execHufGetCode slot s
  | .hufEncode slot => Sys2Proof.Machine.execHufEncode slot s
  | .hufMatch slot => Sys2Proof.Machine.execHufMatch slot s
  | .hufDecodeBs slot => Sys2Proof.Machine.execHufDecodeBs slot s
  | .lzwDecStart ord lit => Sys2Proof.Machine.execLzwDecStart ord lit s
  | .lzwEncStart ord lit => Sys2Proof.Machine.execLzwEncStart ord lit s
  | .dflDecStart => Sys2Proof.Machine.execDflDecStart s
  | .dflEncStart mode => Sys2Proof.Machine.execDflEncStart mode s
  | .feed complete => Sys2Proof.Machine.execFeed complete s
  | .sessionEnd => Sys2Proof.Machine.execSessionEnd s
  | .lz77Match => Sys2Proof.Machine.execLz77Match s
  | .softReset => Sys2Proof.Machine.execSoftReset s

end Sys2Proof.Machine
end

