-- ==== Sys2Proof/Machine/HostBus.lean ====
section
/-! DEFINITION. The engine's transition (10 R45) and the host's actions on the block (20 R80, R88; 30 R117; 70 R430 to R436), which Step.lean runs in the order of the agenda. -/

namespace Sys2Proof.Machine

/-- The error of a word that is no command (30 R113). -/
def rejectError (r : DecodeReject) : Err :=
  match r with
  | .unknownOpcode => Err.unknownOpcode
  | .fixedBitSet => Err.fixedBit

/-- A word that is no command: the command starts, raises INVALID_COMMAND and changes nothing else (30 R113). -/
def execRejected (r : DecodeReject) (s : State) : Host.Outcome State Fault Refusal :=
  runCommand (fun s1 => .fail s1 (rejectError r)) s

/-- "When st.busy is 1 the engine's next step executes st.cmd as one atomic transition" (10 R45). -/
def runLatched (s : State) : Host.Outcome State Fault Refusal :=
  match decode s.lcmd with
  | .ok i => exec i s
  | .error r => execRejected r s

/-- The engine's turn: an idle engine takes no step (60 R397). -/
def engineTurn (s : State) : Host.Outcome State Fault Refusal := if s.busy then runLatched s else .next s

/-- A register access of a form the interface has: "32 bits wide at offsets that are multiples of 4", within the 256
bytes of the register space (20 R80, R88). -/
def accessForm (offset bytes : Nat) : Bool := bytes == 4 && offset % 4 == 0 && decide (offset < 256)

/-- A host write of a register (10 R30, R32, R33; 20 R88). -/
def hostRegWrite (offset bytes : Nat) (v : Word) (s : State) : Host.Outcome State Fault Refusal :=
  if accessForm offset bytes then .next (s.writeReg offset v) else .refused .registerAccessForm

/-- A host read of a register (10 R32, R36; 20 R88); the value goes to the model's hostData (log 18). -/
def hostRegRead (offset bytes : Nat) (s : State) : Host.Outcome State Fault Refusal :=
  if accessForm offset bytes then .next { s with hostData := s.readReg offset } else .refused .registerAccessForm

/-- A host write of a buffer byte (20 R80). While BUSY = 1 it races with the accepted command (20 R95; log 7). -/
def hostMemWrite (a : Nat) (v : Byte) (s : State) : Host.Outcome State Fault Refusal :=
  if s.inRange a 1 then
    .next (if s.busy then { s with raced := addRaced s.raced a v } else { s with mem := Memory.put s.mem a v })
  else .fault .hostAddressAbsent

/-- The byte at `a` after the engine's transition, as the host would then read it. -/
def byteAfterTurn (a : Nat) (s : State) : Byte :=
  match runLatched s with
  | .next t => t.hostByte a
  | .fault _ => s.hostByte a
  | .refused _ => s.hostByte a

/-- What a host read of the buffer byte at `a` returns: while BUSY = 1 a byte the running command changes reads as the
old or the new value (20 R91, R95, 93 U7; log 9, log 21). -/
def State.hostReads (s : State) (a : Nat) : Byte :=
  if s.busy then
    let old := s.hostByte a
    let new := byteAfterTurn a s
    if old = new then old else if Config.busyReadSeesNew s.drawNo a then new else old
  else s.hostByte a

/-- A host read of a buffer byte (20 R80); the value goes to the model's hostData (log 18). DESIGN CHOICE: the read takes
a number of the free choices for itself, so where host writes race too, the new value it saw need not be the one the
command then stores (log 21). -/
def hostMemRead (a : Nat) (s : State) : Host.Outcome State Fault Refusal :=
  if s.inRange a 1 then .next { s with hostData := (s.hostReads a).zeroExtend 32, drawNo := s.drawNo + 1 }
  else .fault .hostAddressAbsent

/-- The rest of the agenda once its head has been taken. -/
def State.withAgenda (s : State) (rest : List Event) : State := { s with agenda := rest }

/-- WAIT: the engine takes its transition while BUSY = 1 and the wait stays; at BUSY = 0 the host reads STATUS and goes
on with the rest of the agenda (30 R117; log 17). -/
def hostWait (rest : List Event) (s : State) : Host.Outcome State Fault Refusal :=
  if s.busy then runLatched s else .next { s.withAgenda rest with hostData := s.statusWord }

/-- The head of the agenda happens; `rest` follows it. -/
def runEvent (e : Event) (rest : List Event) (s : State) : Host.Outcome State Fault Refusal :=
  match e with
  | .engine => engineTurn (s.withAgenda rest)
  | .regWrite offset bytes v => hostRegWrite offset bytes v (s.withAgenda rest)
  | .regRead offset bytes => hostRegRead offset bytes (s.withAgenda rest)
  | .memWrite a v => hostMemWrite a v (s.withAgenda rest)
  | .memRead a => hostMemRead a (s.withAgenda rest)
  | .wait => hostWait rest s
  | .reset => .next (resetInput (s.withAgenda rest))
  | .powerOn => .next (powerOnReset (s.withAgenda rest))

/-- A state in which word `w` has just been written to CMD and the engine's turn comes next (10 R33, R45). -/
def placeCommand (w : Word) (s : State) : State := { acceptCommand w s with agenda := .engine :: s.agenda }

/-- `MEMW addr: b0 b1 ...` (30 R117) as events. -/
def memw (a : Nat) (bytes : List Byte) : List Event := bytes.zipIdx.map fun p => .memWrite (a + p.2) p.1

/-- `MEMR addr, len` (30 R117) as events. -/
def memr (a len : Nat) : List Event := (List.range len).map fun k => .memRead (a + k)

/-- `CMD MNEMONIC field=value ...` (30 R117) as an event. -/
def cmdWrite (i : Instr) : Event := .regWrite 0x00 4 (encode i)

/-- `WR ARGk, value` (30 R117) as an event; ARG0 to ARG3 stand at 0x04, 0x08, 0x0C and 0x10 (10 R32). -/
def argWrite (p : Fin 4 × Word) : Event := .regWrite (4 + 4 * p.1.val) 4 p.2

/-- `DO MNEMONIC fields (ARG0=a, ...)`: "one WR per listed ARG, in order", the CMD write and WAIT (30 R118). -/
def doCommand (i : Instr) (args : List (Fin 4 × Word)) : List Event := args.map argWrite ++ [cmdWrite i, .wait]

/-- `READ_ALL_SYNC start=MNEMONIC fields (out=o, cap=c) in=i len=n` (30 R118) as events. -/
def readAllSync (start : Instr) (out cap input len : Word) : List Event :=
  doCommand start [(0, out), (1, cap)] ++ doCommand (.feed true) [(0, input), (1, len)]

/-- What READ_ALL_SYNC with output base `out` gives the host at its end: "memory o .. o + S_OUT_LEN - 1, or the error in
STATUS" (30 R118). -/
def State.readAllOutput (out : Word) (s : State) : Except Err (List Byte) :=
  if s.status.err then .error ⟨s.status.errCode, s.errDetail⟩
  else .ok ((List.range s.ses.outLen.toNat).map fun k => s.hostByte (out.toNat + k))

/-- The value whose BS_APPEND appends an MSB-first code to a sequence of order `ord` (30 R118, 40 R149). -/
def codeOperand (ord : BitOrder) (width code : Nat) : Nat :=
  match ord with
  | .msb => code
  | .lsb => revBits width code

/-- `BS_APPEND_CODE code, width` for a bit sequence of order `ord` (30 R118) as events. -/
def bsAppendCode (ord : BitOrder) (code width : Nat) : List Event :=
  doCommand (.bsAppend width) [(0, word (codeOperand ord width code))]

end Sys2Proof.Machine
end

