-- ==== Sys2Proof/Machine/Step.lean ====
section
/-! DEFINITION. One step of the block: the next host action or the engine's transition, in the single total order of 20 R94. -/

namespace Sys2Proof.Machine

/-- With an agenda, its head happens. With none, an accepted command runs (70 R440: it "eventually completes") and an
idle engine stays as it is (60 R397); log 5. -/
def step (s : State) : Host.Outcome State Fault Refusal :=
  match s.agenda with
  | [] => engineTurn s
  | e :: rest => runEvent e rest s

/-- The state in which the very next step runs the command whose table bits are the low `nbits` of `w`: the host has
just written that word to CMD (log 6). -/
def State.withFetchWord (s : State) (nbits w : Nat) : State := placeCommand (tableWord nbits w) s

end Sys2Proof.Machine
end

