-- ==== Sys2Proof/Safety.lean ====
section
/-! DEFINITION. The terms in which the statements speak of the machine: how a command ended, what it left unchanged, the bits of a stream in memory, and the invariants of a safe run. -/

namespace Sys2Proof.Machine

/-! ### How a command ended -/

/-- The command ended without error (10 R36, R37, R45): BUSY, ERR, ERR_CODE, NEED_MORE and ERR_DETAIL are 0, OVERRUN is
kept, DONE says whether the session is DONE, and no host write is left racing. -/
def EndedClean (s t : State) : Prop :=
  t.busy = false ∧ t.errDetail = 0 ∧ t.raced = [] ∧
  t.status = { overrun := s.status.overrun, needMore := false, done := t.ses.sstate == .done, err := false, errCode := 0 }

/-- The command ended in the error `e` (60 R382): ERR, ERR_CODE and ERR_DETAIL report it, NEED_MORE and BUSY are 0. -/
def EndedInError (e : Err) (s t : State) : Prop :=
  t.busy = false ∧ t.errDetail = e.detail ∧ t.raced = [] ∧
  t.status = { overrun := s.status.overrun, needMore := false, done := t.ses.sstate == .done, err := true, errCode := e.code }

/-- RES0 to RES2 hold these values. -/
def ResultsAre (t : State) (r0 r1 r2 : Nat) : Prop := t.res0 = word r0 ∧ t.res1 = word r1 ∧ t.res2 = word r2

/-! ### What is left unchanged -/

/-- The parameters, CMD, ARG0 to ARG3, the latched command and operands, and the model's own record of the host. -/
def HostSideSame (s t : State) : Prop :=
  t.par = s.par ∧ t.cmd = s.cmd ∧ t.arg = s.arg ∧ t.lcmd = s.lcmd ∧ t.larg = s.larg ∧
  t.powerEpoch = s.powerEpoch ∧ t.agenda = s.agenda ∧ t.hostData = s.hostData

/-- The session registers and the codec state behind them (10 R48 to R52). -/
def SessionSame (s t : State) : Prop := t.ses = s.ses ∧ t.lz = s.lz ∧ t.le = s.le ∧ t.df = s.df

/-- Every byte outside `region` reads for the host as it did before. -/
def MemorySameOutside (region : Nat → Prop) (s t : State) : Prop := ∀ a, ¬ region a → t.hostByte a = s.hostByte a

/-- Every byte of buffer memory reads for the host as it did before. -/
def MemorySame (s t : State) : Prop := ∀ a, t.hostByte a = s.hostByte a

/-- Nothing but the common status fields, RES0 to RES2 and the bit sequence's registers changed, memory aside. -/
def OnlyBitSeq (s t : State) : Prop := HostSideSame s t ∧ SessionSame s t ∧ t.huf = s.huf

/-- Nothing but the common status fields, RES0 to RES2 and the Huffman slots changed, memory aside. -/
def OnlySlots (s t : State) : Prop := HostSideSame s t ∧ SessionSame s t ∧ t.bs = s.bs

/-- Nothing but the common status fields, RES0 to RES2 and the session changed, memory aside. -/
def OnlySession (s t : State) : Prop := HostSideSame s t ∧ t.bs = s.bs ∧ t.huf = s.huf

/-- Nothing but the common status fields and RES0 to RES2 changed. -/
def OnlyResults (s t : State) : Prop :=
  HostSideSame s t ∧ SessionSame s t ∧ t.bs = s.bs ∧ t.huf = s.huf ∧ MemorySame s t

/-- The command ended in the error `e` with no other effect: "Any other failing command leaves every register, except
STATUS, ERR_DETAIL and RES, and all buffer memory as they were" (60 R382). -/
def RefusedWith (e : Err) (s t : State) : Prop := EndedInError e s t ∧ ResultsAre t 0 0 0 ∧ OnlyResults s t

/-- Command `i` at `s` answers a next state, and that state has the property `P`. -/
def Completes (i : Instr) (s : State) (P : State → Prop) : Prop := ∃ t, exec i s = .next t ∧ P t

/-! ### Regions and streams in memory -/

/-- The addresses `base .. base + len - 1` (20 R81). -/
def InRegion (base len : Nat) (a : Nat) : Prop := base ≤ a ∧ a < base + len

/-- Bit `i` of the stream stored from `base`, as memory now holds it (00 R10). -/
def State.streamBit (s : State) (ord : BitOrder) (base i : Nat) : Bool :=
  (s.hostByte (base + i / 8)).getLsbD (bitPos ord i)

/-- Bit `i` of the bit sequence (40 R141). -/
def State.seqBit (s : State) (i : Nat) : Bool := s.streamBit s.bs.ord s.bs.base.toNat i

/-- The bytes of the bit sequence that appending `w` bits writes. -/
def AppendedBytes (s : State) (w : Nat) (a : Nat) : Prop :=
  s.bs.base.toNat + s.bs.bits.toNat / 8 ≤ a ∧ a < s.bs.base.toNat + bytesOfBits (s.bs.bits.toNat + w)

/-- "the bits of the last byte at stream positions BS_BITS .. ceil8(BS_BITS) - 1 are 0" (40 R148). -/
def TailClear (s : State) : Prop := ∀ i, s.bs.bits.toNat ≤ i → i < ceil8 s.bs.bits.toNat → s.seqBit i = false

/-- A command that appended the `w` bits `bits` (in stream order) to the bit sequence (40 R142): the length grew, the
bytes outside the ones appended to are unchanged, the sequence holds its old bits followed by the new ones, and a clear
tail stays clear. The last two are said for a command no host write races with (70 R432). -/
def AppendsBits (w : Nat) (bits : List Bool) (s t : State) : Prop :=
  t.bs = { s.bs with bits := s.bs.bits + word w } ∧
  MemorySameOutside (AppendedBytes s w) s t ∧
  (s.raced = [] → (∀ i, i < s.bs.bits.toNat → t.seqBit i = s.seqBit i) ∧
    (∀ k, k < w → t.seqBit (s.bs.bits.toNat + k) = bits.getD k false) ∧
    (TailClear s → TailClear t))

/-- The `l` bytes at `base + p - d` equal the `l` bytes at `base + p` (44 R292). -/
def MatchAt (s : State) (base p d l : Nat) : Prop :=
  ∀ k, k < l → s.hostByte (base + p - d + k) = s.hostByte (base + p + k)

/-- `l` and `d` are the longest match of at least LZ77_MIN_MATCH bytes for position p of the n bytes at base, the nearest
of equal ones, or (0, 0) when there is none (44 R292). -/
def LongestMatch (s : State) (base p n l d : Nat) : Prop :=
  let longest := min Config.lz77MaxMatch (n - p)
  let farthest := min p Config.lz77Window
  (l = 0 ∧ d = 0 ∧ ∀ d' l', 1 ≤ d' → d' ≤ farthest → Config.lz77MinMatch ≤ l' → l' ≤ longest → ¬ MatchAt s base p d' l') ∨
  (Config.lz77MinMatch ≤ l ∧ l ≤ longest ∧ 1 ≤ d ∧ d ≤ farthest ∧ MatchAt s base p d l ∧
    (∀ d' l', 1 ≤ d' → d' ≤ farthest → l' ≤ longest → MatchAt s base p d' l' → l' ≤ l) ∧
    (∀ d', 1 ≤ d' → d' < d → ¬ MatchAt s base p d' l))

/-! ### Huffman tables -/

/-- The table is over 1 to 288 symbols, its widths are at most 16, each code fits its width, and maxw is the largest
width (10 R46, 41 R161). -/
def TableSized (t : HufTable) : Prop :=
  1 ≤ t.n ∧ t.n ≤ Config.hufMaxSymbols ∧ t.maxw = maxWidth t.widths ∧
  ∀ s, s < t.n → (t.entry s).width ≤ Config.hufMaxWidth ∧ (t.entry s).code < 2 ^ (t.entry s).width

/-- "The coded symbols form a prefix code ... and no two coded symbols have the same (code, width)" (41 R161). -/
def PrefixFree (t : HufTable) : Prop :=
  ∀ a b, a < t.n → b < t.n → a ≠ b → 0 < (t.entry a).width → (t.entry a).width ≤ (t.entry b).width →
    (t.entry b).code >>> ((t.entry b).width - (t.entry a).width) ≠ (t.entry a).code

/-- Symbol `s` has a code. -/
def Coded (t : HufTable) (s : Nat) : Prop := s < t.n ∧ 0 < (t.entry s).width

/-- The order "(W[s], s)" of canonical construction (41 R162). -/
def CanonBefore (ws : List Nat) (a b : Nat) : Prop :=
  ws.getD a 0 < ws.getD b 0 ∨ (ws.getD a 0 = ws.getD b 0 ∧ a < b)

/-- Symbol `a` matches the first `k` of the `n` bits in `v` (41 R169). -/
def MatchesPrefix (t : HufTable) (v n k a : Nat) : Prop :=
  a < t.n ∧ (t.entry a).width = k ∧ (t.entry a).code = v >>> (n - k)

/-! ### Weighted construction, as 41 R164 gives it -/

/-- A tree of merged symbols: child 0 and child 1. -/
inductive HufTree where
  | leaf (symbol : Nat)
  | node (child0 child1 : HufTree)
  deriving DecidableEq, Repr

/-- The symbols under a tree with their paths from its root, child 0 = 0 and child 1 = 1. -/
def HufTree.paths : HufTree → List (Nat × List Bool)
  | .leaf s => [(s, [])]
  | .node a b => (a.paths.map fun p => (p.1, false :: p.2)) ++ b.paths.map fun p => (p.1, true :: p.2)

/-- A node of the queue Q. -/
structure QueueNode where
  weight : Nat
  seq : Nat
  tree : HufTree
  deriving DecidableEq, Repr

/-- The order of Q by (weight, seq). -/
def QueueNode.Precedes (a b : QueueNode) : Prop := a.weight < b.weight ∨ (a.weight = b.weight ∧ a.seq < b.seq)

/-- The leaves: the symbols of non-zero weight in ascending order, leaf j with seq j. -/
def queueLeaves (wts : List Nat) : List QueueNode :=
  ((wts.zipIdx.filter fun p => decide (0 < p.1)).zipIdx).map fun q => ⟨q.1.1, q.2, .leaf q.1.2⟩

/-- `MergesTo next q r`: the loop "while |Q| > 1" turns the queue q into the one node r. The least node of q becomes
child 0 and the least of the rest child 1 of a node whose seq is `next`. -/
inductive MergesTo : Nat → List QueueNode → QueueNode → Prop where
  | single (next : Nat) (r : QueueNode) : MergesTo next [r] r
  | merge (next : Nat) (q rest : List QueueNode) (a b r : QueueNode) :
      q.Perm (a :: b :: rest) → (∀ x ∈ b :: rest, a.Precedes x) → (∀ x ∈ rest, b.Precedes x) →
      MergesTo (next + 1) (⟨a.weight + b.weight, next, .node a.tree b.tree⟩ :: rest) r → MergesTo next q r

/-- Every valid slot holds a sized prefix code (10 R46, 41 R161). -/
def SlotsOk (s : State) : Prop := ∀ k : Fin 4, s.huf[k].valid = true → TableSized s.huf[k].table ∧ PrefixFree s.huf[k].table

/-! ### Width runs -/

/-- The widths that a code-length symbol and its extra value stand for, after the widths `done` (43 R252). -/
def expandRun (done : List Nat) (r : Nat × Nat) : List Nat :=
  if r.1 = 16 then List.replicate (3 + r.2) (done.getLastD 0)
  else if r.1 = 17 then List.replicate (3 + r.2) 0
  else if r.1 = 18 then List.replicate (11 + r.2) 0
  else [r.1]

/-- The widths that a list of code-length symbols stands for, as the DEFLATE decoder reads them (43 R252). -/
def expandRuns (done : List Nat) : List (Nat × Nat) → List Nat
  | [] => done
  | r :: rest => expandRuns (done ++ expandRun done r) rest

/-- Code 16 for the `rem` repeats of v after its first: 3 to 6 at a time while there are 3, the rest one by one
(44 R302). -/
inductive RepeatsOf (v : Nat) : (rem : Nat) → List (Nat × Nat) → Prop where
  | few (rem : Nat) : rem < 3 → RepeatsOf v rem (List.replicate rem (v, 0))
  | many (rem : Nat) (rs : List (Nat × Nat)) : 3 ≤ rem → RepeatsOf v (rem - min rem 6) rs →
      RepeatsOf v rem ((16, min rem 6 - 3) :: rs)

/-- The runs that 44 R302 prescribes for a list of widths, taken from its front: `run` is the longest run there is. An
extra value that R302 leaves out is 0. -/
inductive RunsOf : List Nat → List (Nat × Nat) → Prop where
  | nil : RunsOf [] []
  | manyZeros (run : Nat) (rest : List Nat) (rs : List (Nat × Nat)) : 11 ≤ run → rest.head? ≠ some 0 →
      RunsOf (List.replicate (run - min run 138) 0 ++ rest) rs →
      RunsOf (List.replicate run 0 ++ rest) ((18, min run 138 - 11) :: rs)
  | someZeros (run : Nat) (rest : List Nat) (rs : List (Nat × Nat)) : 3 ≤ run → run ≤ 10 → rest.head? ≠ some 0 →
      RunsOf rest rs → RunsOf (List.replicate run 0 ++ rest) ((17, run - 3) :: rs)
  | oneZero (run : Nat) (rest : List Nat) (rs : List (Nat × Nat)) : 1 ≤ run → run ≤ 2 → rest.head? ≠ some 0 →
      RunsOf (List.replicate (run - 1) 0 ++ rest) rs → RunsOf (List.replicate run 0 ++ rest) ((0, 0) :: rs)
  | width (v run : Nat) (rest : List Nat) (reps rs : List (Nat × Nat)) : v ≠ 0 → 1 ≤ run → rest.head? ≠ some v →
      RepeatsOf v (run - 1) reps → RunsOf rest rs →
      RunsOf (List.replicate run v ++ rest) ((v, 0) :: (reps ++ rs))

/-! ### Sessions -/

/-- Two regions share a byte (44 R290). -/
def SharesByte (a alen b blen : Nat) : Prop := ∃ x, InRegion a alen x ∧ InRegion b blen x

/-- FEED's command checks pass: a session exists, the input fits in buffer memory and shares no byte with the output or
the history region (45 R343). -/
def FeedAccepted (s : State) : Prop :=
  s.ses.mode ≠ .none ∧ s.arg0 + s.arg1 ≤ memSize s.par ∧
  ¬ SharesByte s.arg0 s.arg1 s.ses.outBase.toNat s.ses.outCap.toNat ∧
  ¬ SharesByte s.arg0 s.arg1 s.ses.histBase.toNat s.ses.histCap.toNat

/-- The session is an encoder. -/
def Session.isEncoder (ses : Session) : Bool := ses.mode == .lzwEnc || ses.mode == .dflEnc

/-- The session is an LZW or DEFLATE decoder. -/
def Session.isDecoder (ses : Session) : Prop := ses.mode = .lzwDec ∨ ses.mode = .dflDec

/-- The session registers a start command sets and nothing but another start, SESSION_END or a reset changes
(10 R40, R42; 45 R341). -/
def SessionSetupSame (s t : State) : Prop :=
  t.ses.mode = s.ses.mode ∧ t.ses.ord = s.ses.ord ∧ t.ses.lit = s.ses.lit ∧ t.ses.bmode = s.ses.bmode ∧
  t.ses.outBase = s.ses.outBase ∧ t.ses.outCap = s.ses.outCap ∧
  t.ses.histBase = s.ses.histBase ∧ t.ses.histCap = s.ses.histCap

/-- Bytes `bytes` appended to a decoder's output (45 R357): they stand at the end of the output so far, S_OUT_LEN and
S_OUT_BITS count them, no other byte, register or internal field changed but, where the caller says so, st.lz or st.df. -/
def AppendsOutput (bytes : List Byte) (s t : State) : Prop :=
  (∀ k, k < bytes.length → t.memByte (s.ses.outBase.toNat + s.ses.outLen.toNat + k) = bytes.getD k 0) ∧
  (∀ a, ¬ InRegion (s.ses.outBase.toNat + s.ses.outLen.toNat) bytes.length a → t.memByte a = s.memByte a) ∧
  t = { s with mem := t.mem, raced := t.raced, lz := t.lz, df := t.df, ses := { s.ses with
    outLen := s.ses.outLen + word bytes.length, outBits := s.ses.outBits + word (8 * bytes.length) } }

/-- `n` bytes copied from `dist` bytes back in the output, each equal to the byte `dist` before it (43 R256). -/
def CopiesBack (n dist : Nat) (s t : State) : Prop :=
  let out := s.ses.outBase.toNat + s.ses.outLen.toNat
  (∀ k, k < n → t.memByte (out + k) = t.memByte (out + k - dist)) ∧
  (∀ a, ¬ InRegion out n a → t.memByte a = s.memByte a) ∧
  t = { s with mem := t.mem, raced := t.raced, ses := { s.ses with
    outLen := s.ses.outLen + word n, outBits := s.ses.outBits + word (8 * n) } }

/-! ### Encoder output -/

/-- `n` more bits fit in the output region (45 R355). -/
def OutFits (s : State) (n : Nat) : Prop :=
  bytesOfBits (s.ses.outBits.toNat + n) ≤ s.ses.outCap.toNat ∧ s.ses.outBits.toNat + n ≤ 2 ^ 32 - 1

/-- The bits of the last output byte after the last bit written are 0. -/
def OutTailClear (s : State) : Prop :=
  ∀ i, s.ses.outBits.toNat ≤ i → i < ceil8 s.ses.outBits.toNat →
    s.streamBit s.ses.ord s.ses.outBase.toNat i = false

/-- The bits `bits` (in stream order) were appended to the output (45 R355): they are counted, they follow the old bits,
which stay, and a clear tail stays clear. -/
def OutBitsAppended (bits : List Bool) (s t : State) : Prop :=
  t.ses.outBits = s.ses.outBits + word bits.length ∧
  t.ses.outLen = word (bytesOfBits (s.ses.outBits.toNat + bits.length)) ∧
  (∀ i, i < s.ses.outBits.toNat →
    t.streamBit s.ses.ord s.ses.outBase.toNat i = s.streamBit s.ses.ord s.ses.outBase.toNat i) ∧
  (∀ k, k < bits.length →
    t.streamBit s.ses.ord s.ses.outBase.toNat (s.ses.outBits.toNat + k) = bits.getD k false) ∧
  (OutTailClear s → OutTailClear t)

/-- The width at which the LZW encoder writes the code after a data code: the decoder's, which has then added an entry
if it had a previous code (42 R221, R222). -/
def State.nextCodeWidth (s : State) : Nat :=
  if s.le.dprev = true ∧ s.le.dsize + 1 = 2 ^ s.le.dwidth - s.par.lzwEarlyChange.toNat ∧ s.le.dwidth < 12
  then s.le.dwidth + 1 else s.le.dwidth

/-! ### The DEFLATE encoder's output as bits (44 R293, R296 to R301) -/

/-- The greedy parse of the n bytes at base from position p on (44 R293), by the longest match of 44 R292. -/
inductive GreedyTokens (s : State) (base n : Nat) : (p : Nat) → List Token → Prop where
  | done (p : Nat) : n ≤ p → GreedyTokens s base n p []
  | copy (p l d : Nat) (ts : List Token) : p < n → 0 < l → LongestMatch s base p n l d →
      GreedyTokens s base n (p + l) ts → GreedyTokens s base n p (.copy l d :: ts)
  | lit (p : Nat) (ts : List Token) : p < n → LongestMatch s base p n 0 0 →
      GreedyTokens s base n (p + 1) ts → GreedyTokens s base n p (.lit (s.hostByte (base + p)) :: ts)

/-- A code, most significant bit first (44 R296). -/
def codeBits (c : HufCode) : List Bool := (List.range c.width).map fun k => c.code.testBit (c.width - 1 - k)

/-- A field of w bits, least significant bit first (44 R296). -/
def lsbBits (v w : Nat) : List Bool := (List.range w).map fun k => v.testBit k

/-- One token with the tables LIT and DIST (44 R297). -/
def tokenBits (lit dist : HufTable) (t : Token) : List Bool :=
  match t with
  | .lit b => codeBits (lit.entry b.toNat)
  | .copy l d =>
    codeBits (lit.entry (lenSym l).1) ++ lsbBits (lenSym l).2 (lenExtra (lenSym l).1) ++
    codeBits (dist.entry (distSym d).1) ++ lsbBits (distSym d).2 (distExtra (distSym d).1)

/-- The tokens and the end of the block (44 R297). -/
def bodyBits (lit dist : HufTable) (ts : List Token) : List Bool :=
  ts.flatMap (tokenBits lit dist) ++ codeBits (lit.entry 256)

/-- Fixed mode (44 R300). -/
def fixedBits (ts : List Token) : List Bool := lsbBits 1 1 ++ lsbBits 1 2 ++ bodyBits fixedLit fixedDist ts

/-- One stored block of `bytes` that begins at output bit `pos` (44 R299). -/
def storedBlockBits (pos : Nat) (last : Bool) (bytes : List Byte) : List Bool :=
  [last, false, false] ++ List.replicate (ceil8 (pos + 3) - (pos + 3)) false ++ lsbBits bytes.length 16 ++
  lsbBits (65535 - bytes.length) 16 ++ bytes.flatMap fun b => lsbBits b.toNat 8

/-- Stored mode (44 R299): blocks of 65535 bytes, the last one shorter. Every block but the first begins at a byte. -/
def storedBits (pos : Nat) (bytes : List Byte) : List Bool :=
  let k := max 1 ((bytes.length + 65534) / 65535)
  (List.range k).flatMap fun i =>
    storedBlockBits (if i = 0 then pos else 0) (decide (i + 1 = k)) ((bytes.drop (65535 * i)).take 65535)

/-- `n` is 1 + the largest index of a non-zero element of ws, but at least `low` (44 R301). -/
def UsedCount (low : Nat) (ws : List Nat) (n : Nat) : Prop :=
  low ≤ n ∧ (∀ s, n ≤ s → ws.getD s 0 = 0) ∧ (n = low ∨ 0 < ws.getD (n - 1) 0)

/-- The widths of the two trees that dynamic mode builds over the tokens and the end of the block (44 R301). -/
def litWidths (ts : List Token) : List Nat := (weightedTree (countsOf 286 (litSymbols ts ++ [256]))).widths
def distWidths (ts : List Token) : List Nat := (weightedTree (countsOf 30 (distSymbols ts))).widths

/-- `Dynamic(T)` succeeds, and h is what it chooses (44 R301). -/
def DynamicChoice (ts : List Token) (h : DynHeader) : Prop :=
  let cw := (weightedTree (countsOf 19 (h.runs.map Prod.fst))).widths
  maxWidth (litWidths ts) ≤ 15 ∧ maxWidth (distWidths ts) ≤ 15 ∧ maxWidth cw ≤ 7 ∧
  UsedCount 257 (litWidths ts) h.nlit ∧ UsedCount 1 (distWidths ts) h.ndist ∧
  RunsOf ((litWidths ts).take h.nlit ++ (distWidths ts).take h.ndist) h.runs ∧
  UsedCount 4 ([16, 17, 18, 0, 8, 7, 9, 6, 10, 5, 11, 4, 12, 3, 13, 2, 14, 1, 15].map fun s => cw.getD s 0) h.ncl ∧
  h.clWidths = ([16, 17, 18, 0, 8, 7, 9, 6, 10, 5, 11, 4, 12, 3, 13, 2, 14, 1, 15].take h.ncl).map (fun s => cw.getD s 0) ∧
  canon cw = .ok h.cl ∧ canon ((litWidths ts).take h.nlit) = .ok h.lit ∧ canon (distWidths ts) = .ok h.dist

/-- Dynamic mode (44 R301). -/
def dynamicBits (h : DynHeader) (ts : List Token) : List Bool :=
  lsbBits 1 1 ++ lsbBits 2 2 ++ lsbBits (h.nlit - 257) 5 ++ lsbBits (h.ndist - 1) 5 ++ lsbBits (h.ncl - 4) 4 ++
  (h.clWidths.flatMap fun w => lsbBits w 3) ++
  (h.runs.flatMap fun r => codeBits (h.cl.entry r.1) ++ lsbBits r.2 (clExtra r.1)) ++ bodyBits h.lit h.dist ts

/-- `bits` is what `DflEncFinish()` writes from output bit `pos` on for these history bytes and tokens (44 R298). -/
def FinishBits (bmode : BitVec 2) (pos : Nat) (bytes : List Byte) (ts : List Token) (bits : List Bool) : Prop :=
  (bmode = 0 → bits = storedBits pos bytes) ∧
  (bmode = 1 → bits = fixedBits ts) ∧
  (bmode = 2 → (∀ h, DynamicChoice ts h → bits = dynamicBits h ts) ∧
    ((∀ h, ¬ DynamicChoice ts h) → bits = fixedBits ts))

/-! ### How a FEED of an ACTIVE session ended -/

/-- From the codec's work that left u, FEED ended without error with n bytes consumed (45 R346, R349): nothing of u
changed in the session but S_BITPOS and S_TOTAL_IN. -/
def FeedEnded (n : Nat) (bitpos : BitVec 3) (u t : State) : Prop :=
  t.res0 = word n ∧ t.status.err = false ∧ t.errDetail = 0 ∧ t.status.done = (u.ses.sstate == .done) ∧
  t.status.needMore = (u.ses.sstate == .active) ∧
  t.ses = { u.ses with bitpos := bitpos, totalIn := u.ses.totalIn + word n } ∧
  t.lz = u.lz ∧ t.le = u.le ∧ t.df = u.df ∧ MemorySame (finishCommand u) t

/-- From the codec's work that left u, FEED ended in the session error e with n bytes consumed (45 R358). -/
def FeedFailed (e : Err) (n : Nat) (u t : State) : Prop :=
  t.res0 = word n ∧ t.status.err = true ∧ t.status.errCode = e.code ∧ t.errDetail = e.detail ∧
  t.status.needMore = false ∧
  t.ses = { u.ses with sstate := .error, serr := e.code, serrDetail := e.detail, bitpos := 0,
                       totalIn := u.ses.totalIn + word n } ∧
  t.lz = u.lz ∧ t.le = u.le ∧ t.df = u.df ∧ MemorySame (finishCommand u) t

/-- The decoder's parse units one after another from bit cursor c on, "while S_CTRL.SSTATE = ACTIVE" (45 R346):
`DecodeSteps inp c s r` says that from s they end as r says: at the cursor where the session is no longer ACTIVE or
where a unit lacks input, or in the error of the unit that begins there. -/
inductive DecodeSteps (inp : Input) : (c : Nat) → State → LoopEnd → Prop where
  | ended (c : Nat) (s : State) : s.ses.sstate ≠ .active → DecodeSteps inp c s (.stopped s c)
  | needMore (c : Nat) (s : State) : s.ses.sstate = .active → decodeUnit s inp c = .needMore →
      DecodeSteps inp c s (.stopped s c)
  | raised (c : Nat) (s u : State) (e : Err) : s.ses.sstate = .active → decodeUnit s inp c = .raised u e →
      DecodeSteps inp c s (.raised u e c)
  | completed (c c' : Nat) (s s' : State) (r : LoopEnd) : s.ses.sstate = .active →
      decodeUnit s inp c = .completed s' c' → DecodeSteps inp c' s' r → DecodeSteps inp c s r

/-- The LZW encoder's byte steps over the bytes of a FEED, in order (45 R348): `LzwSteps j bytes s r` says that from s,
j bytes done, they end as r says, after the last byte or at the byte whose step raises an error. -/
inductive LzwSteps : (j : Nat) → List Byte → State → LoopEnd → Prop where
  | done (j : Nat) (s : State) : LzwSteps j [] s (.stopped s j)
  | next (j : Nat) (b : Byte) (bytes : List Byte) (s u : State) (r : LoopEnd) : lzwEncByte b s = .ok u →
      LzwSteps (j + 1) bytes u r → LzwSteps j (b :: bytes) s r
  | fails (j : Nat) (b : Byte) (bytes : List Byte) (s u : State) (e : Err) : lzwEncByte b s = .fail u e →
      LzwSteps j (b :: bytes) s (.raised u e j)

/-- The addresses a FEED stores to: the bytes it adds to the output (for an encoder, from the byte holding the first
new bit on) and the bytes it adds to the history (45 R355, R357; 44 R294). -/
def FeedStores (s t : State) (a : Nat) : Prop :=
  let first := if s.ses.isEncoder then s.ses.outBits.toNat / 8 else s.ses.outLen.toNat
  (s.ses.outBase.toNat + first ≤ a ∧ a < s.ses.outBase.toNat + t.ses.outLen.toNat) ∨
  (s.ses.histBase.toNat + s.ses.histLen.toNat ≤ a ∧ a < s.ses.histBase.toNat + t.ses.histLen.toNat)

/-- Reset has been taken (70 R420, R421): every register reads 0, nothing is latched, every slot is invalid, the bit
sequence and the session are released. -/
def ResetTaken (t : State) : Prop :=
  (∀ offset, t.readReg offset = 0) ∧ t.busy = false ∧ t.lcmd = 0 ∧ t.larg = Args.zero ∧
  (∀ k : Fin 4, t.huf[k].valid = false) ∧ t.bs = BitSeq.released ∧ t.ses = Session.released ∧ t.raced = []

/-! ### Encoding and decoding a list of symbols -/

/-- HUF_ENCODE on slot `k` of each symbol in turn, none when one of them ends in error (41 R174). -/
def encodeSymbols (k : Nat) : List Nat → State → Option State
  | [], s => some s
  | sym :: rest, s =>
    match exec (.hufEncode k) { s with larg := { s.larg with a0 := word sym } } with
    | .next t => if t.status.err then none else encodeSymbols k rest t
    | .fault _ => none
    | .refused _ => none

/-- HUF_DECODE_BS on slot `k` from bit index `i` on, "advancing by RES2 each time", until it matches nothing: the
symbols (41 R174). `fuel` bounds the number of symbols. -/
def decodeSymbols (k : Nat) : (fuel i : Nat) → State → List Nat
  | 0, _, _ => []
  | fuel + 1, i, s =>
    match exec (.hufDecodeBs k) { s with larg := { s.larg with a0 := word i } } with
    | .next t => if t.res0 = 1 then t.res1.toNat :: decodeSymbols k fuel (i + t.res2.toNat) t else []
    | .fault _ => []
    | .refused _ => []

/-! ### Invariants -/

/-- Buffer memory is in its canonical form and lists no address at or above MEM_SIZE; no address races outside it. -/
def MemoryOk (s : State) : Prop :=
  Memory.wf s.mem ∧ (∀ c ∈ s.mem, c.1 < memSize s.par) ∧ (∀ r ∈ s.raced, r.addr < memSize s.par)

/-- The record of racing host writes lists an address once. -/
def RacedOnce (s : State) : Prop := (s.raced.map RacedByte.addr).Nodup

/-- Host writes race only with an accepted command (20 R95), and each raced address is recorded once. -/
def RacesOk (s : State) : Prop := (s.busy = false → s.raced = []) ∧ RacedOnce s

/-- "MODE = NONE if and only if SSTATE = IDLE" (10 R39), SERR and st.serr_detail are 0 unless SSTATE = ERROR, and then
they are a reported error (10 R39, R48; 60 R381). -/
def SessionCtrlOk (s : State) : Prop :=
  (s.ses.mode = .none ↔ s.ses.sstate = .idle) ∧
  (s.ses.sstate ≠ .error → s.ses.serr = 0 ∧ s.ses.serrDetail = 0) ∧
  (s.ses.sstate = .error → (⟨s.ses.serr, s.ses.serrDetail⟩ : Err) ∈ Err.all)

/-- "ERR_DETAIL[15:8] = STATUS.ERR_CODE whenever ERR = 1" and only listed details are reported (60 R381); both are 0 when
ERR = 0 (10 R36, R37). -/
def ErrorFieldsOk (s : State) : Prop :=
  (s.status.err = false → s.status.errCode = 0 ∧ s.errDetail = 0) ∧
  (s.status.err = true → (⟨s.status.errCode, s.errDetail⟩ : Err) ∈ Err.all)

/-- The status fields and the session's stored error (10 R36, R37, R39; 60 R381). -/
def StatusOk (s : State) : Prop := ErrorFieldsOk s ∧ SessionCtrlOk s

/-- The bit sequence, the output and the history fit in buffer memory, and none is longer than its capacity
(10 R40, R42; 40 R146); an encoder's S_OUT_LEN is ceil(S_OUT_BITS / 8), a decoder's S_OUT_BITS is 8 S_OUT_LEN mod 2^32
(10 R40). -/
def RegionsOk (s : State) : Prop :=
  s.bs.base.toNat + s.bs.cap.toNat ≤ memSize s.par ∧ s.bs.bits.toNat ≤ 8 * s.bs.cap.toNat ∧
  s.ses.outBase.toNat + s.ses.outCap.toNat ≤ memSize s.par ∧ s.ses.outLen.toNat ≤ s.ses.outCap.toNat ∧
  s.ses.histBase.toNat + s.ses.histCap.toNat ≤ memSize s.par ∧ s.ses.histLen.toNat ≤ s.ses.histCap.toNat ∧
  (s.ses.isEncoder = true → s.ses.outLen.toNat = bytesOfBits s.ses.outBits.toNat) ∧
  (s.ses.isEncoder = false → s.ses.outBits = 8 * s.ses.outLen)

/-- What a session start fixes for the session's life: the output and the history share no byte (44 R290), and a DEFLATE
session is LSB-first (10 R39). -/
def SessionShapeOk (s : State) : Prop :=
  ¬ SharesByte s.ses.outBase.toNat s.ses.outCap.toNat s.ses.histBase.toNat s.ses.histCap.toNat ∧
  (s.ses.mode = .dflDec ∨ s.ses.mode = .dflEnc → s.ses.ord = .lsb)

/-- The LZW decoder's dictionary while an LZW decoder session exists (42 R208). -/
def LzwDecOk (s : State) : Prop :=
  s.ses.mode = .lzwDec →
    Config.lzwMinLit ≤ s.litWidth ∧ s.litWidth ≤ Config.lzwMaxLit ∧
    s.firstCode ≤ s.lz.size ∧ s.lz.size ≤ 2 ^ Config.lzwMaxWidth ∧
    s.litWidth + 1 ≤ s.lz.width ∧ s.lz.width ≤ Config.lzwMaxWidth ∧
    s.lz.strs.length = s.lz.size - s.firstCode ∧
    (∀ str ∈ s.lz.strs, 2 ≤ str.length ∧ ∀ b ∈ str.head?, b.toNat < 2 ^ s.litWidth) ∧
    (∀ p ∈ s.lz.prev, p < s.lz.size ∧ p ≠ s.clearCode ∧ p ≠ s.endCode)

/-- The LZW encoder's dictionary, match and shadow of the decoder while an LZW encoder session exists (42 R221 to R223):
every code is one of the dictionary's, the decoder's dictionary lags by the entry it adds one code later, and its size
stays below the point at which it would have read a wider code. -/
def LzwEncOk (s : State) : Prop :=
  s.ses.mode = .lzwEnc →
    Config.lzwMinLit ≤ s.litWidth ∧ s.litWidth ≤ Config.lzwMaxLit ∧
    s.firstCode ≤ s.le.size ∧ s.le.size ≤ 2 ^ Config.lzwMaxWidth ∧
    s.firstCode ≤ s.le.dsize ∧ s.le.dsize ≤ s.le.size ∧
    (s.ses.sstate = .active → s.le.dsize + s.le.dprev.toNat = s.le.size) ∧
    s.litWidth + 1 ≤ s.le.dwidth ∧ s.le.dwidth ≤ Config.lzwMaxWidth ∧
    (s.le.dwidth < Config.lzwMaxWidth → s.le.dsize + s.par.lzwEarlyChange.toNat < 2 ^ s.le.dwidth) ∧
    (∀ w ∈ s.le.w, w < s.le.size ∧ w ≠ s.clearCode ∧ w ≠ s.endCode) ∧
    (∀ e ∈ s.le.map, s.firstCode ≤ e.newCode ∧ e.newCode < s.le.size)

/-- The DEFLATE decoder's parse state while its session is ACTIVE (43 R257; the counts of a dynamic header, 43 R250). -/
def DflDecOk (s : State) : Prop :=
  s.ses.mode = .dflDec → s.ses.sstate = .active →
    (s.df.p = .storedData → 1 ≤ s.df.remaining ∧ s.df.remaining ≤ 65535) ∧
    (s.df.p = .dynClLen → s.df.cli < s.df.ncl ∧ s.df.ncl ≤ 19 ∧ s.df.clw.length = 19) ∧
    (s.df.p = .dynClLen ∨ s.df.p = .dynLens →
      257 ≤ s.df.nlit ∧ s.df.nlit ≤ 286 ∧ 1 ≤ s.df.ndist ∧ s.df.ndist ≤ 32 ∧ s.df.nlit + s.df.ndist ≤ 318) ∧
    (s.df.p = .dynLens → s.df.lens.length < s.df.nlit + s.df.ndist ∧ s.df.cltab.n = 19) ∧
    (s.df.p = .body → 257 ≤ s.df.lit.n ∧ 1 ≤ s.df.dist.n ∧ TableSized s.df.lit ∧ TableSized s.df.dist)

end Sys2Proof.Machine
end

