-- ==== Sys2Proof/Certificates/Slice0/Obligations.lean ====
section
/-! DEFINITION. The statements for the provers. Each is about every state unless it says otherwise; `Completes i s P` says that command i at s answers a next state with P. -/

open Sys2Proof Sys2Proof.Machine

/-! ### Encoding (30) -/

/-- Decoding the word of a well-formed command gives the command back, and a word that decodes is the encoding of what it
decodes to, so no bit of a word is ignored (30 R113, R116). -/
def Obligations.EncodeThenDecode : Prop :=
  (∀ i : Instr, i.wellFormed = true → decode (encode i) = .ok i) ∧
  ∀ (w : Word) (i : Instr), decode w = .ok i → i.wellFormed = true ∧ encode i = w

/-- 30 R113: the decoder answers a command exactly when a row of the opcode table matches, no two rows match one word,
and a word that no row matches raises INVALID_COMMAND, 0x0801 when its opcode is in no row and 0x0802 otherwise, with
no other effect. -/
def Obligations.DecodingIsTotal : Prop :=
  ∀ w : Word,
    (∀ i, decode w = .ok i → i.row ∈ opcodeRows ∧ w &&& i.row.mask = i.row.matchBits) ∧
    (∀ r ∈ opcodeRows, w &&& r.mask = r.matchBits → ∃ i, decode w = .ok i ∧ i.row = r) ∧
    (∀ r ∈ opcodeRows, ∀ r' ∈ opcodeRows,
      w &&& r.mask = r.matchBits → w &&& r'.mask = r'.matchBits → r = r') ∧
    ∀ s : State, s.busy = true → s.lcmd = w →
      ((∀ r ∈ opcodeRows, fieldOpc r.matchBits ≠ fieldOpc w) →
        ∃ t, engineTurn s = .next t ∧ RefusedWith (Err.ofDetail 0x0801) s t) ∧
      ((∃ r ∈ opcodeRows, fieldOpc r.matchBits = fieldOpc w) → (∀ r ∈ opcodeRows, w &&& r.mask ≠ r.matchBits) →
        ∃ t, engineTurn s = .next t ∧ RefusedWith (Err.ofDetail 0x0802) s t)

/-- 30 R116: the fields of an encoded command, and the rule's eight examples, encoded and decoded. -/
def Obligations.KnownCommandWords : Prop :=
  (∀ i : Instr, i.wellFormed = true →
    encode i = (word i.fieldB <<< 16) ||| (word i.fieldA <<< 8) ||| word i.opcode ∧ fieldRsv (encode i) = 0) ∧
  (encode (.bsInit .msb) = 0x00000101 ∧ decode 0x00000101 = .ok (.bsInit .msb)) ∧
  (encode (.bsAppend 5) = 0x00000502 ∧ decode 0x00000502 = .ok (.bsAppend 5)) ∧
  (encode (.lzwDecStart .lsb 8) = 0x00080020 ∧ decode 0x00080020 = .ok (.lzwDecStart .lsb 8)) ∧
  (encode (.lzwDecStart .msb 8) = 0x00080120 ∧ decode 0x00080120 = .ok (.lzwDecStart .msb 8)) ∧
  (encode (.dflEncStart 2) = 0x00000231 ∧ decode 0x00000231 = .ok (.dflEncStart 2)) ∧
  (encode (.feed true) = 0x00000140 ∧ decode 0x00000140 = .ok (.feed true)) ∧
  (encode (.feed false) = 0x00000040 ∧ decode 0x00000040 = .ok (.feed false)) ∧
  (encode (.hufBuildCanon 1) = 0x00000110 ∧ decode 0x00000110 = .ok (.hufBuildCanon 1))

/-! ### The engine and the host (10, 20, 70) -/

/-- 10 R45, R33; 60 R397; log 5: whichever way the engine's turn comes (nothing else to happen, the agenda's engine
turn, or the host waiting on BUSY), it runs the latched command and nothing else; an idle engine takes no step. -/
def Obligations.StepRunsTheLatchedCommand : Prop :=
  ∀ (s : State) (i : Instr) (rest : List Event),
    (s.busy = true → decode s.lcmd = .ok i →
      (s.agenda = [] → step s = exec i s) ∧
      (s.agenda = .engine :: rest → step s = exec i { s with agenda := rest }) ∧
      (s.agenda = .wait :: rest → step s = exec i s)) ∧
    (s.busy = false →
      (s.agenda = [] → step s = .next s) ∧
      (s.agenda = .engine :: rest → step s = .next { s with agenda := rest }) ∧
      (s.agenda = .wait :: rest → step s = .next { s with agenda := rest, hostData := s.statusWord }))

/-- 10 R33: a host write of w to CMD latches w and the operands and sets BUSY, or, while BUSY = 1, sets OVERRUN and
changes nothing else. -/
def Obligations.CommandWriteIsAcceptedOrIgnored : Prop :=
  ∀ (s : State) (w : Word) (rest : List Event), s.agenda = .regWrite 0x00 4 w :: rest →
    (s.busy = false →
      step s = .next { s with agenda := rest, cmd := w, lcmd := w, larg := s.arg, busy := true }) ∧
    (s.busy = true → step s = .next { s with agenda := rest, status := { s.status with overrun := true } })

/-- 70 R431, 10 R36: OVERRUN stays 1 until reset or SOFT_RESET, and only a CMD write while BUSY = 1 sets it. -/
def Obligations.OverrunIsSticky : Prop :=
  ∀ s t : State, step s = .next t →
    (s.status.overrun = true → t.status.overrun = false →
      (∃ rest, s.agenda = .reset :: rest ∨ s.agenda = .powerOn :: rest) ∨
      (s.busy = true ∧ decode s.lcmd = .ok .softReset)) ∧
    (s.status.overrun = false → t.status.overrun = true →
      s.busy = true ∧ ∃ w rest, s.agenda = .regWrite 0x00 4 w :: rest)

/-- 10 R30, R32, R34: of the registers other than CMD a host write changes only ARG0 to ARG3; a read returns the
register R32 places at the offset, and 0 at the reserved offsets 0x64 to 0xFC. -/
def Obligations.RegisterMap : Prop :=
  ∀ (s : State) (offset : Nat) (v : Word) (rest : List Event), offset % 4 = 0 → offset < 256 →
    (s.agenda = .regWrite offset 4 v :: rest →
      (offset = 0x04 → step s = .next { s with agenda := rest, arg := { s.arg with a0 := v } }) ∧
      (offset = 0x08 → step s = .next { s with agenda := rest, arg := { s.arg with a1 := v } }) ∧
      (offset = 0x0C → step s = .next { s with agenda := rest, arg := { s.arg with a2 := v } }) ∧
      (offset = 0x10 → step s = .next { s with agenda := rest, arg := { s.arg with a3 := v } }) ∧
      (0x14 ≤ offset → step s = .next { s with agenda := rest })) ∧
    (s.agenda = .regRead offset 4 :: rest → ∃ d : Word, step s = .next { s with agenda := rest, hostData := d } ∧
      (offset = 0x00 → d = s.cmd) ∧ (offset = 0x04 → d = s.arg.a0) ∧ (offset = 0x08 → d = s.arg.a1) ∧
      (offset = 0x0C → d = s.arg.a2) ∧ (offset = 0x10 → d = s.arg.a3) ∧ (offset = 0x14 → d = s.res0) ∧
      (offset = 0x18 → d = s.res1) ∧ (offset = 0x1C → d = s.res2) ∧ (offset = 0x20 → d = s.statusWord) ∧
      (offset = 0x24 → d = s.errDetail.zeroExtend 32) ∧ (offset = 0x28 → d = s.bs.base) ∧
      (offset = 0x2C → d = s.bs.cap) ∧ (offset = 0x30 → d = s.bs.bits) ∧ (offset = 0x34 → d = s.bs.ctrlWord) ∧
      (offset = 0x38 → d = s.ses.ctrlWord) ∧ (offset = 0x3C → d = s.ses.outBase) ∧
      (offset = 0x40 → d = s.ses.outCap) ∧ (offset = 0x44 → d = s.ses.outLen) ∧
      (offset = 0x48 → d = s.ses.outBits) ∧ (offset = 0x4C → d = s.ses.bitpos.zeroExtend 32) ∧
      (offset = 0x50 → d = s.ses.histBase) ∧ (offset = 0x54 → d = s.ses.histCap) ∧
      (offset = 0x58 → d = s.ses.histLen) ∧ (offset = 0x5C → d = s.ses.totalIn) ∧
      (offset = 0x60 → d = s.hufValidWord) ∧ (0x64 ≤ offset → d = 0))

/-- 10 R36, R38, R39, R44: where the fields of STATUS, BS_CTRL, S_CTRL and HUF_VALID stand, and the bits that are
always 0. -/
def Obligations.StatusWordFields : Prop :=
  ∀ s : State,
    (s.statusWord.getLsbD 0 = s.busy ∧ s.statusWord.getLsbD 1 = s.status.overrun ∧
      s.statusWord.getLsbD 2 = s.status.needMore ∧ s.statusWord.getLsbD 3 = s.status.done ∧
      s.statusWord.getLsbD 4 = s.status.err ∧ s.statusWord.extractLsb' 5 3 = 0 ∧
      s.statusWord.extractLsb' 8 5 = s.status.errCode ∧ s.statusWord.extractLsb' 13 19 = 0) ∧
    (s.bs.ctrlWord.getLsbD 0 = (s.bs.ord == .msb) ∧ s.bs.ctrlWord.getLsbD 1 = s.bs.valid ∧
      s.bs.ctrlWord.extractLsb' 2 30 = 0) ∧
    (s.ses.ctrlWord.extractLsb' 0 4 = (match s.ses.mode with
        | .none => 0#4 | .lzwDec => 1#4 | .lzwEnc => 2#4 | .dflDec => 3#4 | .dflEnc => 4#4) ∧
      s.ses.ctrlWord.getLsbD 4 = (s.ses.ord == .msb) ∧ s.ses.ctrlWord.extractLsb' 5 3 = 0 ∧
      s.ses.ctrlWord.extractLsb' 8 4 = s.ses.lit ∧ s.ses.ctrlWord.extractLsb' 12 2 = s.ses.bmode ∧
      s.ses.ctrlWord.extractLsb' 14 2 = 0 ∧
      s.ses.ctrlWord.extractLsb' 16 2 = (match s.ses.sstate with
        | .idle => 0#2 | .active => 1#2 | .done => 2#2 | .error => 3#2) ∧
      s.ses.ctrlWord.extractLsb' 18 6 = 0 ∧ s.ses.ctrlWord.extractLsb' 24 5 = s.ses.serr ∧
      s.ses.ctrlWord.extractLsb' 29 3 = 0) ∧
    (∀ k : Fin 4, s.hufValidWord.getLsbD k.val = s.huf[k].valid) ∧
    (∀ k : Nat, 4 ≤ k → s.hufValidWord.getLsbD k = false)

/-- 20 R88: a register access 32 bits wide at a multiple of 4 is a step of the machine, any other is refused. -/
def Obligations.RegisterAccessForm : Prop :=
  ∀ (s : State) (offset bytes : Nat) (v : Word) (rest : List Event), offset < 256 →
    (s.agenda = .regWrite offset bytes v :: rest ∨ s.agenda = .regRead offset bytes :: rest) →
    (bytes = 4 ∧ offset % 4 = 0 → ∃ t, step s = .next t) ∧
    (¬ (bytes = 4 ∧ offset % 4 = 0) → step s = .refused .registerAccessForm)

/-- 70 R420: what the reset input and power-on leave, and the state after reset. The number of a power-on, which names
its draw of memory, is the model's own (log 3, log 19), and that the reset input keeps what the host wrote while BUSY = 1
is read from R420 and R422 by inference (log 16). -/
def Obligations.ResetClearsEverything : Prop :=
  (∀ (s : State) (rest : List Event),
    (s.agenda = .reset :: rest → ∃ t, step s = .next t ∧ ResetTaken t ∧ t.par = s.par ∧ t.agenda = rest ∧
      MemorySame s t) ∧
    (s.agenda = .powerOn :: rest → ∃ t, step s = .next t ∧ ResetTaken t ∧ t.par = s.par ∧ t.agenda = rest ∧
      t.powerEpoch = s.powerEpoch + 1 ∧ ∀ a, t.hostByte a = Config.powerOnByte t.powerEpoch a)) ∧
  ResetTaken State.reset ∧ ∀ a, State.reset.hostByte a = Config.powerOnByte 0 a

/-- 20 R80, R82, R91, R95; 93 U7; log 11: a host write changes its byte and no other; while BUSY = 1 it leaves memory and
is recorded as racing, with the values the host wrote to the byte before (log 7); a host read returns the byte, and while
BUSY = 1 its value before or after the engine's transition; an address at or above MEM_SIZE does not exist. RacesOk rules
out states in which a host write races with no command; that steps keep it is StepKeepsStatusFields. -/
def Obligations.HostMemoryAccess : Prop :=
  ∀ (s : State) (a : Nat) (v : Byte) (rest : List Event), RacesOk s →
    (memSize s.par ≤ a → s.agenda = .memWrite a v :: rest ∨ s.agenda = .memRead a :: rest →
      step s = .fault .hostAddressAbsent) ∧
    (a < memSize s.par → s.agenda = .memWrite a v :: rest → ∃ t, step s = .next t ∧ t.hostByte a = v ∧
      MemorySameOutside (· = a) s t ∧ t = { s with agenda := rest, mem := t.mem, raced := t.raced } ∧
      (s.busy = false → t.raced = s.raced) ∧
      (s.busy = true → t.mem = s.mem ∧ (∀ b, b ≠ a → t.racedAt b = s.racedAt b) ∧
        (s.racedAt a = none → t.racedAt a = some ⟨a, v, [], false⟩) ∧
        (∀ r, s.racedAt a = some r → t.racedAt a = some { r with last := v, earlier := r.last :: r.earlier }))) ∧
    (a < memSize s.par → s.agenda = .memRead a :: rest → ∃ d : Byte,
      step s = .next { s with agenda := rest, hostData := d.zeroExtend 32, drawNo := s.drawNo + 1 } ∧
      (s.busy = false → d = s.hostByte a) ∧
      (s.busy = true → d = s.hostByte a ∨
        ∃ u, engineTurn { s with agenda := rest } = .next u ∧ d = u.hostByte a))

/-- 20 R95: an engine read of a byte the host wrote while BUSY = 1 gives the old or a written value, and at the
command's end the byte is the host's last value or, if the command wrote it too, the command's. -/
def Obligations.RacedByteIsEitherValue : Prop :=
  ∀ (s : State) (a : Nat), RacedOnce s →
    (s.racedAt a = none → (∀ site, s.engByte site a = s.memByte a) ∧ (finishCommand s).hostByte a = s.memByte a) ∧
    ∀ r, s.racedAt a = some r →
      (∀ site, s.engByte site a ∈ s.memByte a :: r.last :: r.earlier) ∧
      (r.engineWrote = false → (finishCommand s).hostByte a = r.last) ∧
      (r.engineWrote = true → (finishCommand s).hostByte a = r.last ∨ (finishCommand s).hostByte a = s.memByte a)

/-! ### The commands without operands (45) -/

/-- 45 R353. -/
def Obligations.NopClearsTheLastStatus : Prop :=
  ∀ s : State, Completes .nop s fun t => EndedClean s t ∧ ResultsAre t 0 0 0 ∧ OnlyResults s t

/-- 45 R342: SESSION_END clears S_CTRL, the S_ registers and st.serr_detail; S_CTRL.MODE = NONE leaves nothing to be
read of the codec state, which stays. -/
def Obligations.SessionEndReleasesTheSession : Prop :=
  ∀ s : State, Completes .sessionEnd s fun t =>
    EndedClean s t ∧ t.status.done = false ∧ ResultsAre t 0 0 0 ∧ OnlySession s t ∧ MemorySame s t ∧
    t.ses = Session.released

/-- 45 R354. -/
def Obligations.SoftResetClearsEverythingButMemory : Prop :=
  ∀ s : State, Completes .softReset s fun t =>
    ResetTaken t ∧ t.status = Status.zero ∧ MemorySame s t ∧ t.par = s.par ∧ t.agenda = s.agenda

/-! ### The bit sequence (40) -/

/-- 40 R143. -/
def Obligations.BsInitStartsAnEmptySequence : Prop :=
  ∀ (ord : BitOrder) (s : State),
    (memSize s.par < s.arg0 + s.arg1 → Completes (.bsInit ord) s (RefusedWith Err.addressRange s)) ∧
    (s.arg0 + s.arg1 ≤ memSize s.par → Completes (.bsInit ord) s fun t =>
      EndedClean s t ∧ ResultsAre t 0 0 0 ∧ OnlyBitSeq s t ∧ MemorySame s t ∧
      t.bs = { base := s.larg.a0, cap := s.larg.a1, bits := 0, ord := ord, valid := true })

/-- 40 R142, R144, R148: the checks in their order, and the field appended in the sequence's order. -/
def Obligations.BsAppendAppendsTheField : Prop :=
  ∀ (w : Nat) (s : State),
    (w < 1 ∨ 32 < w → Completes (.bsAppend w) s (RefusedWith Err.widthRange s)) ∧
    (1 ≤ w → w ≤ 32 → s.bs.valid = false → Completes (.bsAppend w) s (RefusedWith Err.noBitSeq s)) ∧
    (1 ≤ w → w ≤ 32 → s.bs.valid = true → 2 ^ w ≤ s.arg0 →
      Completes (.bsAppend w) s (RefusedWith Err.valueTooWide s)) ∧
    (1 ≤ w → w ≤ 32 → s.bs.valid = true → s.arg0 < 2 ^ w →
      (s.bs.cap.toNat < bytesOfBits (s.bs.bits.toNat + w) ∨ 2 ^ 32 - 1 < s.bs.bits.toNat + w →
        Completes (.bsAppend w) s (RefusedWith Err.bitSeqFull s)) ∧
      (bytesOfBits (s.bs.bits.toNat + w) ≤ s.bs.cap.toNat → s.bs.bits.toNat + w ≤ 2 ^ 32 - 1 →
        Completes (.bsAppend w) s fun t =>
          EndedClean s t ∧ ResultsAre t 0 0 0 ∧ OnlyBitSeq s t ∧
          AppendsBits w ((List.range w).map fun k => match s.bs.ord with
            | .lsb => s.arg0.testBit k
            | .msb => s.arg0.testBit (w - 1 - k)) s t))

/-- 40 R145; 20 R95 for a byte the host wrote while BUSY = 1. -/
def Obligations.BsReadBitReadsTheBit : Prop :=
  ∀ s : State,
    (s.bs.valid = false → Completes .bsReadBit s (RefusedWith Err.noBitSeq s)) ∧
    (s.bs.valid = true → s.bs.bits.toNat ≤ s.arg0 → Completes .bsReadBit s (RefusedWith Err.bitIndex s)) ∧
    (s.bs.valid = true → s.arg0 < s.bs.bits.toNat → Completes .bsReadBit s fun t =>
      EndedClean s t ∧ OnlyResults s t ∧
      ResultsAre t (s.bitAt [s.arg0] s.bs.ord s.bs.base.toNat s.arg0).toNat 0 0 ∧
      (s.raced = [] → ResultsAre t (s.seqBit s.arg0).toNat 0 0))

/-! ### The Huffman coder (41) -/

/-- 41 R162: when the construction fails, and the widths and codes of the table it builds. -/
def Obligations.CanonicalConstruction : Prop :=
  ∀ ws : List Nat,
    ((∃ w ∈ ws, 16 < w) → canon ws = .error (Err.ofDetail 0x0C01)) ∧
    ((∀ w ∈ ws, w ≤ 16) → 2 ^ 16 < ((ws.filter (0 < ·)).map fun w => 2 ^ (16 - w)).sum →
      canon ws = .error (Err.ofDetail 0x0C02)) ∧
    ((∀ w ∈ ws, w ≤ 16) → ((ws.filter (0 < ·)).map fun w => 2 ^ (16 - w)).sum ≤ 2 ^ 16 → ∃ t, canon ws = .ok t ∧
      t.widths = ws ∧ (∀ w ∈ ws, w ≤ t.maxw) ∧ (t.maxw = 0 ∨ t.maxw ∈ ws) ∧
      (∀ a, a < ws.length → ws.getD a 0 = 0 → (t.entry a).code = 0) ∧
      (∀ a, a < ws.length → 0 < ws.getD a 0 →
        (∀ b, b < ws.length → 0 < ws.getD b 0 → ¬ CanonBefore ws b a) → (t.entry a).code = 0) ∧
      (∀ a b, a < ws.length → b < ws.length → 0 < ws.getD a 0 → CanonBefore ws a b →
        (∀ c, c < ws.length → CanonBefore ws a c → ¬ CanonBefore ws c b) →
        (t.entry b).code = ((t.entry a).code + 1) <<< (ws.getD b 0 - ws.getD a 0)))

/-- 41 R161 for canonical construction: the codes fit their widths and form a prefix code. -/
def Obligations.CanonicalCodesArePrefixFree : Prop :=
  ∀ (ws : List Nat) (t : HufTable), canon ws = .ok t →
    PrefixFree t ∧ ∀ s, s < t.n → (t.entry s).code < 2 ^ (t.entry s).width

/-- 41 R161 and R164 for weighted construction: exactly the symbols of non-zero weight get a code, a width is at most
maxw, the codes fit their widths and form a prefix code; a single symbol gets the code 0 of width 1, and of two or more
each gets its path in the tree that merging the two least (weight, seq) nodes, the first one as child 0, builds. -/
def Obligations.WeightedCodesArePrefixFree : Prop :=
  ∀ wts : List Nat,
    (∀ s, s < wts.length → wts.getD s 0 = 0 → (weightedTree wts).entry s = ⟨0, 0⟩) ∧
    (∀ leaf, queueLeaves wts = [leaf] → ∀ p ∈ leaf.tree.paths, (weightedTree wts).entry p.1 = ⟨1, 0⟩) ∧
    (2 ≤ (queueLeaves wts).length → ∃ root, MergesTo (queueLeaves wts).length (queueLeaves wts) root ∧
      ∀ p ∈ root.tree.paths, (weightedTree wts).entry p.1 = ⟨p.2.length, fieldValue .msb p.2⟩) ∧
    (weightedTree wts).maxw = maxWidth (weightedTree wts).widths ∧
    (weightedTree wts).n = wts.length ∧ PrefixFree (weightedTree wts) ∧
    ∀ s, s < wts.length →
      (0 < ((weightedTree wts).entry s).width ↔ 0 < wts.getD s 0) ∧
      ((weightedTree wts).entry s).width ≤ (weightedTree wts).maxw ∧
      ((weightedTree wts).entry s).code < 2 ^ ((weightedTree wts).entry s).width

/-- 41 R163, 20 R89, R98: the checks in their order; the table or the construction's error comes from the n bytes at
ARG0; a failed construction invalidates its slot and nothing else. -/
def Obligations.HufBuildCanonFillsItsSlot : Prop :=
  ∀ (slot : Nat) (s : State),
    (4 ≤ slot → Completes (.hufBuildCanon slot) s (RefusedWith Err.slotRange s)) ∧
    ∀ k : Fin 4, slot = k.val →
      (s.arg1 < 1 ∨ 288 < s.arg1 → Completes (.hufBuildCanon slot) s (RefusedWith Err.symbolCount s)) ∧
      (1 ≤ s.arg1 → s.arg1 ≤ 288 →
        (memSize s.par < s.arg0 + s.arg1 → Completes (.hufBuildCanon slot) s (RefusedWith Err.addressRange s)) ∧
        (s.arg0 + s.arg1 ≤ memSize s.par →
          (s.raced = [] → s.readWidths s.arg0 s.arg1 =
            (List.range s.arg1).map fun j => (s.hostByte (s.arg0 + j)).toNat) ∧
          (∀ t, canon (s.readWidths s.arg0 s.arg1) = .ok t → Completes (.hufBuildCanon slot) s fun u =>
            EndedClean s u ∧ ResultsAre u 0 0 0 ∧ OnlySlots s u ∧ MemorySame s u ∧
            u.huf[k] = ⟨true, t⟩ ∧ ∀ j : Fin 4, j ≠ k → u.huf[j] = s.huf[j]) ∧
          (∀ e, canon (s.readWidths s.arg0 s.arg1) = .error e → Completes (.hufBuildCanon slot) s fun u =>
            EndedInError e s u ∧ ResultsAre u 0 0 0 ∧ OnlySlots s u ∧ MemorySame s u ∧
            u.huf[k].valid = false ∧ ∀ j : Fin 4, j ≠ k → u.huf[j] = s.huf[j])))

/-- 41 R165, 20 R83: as HUF_BUILD_CANON, from n little-endian 32-bit weights at ARG0; a tree deeper than 16 is error
0x0C03. -/
def Obligations.HufBuildWeightedFillsItsSlot : Prop :=
  ∀ (slot : Nat) (s : State),
    (4 ≤ slot → Completes (.hufBuildWeighted slot) s (RefusedWith Err.slotRange s)) ∧
    ∀ k : Fin 4, slot = k.val →
      (s.arg1 < 1 ∨ 288 < s.arg1 → Completes (.hufBuildWeighted slot) s (RefusedWith Err.symbolCount s)) ∧
      (1 ≤ s.arg1 → s.arg1 ≤ 288 →
        (memSize s.par < s.arg0 + 4 * s.arg1 →
          Completes (.hufBuildWeighted slot) s (RefusedWith Err.addressRange s)) ∧
        (s.arg0 + 4 * s.arg1 ≤ memSize s.par →
          (s.raced = [] → s.readWeights s.arg0 s.arg1 = (List.range s.arg1).map fun j =>
            (s.hostByte (s.arg0 + 4 * j)).toNat + 256 * (s.hostByte (s.arg0 + 4 * j + 1)).toNat +
            65536 * (s.hostByte (s.arg0 + 4 * j + 2)).toNat + 16777216 * (s.hostByte (s.arg0 + 4 * j + 3)).toNat) ∧
          ((weightedTree (s.readWeights s.arg0 s.arg1)).maxw ≤ 16 → Completes (.hufBuildWeighted slot) s fun u =>
            EndedClean s u ∧ ResultsAre u 0 0 0 ∧ OnlySlots s u ∧ MemorySame s u ∧
            u.huf[k] = ⟨true, weightedTree (s.readWeights s.arg0 s.arg1)⟩ ∧
            ∀ j : Fin 4, j ≠ k → u.huf[j] = s.huf[j]) ∧
          (16 < (weightedTree (s.readWeights s.arg0 s.arg1)).maxw → Completes (.hufBuildWeighted slot) s fun u =>
            EndedInError (Err.ofDetail 0x0C03) s u ∧ ResultsAre u 0 0 0 ∧ OnlySlots s u ∧ MemorySame s u ∧
            u.huf[k].valid = false ∧ ∀ j : Fin 4, j ≠ k → u.huf[j] = s.huf[j])))

/-- 41 R167. -/
def Obligations.HufGetCodeReturnsCodeAndWidth : Prop :=
  ∀ (slot : Nat) (s : State),
    (4 ≤ slot → Completes (.hufGetCode slot) s (RefusedWith Err.slotRange s)) ∧
    ∀ k : Fin 4, slot = k.val →
      (s.huf[k].valid = false → Completes (.hufGetCode slot) s (RefusedWith Err.slotInvalid s)) ∧
      (s.huf[k].valid = true → s.huf[k].table.n ≤ s.arg0 →
        Completes (.hufGetCode slot) s (RefusedWith Err.noSymbol s)) ∧
      (s.huf[k].valid = true → s.arg0 < s.huf[k].table.n → Completes (.hufGetCode slot) s fun t =>
        EndedClean s t ∧ OnlyResults s t ∧
        ResultsAre t (s.huf[k].table.entry s.arg0).code (s.huf[k].table.entry s.arg0).width 0)

/-- 41 R173, R172; 40 R149: the checks in their order; the code is appended most significant bit first under either
order. 30 R118: the operand with which BS_APPEND_CODE appends a code by hand gives the same bits under either order. -/
def Obligations.HufEncodeAppendsTheCode : Prop :=
  (∀ (ord : BitOrder) (width code : Nat), code < 2 ^ width → codeOperand ord width code < 2 ^ width ∧
    ((List.range width).map fun k => match ord with
      | .lsb => (codeOperand ord width code).testBit k
      | .msb => (codeOperand ord width code).testBit (width - 1 - k)) =
    (List.range width).map fun k => code.testBit (width - 1 - k)) ∧
  ∀ (slot : Nat) (s : State),
    (4 ≤ slot → Completes (.hufEncode slot) s (RefusedWith Err.slotRange s)) ∧
    ∀ (k : Fin 4) (c : HufCode), slot = k.val → c = s.huf[k].table.entry s.arg0 →
      (s.huf[k].valid = false → Completes (.hufEncode slot) s (RefusedWith Err.slotInvalid s)) ∧
      (s.huf[k].valid = true → s.bs.valid = false → Completes (.hufEncode slot) s (RefusedWith Err.noBitSeq s)) ∧
      (s.huf[k].valid = true → s.bs.valid = true → s.huf[k].table.n ≤ s.arg0 ∨ c.width = 0 →
        Completes (.hufEncode slot) s (RefusedWith Err.noSymbol s)) ∧
      (s.huf[k].valid = true → s.bs.valid = true → s.arg0 < s.huf[k].table.n → 0 < c.width →
        (s.bs.cap.toNat < bytesOfBits (s.bs.bits.toNat + c.width) ∨ 2 ^ 32 - 1 < s.bs.bits.toNat + c.width →
          Completes (.hufEncode slot) s (RefusedWith Err.bitSeqFull s)) ∧
        (bytesOfBits (s.bs.bits.toNat + c.width) ≤ s.bs.cap.toNat → s.bs.bits.toNat + c.width ≤ 2 ^ 32 - 1 →
          Completes (.hufEncode slot) s fun t =>
            EndedClean s t ∧ ResultsAre t c.code c.width 0 ∧ OnlyBitSeq s t ∧
            AppendsBits c.width ((List.range c.width).map fun j => c.code.testBit (c.width - 1 - j)) s t))

/-- 41 R169: a match is the shortest matching prefix and there is one whenever some prefix matches; without one the
bits are malformed exactly when there are more of them than maxw. -/
def Obligations.LookupFindsTheShortestPrefix : Prop :=
  ∀ (t : HufTable) (v n : Nat),
    (∀ a k, t.lookup v n = .found a k →
      1 ≤ k ∧ k ≤ n ∧ k ≤ t.maxw ∧ MatchesPrefix t v n k a ∧
      ∀ j b, 1 ≤ j → j < k → ¬ MatchesPrefix t v n j b) ∧
    (∀ a k, 1 ≤ k → k ≤ n → k ≤ t.maxw → MatchesPrefix t v n k a → ∃ b j, t.lookup v n = .found b j) ∧
    ((∀ a k, 1 ≤ k → k ≤ n → k ≤ t.maxw → ¬ MatchesPrefix t v n k a) →
      t.lookup v n = if t.maxw < n then .malformed else .needMore)

/-- 41 R170. -/
def Obligations.HufMatchReportsTheLookup : Prop :=
  ∀ (slot : Nat) (s : State),
    (4 ≤ slot → Completes (.hufMatch slot) s (RefusedWith Err.slotRange s)) ∧
    ∀ k : Fin 4, slot = k.val →
      (s.huf[k].valid = false → Completes (.hufMatch slot) s (RefusedWith Err.slotInvalid s)) ∧
      (s.huf[k].valid = true → 32 < s.arg1 → Completes (.hufMatch slot) s (RefusedWith Err.bitCount s)) ∧
      (s.huf[k].valid = true → s.arg1 < 32 → 2 ^ s.arg1 ≤ s.arg0 →
        Completes (.hufMatch slot) s (RefusedWith Err.valueTooWide s)) ∧
      (s.huf[k].valid = true → s.arg1 ≤ 32 → s.arg0 < 2 ^ s.arg1 →
        (∀ a j, s.huf[k].table.lookup s.arg0 s.arg1 = .found a j → Completes (.hufMatch slot) s fun t =>
          EndedClean s t ∧ OnlyResults s t ∧ ResultsAre t 1 a j) ∧
        (s.huf[k].table.lookup s.arg0 s.arg1 = .needMore → Completes (.hufMatch slot) s fun t =>
          EndedClean s t ∧ OnlyResults s t ∧ ResultsAre t 0 0 0) ∧
        (s.huf[k].table.lookup s.arg0 s.arg1 = .malformed →
          Completes (.hufMatch slot) s (RefusedWith Err.noCode s)))

/-- 41 R171: HUF_DECODE_BS answers what the lookup answers on the next bits of the sequence, first bit most
significant: as many as remain, and no more than maxw + 1. -/
def Obligations.HufDecodeBsReadsTheSequence : Prop :=
  ∀ (slot : Nat) (s : State),
    (4 ≤ slot → Completes (.hufDecodeBs slot) s (RefusedWith Err.slotRange s)) ∧
    ∀ (k : Fin 4) (m : Nat) (r : MatchResult), slot = k.val →
      m = min (s.bs.bits.toNat - s.arg0) (s.huf[k].table.maxw + 1) →
      r = s.huf[k].table.lookup (fieldValue .msb ((List.range m).map fun j =>
        s.bitAt [j] s.bs.ord s.bs.base.toNat (s.arg0 + j))) m →
      (s.huf[k].valid = false → Completes (.hufDecodeBs slot) s (RefusedWith Err.slotInvalid s)) ∧
      (s.huf[k].valid = true → s.bs.valid = false →
        Completes (.hufDecodeBs slot) s (RefusedWith Err.noBitSeq s)) ∧
      (s.huf[k].valid = true → s.bs.valid = true → s.bs.bits.toNat < s.arg0 →
        Completes (.hufDecodeBs slot) s (RefusedWith Err.bitIndex s)) ∧
      (s.huf[k].valid = true → s.bs.valid = true → s.arg0 ≤ s.bs.bits.toNat →
        (∀ a j, r = .found a j → Completes (.hufDecodeBs slot) s fun t =>
          EndedClean s t ∧ OnlyResults s t ∧ ResultsAre t 1 a j) ∧
        (r = .needMore → Completes (.hufDecodeBs slot) s fun t =>
          EndedClean s t ∧ OnlyResults s t ∧ ResultsAre t 0 0 0) ∧
        (r = .malformed → Completes (.hufDecodeBs slot) s (RefusedWith Err.noCode s)))

/-- 41 R174: the symbols HUF_ENCODE appended to an empty bit sequence without error come back from HUF_DECODE_BS, one
by one from index 0, and then nothing more matches. The slot's table is a prefix code of the sizes a build gives. -/
def Obligations.HuffmanRoundTrip : Prop :=
  ∀ (k : Fin 4) (syms : List Nat) (s t : State),
    s.raced = [] → s.huf[k].valid = true → TableSized s.huf[k].table → PrefixFree s.huf[k].table →
    s.bs.valid = true → s.bs.bits = 0 → (∀ a ∈ syms, a < 2 ^ 32) →
    encodeSymbols k.val syms s = some t →
    ∀ fuel, syms.length < fuel → decodeSymbols k.val fuel 0 t = syms

/-! ### The LZ77 matcher and the DEFLATE tables (43, 44) -/

/-- 44 R292: LZ77_MATCH answers the longest match, the nearest of equal ones. -/
def Obligations.Lz77MatchIsLongestAndNearest : Prop :=
  ∀ s : State,
    (s.arg2 < s.arg1 → Completes .lz77Match s (RefusedWith Err.matchPosition s)) ∧
    (s.arg1 ≤ s.arg2 → memSize s.par < s.arg0 + s.arg2 → Completes .lz77Match s (RefusedWith Err.addressRange s)) ∧
    (s.arg1 ≤ s.arg2 → s.arg0 + s.arg2 ≤ memSize s.par → ∃ l d, Completes .lz77Match s fun t =>
      EndedClean s t ∧ OnlyResults s t ∧ ResultsAre t l d 0 ∧
      (s.raced = [] → LongestMatch s s.arg0 s.arg1 s.arg2 l d))

/-- 44 R295: LenSym and DistSym give the largest symbol whose base does not exceed the value, and the extra value is the
rest, which fits the symbol's extra bits. The bases and extra-bit counts are those of the tables of 43 R241 and R242. -/
def Obligations.LengthAndDistanceSymbols : Prop :=
  ((List.range 29).map (fun k => lenBase (257 + k)) = [3, 4, 5, 6, 7, 8, 9, 10, 11, 13, 15, 17, 19, 23, 27, 31,
    35, 43, 51, 59, 67, 83, 99, 115, 131, 163, 195, 227, 258] ∧
   (List.range 29).map (fun k => lenExtra (257 + k)) = [0, 0, 0, 0, 0, 0, 0, 0, 1, 1, 1, 1, 2, 2, 2, 2,
    3, 3, 3, 3, 4, 4, 4, 4, 5, 5, 5, 5, 0] ∧
   (List.range 30).map distBase = [1, 2, 3, 4, 5, 7, 9, 13, 17, 25, 33, 49, 65, 97, 129, 193, 257, 385, 513, 769,
    1025, 1537, 2049, 3073, 4097, 6145, 8193, 12289, 16385, 24577] ∧
   (List.range 30).map distExtra = [0, 0, 0, 0, 1, 1, 2, 2, 3, 3, 4, 4, 5, 5, 6, 6, 7, 7, 8, 8, 9, 9, 10, 10,
    11, 11, 12, 12, 13, 13]) ∧
  (∀ l, 3 ≤ l → l ≤ 258 →
    lenBase (lenSym l).1 + (lenSym l).2 = l ∧ (lenSym l).2 < 2 ^ lenExtra (lenSym l).1 ∧
    (l = 258 → lenSym l = (285, 0)) ∧
    (l ≤ 257 → 257 ≤ (lenSym l).1 ∧ (lenSym l).1 ≤ 284 ∧
      ∀ s, 257 ≤ s → s ≤ 284 → lenBase s ≤ l → s ≤ (lenSym l).1)) ∧
  (∀ d, 1 ≤ d → d ≤ 32768 →
    distBase (distSym d).1 + (distSym d).2 = d ∧ (distSym d).2 < 2 ^ distExtra (distSym d).1 ∧
    (distSym d).1 ≤ 29 ∧ ∀ j, j ≤ 29 → distBase j ≤ d → j ≤ (distSym d).1)

/-- 43 R244: the widths and codes of the two fixed tables. -/
def Obligations.FixedTables : Prop :=
  fixedLit.n = 288 ∧ fixedDist.n = 30 ∧
  (∀ a, a < 144 → fixedLit.entry a = ⟨8, 0x30 + a⟩) ∧
  (∀ a, 144 ≤ a → a < 256 → fixedLit.entry a = ⟨9, 0x190 + (a - 144)⟩) ∧
  (∀ a, 256 ≤ a → a < 280 → fixedLit.entry a = ⟨7, a - 256⟩) ∧
  (∀ a, 280 ≤ a → a < 288 → fixedLit.entry a = ⟨8, 0xC0 + (a - 280)⟩) ∧
  (∀ a, a < 30 → fixedDist.entry a = ⟨5, a⟩)

/-- 44 R302 and 43 R250 to R252: the run-length coding of a list of widths is the runs that R302 prescribes, it is read
back as those widths, and the decoder
reads the header of a dynamic block: DYN_COUNTS its three counts, DYN_CLLEN one code-length width, DYN_LENS one
code-length symbol with its extra bits as the widths it stands for, until all widths are there and the tables are
built. -/
def Obligations.WidthRunsReadBack : Prop :=
  (∀ ws : List Nat, RunsOf ws (rle ws)) ∧
  (∀ ws : List Nat, (∀ w ∈ ws, w < 16) →
    expandRuns [] (rle ws) = ws ∧ ∀ r ∈ rle ws, r.1 ≤ 18 ∧ r.2 < 2 ^ clExtra r.1) ∧
  (∀ (s : State) (inp : Input) (sym c e c' : Nat), sym ≤ 18 → inField s inp (clExtra sym) c = .got e c' →
    (sym = 16 → s.df.lens = [] → dynLensAdd s inp sym c = .bad Err.noPreviousWidth) ∧
    (¬ (sym = 16 ∧ s.df.lens = []) → dynLensAdd s inp sym c = .got (expandRun s.df.lens (sym, e)) c')) ∧
  (∀ (s : State) (inp : Input) (c : Nat), s.df.p = .dynCounts →
    (8 * inp.len < c + 14 → dflDecUnit s inp c = .needMore) ∧
    ∀ hlit hdist hclen, inField s inp 5 c = .got hlit (c + 5) → inField s inp 5 (c + 5) = .got hdist (c + 10) →
      inField s inp 4 (c + 10) = .got hclen (c + 14) →
      (29 < hlit → dflDecUnit s inp c = .raised s (Err.ofDetail 0x0102)) ∧
      (hlit ≤ 29 → dflDecUnit s inp c = .completed { s with df := { s.df with
        nlit := hlit + 257, ndist := hdist + 1, ncl := hclen + 4, clw := List.replicate 19 0, cli := 0,
        p := .dynClLen } } (c + 14))) ∧
  (∀ (s : State) (inp : Input) (c : Nat), s.df.p = .dynClLen →
    (8 * inp.len < c + 3 → dflDecUnit s inp c = .needMore) ∧
    ∀ w clw, inField s inp 3 c = .got w (c + 3) →
      clw = s.df.clw.set ([16, 17, 18, 0, 8, 7, 9, 6, 10, 5, 11, 4, 12, 3, 13, 2, 14, 1, 15].getD s.df.cli 0) w →
      (s.df.cli + 1 ≠ s.df.ncl → dflDecUnit s inp c =
        .completed { s with df := { s.df with clw := clw, cli := s.df.cli + 1 } } (c + 3)) ∧
      (s.df.cli + 1 = s.df.ncl →
        (∀ e, canon clw = .error e → ∃ u, dflDecUnit s inp c = .raised u (Err.ofDetail 0x0103) ∧
          u = { s with df := u.df }) ∧
        ∀ t, canon clw = .ok t → dflDecUnit s inp c = .completed { s with df := { s.df with
          clw := clw, cli := s.df.cli + 1, cltab := t, lens := [], p := .dynLens } } (c + 3))) ∧
  ∀ (s : State) (inp : Input) (c : Nat), s.df.p = .dynLens →
    (decodeSym s inp s.df.cltab c = .needMore → dflDecUnit s inp c = .needMore) ∧
    (∀ e, decodeSym s inp s.df.cltab c = .bad e → dflDecUnit s inp c = .raised s e) ∧
    ∀ sym c1, sym ≤ 18 → decodeSym s inp s.df.cltab c = .got sym c1 →
      (8 * inp.len < c1 + clExtra sym → 0 < clExtra sym → dflDecUnit s inp c = .needMore) ∧
      ∀ e c2 lens, inField s inp (clExtra sym) c1 = .got e c2 → lens = s.df.lens ++ expandRun s.df.lens (sym, e) →
        (sym = 16 → s.df.lens = [] → dflDecUnit s inp c = .raised s (Err.ofDetail 0x0104)) ∧
        (¬ (sym = 16 ∧ s.df.lens = []) →
          (s.df.nlit + s.df.ndist < lens.length → dflDecUnit s inp c = .raised s (Err.ofDetail 0x0105)) ∧
          (lens.length < s.df.nlit + s.df.ndist →
            dflDecUnit s inp c = .completed { s with df := { s.df with lens := lens } } c2) ∧
          (lens.length = s.df.nlit + s.df.ndist →
            (∀ lit dist, canon (lens.take s.df.nlit) = .ok lit → canon (lens.drop s.df.nlit) = .ok dist →
              dflDecUnit s inp c = .completed { s with df := { s.df with
                lens := lens, lit := lit, dist := dist, p := .body } } c2) ∧
            (∀ e', canon (lens.take s.df.nlit) = .error e' ∨ canon (lens.drop s.df.nlit) = .error e' →
              ∃ u, dflDecUnit s inp c = .raised u (Err.ofDetail 0x0106) ∧ u = { s with df := u.df })))

/-! ### Session starts (42, 43, 44) -/

/-- 42 R202, R203; 43 R240; 45 R341. -/
def Obligations.DecoderStartsOpenASession : Prop :=
  (∀ (ord : BitOrder) (lit : Nat) (s : State),
    (lit < 2 ∨ 8 < lit → Completes (.lzwDecStart ord lit) s (RefusedWith Err.litWidth s)) ∧
    (2 ≤ lit → lit ≤ 8 → memSize s.par < s.arg0 + s.arg1 →
      Completes (.lzwDecStart ord lit) s (RefusedWith Err.addressRange s)) ∧
    (2 ≤ lit → lit ≤ 8 → s.arg0 + s.arg1 ≤ memSize s.par → Completes (.lzwDecStart ord lit) s fun t =>
      EndedClean s t ∧ t.status.done = false ∧ ResultsAre t 0 0 0 ∧ OnlySession s t ∧ MemorySame s t ∧
      t.ses = { Session.released with mode := .lzwDec, ord := ord, lit := BitVec.ofNat 4 lit, sstate := .active,
                                      outBase := s.larg.a0, outCap := s.larg.a1 } ∧
      t.lz = { size := 2 ^ lit + 2, width := lit + 1, prev := none, strs := [] })) ∧
  ∀ s : State,
    (memSize s.par < s.arg0 + s.arg1 → Completes .dflDecStart s (RefusedWith Err.addressRange s)) ∧
    (s.arg0 + s.arg1 ≤ memSize s.par → Completes .dflDecStart s fun t =>
      EndedClean s t ∧ ResultsAre t 0 0 0 ∧ OnlySession s t ∧ MemorySame s t ∧
      t.ses = { Session.released with mode := .dflDec, sstate := .active, outBase := s.larg.a0, outCap := s.larg.a1 } ∧
      t.df.p = .header ∧ t.df.final = false)

/-- 42 R220, R221: the clear code of L + 1 bits is the whole output, and the bits of its last byte after it are 0. That
it is written at width L + 1 is read from the rule's corner case (log 13). -/
def Obligations.LzwEncStartEmitsTheClearCode : Prop :=
  ∀ (ord : BitOrder) (lit : Nat) (s : State),
    (lit < 2 ∨ 8 < lit → Completes (.lzwEncStart ord lit) s (RefusedWith Err.litWidth s)) ∧
    (2 ≤ lit → lit ≤ 8 → memSize s.par < s.arg0 + s.arg1 →
      Completes (.lzwEncStart ord lit) s (RefusedWith Err.addressRange s)) ∧
    (2 ≤ lit → lit ≤ 8 → s.arg0 + s.arg1 ≤ memSize s.par → s.arg1 < bytesOfBits (lit + 1) →
      Completes (.lzwEncStart ord lit) s (RefusedWith Err.outputFull s)) ∧
    (2 ≤ lit → lit ≤ 8 → s.arg0 + s.arg1 ≤ memSize s.par → bytesOfBits (lit + 1) ≤ s.arg1 →
      Completes (.lzwEncStart ord lit) s fun t =>
        EndedClean s t ∧ ResultsAre t 0 0 0 ∧ OnlySession s t ∧
        t.ses = { Session.released with
          mode := .lzwEnc, ord := ord, lit := BitVec.ofNat 4 lit, sstate := .active, outBase := s.larg.a0,
          outCap := s.larg.a1, outBits := word (lit + 1), outLen := word (bytesOfBits (lit + 1)) } ∧
        t.le = { map := [], size := 2 ^ lit + 2, w := none, dsize := 2 ^ lit + 2, dwidth := lit + 1, dprev := false } ∧
        MemorySameOutside (InRegion s.arg0 (bytesOfBits (lit + 1))) s t ∧
        (s.raced = [] →
          (∀ i, i < lit + 1 → t.streamBit ord s.arg0 i = match ord with
            | .lsb => decide (i = lit)
            | .msb => decide (i = 0)) ∧
          (∀ i, lit + 1 ≤ i → i < ceil8 (lit + 1) → t.streamBit ord s.arg0 i = false)))

/-- 44 R290. -/
def Obligations.DflEncStartOpensAnEncoder : Prop :=
  ∀ (mode : Nat) (s : State),
    (2 < mode → Completes (.dflEncStart mode) s (RefusedWith Err.blockMode s)) ∧
    (mode ≤ 2 → memSize s.par < s.arg0 + s.arg1 ∨ memSize s.par < s.arg2 + s.arg3 →
      Completes (.dflEncStart mode) s (RefusedWith Err.addressRange s)) ∧
    (mode ≤ 2 → s.arg0 + s.arg1 ≤ memSize s.par → s.arg2 + s.arg3 ≤ memSize s.par →
      (SharesByte s.arg0 s.arg1 s.arg2 s.arg3 → Completes (.dflEncStart mode) s (RefusedWith Err.overlap s)) ∧
      (¬ SharesByte s.arg0 s.arg1 s.arg2 s.arg3 → Completes (.dflEncStart mode) s fun t =>
        EndedClean s t ∧ ResultsAre t 0 0 0 ∧ OnlySession s t ∧ MemorySame s t ∧
        t.ses = { Session.released with
          mode := .dflEnc, bmode := BitVec.ofNat 2 mode, sstate := .active, outBase := s.larg.a0,
          outCap := s.larg.a1, histBase := s.larg.a2, histCap := s.larg.a3 }))

/-! ### FEED (45) -/

/-- 45 R343: FEED's three command checks, in their order, which leave the session unchanged. -/
def Obligations.FeedChecksItsOperands : Prop :=
  ∀ (complete : Bool) (s : State),
    (s.ses.mode = .none → Completes (.feed complete) s (RefusedWith Err.noSession s)) ∧
    (s.ses.mode ≠ .none → memSize s.par < s.arg0 + s.arg1 →
      Completes (.feed complete) s (RefusedWith Err.addressRange s)) ∧
    (s.ses.mode ≠ .none → s.arg0 + s.arg1 ≤ memSize s.par →
      SharesByte s.arg0 s.arg1 s.ses.outBase.toNat s.ses.outCap.toNat ∨
        SharesByte s.arg0 s.arg1 s.ses.histBase.toNat s.ses.histCap.toNat →
      Completes (.feed complete) s (RefusedWith Err.overlap s))

/-- 45 R344: FEED of a session that has ended reads nothing and changes nothing. -/
def Obligations.FeedAfterTheEnd : Prop :=
  ∀ (complete : Bool) (s : State), FeedAccepted s →
    (s.ses.sstate = .done → Completes (.feed complete) s fun t =>
      EndedClean s t ∧ t.status.done = true ∧ ResultsAre t 0 0 s.ses.outLen.toNat ∧ OnlyResults s t) ∧
    (s.ses.sstate = .error → Completes (.feed complete) s fun t =>
      EndedInError ⟨s.ses.serr, s.ses.serrDetail⟩ s t ∧ ResultsAre t 0 0 s.ses.outLen.toNat ∧ OnlyResults s t)

/-- 45 R349, R358; 10 R40 to R43: what FEED of an ACTIVE session reports, with or without an error, and that nothing
outside the session changes. -/
def Obligations.FeedReportsWhatItDid : Prop :=
  ∀ (complete : Bool) (s : State), FeedAccepted s → s.ses.sstate = .active →
    Completes (.feed complete) s fun t =>
      t.res0.toNat ≤ s.arg1 ∧ t.res1 = t.ses.outLen - s.ses.outLen ∧ t.res2 = t.ses.outLen ∧
      t.ses.totalIn = s.ses.totalIn + t.res0 ∧ SessionSetupSame s t ∧ OnlySession s t ∧
      t.busy = false ∧ t.raced = [] ∧ t.status.overrun = s.status.overrun ∧
      t.status.done = (t.ses.sstate == .done) ∧
      t.status.needMore = (!t.status.err && t.ses.sstate == .active) ∧
      (t.status.err = false → t.status.errCode = 0 ∧ t.errDetail = 0 ∧ t.ses.sstate ≠ .error) ∧
      (t.status.err = true → t.status.errCode = t.ses.serr ∧ t.errDetail = t.ses.serrDetail ∧
        t.ses.sstate = .error ∧ t.ses.bitpos = 0)

/-- 45 R355, R357; 44 R294; 20 R101: FEED stores only to the output it adds and the history it adds. -/
def Obligations.FeedStoresOnlyWhatItAdds : Prop :=
  ∀ (complete : Bool) (s : State), RegionsOk s → FeedAccepted s → s.ses.sstate = .active →
    Completes (.feed complete) s fun t =>
      MemorySameOutside (FeedStores s t) s t ∧
      s.ses.outLen.toNat ≤ t.ses.outLen.toNat ∧ s.ses.histLen.toNat ≤ t.ses.histLen.toNat

/-- 45 R345, R346: a decoder FEED whose first parse unit lacks input consumes nothing, asks for more and changes
nothing else. The unit is looked at in the state in which the engine has started the command. -/
def Obligations.FeedWithoutAWholeUnit : Prop :=
  ∀ s : State, FeedAccepted s → s.ses.sstate = .active → s.ses.isDecoder →
    decodeUnit (startCommand s) ⟨s.arg0, s.arg1⟩ s.ses.bitpos.toNat = .needMore →
    Completes (.feed false) s fun t =>
      ResultsAre t 0 0 s.ses.outLen.toNat ∧ OnlyResults s t ∧ t.busy = false ∧ t.errDetail = 0 ∧
      t.status = { overrun := s.status.overrun, needMore := true, done := false, err := false, errCode := 0 }

/-- 45 R351: two FEEDs of an input split anywhere, the second presenting the unconsumed rest, leave the session, its
codec, memory and the error as one FEED of the whole input does, and consume the same number of bytes. -/
def Obligations.FragmentationInvariance : Prop :=
  ∀ (complete : Bool) (s : State) (n : Nat), s.raced = [] → RegionsOk s → LzwDecOk s → FeedAccepted s →
    s.ses.sstate = .active → s.ses.isDecoder → n ≤ s.arg1 →
    ∃ t1 t2 u,
      exec (.feed false) { s with larg := { s.larg with a1 := word n } } = .next t1 ∧
      exec (.feed complete) { t1 with larg := { s.larg with
        a0 := s.larg.a0 + t1.res0, a1 := s.larg.a1 - t1.res0 } } = .next t2 ∧
      exec (.feed complete) s = .next u ∧
      t2.ses = u.ses ∧ t2.lz = u.lz ∧ t2.df = u.df ∧ t2.mem = u.mem ∧ t2.status = u.status ∧
      t2.errDetail = u.errDetail ∧ u.res0.toNat = t1.res0.toNat + t2.res0.toNat

/-- 45 R347, R348: after FEED with COMPLETE = 1 no session is ACTIVE: it is DONE, or in ERROR. An encoder FEED that ends
without error consumed every byte, ended DONE exactly with COMPLETE = 1, and left S_BITPOS as it was.
45 R346, R347, R358: the decoder's loop runs the parse units one after another from the state and the cursor FEED starts
with (for an LZW session, in the states of LzwDecOk, which every step keeps); where it stops at cursor c with the session still ACTIVE, FEED consumes c div 8
bytes, and it ends with S_BITPOS = c mod 8 when COMPLETE = 0 and in 0x0601 when COMPLETE = 1; where it stops with the
session DONE, FEED consumes ceil(c / 8) bytes and ends with S_BITPOS = 0; where the parse unit that begins at cursor c
raises an error, FEED consumes c div 8 bytes and ends in that error.
44 R293, R298 to R301: what a DEFLATE encoder's COMPLETE appends to its output, bit for bit, from the history with the
FEED's bytes at its end, and the error when it does not fit. -/
def Obligations.CompleteEndsTheSession : Prop :=
  (∀ (complete : Bool) (s : State), FeedAccepted s → s.ses.sstate = .active →
    Completes (.feed complete) s fun t =>
      (complete = true →
        (t.ses.sstate = .done ∧ t.status.err = false) ∨ (t.ses.sstate = .error ∧ t.status.err = true)) ∧
      (s.ses.isEncoder = true → t.status.err = false → t.res0 = s.larg.a1 ∧ t.ses.bitpos = s.ses.bitpos ∧
        (t.ses.sstate = .done ↔ complete = true))) ∧
  (∀ (s : State) (r : LoopEnd), FeedAccepted s → s.ses.sstate = .active → s.ses.isDecoder →
    r = decodeLoop ⟨s.arg0, s.arg1⟩ (8 * s.arg1 + 1) s.ses.bitpos.toNat (startCommand s) →
    (LzwDecOk s → DecodeSteps ⟨s.arg0, s.arg1⟩ s.ses.bitpos.toNat (startCommand s) r) ∧
    (∀ u c, r = .stopped u c → u.ses.sstate = .active →
      Completes (.feed false) s (FeedEnded (c / 8) (BitVec.ofNat 3 (c % 8)) u) ∧
      Completes (.feed true) s (FeedFailed (Err.ofDetail 0x0601) (c / 8) u)) ∧
    (∀ u c complete, r = .stopped u c → u.ses.sstate = .done →
      Completes (.feed complete) s (FeedEnded (bytesOfBits c) 0 u)) ∧
    (∀ u e c complete, r = .raised u e c → Completes (.feed complete) s (FeedFailed e (c / 8) u) ∧
      ∃ v, v.ses.sstate = .active ∧ decodeUnit v ⟨s.arg0, s.arg1⟩ c = .raised u e)) ∧
  ∀ s : State, s.raced = [] → RegionsOk s → SessionShapeOk s → FeedAccepted s → s.ses.sstate = .active →
    s.ses.mode = .dflEnc → s.arg1 ≤ s.ses.histCap.toNat - s.ses.histLen.toNat →
    ∃ ts bits bytes, Completes (.feed true) s fun t =>
      bytes = (List.range s.ses.histLen.toNat).map (fun j => s.hostByte (s.ses.histBase.toNat + j)) ++
        (List.range s.arg1).map (fun j => s.hostByte (s.arg0 + j)) ∧
      t.ses.histLen = s.ses.histLen + s.larg.a1 ∧
      (∀ j, j < bytes.length → t.hostByte (s.ses.histBase.toNat + j) = bytes.getD j 0) ∧
      GreedyTokens t s.ses.histBase.toNat bytes.length 0 ts ∧
      FinishBits s.ses.bmode s.ses.outBits.toNat bytes ts bits ∧
      (OutFits s bits.length → t.status.err = false ∧ t.ses.sstate = .done ∧ OutBitsAppended bits s t) ∧
      (¬ OutFits s bits.length → t.errDetail = 0x0B01 ∧ t.ses.sstate = .error)

/-- 70 R441, 45 R346: the decoder's loop, from any cursor on, is the parse units one after another; it ends because the
session is no longer ACTIVE, a unit raised an error or a unit lacked input, never because the model's bound on the number
of units ran out (log 15). -/
def Obligations.DecoderLoopIsNotCutShort : Prop :=
  ∀ (s : State) (inp : Input) (c : Nat), LzwDecOk s →
    DecodeSteps inp c s (decodeLoop inp (8 * inp.len + 1) c s) ∧
    ∀ t c', decodeLoop inp (8 * inp.len + 1) c s = .stopped t c' →
      t.ses.sstate ≠ .active ∨ decodeUnit t inp c' = .needMore

/-! ### Parse units (42, 43) -/

/-- 45 R356, 00 R11, 42 R201: InField reads the next w bits of the input, the first one as bit 0 when ORD = 0 and as bit
w - 1 when ORD = 1, or lacks input.
42 R204 to R207: the clear code, the end code, and a data code: undefined, one entry too many, or decoded, with the
output it adds and the dictionary it leaves. -/
def Obligations.LzwCodeDecodes : Prop :=
  (∀ (s : State) (inp : Input) (w cursor : Nat),
    (1 ≤ w → 8 * inp.len < cursor + w → inField s inp w cursor = .needMore) ∧
    (cursor + w ≤ 8 * inp.len → ∃ v, inField s inp w cursor = .got v (cursor + w) ∧ v < 2 ^ w ∧
      ∀ k, k < w → v.testBit (match s.ses.ord with
          | .lsb => k
          | .msb => w - 1 - k) = s.bitAt [cursor + k] s.ses.ord inp.base (cursor + k) ∧
        (s.raced = [] → s.bitAt [cursor + k] s.ses.ord inp.base (cursor + k) =
          s.streamBit s.ses.ord inp.base (cursor + k)))) ∧
  (∀ (s : State) (inp : Input) (cursor : Nat), inField s inp s.lz.width cursor = .needMore →
    lzwDecUnit s inp cursor = .needMore) ∧
  ∀ (s : State) (inp : Input) (cursor c cursor' : Nat), inField s inp s.lz.width cursor = .got c cursor' →
    (c = 2 ^ s.ses.lit.toNat → lzwDecUnit s inp cursor = .completed { s with lz :=
      { size := 2 ^ s.ses.lit.toNat + 2, width := s.ses.lit.toNat + 1, prev := none, strs := [] } } cursor') ∧
    (c = 2 ^ s.ses.lit.toNat + 1 →
      lzwDecUnit s inp cursor = .completed { s with ses := { s.ses with sstate := .done } } cursor') ∧
    (c ≠ 2 ^ s.ses.lit.toNat → c ≠ 2 ^ s.ses.lit.toNat + 1 →
      (s.lz.size < c ∨ (c = s.lz.size ∧ s.lz.prev = none) →
        lzwDecUnit s inp cursor = .raised s Err.undefinedCode) ∧
      ∀ str, (c < s.lz.size ∧ str = s.lzwStr c) ∨
          (c = s.lz.size ∧ ∃ p, s.lz.prev = some p ∧ str = s.lzwStr p ++ (s.lzwStr p).take 1) →
        (s.lz.prev ≠ none → s.lz.size = 4096 → lzwDecUnit s inp cursor = .raised s Err.dictionaryFull) ∧
        (s.lz.prev = none ∨ s.lz.size ≠ 4096 → s.ses.outLen.toNat + str.length ≤ s.ses.outCap.toNat →
          ∃ t, lzwDecUnit s inp cursor = .completed t cursor' ∧ AppendsOutput str s t ∧ t.df = s.df ∧
            (s.lz.prev = none → t.lz = { s.lz with prev := some c }) ∧
            (∀ p, s.lz.prev = some p → t.lz = {
              size := s.lz.size + 1, prev := some c, strs := s.lz.strs ++ [s.lzwStr p ++ str.take 1],
              width := if s.lz.size + 1 = 2 ^ s.lz.width - s.par.lzwEarlyChange.toNat ∧ s.lz.width < 12
                       then s.lz.width + 1 else s.lz.width })) ∧
        (s.lz.prev = none ∨ s.lz.size ≠ 4096 → s.ses.outLen.toNat ≤ s.ses.outCap.toNat →
          s.ses.outCap.toNat < s.ses.outLen.toNat + str.length →
          ∃ t, lzwDecUnit s inp cursor = .raised t Err.outputFull ∧ t.lz = s.lz ∧ t.df = s.df ∧
            AppendsOutput (str.take (s.ses.outCap.toNat - s.ses.outLen.toNat)) s t))

/-- 43 R245: one symbol from the input is what the lookup answers on the next input bits, first bit most significant:
as many as there are, and no more than maxw + 1; the cursor moves past the code. -/
def Obligations.DecodeSymReadsOneSymbol : Prop :=
  ∀ (s : State) (inp : Input) (t : HufTable) (c m : Nat) (r : MatchResult),
    m = min (8 * inp.len - c) (t.maxw + 1) →
    r = t.lookup (fieldValue .msb ((List.range m).map fun j => s.bitAt [c + j] s.ses.ord inp.base (c + j))) m →
    (∀ a j, r = .found a j → decodeSym s inp t c = .got a (c + j)) ∧
    (r = .needMore → decodeSym s inp t c = .needMore) ∧
    (r = .malformed → decodeSym s inp t c = .bad Err.noCode)

/-- 43 R246: the HEADER unit reads the final flag and the two-bit block type, low bit first. -/
def Obligations.BlockHeader : Prop :=
  ∀ (s : State) (inp : Input) (c : Nat), s.raced = [] → s.ses.ord = .lsb → s.df.p = .header →
    (8 * inp.len < c + 3 → dflDecUnit s inp c = .needMore) ∧
    (c + 3 ≤ 8 * inp.len →
      ∀ f b0 b1, f = s.streamBit .lsb inp.base c → b0 = s.streamBit .lsb inp.base (c + 1) →
        b1 = s.streamBit .lsb inp.base (c + 2) →
        (b0 = true → b1 = true → dflDecUnit s inp c = .raised s Err.blockType) ∧
        (b0 = false → b1 = false → dflDecUnit s inp c =
          .completed { s with df := { s.df with final := f, p := .storedLen } } (c + 3)) ∧
        (b0 = true → b1 = false → dflDecUnit s inp c =
          .completed { s with df := { s.df with final := f, p := .body, lit := fixedLit, dist := fixedDist } } (c + 3)) ∧
        (b0 = false → b1 = true → dflDecUnit s inp c =
          .completed { s with df := { s.df with final := f, p := .dynCounts } } (c + 3)))

/-- 43 R247 to R249; 20 R83; 45 R345: the STORED_LEN unit reads the two little-endian 16-bit values at the next byte
boundary; the STORED_DATA unit moves one byte from the input to the output or lacks it; the block's end ends the session iff it was the final one. -/
def Obligations.StoredBlock : Prop :=
  (∀ (s : State) (inp : Input) (c a len nlen : Nat), s.raced = [] → s.ses.ord = .lsb → s.df.p = .storedLen →
    a = inp.base + (c + 7) / 8 →
    len = (s.hostByte a).toNat + 256 * (s.hostByte (a + 1)).toNat →
    nlen = (s.hostByte (a + 2)).toNat + 256 * (s.hostByte (a + 3)).toNat →
    (inp.len < (c + 7) / 8 + 4 → dflDecUnit s inp c = .needMore) ∧
    ((c + 7) / 8 + 4 ≤ inp.len →
      (nlen ≠ 65535 - len → dflDecUnit s inp c = .raised s Err.storedLength) ∧
      (nlen = 65535 - len → 0 < len → dflDecUnit s inp c =
        .completed { s with df := { s.df with remaining := len, p := .storedData } } (8 * ((c + 7) / 8 + 4))) ∧
      (nlen = 65535 - len → len = 0 → s.df.final = false → dflDecUnit s inp c =
        .completed { s with df := { s.df with remaining := 0, p := .header } } (8 * ((c + 7) / 8 + 4))) ∧
      (nlen = 65535 - len → len = 0 → s.df.final = true → dflDecUnit s inp c =
        .completed { s with df := { s.df with remaining := 0 }, ses := { s.ses with sstate := .done } }
          (8 * ((c + 7) / 8 + 4))))) ∧
  (∀ (s : State) (inp : Input) (c : Nat), s.df.p = .storedData → 8 * inp.len < c + 8 →
    dflDecUnit s inp c = .needMore) ∧
  ∀ (s : State) (inp : Input) (j : Nat), s.raced = [] → s.ses.ord = .lsb → s.df.p = .storedData →
    1 ≤ s.df.remaining → j < inp.len →
    (s.ses.outLen = s.ses.outCap → dflDecUnit s inp (8 * j) = .raised s Err.outputFull) ∧
    (s.ses.outLen.toNat < s.ses.outCap.toNat → ∃ t t', dflDecUnit s inp (8 * j) = .completed t' (8 * j + 8) ∧
      AppendsOutput [s.hostByte (inp.base + j)] s t ∧ t.lz = s.lz ∧ t.df = { s.df with remaining := s.df.remaining - 1 } ∧
      (2 ≤ s.df.remaining → t' = t) ∧
      (s.df.remaining = 1 → s.df.final = false → t' = { t with df := { t.df with p := .header } }) ∧
      (s.df.remaining = 1 → s.df.final = true → t' = { t with ses := { t.ses with sstate := .done } }))

/-- 43 R256, R255: a back-reference copies one byte at a time, so it may overlap its own output; with too little room the
bytes that fit are written and counted. -/
def Obligations.BackReferenceCopies : Prop :=
  ∀ (s : State) (len dist : Nat), s.raced = [] → 1 ≤ dist → dist ≤ s.ses.outLen.toNat →
    (s.ses.outLen.toNat + len ≤ s.ses.outCap.toNat →
      ∃ t, copyBack dist len s = .ok t ∧ CopiesBack len dist s t) ∧
    (s.ses.outLen.toNat ≤ s.ses.outCap.toNat → s.ses.outCap.toNat < s.ses.outLen.toNat + len →
      ∃ t, copyBack dist len s = .fail t Err.outputFull ∧
        CopiesBack (s.ses.outCap.toNat - s.ses.outLen.toNat) dist s t)

/-- 43 R253 to R255: the BODY unit by the symbols it reads: a literal byte, the end of the block, a symbol without a
meaning, and a back-reference, whose distance may not exceed the output so far.
45 R345, 43 R253: at whichever of its four reads input is lacking, the unit has no effect; bits that are no code, as its
first or as its second symbol, raise the error of DecodeSym.
43 R254: in a fixed block the 5-bit patterns 11110 and 11111 are no codes of a distance: with a sixth bit 0x0101, without
one input is lacking. -/
def Obligations.BlockBody : Prop :=
  (∀ (s : State) (inp : Input) (c : Nat), s.df.p = .body →
    (decodeSym s inp s.df.lit c = .needMore → dflDecUnit s inp c = .needMore) ∧
    (∀ e, decodeSym s inp s.df.lit c = .bad e → e = Err.ofDetail 0x0101 ∧ dflDecUnit s inp c = .raised s e)) ∧
  (∀ (s : State) (inp : Input) (c sym c1 : Nat), s.df.p = .body → decodeSym s inp s.df.lit c = .got sym c1 →
    (sym ≤ 255 → s.ses.outLen.toNat < s.ses.outCap.toNat → ∃ t, dflDecUnit s inp c = .completed t c1 ∧
      AppendsOutput [BitVec.ofNat 8 sym] s t ∧ t.lz = s.lz ∧ t.df = s.df) ∧
    (sym ≤ 255 → s.ses.outLen = s.ses.outCap → dflDecUnit s inp c = .raised s Err.outputFull) ∧
    (sym = 256 → s.df.final = false →
      dflDecUnit s inp c = .completed { s with df := { s.df with p := .header } } c1) ∧
    (sym = 256 → s.df.final = true →
      dflDecUnit s inp c = .completed { s with ses := { s.ses with sstate := .done } } c1) ∧
    (286 ≤ sym → dflDecUnit s inp c = .raised s Err.litSymbol) ∧
    (257 ≤ sym → sym ≤ 285 →
      (inField s inp (lenExtra sym) c1 = .needMore → dflDecUnit s inp c = .needMore) ∧
      ∀ e c2, inField s inp (lenExtra sym) c1 = .got e c2 →
        (decodeSym s inp s.df.dist c2 = .needMore → dflDecUnit s inp c = .needMore) ∧
        (∀ e', decodeSym s inp s.df.dist c2 = .bad e' →
          e' = Err.ofDetail 0x0101 ∧ dflDecUnit s inp c = .raised s e') ∧
        ∀ d c3, decodeSym s inp s.df.dist c2 = .got d c3 →
          (30 ≤ d → dflDecUnit s inp c = .raised s Err.distSymbol) ∧
          (d ≤ 29 →
            (inField s inp (distExtra d) c3 = .needMore → dflDecUnit s inp c = .needMore) ∧
            ∀ f c4, inField s inp (distExtra d) c3 = .got f c4 →
              (s.ses.outLen.toNat < distBase d + f → dflDecUnit s inp c = .raised s Err.backReference) ∧
              (distBase d + f ≤ s.ses.outLen.toNat →
                (∀ t, copyBack (distBase d + f) (lenBase sym + e) s = .ok t → dflDecUnit s inp c = .completed t c4) ∧
                (∀ t, copyBack (distBase d + f) (lenBase sym + e) s = .fail t Err.outputFull →
                  dflDecUnit s inp c = .raised t Err.outputFull))))) ∧
  ∀ (s : State) (inp : Input) (c : Nat), s.raced = [] → s.ses.ord = .lsb →
    (∀ k, k < 4 → s.streamBit .lsb inp.base (c + k) = true) →
    (8 * inp.len < c + 6 → decodeSym s inp fixedDist c = .needMore) ∧
    (c + 6 ≤ 8 * inp.len → decodeSym s inp fixedDist c = .bad (Err.ofDetail 0x0101))

/-! ### Encoder steps (42, 44) -/

/-- 45 R355: a field of the encoder output is refused when its bytes or its bits do not fit, else appended.
42 R223, R221: the LZW encoder's byte step: a byte outside the alphabet is refused, a first byte and a known pair
only extend the match, and a new pair emits the matched code at the decoder's width and is learned, or, with a full
dictionary, is followed by the clear code and an empty dictionary.
42 R224: the finish emits the matched code, if there is one, and the end code, and ends the session.
45 R348, R358: FEED of an LZW encoder runs the byte step on its bytes in order and, with COMPLETE = 1, then the finish;
an error of byte j ends it with j bytes consumed, an error of the finish with all of them. -/
def Obligations.LzwEncoderByte : Prop :=
  (∀ (s : State) (v w : Nat), 1 ≤ w → w ≤ 32 → v < 2 ^ w →
    (¬ OutFits s w → outAppendField v w s = .fail s Err.outputFull) ∧
    (OutFits s w → ∃ t, outAppendField v w s = .ok t ∧
      t = { s with mem := t.mem, raced := t.raced, ses := { s.ses with
        outBits := s.ses.outBits + word w, outLen := word (bytesOfBits (s.ses.outBits.toNat + w)) } } ∧
      (∀ a, ¬ InRegion (s.ses.outBase.toNat + s.ses.outBits.toNat / 8)
          (bytesOfBits (s.ses.outBits.toNat + w) - s.ses.outBits.toNat / 8) a → t.memByte a = s.memByte a) ∧
      (s.raced = [] → OutBitsAppended ((List.range w).map fun k => match s.ses.ord with
        | .lsb => v.testBit k
        | .msb => v.testBit (w - 1 - k)) s t))) ∧
  (∀ (s : State) (b : Byte),
    (2 ^ s.ses.lit.toNat ≤ b.toNat → lzwEncByte b s = .fail s Err.literalTooWide) ∧
    (b.toNat < 2 ^ s.ses.lit.toNat →
      (s.le.w = none → lzwEncByte b s = .ok { s with le := { s.le with w := some b.toNat } }) ∧
      ∀ w, s.le.w = some w →
        (∀ code, s.le.find w b = some code → lzwEncByte b s = .ok { s with le := { s.le with w := some code } }) ∧
        (s.le.find w b = none → 1 ≤ s.le.dwidth →
          (¬ OutFits s s.le.dwidth → lzwEncByte b s = .fail s Err.outputFull) ∧
          (∀ t, outAppendField w s.le.dwidth s = .ok t →
            (s.le.size < 4096 → ∃ t', lzwEncByte b s = .ok t' ∧
              t'.ses = t.ses ∧ t'.mem = t.mem ∧ t'.le.w = some b.toNat ∧ t'.le.size = s.le.size + 1 ∧
              t'.le.find w b = some s.le.size ∧ (∀ x y, (x, y) ≠ (w, b) → t'.le.find x y = s.le.find x y) ∧
              t'.le.dprev = true ∧ t'.le.dwidth = s.nextCodeWidth ∧
              t'.le.dsize = if s.le.dprev = true then s.le.dsize + 1 else s.le.dsize) ∧
            (4096 ≤ s.le.size →
              (¬ OutFits t s.nextCodeWidth → ∃ t', lzwEncByte b s = .fail t' Err.outputFull ∧
                t'.ses = t.ses ∧ t'.mem = t.mem) ∧
              ∀ t2, outAppendField (2 ^ s.ses.lit.toNat) s.nextCodeWidth t = .ok t2 → ∃ t', lzwEncByte b s = .ok t' ∧
                t'.ses = t2.ses ∧ t'.mem = t2.mem ∧
                t'.le = { map := [], size := 2 ^ s.ses.lit.toNat + 2, w := some b.toNat,
                          dsize := 2 ^ s.ses.lit.toNat + 2, dwidth := s.ses.lit.toNat + 1, dprev := false }))))) ∧
  (∀ (s : State) (complete : Bool), s.raced = [] → RegionsOk s → FeedAccepted s → s.ses.sstate = .active →
    s.ses.mode = .lzwEnc → ∃ r, LzwSteps 0 ((List.range s.arg1).map fun j => s.hostByte (s.arg0 + j)) (startCommand s) r ∧
      (∀ u e j, r = .raised u e j → Completes (.feed complete) s (FeedFailed e j u)) ∧
      ∀ u j, r = .stopped u j → j = s.arg1 ∧
        (complete = false → Completes (.feed complete) s (FeedEnded s.arg1 u.ses.bitpos u)) ∧
        (complete = true →
          (∀ v, lzwEncFinish u = .ok v → Completes (.feed complete) s (FeedEnded s.arg1 v.ses.bitpos v)) ∧
          (∀ v e, lzwEncFinish u = .fail v e → Completes (.feed complete) s (FeedFailed e s.arg1 v)))) ∧
  ∀ s : State, 1 ≤ s.le.dwidth →
    (¬ OutFits s s.le.dwidth → lzwEncFinish s = .fail s Err.outputFull) ∧
    (s.le.w = none → ∀ t, outAppendField (2 ^ s.ses.lit.toNat + 1) s.le.dwidth s = .ok t →
      ∃ t', lzwEncFinish s = .ok t' ∧ t'.ses = { t.ses with sstate := .done } ∧ t'.mem = t.mem) ∧
    ∀ w t, s.le.w = some w → outAppendField w s.le.dwidth s = .ok t →
      (¬ OutFits t s.nextCodeWidth → ∃ t', lzwEncFinish s = .fail t' Err.outputFull ∧
        t'.ses = t.ses ∧ t'.mem = t.mem) ∧
      ∀ t2, outAppendField (2 ^ s.ses.lit.toNat + 1) s.nextCodeWidth t = .ok t2 →
        ∃ t', lzwEncFinish s = .ok t' ∧ t'.ses = { t2.ses with sstate := .done } ∧ t'.mem = t2.mem

/-- 44 R294, 45 R348: FEED to a DEFLATE encoder before COMPLETE appends its bytes to the history and writes no output;
when the history is full the bytes that fit are kept, and the FEED, with or without COMPLETE, consumed just those and
writes no output. -/
def Obligations.DflEncoderKeepsItsInput : Prop :=
  ∀ s : State, s.raced = [] → RegionsOk s → FeedAccepted s → s.ses.sstate = .active → s.ses.mode = .dflEnc →
    ∀ n, n = min s.arg1 (s.ses.histCap.toNat - s.ses.histLen.toNat) →
    ∀ complete, (complete = true → n < s.arg1) → Completes (.feed complete) s fun t =>
      t.ses.histLen = s.ses.histLen + word n ∧ t.ses.outLen = s.ses.outLen ∧ t.ses.outBits = s.ses.outBits ∧
      ResultsAre t n 0 s.ses.outLen.toNat ∧ t.ses.totalIn = s.ses.totalIn + word n ∧
      SessionSetupSame s t ∧ OnlySession s t ∧
      MemorySameOutside (InRegion (s.ses.histBase.toNat + s.ses.histLen.toNat) n) s t ∧
      (∀ j, j < n → t.hostByte (s.ses.histBase.toNat + s.ses.histLen.toNat + j) = s.hostByte (s.arg0 + j)) ∧
      (n = s.arg1 → t.status.err = false ∧ t.ses.sstate = .active) ∧
      (n < s.arg1 → t.status.err = true ∧ t.errDetail = 0x0B03 ∧ t.ses.sstate = .error)

/-! ### Whole-machine rules -/

/-- 41 R161; 10 R38, R34, R30; 40 R146; 20 R101; 60 R383; 00 R6: what each kind of state changes by, over every step. -/
def Obligations.OnlyTheirCommandsChangeThem : Prop :=
  ∀ s t : State, step s = .next t →
    t.par = s.par ∧
    (t.arg ≠ s.arg → (∃ o b v rest, s.agenda = .regWrite o b v :: rest) ∨ (∃ rest, s.agenda = .reset :: rest) ∨
      (∃ rest, s.agenda = .powerOn :: rest) ∨ (s.busy = true ∧ decode s.lcmd = .ok .softReset)) ∧
    (∀ k : Fin 4, t.huf[k] ≠ s.huf[k] → (∃ rest, s.agenda = .reset :: rest) ∨ (∃ rest, s.agenda = .powerOn :: rest) ∨
      (s.busy = true ∧ (decode s.lcmd = .ok .softReset ∨ decode s.lcmd = .ok (.hufBuildCanon k.val) ∨
        decode s.lcmd = .ok (.hufBuildWeighted k.val)))) ∧
    (t.bs ≠ s.bs → (∃ rest, s.agenda = .reset :: rest) ∨ (∃ rest, s.agenda = .powerOn :: rest) ∨
      (s.busy = true ∧ (decode s.lcmd = .ok .softReset ∨ (∃ ord, decode s.lcmd = .ok (.bsInit ord)) ∨
        ((∃ w, decode s.lcmd = .ok (.bsAppend w)) ∨ (∃ k, decode s.lcmd = .ok (.hufEncode k))) ∧
          t.bs = { s.bs with bits := t.bs.bits }))) ∧
    (t.ses ≠ s.ses → (∃ rest, s.agenda = .reset :: rest) ∨ (∃ rest, s.agenda = .powerOn :: rest) ∨
      (s.busy = true ∧ (decode s.lcmd = .ok .softReset ∨ decode s.lcmd = .ok .sessionEnd ∨
        (∃ o l, decode s.lcmd = .ok (.lzwDecStart o l) ∨ decode s.lcmd = .ok (.lzwEncStart o l)) ∨
        decode s.lcmd = .ok .dflDecStart ∨ (∃ m, decode s.lcmd = .ok (.dflEncStart m)) ∨
        ((∃ c, decode s.lcmd = .ok (.feed c)) ∧ s.ses.sstate = .active ∧ SessionSetupSame s t))))

/-- 60 R382, R383 (a), (b), (d): a command other than FEED that ends in error keeps the session, the bit sequence and
memory, clears RES0 to RES2, and at most marks the slot of a failed build invalid. -/
def Obligations.FailingCommandsChangeNothingElse : Prop :=
  ∀ (i : Instr) (s t : State), exec i s = .next t → t.status.err = true → (∀ c, i ≠ .feed c) →
    ResultsAre t 0 0 0 ∧ HostSideSame s t ∧ SessionSame s t ∧ t.bs = s.bs ∧ MemorySame s t ∧
    ∀ k : Fin 4, t.huf[k] = s.huf[k] ∨
      ((i = .hufBuildCanon k.val ∨ i = .hufBuildWeighted k.val) ∧ t.errDetail.extractLsb' 8 8 = 12 ∧
        t.huf[k].valid = false)

/-- 70 R440, 60 R398: every command ends, whatever its operands and the state, with BUSY = 0. -/
def Obligations.EveryCommandEnds : Prop :=
  ∀ (i : Instr) (s : State), Completes i s fun t =>
    t.busy = false ∧ t.raced = [] ∧ t.status.done = (t.ses.sstate == .done)

/-! ### Invariants -/

/-- Buffer memory keeps its canonical form inside MEM_SIZE, and every region stays inside its capacity and inside buffer
memory (10 R40, R42; 40 R146; 20 R90); the output and the history share no byte, and a DEFLATE session is LSB-first
(44 R290, 10 R39). -/
def Obligations.StepKeepsMemoryAndRegions : Prop :=
  (∀ s t : State, MemoryOk s → RegionsOk s → step s = .next t → MemoryOk t ∧ RegionsOk t) ∧
  ∀ s t : State, SessionShapeOk s → step s = .next t → SessionShapeOk t

/-- Only listed errors are reported and stored, MODE = NONE stays tied to SSTATE = IDLE, and host writes race only with
an accepted command (10 R36, R37, R39; 60 R381; 20 R95). -/
def Obligations.StepKeepsStatusFields : Prop :=
  ∀ s t : State, StatusOk s → RacesOk s → step s = .next t → StatusOk t ∧ RacesOk t

/-- Every valid slot stays a prefix code of 1 to 288 symbols with widths of at most 16 (10 R46, 41 R161). -/
def Obligations.StepKeepsSlotsPrefixFree : Prop :=
  ∀ s t : State, SlotsOk s → step s = .next t → SlotsOk t

/-- The invariants of the LZW and DEFLATE decoders, and of the LZW encoder with its shadow of the decoder, hold after
every step (42 R208, R221 to R223; 43 R257). -/
def Obligations.StepKeepsDecoderState : Prop :=
  (∀ s t : State, LzwDecOk s → DflDecOk s → step s = .next t → LzwDecOk t ∧ DflDecOk t) ∧
  ∀ s t : State, LzwEncOk s → step s = .next t → LzwEncOk t

/-- The state after reset meets every invariant the other statements keep or assume. -/
def Obligations.ResetMeetsTheInvariants : Prop :=
  MemoryOk State.reset ∧ RegionsOk State.reset ∧ StatusOk State.reset ∧ RacesOk State.reset ∧ SlotsOk State.reset ∧
  LzwDecOk State.reset ∧ DflDecOk State.reset ∧ LzwEncOk State.reset ∧ SessionShapeOk State.reset
end

