-- ==== Sys2Proof/Laws/State.lean ====
section
/-! SUPPORT. Each field of the state after each update: unchanged, or the value the update gives it. -/

namespace Sys2Proof.Machine

/-! ### startCommand -/

@[simp] theorem startCommand_par (s : State) : (startCommand s).par = s.par := rfl
@[simp] theorem startCommand_cmd (s : State) : (startCommand s).cmd = s.cmd := rfl
@[simp] theorem startCommand_arg (s : State) : (startCommand s).arg = s.arg := rfl
@[simp] theorem startCommand_res0 (s : State) : (startCommand s).res0 = 0 := rfl
@[simp] theorem startCommand_res1 (s : State) : (startCommand s).res1 = 0 := rfl
@[simp] theorem startCommand_res2 (s : State) : (startCommand s).res2 = 0 := rfl
@[simp] theorem startCommand_status (s : State) : (startCommand s).status = s.status.atStart := rfl
@[simp] theorem startCommand_errDetail (s : State) : (startCommand s).errDetail = 0 := rfl
@[simp] theorem startCommand_bs (s : State) : (startCommand s).bs = s.bs := rfl
@[simp] theorem startCommand_ses (s : State) : (startCommand s).ses = s.ses := rfl
@[simp] theorem startCommand_busy (s : State) : (startCommand s).busy = s.busy := rfl
@[simp] theorem startCommand_lcmd (s : State) : (startCommand s).lcmd = s.lcmd := rfl
@[simp] theorem startCommand_larg (s : State) : (startCommand s).larg = s.larg := rfl
@[simp] theorem startCommand_huf (s : State) : (startCommand s).huf = s.huf := rfl
@[simp] theorem startCommand_lz (s : State) : (startCommand s).lz = s.lz := rfl
@[simp] theorem startCommand_le (s : State) : (startCommand s).le = s.le := rfl
@[simp] theorem startCommand_df (s : State) : (startCommand s).df = s.df := rfl
@[simp] theorem startCommand_mem (s : State) : (startCommand s).mem = s.mem := rfl
@[simp] theorem startCommand_raced (s : State) : (startCommand s).raced = clearWritten s.raced := rfl
@[simp] theorem startCommand_powerEpoch (s : State) : (startCommand s).powerEpoch = s.powerEpoch := rfl
@[simp] theorem startCommand_drawNo (s : State) : (startCommand s).drawNo = s.drawNo := rfl
@[simp] theorem startCommand_agenda (s : State) : (startCommand s).agenda = s.agenda := rfl
@[simp] theorem startCommand_hostData (s : State) : (startCommand s).hostData = s.hostData := rfl

/-! ### settle -/

@[simp] theorem State.settle_par (s : State) : (s.settle).par = s.par := rfl
@[simp] theorem State.settle_cmd (s : State) : (s.settle).cmd = s.cmd := rfl
@[simp] theorem State.settle_arg (s : State) : (s.settle).arg = s.arg := rfl
@[simp] theorem State.settle_res0 (s : State) : (s.settle).res0 = s.res0 := rfl
@[simp] theorem State.settle_res1 (s : State) : (s.settle).res1 = s.res1 := rfl
@[simp] theorem State.settle_res2 (s : State) : (s.settle).res2 = s.res2 := rfl
@[simp] theorem State.settle_status (s : State) : (s.settle).status = s.status := rfl
@[simp] theorem State.settle_errDetail (s : State) : (s.settle).errDetail = s.errDetail := rfl
@[simp] theorem State.settle_bs (s : State) : (s.settle).bs = s.bs := rfl
@[simp] theorem State.settle_ses (s : State) : (s.settle).ses = s.ses := rfl
@[simp] theorem State.settle_busy (s : State) : (s.settle).busy = s.busy := rfl
@[simp] theorem State.settle_lcmd (s : State) : (s.settle).lcmd = s.lcmd := rfl
@[simp] theorem State.settle_larg (s : State) : (s.settle).larg = s.larg := rfl
@[simp] theorem State.settle_huf (s : State) : (s.settle).huf = s.huf := rfl
@[simp] theorem State.settle_lz (s : State) : (s.settle).lz = s.lz := rfl
@[simp] theorem State.settle_le (s : State) : (s.settle).le = s.le := rfl
@[simp] theorem State.settle_df (s : State) : (s.settle).df = s.df := rfl
@[simp] theorem State.settle_mem (s : State) : (s.settle).mem = s.raced.foldr (settleByte s.drawNo) s.mem := rfl
@[simp] theorem State.settle_raced (s : State) : (s.settle).raced = [] := rfl
@[simp] theorem State.settle_powerEpoch (s : State) : (s.settle).powerEpoch = s.powerEpoch := rfl
@[simp] theorem State.settle_drawNo (s : State) : (s.settle).drawNo = s.drawNo := rfl
@[simp] theorem State.settle_agenda (s : State) : (s.settle).agenda = s.agenda := rfl
@[simp] theorem State.settle_hostData (s : State) : (s.settle).hostData = s.hostData := rfl

/-! ### finishCommand -/

@[simp] theorem finishCommand_par (s : State) : (finishCommand s).par = s.par := rfl
@[simp] theorem finishCommand_cmd (s : State) : (finishCommand s).cmd = s.cmd := rfl
@[simp] theorem finishCommand_arg (s : State) : (finishCommand s).arg = s.arg := rfl
@[simp] theorem finishCommand_res0 (s : State) : (finishCommand s).res0 = s.res0 := rfl
@[simp] theorem finishCommand_res1 (s : State) : (finishCommand s).res1 = s.res1 := rfl
@[simp] theorem finishCommand_res2 (s : State) : (finishCommand s).res2 = s.res2 := rfl
@[simp] theorem finishCommand_status (s : State) :
    (finishCommand s).status = { s.status with done := s.ses.isDone } := rfl
@[simp] theorem finishCommand_errDetail (s : State) : (finishCommand s).errDetail = s.errDetail := rfl
@[simp] theorem finishCommand_bs (s : State) : (finishCommand s).bs = s.bs := rfl
@[simp] theorem finishCommand_ses (s : State) : (finishCommand s).ses = s.ses := rfl
@[simp] theorem finishCommand_busy (s : State) : (finishCommand s).busy = false := rfl
@[simp] theorem finishCommand_lcmd (s : State) : (finishCommand s).lcmd = s.lcmd := rfl
@[simp] theorem finishCommand_larg (s : State) : (finishCommand s).larg = s.larg := rfl
@[simp] theorem finishCommand_huf (s : State) : (finishCommand s).huf = s.huf := rfl
@[simp] theorem finishCommand_lz (s : State) : (finishCommand s).lz = s.lz := rfl
@[simp] theorem finishCommand_le (s : State) : (finishCommand s).le = s.le := rfl
@[simp] theorem finishCommand_df (s : State) : (finishCommand s).df = s.df := rfl
@[simp] theorem finishCommand_mem (s : State) : (finishCommand s).mem = s.raced.foldr (settleByte s.drawNo) s.mem := rfl
@[simp] theorem finishCommand_raced (s : State) : (finishCommand s).raced = [] := rfl
@[simp] theorem finishCommand_powerEpoch (s : State) : (finishCommand s).powerEpoch = s.powerEpoch := rfl
@[simp] theorem finishCommand_drawNo (s : State) : (finishCommand s).drawNo = s.drawNo + 1 := rfl
@[simp] theorem finishCommand_agenda (s : State) : (finishCommand s).agenda = s.agenda := rfl
@[simp] theorem finishCommand_hostData (s : State) : (finishCommand s).hostData = s.hostData := rfl

/-! ### raiseError -/

@[simp] theorem raiseError_par (e : Err) (s : State) : (raiseError e s).par = s.par := rfl
@[simp] theorem raiseError_cmd (e : Err) (s : State) : (raiseError e s).cmd = s.cmd := rfl
@[simp] theorem raiseError_arg (e : Err) (s : State) : (raiseError e s).arg = s.arg := rfl
@[simp] theorem raiseError_res0 (e : Err) (s : State) : (raiseError e s).res0 = s.res0 := rfl
@[simp] theorem raiseError_res1 (e : Err) (s : State) : (raiseError e s).res1 = s.res1 := rfl
@[simp] theorem raiseError_res2 (e : Err) (s : State) : (raiseError e s).res2 = s.res2 := rfl
@[simp] theorem raiseError_status (e : Err) (s : State) :
    (raiseError e s).status = { s.status.withError e with done := s.ses.isDone } := rfl
@[simp] theorem raiseError_errDetail (e : Err) (s : State) : (raiseError e s).errDetail = e.detail := rfl
@[simp] theorem raiseError_bs (e : Err) (s : State) : (raiseError e s).bs = s.bs := rfl
@[simp] theorem raiseError_ses (e : Err) (s : State) : (raiseError e s).ses = s.ses := rfl
@[simp] theorem raiseError_busy (e : Err) (s : State) : (raiseError e s).busy = false := rfl
@[simp] theorem raiseError_lcmd (e : Err) (s : State) : (raiseError e s).lcmd = s.lcmd := rfl
@[simp] theorem raiseError_larg (e : Err) (s : State) : (raiseError e s).larg = s.larg := rfl
@[simp] theorem raiseError_huf (e : Err) (s : State) : (raiseError e s).huf = s.huf := rfl
@[simp] theorem raiseError_lz (e : Err) (s : State) : (raiseError e s).lz = s.lz := rfl
@[simp] theorem raiseError_le (e : Err) (s : State) : (raiseError e s).le = s.le := rfl
@[simp] theorem raiseError_df (e : Err) (s : State) : (raiseError e s).df = s.df := rfl
@[simp] theorem raiseError_mem (e : Err) (s : State) :
    (raiseError e s).mem = s.raced.foldr (settleByte s.drawNo) s.mem := rfl
@[simp] theorem raiseError_raced (e : Err) (s : State) : (raiseError e s).raced = [] := rfl
@[simp] theorem raiseError_powerEpoch (e : Err) (s : State) : (raiseError e s).powerEpoch = s.powerEpoch := rfl
@[simp] theorem raiseError_drawNo (e : Err) (s : State) : (raiseError e s).drawNo = s.drawNo + 1 := rfl
@[simp] theorem raiseError_agenda (e : Err) (s : State) : (raiseError e s).agenda = s.agenda := rfl
@[simp] theorem raiseError_hostData (e : Err) (s : State) : (raiseError e s).hostData = s.hostData := rfl

/-! ### engWrite -/

@[simp] theorem State.engWrite_par (a : Nat) (v : Byte) (s : State) : (s.engWrite a v).par = s.par := rfl
@[simp] theorem State.engWrite_cmd (a : Nat) (v : Byte) (s : State) : (s.engWrite a v).cmd = s.cmd := rfl
@[simp] theorem State.engWrite_arg (a : Nat) (v : Byte) (s : State) : (s.engWrite a v).arg = s.arg := rfl
@[simp] theorem State.engWrite_res0 (a : Nat) (v : Byte) (s : State) : (s.engWrite a v).res0 = s.res0 := rfl
@[simp] theorem State.engWrite_res1 (a : Nat) (v : Byte) (s : State) : (s.engWrite a v).res1 = s.res1 := rfl
@[simp] theorem State.engWrite_res2 (a : Nat) (v : Byte) (s : State) : (s.engWrite a v).res2 = s.res2 := rfl
@[simp] theorem State.engWrite_status (a : Nat) (v : Byte) (s : State) : (s.engWrite a v).status = s.status := rfl
@[simp] theorem State.engWrite_errDetail (a : Nat) (v : Byte) (s : State) :
    (s.engWrite a v).errDetail = s.errDetail := rfl
@[simp] theorem State.engWrite_bs (a : Nat) (v : Byte) (s : State) : (s.engWrite a v).bs = s.bs := rfl
@[simp] theorem State.engWrite_ses (a : Nat) (v : Byte) (s : State) : (s.engWrite a v).ses = s.ses := rfl
@[simp] theorem State.engWrite_busy (a : Nat) (v : Byte) (s : State) : (s.engWrite a v).busy = s.busy := rfl
@[simp] theorem State.engWrite_lcmd (a : Nat) (v : Byte) (s : State) : (s.engWrite a v).lcmd = s.lcmd := rfl
@[simp] theorem State.engWrite_larg (a : Nat) (v : Byte) (s : State) : (s.engWrite a v).larg = s.larg := rfl
@[simp] theorem State.engWrite_huf (a : Nat) (v : Byte) (s : State) : (s.engWrite a v).huf = s.huf := rfl
@[simp] theorem State.engWrite_lz (a : Nat) (v : Byte) (s : State) : (s.engWrite a v).lz = s.lz := rfl
@[simp] theorem State.engWrite_le (a : Nat) (v : Byte) (s : State) : (s.engWrite a v).le = s.le := rfl
@[simp] theorem State.engWrite_df (a : Nat) (v : Byte) (s : State) : (s.engWrite a v).df = s.df := rfl
@[simp] theorem State.engWrite_mem (a : Nat) (v : Byte) (s : State) : (s.engWrite a v).mem = Memory.put s.mem a v := rfl
@[simp] theorem State.engWrite_raced (a : Nat) (v : Byte) (s : State) :
    (s.engWrite a v).raced = markWritten s.raced a := rfl
@[simp] theorem State.engWrite_powerEpoch (a : Nat) (v : Byte) (s : State) :
    (s.engWrite a v).powerEpoch = s.powerEpoch := rfl
@[simp] theorem State.engWrite_drawNo (a : Nat) (v : Byte) (s : State) : (s.engWrite a v).drawNo = s.drawNo := rfl
@[simp] theorem State.engWrite_agenda (a : Nat) (v : Byte) (s : State) : (s.engWrite a v).agenda = s.agenda := rfl
@[simp] theorem State.engWrite_hostData (a : Nat) (v : Byte) (s : State) : (s.engWrite a v).hostData = s.hostData := rfl

/-! ### setResults -/

@[simp] theorem State.setResults_par (x y z : Nat) (s : State) : (s.setResults x y z).par = s.par := rfl
@[simp] theorem State.setResults_cmd (x y z : Nat) (s : State) : (s.setResults x y z).cmd = s.cmd := rfl
@[simp] theorem State.setResults_arg (x y z : Nat) (s : State) : (s.setResults x y z).arg = s.arg := rfl
@[simp] theorem State.setResults_res0 (x y z : Nat) (s : State) : (s.setResults x y z).res0 = word x := rfl
@[simp] theorem State.setResults_res1 (x y z : Nat) (s : State) : (s.setResults x y z).res1 = word y := rfl
@[simp] theorem State.setResults_res2 (x y z : Nat) (s : State) : (s.setResults x y z).res2 = word z := rfl
@[simp] theorem State.setResults_status (x y z : Nat) (s : State) : (s.setResults x y z).status = s.status := rfl
@[simp] theorem State.setResults_errDetail (x y z : Nat) (s : State) :
    (s.setResults x y z).errDetail = s.errDetail := rfl
@[simp] theorem State.setResults_bs (x y z : Nat) (s : State) : (s.setResults x y z).bs = s.bs := rfl
@[simp] theorem State.setResults_ses (x y z : Nat) (s : State) : (s.setResults x y z).ses = s.ses := rfl
@[simp] theorem State.setResults_busy (x y z : Nat) (s : State) : (s.setResults x y z).busy = s.busy := rfl
@[simp] theorem State.setResults_lcmd (x y z : Nat) (s : State) : (s.setResults x y z).lcmd = s.lcmd := rfl
@[simp] theorem State.setResults_larg (x y z : Nat) (s : State) : (s.setResults x y z).larg = s.larg := rfl
@[simp] theorem State.setResults_huf (x y z : Nat) (s : State) : (s.setResults x y z).huf = s.huf := rfl
@[simp] theorem State.setResults_lz (x y z : Nat) (s : State) : (s.setResults x y z).lz = s.lz := rfl
@[simp] theorem State.setResults_le (x y z : Nat) (s : State) : (s.setResults x y z).le = s.le := rfl
@[simp] theorem State.setResults_df (x y z : Nat) (s : State) : (s.setResults x y z).df = s.df := rfl
@[simp] theorem State.setResults_mem (x y z : Nat) (s : State) : (s.setResults x y z).mem = s.mem := rfl
@[simp] theorem State.setResults_raced (x y z : Nat) (s : State) : (s.setResults x y z).raced = s.raced := rfl
@[simp] theorem State.setResults_powerEpoch (x y z : Nat) (s : State) :
    (s.setResults x y z).powerEpoch = s.powerEpoch := rfl
@[simp] theorem State.setResults_drawNo (x y z : Nat) (s : State) : (s.setResults x y z).drawNo = s.drawNo := rfl
@[simp] theorem State.setResults_agenda (x y z : Nat) (s : State) : (s.setResults x y z).agenda = s.agenda := rfl
@[simp] theorem State.setResults_hostData (x y z : Nat) (s : State) : (s.setResults x y z).hostData = s.hostData := rfl

/-! ### setSlot -/

@[simp] theorem State.setSlot_par (k : Fin 4) (slot : HufSlot) (s : State) : (s.setSlot k slot).par = s.par := rfl
@[simp] theorem State.setSlot_cmd (k : Fin 4) (slot : HufSlot) (s : State) : (s.setSlot k slot).cmd = s.cmd := rfl
@[simp] theorem State.setSlot_arg (k : Fin 4) (slot : HufSlot) (s : State) : (s.setSlot k slot).arg = s.arg := rfl
@[simp] theorem State.setSlot_res0 (k : Fin 4) (slot : HufSlot) (s : State) : (s.setSlot k slot).res0 = s.res0 := rfl
@[simp] theorem State.setSlot_res1 (k : Fin 4) (slot : HufSlot) (s : State) : (s.setSlot k slot).res1 = s.res1 := rfl
@[simp] theorem State.setSlot_res2 (k : Fin 4) (slot : HufSlot) (s : State) : (s.setSlot k slot).res2 = s.res2 := rfl
@[simp] theorem State.setSlot_status (k : Fin 4) (slot : HufSlot) (s : State) :
    (s.setSlot k slot).status = s.status := rfl
@[simp] theorem State.setSlot_errDetail (k : Fin 4) (slot : HufSlot) (s : State) :
    (s.setSlot k slot).errDetail = s.errDetail := rfl
@[simp] theorem State.setSlot_bs (k : Fin 4) (slot : HufSlot) (s : State) : (s.setSlot k slot).bs = s.bs := rfl
@[simp] theorem State.setSlot_ses (k : Fin 4) (slot : HufSlot) (s : State) : (s.setSlot k slot).ses = s.ses := rfl
@[simp] theorem State.setSlot_busy (k : Fin 4) (slot : HufSlot) (s : State) : (s.setSlot k slot).busy = s.busy := rfl
@[simp] theorem State.setSlot_lcmd (k : Fin 4) (slot : HufSlot) (s : State) : (s.setSlot k slot).lcmd = s.lcmd := rfl
@[simp] theorem State.setSlot_larg (k : Fin 4) (slot : HufSlot) (s : State) : (s.setSlot k slot).larg = s.larg := rfl
@[simp] theorem State.setSlot_huf (k : Fin 4) (slot : HufSlot) (s : State) :
    (s.setSlot k slot).huf = s.huf.set k slot := rfl
@[simp] theorem State.setSlot_lz (k : Fin 4) (slot : HufSlot) (s : State) : (s.setSlot k slot).lz = s.lz := rfl
@[simp] theorem State.setSlot_le (k : Fin 4) (slot : HufSlot) (s : State) : (s.setSlot k slot).le = s.le := rfl
@[simp] theorem State.setSlot_df (k : Fin 4) (slot : HufSlot) (s : State) : (s.setSlot k slot).df = s.df := rfl
@[simp] theorem State.setSlot_mem (k : Fin 4) (slot : HufSlot) (s : State) : (s.setSlot k slot).mem = s.mem := rfl
@[simp] theorem State.setSlot_raced (k : Fin 4) (slot : HufSlot) (s : State) : (s.setSlot k slot).raced = s.raced := rfl
@[simp] theorem State.setSlot_powerEpoch (k : Fin 4) (slot : HufSlot) (s : State) :
    (s.setSlot k slot).powerEpoch = s.powerEpoch := rfl
@[simp] theorem State.setSlot_drawNo (k : Fin 4) (slot : HufSlot) (s : State) :
    (s.setSlot k slot).drawNo = s.drawNo := rfl
@[simp] theorem State.setSlot_agenda (k : Fin 4) (slot : HufSlot) (s : State) :
    (s.setSlot k slot).agenda = s.agenda := rfl
@[simp] theorem State.setSlot_hostData (k : Fin 4) (slot : HufSlot) (s : State) :
    (s.setSlot k slot).hostData = s.hostData := rfl

/-! ### setDf -/

@[simp] theorem State.setDf_par (df : DflDec) (s : State) : (s.setDf df).par = s.par := rfl
@[simp] theorem State.setDf_cmd (df : DflDec) (s : State) : (s.setDf df).cmd = s.cmd := rfl
@[simp] theorem State.setDf_arg (df : DflDec) (s : State) : (s.setDf df).arg = s.arg := rfl
@[simp] theorem State.setDf_res0 (df : DflDec) (s : State) : (s.setDf df).res0 = s.res0 := rfl
@[simp] theorem State.setDf_res1 (df : DflDec) (s : State) : (s.setDf df).res1 = s.res1 := rfl
@[simp] theorem State.setDf_res2 (df : DflDec) (s : State) : (s.setDf df).res2 = s.res2 := rfl
@[simp] theorem State.setDf_status (df : DflDec) (s : State) : (s.setDf df).status = s.status := rfl
@[simp] theorem State.setDf_errDetail (df : DflDec) (s : State) : (s.setDf df).errDetail = s.errDetail := rfl
@[simp] theorem State.setDf_bs (df : DflDec) (s : State) : (s.setDf df).bs = s.bs := rfl
@[simp] theorem State.setDf_ses (df : DflDec) (s : State) : (s.setDf df).ses = s.ses := rfl
@[simp] theorem State.setDf_busy (df : DflDec) (s : State) : (s.setDf df).busy = s.busy := rfl
@[simp] theorem State.setDf_lcmd (df : DflDec) (s : State) : (s.setDf df).lcmd = s.lcmd := rfl
@[simp] theorem State.setDf_larg (df : DflDec) (s : State) : (s.setDf df).larg = s.larg := rfl
@[simp] theorem State.setDf_huf (df : DflDec) (s : State) : (s.setDf df).huf = s.huf := rfl
@[simp] theorem State.setDf_lz (df : DflDec) (s : State) : (s.setDf df).lz = s.lz := rfl
@[simp] theorem State.setDf_le (df : DflDec) (s : State) : (s.setDf df).le = s.le := rfl
@[simp] theorem State.setDf_df (df : DflDec) (s : State) : (s.setDf df).df = df := rfl
@[simp] theorem State.setDf_mem (df : DflDec) (s : State) : (s.setDf df).mem = s.mem := rfl
@[simp] theorem State.setDf_raced (df : DflDec) (s : State) : (s.setDf df).raced = s.raced := rfl
@[simp] theorem State.setDf_powerEpoch (df : DflDec) (s : State) : (s.setDf df).powerEpoch = s.powerEpoch := rfl
@[simp] theorem State.setDf_drawNo (df : DflDec) (s : State) : (s.setDf df).drawNo = s.drawNo := rfl
@[simp] theorem State.setDf_agenda (df : DflDec) (s : State) : (s.setDf df).agenda = s.agenda := rfl
@[simp] theorem State.setDf_hostData (df : DflDec) (s : State) : (s.setDf df).hostData = s.hostData := rfl

/-! ### sessionDone -/

@[simp] theorem sessionDone_par (s : State) : (sessionDone s).par = s.par := rfl
@[simp] theorem sessionDone_cmd (s : State) : (sessionDone s).cmd = s.cmd := rfl
@[simp] theorem sessionDone_arg (s : State) : (sessionDone s).arg = s.arg := rfl
@[simp] theorem sessionDone_res0 (s : State) : (sessionDone s).res0 = s.res0 := rfl
@[simp] theorem sessionDone_res1 (s : State) : (sessionDone s).res1 = s.res1 := rfl
@[simp] theorem sessionDone_res2 (s : State) : (sessionDone s).res2 = s.res2 := rfl
@[simp] theorem sessionDone_status (s : State) : (sessionDone s).status = s.status := rfl
@[simp] theorem sessionDone_errDetail (s : State) : (sessionDone s).errDetail = s.errDetail := rfl
@[simp] theorem sessionDone_bs (s : State) : (sessionDone s).bs = s.bs := rfl
@[simp] theorem sessionDone_ses (s : State) : (sessionDone s).ses = { s.ses with sstate := .done } := rfl
@[simp] theorem sessionDone_busy (s : State) : (sessionDone s).busy = s.busy := rfl
@[simp] theorem sessionDone_lcmd (s : State) : (sessionDone s).lcmd = s.lcmd := rfl
@[simp] theorem sessionDone_larg (s : State) : (sessionDone s).larg = s.larg := rfl
@[simp] theorem sessionDone_huf (s : State) : (sessionDone s).huf = s.huf := rfl
@[simp] theorem sessionDone_lz (s : State) : (sessionDone s).lz = s.lz := rfl
@[simp] theorem sessionDone_le (s : State) : (sessionDone s).le = s.le := rfl
@[simp] theorem sessionDone_df (s : State) : (sessionDone s).df = s.df := rfl
@[simp] theorem sessionDone_mem (s : State) : (sessionDone s).mem = s.mem := rfl
@[simp] theorem sessionDone_raced (s : State) : (sessionDone s).raced = s.raced := rfl
@[simp] theorem sessionDone_powerEpoch (s : State) : (sessionDone s).powerEpoch = s.powerEpoch := rfl
@[simp] theorem sessionDone_drawNo (s : State) : (sessionDone s).drawNo = s.drawNo := rfl
@[simp] theorem sessionDone_agenda (s : State) : (sessionDone s).agenda = s.agenda := rfl
@[simp] theorem sessionDone_hostData (s : State) : (sessionDone s).hostData = s.hostData := rfl

/-! ### markSessionError -/

@[simp] theorem markSessionError_par (e : Err) (s : State) : (markSessionError e s).par = s.par := rfl
@[simp] theorem markSessionError_cmd (e : Err) (s : State) : (markSessionError e s).cmd = s.cmd := rfl
@[simp] theorem markSessionError_arg (e : Err) (s : State) : (markSessionError e s).arg = s.arg := rfl
@[simp] theorem markSessionError_res0 (e : Err) (s : State) : (markSessionError e s).res0 = s.res0 := rfl
@[simp] theorem markSessionError_res1 (e : Err) (s : State) : (markSessionError e s).res1 = s.res1 := rfl
@[simp] theorem markSessionError_res2 (e : Err) (s : State) : (markSessionError e s).res2 = s.res2 := rfl
@[simp] theorem markSessionError_status (e : Err) (s : State) : (markSessionError e s).status = s.status := rfl
@[simp] theorem markSessionError_errDetail (e : Err) (s : State) : (markSessionError e s).errDetail = s.errDetail := rfl
@[simp] theorem markSessionError_bs (e : Err) (s : State) : (markSessionError e s).bs = s.bs := rfl
@[simp] theorem markSessionError_ses (e : Err) (s : State) :
    (markSessionError e s).ses = { s.ses with sstate := .error, serr := e.code, serrDetail := e.detail, bitpos := 0 } := rfl
@[simp] theorem markSessionError_busy (e : Err) (s : State) : (markSessionError e s).busy = s.busy := rfl
@[simp] theorem markSessionError_lcmd (e : Err) (s : State) : (markSessionError e s).lcmd = s.lcmd := rfl
@[simp] theorem markSessionError_larg (e : Err) (s : State) : (markSessionError e s).larg = s.larg := rfl
@[simp] theorem markSessionError_huf (e : Err) (s : State) : (markSessionError e s).huf = s.huf := rfl
@[simp] theorem markSessionError_lz (e : Err) (s : State) : (markSessionError e s).lz = s.lz := rfl
@[simp] theorem markSessionError_le (e : Err) (s : State) : (markSessionError e s).le = s.le := rfl
@[simp] theorem markSessionError_df (e : Err) (s : State) : (markSessionError e s).df = s.df := rfl
@[simp] theorem markSessionError_mem (e : Err) (s : State) : (markSessionError e s).mem = s.mem := rfl
@[simp] theorem markSessionError_raced (e : Err) (s : State) : (markSessionError e s).raced = s.raced := rfl
@[simp] theorem markSessionError_powerEpoch (e : Err) (s : State) :
    (markSessionError e s).powerEpoch = s.powerEpoch := rfl
@[simp] theorem markSessionError_drawNo (e : Err) (s : State) : (markSessionError e s).drawNo = s.drawNo := rfl
@[simp] theorem markSessionError_agenda (e : Err) (s : State) : (markSessionError e s).agenda = s.agenda := rfl
@[simp] theorem markSessionError_hostData (e : Err) (s : State) : (markSessionError e s).hostData = s.hostData := rfl

/-! ### setBitpos -/

@[simp] theorem setBitpos_par (n : Nat) (s : State) : (setBitpos n s).par = s.par := rfl
@[simp] theorem setBitpos_cmd (n : Nat) (s : State) : (setBitpos n s).cmd = s.cmd := rfl
@[simp] theorem setBitpos_arg (n : Nat) (s : State) : (setBitpos n s).arg = s.arg := rfl
@[simp] theorem setBitpos_res0 (n : Nat) (s : State) : (setBitpos n s).res0 = s.res0 := rfl
@[simp] theorem setBitpos_res1 (n : Nat) (s : State) : (setBitpos n s).res1 = s.res1 := rfl
@[simp] theorem setBitpos_res2 (n : Nat) (s : State) : (setBitpos n s).res2 = s.res2 := rfl
@[simp] theorem setBitpos_status (n : Nat) (s : State) : (setBitpos n s).status = s.status := rfl
@[simp] theorem setBitpos_errDetail (n : Nat) (s : State) : (setBitpos n s).errDetail = s.errDetail := rfl
@[simp] theorem setBitpos_bs (n : Nat) (s : State) : (setBitpos n s).bs = s.bs := rfl
@[simp] theorem setBitpos_ses (n : Nat) (s : State) :
    (setBitpos n s).ses = { s.ses with bitpos := BitVec.ofNat 3 n } := rfl
@[simp] theorem setBitpos_busy (n : Nat) (s : State) : (setBitpos n s).busy = s.busy := rfl
@[simp] theorem setBitpos_lcmd (n : Nat) (s : State) : (setBitpos n s).lcmd = s.lcmd := rfl
@[simp] theorem setBitpos_larg (n : Nat) (s : State) : (setBitpos n s).larg = s.larg := rfl
@[simp] theorem setBitpos_huf (n : Nat) (s : State) : (setBitpos n s).huf = s.huf := rfl
@[simp] theorem setBitpos_lz (n : Nat) (s : State) : (setBitpos n s).lz = s.lz := rfl
@[simp] theorem setBitpos_le (n : Nat) (s : State) : (setBitpos n s).le = s.le := rfl
@[simp] theorem setBitpos_df (n : Nat) (s : State) : (setBitpos n s).df = s.df := rfl
@[simp] theorem setBitpos_mem (n : Nat) (s : State) : (setBitpos n s).mem = s.mem := rfl
@[simp] theorem setBitpos_raced (n : Nat) (s : State) : (setBitpos n s).raced = s.raced := rfl
@[simp] theorem setBitpos_powerEpoch (n : Nat) (s : State) : (setBitpos n s).powerEpoch = s.powerEpoch := rfl
@[simp] theorem setBitpos_drawNo (n : Nat) (s : State) : (setBitpos n s).drawNo = s.drawNo := rfl
@[simp] theorem setBitpos_agenda (n : Nat) (s : State) : (setBitpos n s).agenda = s.agenda := rfl
@[simp] theorem setBitpos_hostData (n : Nat) (s : State) : (setBitpos n s).hostData = s.hostData := rfl

/-! ### lzwReset -/

@[simp] theorem lzwReset_par (s : State) : (lzwReset s).par = s.par := rfl
@[simp] theorem lzwReset_cmd (s : State) : (lzwReset s).cmd = s.cmd := rfl
@[simp] theorem lzwReset_arg (s : State) : (lzwReset s).arg = s.arg := rfl
@[simp] theorem lzwReset_res0 (s : State) : (lzwReset s).res0 = s.res0 := rfl
@[simp] theorem lzwReset_res1 (s : State) : (lzwReset s).res1 = s.res1 := rfl
@[simp] theorem lzwReset_res2 (s : State) : (lzwReset s).res2 = s.res2 := rfl
@[simp] theorem lzwReset_status (s : State) : (lzwReset s).status = s.status := rfl
@[simp] theorem lzwReset_errDetail (s : State) : (lzwReset s).errDetail = s.errDetail := rfl
@[simp] theorem lzwReset_bs (s : State) : (lzwReset s).bs = s.bs := rfl
@[simp] theorem lzwReset_ses (s : State) : (lzwReset s).ses = s.ses := rfl
@[simp] theorem lzwReset_busy (s : State) : (lzwReset s).busy = s.busy := rfl
@[simp] theorem lzwReset_lcmd (s : State) : (lzwReset s).lcmd = s.lcmd := rfl
@[simp] theorem lzwReset_larg (s : State) : (lzwReset s).larg = s.larg := rfl
@[simp] theorem lzwReset_huf (s : State) : (lzwReset s).huf = s.huf := rfl
@[simp] theorem lzwReset_lz (s : State) :
    (lzwReset s).lz = { size := s.firstCode, width := s.litWidth + 1, prev := none, strs := [] } := rfl
@[simp] theorem lzwReset_le (s : State) : (lzwReset s).le = s.le := rfl
@[simp] theorem lzwReset_df (s : State) : (lzwReset s).df = s.df := rfl
@[simp] theorem lzwReset_mem (s : State) : (lzwReset s).mem = s.mem := rfl
@[simp] theorem lzwReset_raced (s : State) : (lzwReset s).raced = s.raced := rfl
@[simp] theorem lzwReset_powerEpoch (s : State) : (lzwReset s).powerEpoch = s.powerEpoch := rfl
@[simp] theorem lzwReset_drawNo (s : State) : (lzwReset s).drawNo = s.drawNo := rfl
@[simp] theorem lzwReset_agenda (s : State) : (lzwReset s).agenda = s.agenda := rfl
@[simp] theorem lzwReset_hostData (s : State) : (lzwReset s).hostData = s.hostData := rfl

/-! ### setMatched -/

@[simp] theorem setMatched_par (w : Option Nat) (s : State) : (setMatched w s).par = s.par := rfl
@[simp] theorem setMatched_cmd (w : Option Nat) (s : State) : (setMatched w s).cmd = s.cmd := rfl
@[simp] theorem setMatched_arg (w : Option Nat) (s : State) : (setMatched w s).arg = s.arg := rfl
@[simp] theorem setMatched_res0 (w : Option Nat) (s : State) : (setMatched w s).res0 = s.res0 := rfl
@[simp] theorem setMatched_res1 (w : Option Nat) (s : State) : (setMatched w s).res1 = s.res1 := rfl
@[simp] theorem setMatched_res2 (w : Option Nat) (s : State) : (setMatched w s).res2 = s.res2 := rfl
@[simp] theorem setMatched_status (w : Option Nat) (s : State) : (setMatched w s).status = s.status := rfl
@[simp] theorem setMatched_errDetail (w : Option Nat) (s : State) : (setMatched w s).errDetail = s.errDetail := rfl
@[simp] theorem setMatched_bs (w : Option Nat) (s : State) : (setMatched w s).bs = s.bs := rfl
@[simp] theorem setMatched_ses (w : Option Nat) (s : State) : (setMatched w s).ses = s.ses := rfl
@[simp] theorem setMatched_busy (w : Option Nat) (s : State) : (setMatched w s).busy = s.busy := rfl
@[simp] theorem setMatched_lcmd (w : Option Nat) (s : State) : (setMatched w s).lcmd = s.lcmd := rfl
@[simp] theorem setMatched_larg (w : Option Nat) (s : State) : (setMatched w s).larg = s.larg := rfl
@[simp] theorem setMatched_huf (w : Option Nat) (s : State) : (setMatched w s).huf = s.huf := rfl
@[simp] theorem setMatched_lz (w : Option Nat) (s : State) : (setMatched w s).lz = s.lz := rfl
@[simp] theorem setMatched_le (w : Option Nat) (s : State) : (setMatched w s).le = { s.le with w := w } := rfl
@[simp] theorem setMatched_df (w : Option Nat) (s : State) : (setMatched w s).df = s.df := rfl
@[simp] theorem setMatched_mem (w : Option Nat) (s : State) : (setMatched w s).mem = s.mem := rfl
@[simp] theorem setMatched_raced (w : Option Nat) (s : State) : (setMatched w s).raced = s.raced := rfl
@[simp] theorem setMatched_powerEpoch (w : Option Nat) (s : State) : (setMatched w s).powerEpoch = s.powerEpoch := rfl
@[simp] theorem setMatched_drawNo (w : Option Nat) (s : State) : (setMatched w s).drawNo = s.drawNo := rfl
@[simp] theorem setMatched_agenda (w : Option Nat) (s : State) : (setMatched w s).agenda = s.agenda := rfl
@[simp] theorem setMatched_hostData (w : Option Nat) (s : State) : (setMatched w s).hostData = s.hostData := rfl

/-! ### learnPair -/

@[simp] theorem learnPair_par (c : Nat) (b : Byte) (s : State) : (learnPair c b s).par = s.par := rfl
@[simp] theorem learnPair_cmd (c : Nat) (b : Byte) (s : State) : (learnPair c b s).cmd = s.cmd := rfl
@[simp] theorem learnPair_arg (c : Nat) (b : Byte) (s : State) : (learnPair c b s).arg = s.arg := rfl
@[simp] theorem learnPair_res0 (c : Nat) (b : Byte) (s : State) : (learnPair c b s).res0 = s.res0 := rfl
@[simp] theorem learnPair_res1 (c : Nat) (b : Byte) (s : State) : (learnPair c b s).res1 = s.res1 := rfl
@[simp] theorem learnPair_res2 (c : Nat) (b : Byte) (s : State) : (learnPair c b s).res2 = s.res2 := rfl
@[simp] theorem learnPair_status (c : Nat) (b : Byte) (s : State) : (learnPair c b s).status = s.status := rfl
@[simp] theorem learnPair_errDetail (c : Nat) (b : Byte) (s : State) : (learnPair c b s).errDetail = s.errDetail := rfl
@[simp] theorem learnPair_bs (c : Nat) (b : Byte) (s : State) : (learnPair c b s).bs = s.bs := rfl
@[simp] theorem learnPair_ses (c : Nat) (b : Byte) (s : State) : (learnPair c b s).ses = s.ses := rfl
@[simp] theorem learnPair_busy (c : Nat) (b : Byte) (s : State) : (learnPair c b s).busy = s.busy := rfl
@[simp] theorem learnPair_lcmd (c : Nat) (b : Byte) (s : State) : (learnPair c b s).lcmd = s.lcmd := rfl
@[simp] theorem learnPair_larg (c : Nat) (b : Byte) (s : State) : (learnPair c b s).larg = s.larg := rfl
@[simp] theorem learnPair_huf (c : Nat) (b : Byte) (s : State) : (learnPair c b s).huf = s.huf := rfl
@[simp] theorem learnPair_lz (c : Nat) (b : Byte) (s : State) : (learnPair c b s).lz = s.lz := rfl
@[simp] theorem learnPair_le (c : Nat) (b : Byte) (s : State) :
    (learnPair c b s).le = { s.le with map := ⟨c, b, s.le.size⟩ :: s.le.map, size := s.le.size + 1 } := rfl
@[simp] theorem learnPair_df (c : Nat) (b : Byte) (s : State) : (learnPair c b s).df = s.df := rfl
@[simp] theorem learnPair_mem (c : Nat) (b : Byte) (s : State) : (learnPair c b s).mem = s.mem := rfl
@[simp] theorem learnPair_raced (c : Nat) (b : Byte) (s : State) : (learnPair c b s).raced = s.raced := rfl
@[simp] theorem learnPair_powerEpoch (c : Nat) (b : Byte) (s : State) :
    (learnPair c b s).powerEpoch = s.powerEpoch := rfl
@[simp] theorem learnPair_drawNo (c : Nat) (b : Byte) (s : State) : (learnPair c b s).drawNo = s.drawNo := rfl
@[simp] theorem learnPair_agenda (c : Nat) (b : Byte) (s : State) : (learnPair c b s).agenda = s.agenda := rfl
@[simp] theorem learnPair_hostData (c : Nat) (b : Byte) (s : State) : (learnPair c b s).hostData = s.hostData := rfl

/-! ### clearEncoder -/

@[simp] theorem clearEncoder_par (s : State) : (clearEncoder s).par = s.par := rfl
@[simp] theorem clearEncoder_cmd (s : State) : (clearEncoder s).cmd = s.cmd := rfl
@[simp] theorem clearEncoder_arg (s : State) : (clearEncoder s).arg = s.arg := rfl
@[simp] theorem clearEncoder_res0 (s : State) : (clearEncoder s).res0 = s.res0 := rfl
@[simp] theorem clearEncoder_res1 (s : State) : (clearEncoder s).res1 = s.res1 := rfl
@[simp] theorem clearEncoder_res2 (s : State) : (clearEncoder s).res2 = s.res2 := rfl
@[simp] theorem clearEncoder_status (s : State) : (clearEncoder s).status = s.status := rfl
@[simp] theorem clearEncoder_errDetail (s : State) : (clearEncoder s).errDetail = s.errDetail := rfl
@[simp] theorem clearEncoder_bs (s : State) : (clearEncoder s).bs = s.bs := rfl
@[simp] theorem clearEncoder_ses (s : State) : (clearEncoder s).ses = s.ses := rfl
@[simp] theorem clearEncoder_busy (s : State) : (clearEncoder s).busy = s.busy := rfl
@[simp] theorem clearEncoder_lcmd (s : State) : (clearEncoder s).lcmd = s.lcmd := rfl
@[simp] theorem clearEncoder_larg (s : State) : (clearEncoder s).larg = s.larg := rfl
@[simp] theorem clearEncoder_huf (s : State) : (clearEncoder s).huf = s.huf := rfl
@[simp] theorem clearEncoder_lz (s : State) : (clearEncoder s).lz = s.lz := rfl
@[simp] theorem clearEncoder_le (s : State) :
    (clearEncoder s).le = { s.le with map := [], size := s.firstCode, dsize := s.firstCode, dwidth := s.litWidth + 1, dprev := false } := rfl
@[simp] theorem clearEncoder_df (s : State) : (clearEncoder s).df = s.df := rfl
@[simp] theorem clearEncoder_mem (s : State) : (clearEncoder s).mem = s.mem := rfl
@[simp] theorem clearEncoder_raced (s : State) : (clearEncoder s).raced = s.raced := rfl
@[simp] theorem clearEncoder_powerEpoch (s : State) : (clearEncoder s).powerEpoch = s.powerEpoch := rfl
@[simp] theorem clearEncoder_drawNo (s : State) : (clearEncoder s).drawNo = s.drawNo := rfl
@[simp] theorem clearEncoder_agenda (s : State) : (clearEncoder s).agenda = s.agenda := rfl
@[simp] theorem clearEncoder_hostData (s : State) : (clearEncoder s).hostData = s.hostData := rfl

/-! ### acceptCommand -/

@[simp] theorem acceptCommand_par (w : Word) (s : State) : (acceptCommand w s).par = s.par := rfl
@[simp] theorem acceptCommand_cmd (w : Word) (s : State) : (acceptCommand w s).cmd = w := rfl
@[simp] theorem acceptCommand_arg (w : Word) (s : State) : (acceptCommand w s).arg = s.arg := rfl
@[simp] theorem acceptCommand_res0 (w : Word) (s : State) : (acceptCommand w s).res0 = s.res0 := rfl
@[simp] theorem acceptCommand_res1 (w : Word) (s : State) : (acceptCommand w s).res1 = s.res1 := rfl
@[simp] theorem acceptCommand_res2 (w : Word) (s : State) : (acceptCommand w s).res2 = s.res2 := rfl
@[simp] theorem acceptCommand_status (w : Word) (s : State) : (acceptCommand w s).status = s.status := rfl
@[simp] theorem acceptCommand_errDetail (w : Word) (s : State) : (acceptCommand w s).errDetail = s.errDetail := rfl
@[simp] theorem acceptCommand_bs (w : Word) (s : State) : (acceptCommand w s).bs = s.bs := rfl
@[simp] theorem acceptCommand_ses (w : Word) (s : State) : (acceptCommand w s).ses = s.ses := rfl
@[simp] theorem acceptCommand_busy (w : Word) (s : State) : (acceptCommand w s).busy = true := rfl
@[simp] theorem acceptCommand_lcmd (w : Word) (s : State) : (acceptCommand w s).lcmd = w := rfl
@[simp] theorem acceptCommand_larg (w : Word) (s : State) : (acceptCommand w s).larg = s.arg := rfl
@[simp] theorem acceptCommand_huf (w : Word) (s : State) : (acceptCommand w s).huf = s.huf := rfl
@[simp] theorem acceptCommand_lz (w : Word) (s : State) : (acceptCommand w s).lz = s.lz := rfl
@[simp] theorem acceptCommand_le (w : Word) (s : State) : (acceptCommand w s).le = s.le := rfl
@[simp] theorem acceptCommand_df (w : Word) (s : State) : (acceptCommand w s).df = s.df := rfl
@[simp] theorem acceptCommand_mem (w : Word) (s : State) : (acceptCommand w s).mem = s.mem := rfl
@[simp] theorem acceptCommand_raced (w : Word) (s : State) : (acceptCommand w s).raced = s.raced := rfl
@[simp] theorem acceptCommand_powerEpoch (w : Word) (s : State) : (acceptCommand w s).powerEpoch = s.powerEpoch := rfl
@[simp] theorem acceptCommand_drawNo (w : Word) (s : State) : (acceptCommand w s).drawNo = s.drawNo := rfl
@[simp] theorem acceptCommand_agenda (w : Word) (s : State) : (acceptCommand w s).agenda = s.agenda := rfl
@[simp] theorem acceptCommand_hostData (w : Word) (s : State) : (acceptCommand w s).hostData = s.hostData := rfl

/-! ### withAgenda -/

@[simp] theorem State.withAgenda_par (rest : List Event) (s : State) : (s.withAgenda rest).par = s.par := rfl
@[simp] theorem State.withAgenda_cmd (rest : List Event) (s : State) : (s.withAgenda rest).cmd = s.cmd := rfl
@[simp] theorem State.withAgenda_arg (rest : List Event) (s : State) : (s.withAgenda rest).arg = s.arg := rfl
@[simp] theorem State.withAgenda_res0 (rest : List Event) (s : State) : (s.withAgenda rest).res0 = s.res0 := rfl
@[simp] theorem State.withAgenda_res1 (rest : List Event) (s : State) : (s.withAgenda rest).res1 = s.res1 := rfl
@[simp] theorem State.withAgenda_res2 (rest : List Event) (s : State) : (s.withAgenda rest).res2 = s.res2 := rfl
@[simp] theorem State.withAgenda_status (rest : List Event) (s : State) : (s.withAgenda rest).status = s.status := rfl
@[simp] theorem State.withAgenda_errDetail (rest : List Event) (s : State) :
    (s.withAgenda rest).errDetail = s.errDetail := rfl
@[simp] theorem State.withAgenda_bs (rest : List Event) (s : State) : (s.withAgenda rest).bs = s.bs := rfl
@[simp] theorem State.withAgenda_ses (rest : List Event) (s : State) : (s.withAgenda rest).ses = s.ses := rfl
@[simp] theorem State.withAgenda_busy (rest : List Event) (s : State) : (s.withAgenda rest).busy = s.busy := rfl
@[simp] theorem State.withAgenda_lcmd (rest : List Event) (s : State) : (s.withAgenda rest).lcmd = s.lcmd := rfl
@[simp] theorem State.withAgenda_larg (rest : List Event) (s : State) : (s.withAgenda rest).larg = s.larg := rfl
@[simp] theorem State.withAgenda_huf (rest : List Event) (s : State) : (s.withAgenda rest).huf = s.huf := rfl
@[simp] theorem State.withAgenda_lz (rest : List Event) (s : State) : (s.withAgenda rest).lz = s.lz := rfl
@[simp] theorem State.withAgenda_le (rest : List Event) (s : State) : (s.withAgenda rest).le = s.le := rfl
@[simp] theorem State.withAgenda_df (rest : List Event) (s : State) : (s.withAgenda rest).df = s.df := rfl
@[simp] theorem State.withAgenda_mem (rest : List Event) (s : State) : (s.withAgenda rest).mem = s.mem := rfl
@[simp] theorem State.withAgenda_raced (rest : List Event) (s : State) : (s.withAgenda rest).raced = s.raced := rfl
@[simp] theorem State.withAgenda_powerEpoch (rest : List Event) (s : State) :
    (s.withAgenda rest).powerEpoch = s.powerEpoch := rfl
@[simp] theorem State.withAgenda_drawNo (rest : List Event) (s : State) : (s.withAgenda rest).drawNo = s.drawNo := rfl
@[simp] theorem State.withAgenda_agenda (rest : List Event) (s : State) : (s.withAgenda rest).agenda = rest := rfl
@[simp] theorem State.withAgenda_hostData (rest : List Event) (s : State) :
    (s.withAgenda rest).hostData = s.hostData := rfl

end Sys2Proof.Machine
end

