-- ==== Sys2Proof/Laws/Memory.lean ====
section
/-! SUPPORT. Buffer memory: read after write, the canonical form kept by every memory operation, and what races do to a byte at a command's end. -/

namespace Sys2Proof.Machine

/-! ### Read after write -/

@[simp] theorem Memory.find_put_same (m : Memory) (a : Nat) (v : Byte) : Memory.find (Memory.put m a v) a = some v := by
  induction m with
  | nil => simp [Memory.put, Memory.find]
  | cons c rest ih =>
    obtain ⟨b, w⟩ := c
    unfold Memory.put
    split
    · simp [Memory.find]
    · split
      · simp [Memory.find]
      · next h => simp [Memory.find, h, ih]

theorem Memory.find_put_other (m : Memory) {a b : Nat} (v : Byte) (h : b ≠ a) :
    Memory.find (Memory.put m a v) b = Memory.find m b := by
  induction m with
  | nil => simp [Memory.put, Memory.find, h]
  | cons c rest ih =>
    obtain ⟨d, w⟩ := c
    unfold Memory.put
    split
    · simp [Memory.find, h]
    · split
      · next h' => subst h'; simp [Memory.find, h]
      · simp only [Memory.find, ih]

theorem Memory.find_put (m : Memory) (a b : Nat) (v : Byte) :
    Memory.find (Memory.put m a v) b = if b = a then some v else Memory.find m b := by
  split
  · next h => subst h; simp
  · next h => exact find_put_other m v h

/-! ### The canonical form -/

/-- The addresses a write leaves listed: the one written and those listed before. -/
theorem Memory.mem_put_addr {m : Memory} {a x : Nat} {v : Byte} :
    x ∈ (Memory.put m a v).map Prod.fst ↔ x = a ∨ x ∈ m.map Prod.fst := by
  induction m with
  | nil => simp [Memory.put]
  | cons c rest ih =>
    obtain ⟨b, w⟩ := c
    unfold Memory.put
    split
    · simp
    · split
      · next h => subst h; simp
      · simp only [List.map_cons, List.mem_cons, ih]; tauto

theorem Memory.put_wf {m : Memory} (h : Memory.wf m) (a : Nat) (v : Byte) : Memory.wf (Memory.put m a v) := by
  induction m with
  | nil => simp [Memory.put, Memory.wf]
  | cons c rest ih =>
    obtain ⟨b, w⟩ := c
    have h' := List.pairwise_cons.mp h
    unfold Memory.put
    split
    · next hab =>
      refine List.pairwise_cons.mpr ⟨?_, h⟩
      intro x hx
      simp only [List.map_cons, List.mem_cons] at hx
      rcases hx with rfl | hx
      · exact hab
      · exact Nat.lt_trans hab (h'.1 x hx)
    · split
      · next hab => subst hab; exact h
      · next hba hab =>
        refine List.pairwise_cons.mpr ⟨?_, ih h'.2⟩
        intro x hx
        rcases Memory.mem_put_addr.mp hx with rfl | hx
        · simp only; omega
        · exact h'.1 x hx

theorem settleByte_wf {m : Memory} (h : Memory.wf m) (draw : Nat) (r : RacedByte) : Memory.wf (settleByte draw r m) := by
  unfold settleByte
  split
  · exact h
  · exact Memory.put_wf h _ _

theorem settle_wf {s : State} (h : Memory.wf s.mem) : Memory.wf s.settle.mem := by
  simp only [State.settle_mem]
  generalize s.mem = m at h
  induction s.raced with
  | nil => exact h
  | cons r rest ih => exact settleByte_wf ih _ _

theorem engWrite_wf {s : State} (h : Memory.wf s.mem) (a : Nat) (v : Byte) : Memory.wf (s.engWrite a v).mem :=
  Memory.put_wf h a v

theorem reset_memory_wf : Memory.wf State.reset.mem := List.Pairwise.nil

/-! ### Bytes -/

@[simp] theorem State.memByte_engWrite (s : State) (a b : Nat) (v : Byte) :
    (s.engWrite a v).memByte b = if b = a then v else s.memByte b := by
  simp only [State.memByte, State.engWrite_mem, State.engWrite_powerEpoch, Memory.find_put]
  split <;> simp

theorem State.memByte_congr {s t : State} (hm : t.mem = s.mem) (he : t.powerEpoch = s.powerEpoch) (a : Nat) :
    t.memByte a = s.memByte a := by simp [State.memByte, hm, he]

theorem State.hostByte_congr {s t : State} (hm : t.mem = s.mem) (he : t.powerEpoch = s.powerEpoch)
    (hr : t.raced = s.raced) (a : Nat) : t.hostByte a = s.hostByte a := by
  simp [State.hostByte, State.racedAt, hr, State.memByte_congr hm he]

theorem State.engByte_congr {s t : State} (hm : t.mem = s.mem) (he : t.powerEpoch = s.powerEpoch)
    (hr : t.raced = s.raced) (hd : t.drawNo = s.drawNo) (site : List Nat) (a : Nat) :
    t.engByte site a = s.engByte site a := by
  simp [State.engByte, State.racedAt, hr, hd, State.memByte_congr hm he]

@[simp] theorem State.hostByte_of_no_race {s : State} (h : s.raced = []) (a : Nat) : s.hostByte a = s.memByte a := by
  simp [State.hostByte, State.racedAt, h]

theorem State.engByte_of_no_race {s : State} (h : s.raced = []) (site : List Nat) (a : Nat) :
    s.engByte site a = s.memByte a := by
  simp [State.engByte, State.racedAt, h]

/-! ### Races -/

theorem find_clearWritten (raced : List RacedByte) (a : Nat) :
    (clearWritten raced).find? (fun r => r.addr == a) =
      (raced.find? (fun r => r.addr == a)).map fun r => { r with engineWrote := false } := by
  induction raced with
  | nil => rfl
  | cons r rest ih =>
    simp only [clearWritten, List.map_cons, List.find?_cons] at ih ⊢
    cases h : r.addr == a <;> simp [ih]

theorem find_markWritten (raced : List RacedByte) (w a : Nat) :
    (markWritten raced w).find? (fun r => r.addr == a) =
      (raced.find? (fun r => r.addr == a)).map fun r => if a = w then { r with engineWrote := true } else r := by
  induction raced with
  | nil => rfl
  | cons r rest ih =>
    simp only [markWritten, List.map_cons, List.find?_cons] at ih ⊢
    have hk : (if r.addr = w then { r with engineWrote := true } else r).addr = r.addr := by split <;> rfl
    rw [hk]
    by_cases ha : r.addr = a
    · subst ha; simp
    · have : (r.addr == a) = false := by simp [ha]
      rw [this]
      exact ih

theorem racedAt_engWrite (s : State) (w a : Nat) (v : Byte) :
    (s.engWrite w v).racedAt a =
      (s.racedAt a).map fun r => if a = w then { r with engineWrote := true } else r :=
  find_markWritten s.raced w a

theorem racedAt_startCommand (s : State) (a : Nat) :
    (startCommand s).racedAt a = (s.racedAt a).map fun r => { r with engineWrote := false } :=
  find_clearWritten s.raced a

@[simp] theorem hostByte_startCommand (s : State) (a : Nat) : (startCommand s).hostByte a = s.hostByte a := by
  simp only [State.hostByte, racedAt_startCommand]
  cases s.racedAt a <;> rfl

@[simp] theorem engByte_startCommand (s : State) (site : List Nat) (a : Nat) :
    (startCommand s).engByte site a = s.engByte site a := by
  simp only [State.engByte, racedAt_startCommand]
  cases s.racedAt a <;> rfl

@[simp] theorem clearWritten_nil : clearWritten [] = [] := rfl
@[simp] theorem markWritten_nil (a : Nat) : markWritten [] a = [] := rfl

/-- Which byte the settling of a list of raced bytes leaves: that of the first entry for the address. -/
theorem find_settle (raced : List RacedByte) (draw : Nat) (m : Memory) (a : Nat) :
    (∀ r, raced.find? (fun r => r.addr == a) = some r → (r.engineWrote && !Config.raceKeepsHost draw a) = false →
      Memory.find (raced.foldr (settleByte draw) m) a = some r.last) ∧
    (raced.find? (fun r => r.addr == a) = none →
      Memory.find (raced.foldr (settleByte draw) m) a = Memory.find m a) ∧
    (∀ r, (raced.map RacedByte.addr).Nodup → raced.find? (fun r => r.addr == a) = some r →
      Memory.find (raced.foldr (settleByte draw) m) a = some r.last ∨
      Memory.find (raced.foldr (settleByte draw) m) a = Memory.find m a) := by
  induction raced with
  | nil => simp
  | cons x rest ih =>
    obtain ⟨ih1, ih2, ih3⟩ := ih
    by_cases hx : x.addr = a
    · subst hx
      refine ⟨?_, by simp, ?_⟩
      · intro r hr hk
        simp only [List.find?_cons, beq_self_eq_true, Option.some.injEq] at hr
        subst hr
        simp only [List.foldr_cons]
        rw [settleByte, if_neg (by simp [hk]), Memory.find_put_same]
      · intro r hnd hr
        simp only [List.find?_cons, beq_self_eq_true, Option.some.injEq] at hr
        subst hr
        simp only [List.foldr_cons]
        unfold settleByte
        split
        · right
          apply ih2
          simp only [List.map_cons, List.nodup_cons] at hnd
          simp only [List.find?_eq_none, beq_iff_eq]
          intro y hy heq
          exact hnd.1 (heq ▸ List.mem_map_of_mem hy)
        · left; simp
    · have hput : Memory.find (settleByte draw x (rest.foldr (settleByte draw) m)) a =
          Memory.find (rest.foldr (settleByte draw) m) a := by
        unfold settleByte
        split
        · rfl
        · exact Memory.find_put_other _ _ (fun h => hx h.symm)
      have hf : (x :: rest).find? (fun r => r.addr == a) = rest.find? (fun r => r.addr == a) := by
        simp [hx]
      simp only [List.foldr_cons, hput, hf]
      exact ⟨ih1, ih2, fun r hnd => ih3 r (List.nodup_cons.mp hnd).2⟩

/-- A byte the command has not written reads after its end as the host left it. -/
theorem hostByte_finishCommand {s : State} {a : Nat} (h : ∀ r, s.racedAt a = some r → r.engineWrote = false) :
    (finishCommand s).hostByte a = s.hostByte a := by
  have hf := find_settle s.raced s.drawNo s.mem a
  rw [State.hostByte_of_no_race (by rfl)]
  simp only [State.memByte, finishCommand_mem, finishCommand_powerEpoch, State.hostByte]
  cases hr : s.racedAt a with
  | none => rw [hf.2.1 hr]
  | some r => rw [hf.1 r hr (by simp [h r hr])]; rfl

theorem hostByte_raiseError {e : Err} {s : State} {a : Nat} (h : ∀ r, s.racedAt a = some r → r.engineWrote = false) :
    (raiseError e s).hostByte a = s.hostByte a :=
  hostByte_finishCommand (s := { s with status := s.status.withError e, errDetail := e.detail }) h

theorem markWritten_addr (raced : List RacedByte) (a : Nat) :
    (markWritten raced a).map RacedByte.addr = raced.map RacedByte.addr := by
  simp only [markWritten, List.map_map]
  apply List.map_congr_left
  intro r _
  simp only [Function.comp]
  split <;> rfl

theorem clearWritten_addr (raced : List RacedByte) :
    (clearWritten raced).map RacedByte.addr = raced.map RacedByte.addr := by
  simp only [clearWritten, List.map_map]
  rfl

theorem mem_addRaced_addr {raced : List RacedByte} {a x : Nat} {v : Byte} :
    x ∈ (addRaced raced a v).map RacedByte.addr ↔ x = a ∨ x ∈ raced.map RacedByte.addr := by
  induction raced with
  | nil => simp [addRaced]
  | cons r rest ih =>
    unfold addRaced
    split
    · next h => subst h; simp
    · simp only [List.map_cons, List.mem_cons, ih]; tauto

theorem addRaced_nodup {raced : List RacedByte} (h : (raced.map RacedByte.addr).Nodup) (a : Nat) (v : Byte) :
    ((addRaced raced a v).map RacedByte.addr).Nodup := by
  induction raced with
  | nil => simp [addRaced]
  | cons r rest ih =>
    have h' := List.nodup_cons.mp h
    unfold addRaced
    split
    · exact h
    · next hne =>
      refine List.nodup_cons.mpr ⟨?_, ih h'.2⟩
      intro hm
      rcases mem_addRaced_addr.mp hm with hm | hm
      · exact hne hm
      · exact h'.1 hm

/-- What the record of a raced byte becomes when the host writes it once more. -/
def RacedByte.again (r : RacedByte) (v : Byte) : RacedByte := { r with last := v, earlier := r.last :: r.earlier }

/-- All that a host write does to the record of racing writes (20 R95). -/
theorem find_addRaced_entry (raced : List RacedByte) (a b : Nat) (v : Byte) :
    (addRaced raced a v).find? (fun r => r.addr == b) =
      if b = a then some (((raced.find? fun r => r.addr == a).map (·.again v)).getD ⟨a, v, [], false⟩)
      else raced.find? (fun r => r.addr == b) := by
  induction raced with
  | nil =>
    by_cases h : b = a
    · subst h; simp [addRaced]
    · have : ¬ a = b := fun e => h e.symm
      simp [addRaced, h, this]
  | cons r rest ih =>
    unfold addRaced
    split
    · next h =>
      by_cases hb : b = a
      · subst hb; simp [h, RacedByte.again]
      · have : ¬ a = b := fun e => hb e.symm
        simp [h, hb, this]
    · next h =>
      by_cases hb : r.addr = b
      · have hba : ¬ b = a := fun e => h (hb.trans e)
        simp [hb, hba]
      · simp [hb, h, ih]

theorem find_addRaced (raced : List RacedByte) (a b : Nat) (v : Byte) :
    ((addRaced raced a v).find? (fun r => r.addr == b)).map RacedByte.last =
      if b = a then some v else (raced.find? (fun r => r.addr == b)).map RacedByte.last := by
  rw [find_addRaced_entry]
  by_cases hb : b = a
  · cases h : raced.find? (fun r => r.addr == a) <;> simp [hb, RacedByte.again]
  · simp [hb]

end Sys2Proof.Machine
end

