-- ==== Sys2Proof/Laws/Effects.lean ====
section
/-! SUPPORT. Running a command: exec as start, effects, end; and the frame of the shared write operations. -/

namespace Sys2Proof.Machine

/-! ### A command is its effects between a start and an end -/

/-- The effects of each command. -/
def effects : Instr → State → Run
  | .nop => nopEffects
  | .bsInit ord => bsInitEffects ord
  | .bsAppend width => bsAppendEffects width
  | .bsReadBit => bsReadBitEffects
  | .hufBuildCanon slot => hufBuildCanonEffects slot
  | .hufBuildWeighted slot => hufBuildWeightedEffects slot
  | .hufGetCode slot => hufGetCodeEffects slot
  | .hufEncode slot => hufEncodeEffects slot
  | .hufMatch slot => hufMatchEffects slot
  | .hufDecodeBs slot => hufDecodeBsEffects slot
  | .lzwDecStart ord lit => lzwDecStartEffects ord lit
  | .lzwEncStart ord lit => lzwEncStartEffects ord lit
  | .dflDecStart => dflDecStartEffects
  | .dflEncStart mode => dflEncStartEffects mode
  | .feed complete => feedEffects complete
  | .sessionEnd => sessionEndEffects
  | .lz77Match => lz77MatchEffects
  | .softReset => softResetEffects

theorem exec_eq (i : Instr) (s : State) : exec i s = .next (effects i (startCommand s)).finish := by
  cases i <;> rfl

theorem completes_iff (i : Instr) (s : State) (P : State → Prop) :
    Completes i s P ↔ P (effects i (startCommand s)).finish := by
  simp [Completes, exec_eq]

/-- What one step can do: an engine's turn, a host action, or nothing. -/
theorem runLatched_next (s : State) : ∃ r : Run, runLatched s = .next r.finish ∧
    ((∃ i, decode s.lcmd = .ok i ∧ r = effects i (startCommand s)) ∨
     (∃ d, decode s.lcmd = .error d ∧ r = .fail (startCommand s) (rejectError d))) := by
  unfold runLatched
  cases h : decode s.lcmd with
  | ok i => exact ⟨_, exec_eq i s, .inl ⟨i, rfl, rfl⟩⟩
  | error d => exact ⟨_, rfl, .inr ⟨d, rfl, rfl⟩⟩

/-- Everything a step that answers a next state can be. -/
theorem step_cases {s t : State} (h : step s = .next t) :
    (∃ r : Run, s.busy = true ∧ t = r.finish ∧ ∃ u : State,
      (s.agenda = [] ∧ u = s ∨ (∃ rest, s.agenda = .engine :: rest ∧ u = s.withAgenda rest) ∨
        (∃ rest, s.agenda = .wait :: rest) ∧ u = s) ∧
      ((∃ i, decode s.lcmd = .ok i ∧ r = effects i (startCommand u)) ∨
       (∃ d, decode s.lcmd = .error d ∧ r = .fail (startCommand u) (rejectError d)))) ∨
    (s.busy = false ∧ (t = s ∨ (∃ rest, t = s.withAgenda rest) ∨
      ∃ rest, t = { s.withAgenda rest with hostData := s.statusWord })) ∨
    (∃ o b v rest, s.agenda = .regWrite o b v :: rest ∧ t = (s.withAgenda rest).writeReg o v ∧ o % 4 = 0 ∧ o < 256 ∧
      b = 4) ∨
    (∃ o b rest, s.agenda = .regRead o b :: rest ∧ t = { s.withAgenda rest with hostData := s.readReg o }) ∨
    (∃ a v rest, s.agenda = .memWrite a v :: rest ∧ a < memSize s.par ∧
      ((s.busy = true ∧ t = { s.withAgenda rest with raced := addRaced s.raced a v }) ∨
       (s.busy = false ∧ t = { s.withAgenda rest with mem := Memory.put s.mem a v }))) ∨
    (∃ a rest, s.agenda = .memRead a :: rest ∧
      ∃ d, t = { s.withAgenda rest with hostData := d, drawNo := s.drawNo + 1 }) ∨
    (∃ rest, s.agenda = .reset :: rest ∧ t = resetInput (s.withAgenda rest)) ∨
    (∃ rest, s.agenda = .powerOn :: rest ∧ t = powerOnReset (s.withAgenda rest)) := by
  unfold step at h
  split at h
  · next hag =>
    unfold engineTurn at h
    split at h
    · next hb =>
      obtain ⟨r, hr, hd⟩ := runLatched_next s
      rw [hr] at h
      injection h with h
      exact .inl ⟨r, hb, h.symm, s, .inl ⟨hag, rfl⟩, hd⟩
    · next hb =>
      injection h with h
      exact .inr (.inl ⟨by simpa using hb, .inl h.symm⟩)
  · next e rest hag =>
    cases e with
    | engine =>
      simp only [runEvent, engineTurn] at h
      split at h
      · next hb =>
        obtain ⟨r, hr, hd⟩ := runLatched_next (s.withAgenda rest)
        rw [hr] at h
        injection h with h
        exact .inl ⟨r, hb, h.symm, _, .inr (.inl ⟨rest, hag, rfl⟩), hd⟩
      · next hb =>
        injection h with h
        exact .inr (.inl ⟨by simpa using hb, .inr (.inl ⟨rest, h.symm⟩)⟩)
    | wait =>
      simp only [runEvent, hostWait] at h
      split at h
      · next hb =>
        obtain ⟨r, hr, hd⟩ := runLatched_next s
        rw [hr] at h
        injection h with h
        exact .inl ⟨r, hb, h.symm, s, .inr (.inr ⟨⟨rest, hag⟩, rfl⟩), hd⟩
      · next hb =>
        injection h with h
        exact .inr (.inl ⟨by simpa using hb, .inr (.inr ⟨rest, h.symm⟩)⟩)
    | regWrite o b v =>
      simp only [runEvent, hostRegWrite] at h
      split at h
      · next hf =>
        injection h with h
        simp only [accessForm, Bool.and_eq_true, beq_iff_eq, decide_eq_true_eq] at hf
        exact .inr (.inr (.inl ⟨o, b, v, rest, hag, h.symm, hf.1.2, hf.2, hf.1.1⟩))
      · cases h
    | regRead o b =>
      simp only [runEvent, hostRegRead] at h
      split at h
      · injection h with h
        exact .inr (.inr (.inr (.inl ⟨o, b, rest, hag, h.symm⟩)))
      · cases h
    | memWrite a v =>
      simp only [runEvent, hostMemWrite] at h
      split at h
      · next hr =>
        injection h with h
        have ha : a < memSize s.par := by
          simpa [State.inRange, Nat.ble_eq, Nat.succ_le_iff] using hr
        refine .inr (.inr (.inr (.inr (.inl ⟨a, v, rest, hag, ha, ?_⟩))))
        split at h
        · next hb => exact .inl ⟨hb, h.symm⟩
        · next hb => exact .inr ⟨by simpa using hb, h.symm⟩
      · cases h
    | memRead a =>
      simp only [runEvent, hostMemRead] at h
      split at h
      · injection h with h
        exact .inr (.inr (.inr (.inr (.inr (.inl ⟨a, rest, hag, _, h.symm⟩)))))
      · cases h
    | reset =>
      simp only [runEvent] at h
      injection h with h
      exact .inr (.inr (.inr (.inr (.inr (.inr (.inl ⟨rest, hag, h.symm⟩))))))
    | powerOn =>
      simp only [runEvent] at h
      injection h with h
      exact .inr (.inr (.inr (.inr (.inr (.inr (.inr ⟨rest, hag, h.symm⟩))))))

/-! ### Runs -/

@[simp] theorem Run.andThen_ok (s : State) (f : State → Run) : (Run.ok s).andThen f = f s := rfl
@[simp] theorem Run.andThen_fail (s : State) (e : Err) (f : State → Run) : (Run.fail s e).andThen f = .fail s e := rfl
@[simp] theorem Run.state_ok (s : State) : (Run.ok s).state = s := rfl
@[simp] theorem Run.state_fail (s : State) (e : Err) : (Run.fail s e).state = s := rfl
@[simp] theorem Run.finish_ok (s : State) : (Run.ok s).finish = finishCommand s := rfl
@[simp] theorem Run.finish_fail (s : State) (e : Err) : (Run.fail s e).finish = raiseError e s := rfl
@[simp] theorem Run.each_nil {α : Type} (f : α → State → Run) (s : State) : Run.each f [] s = .ok s := rfl
@[simp] theorem Run.each_cons {α : Type} (f : α → State → Run) (x : α) (rest : List α) (s : State) :
    Run.each f (x :: rest) s = (f x s).andThen (Run.each f rest) := rfl

/-- A reflexive and transitive relation that every piece of a run keeps, the whole run keeps. -/
theorem Run.andThen_rel {R : State → State → Prop} (htrans : ∀ a b c, R a b → R b c → R a c)
    {s : State} {r : Run} {f : State → Run} (hr : R s r.state) (hf : ∀ u, r = .ok u → R u (f u).state) :
    R s (r.andThen f).state := by
  cases r with
  | ok u => exact htrans _ _ _ hr (hf u rfl)
  | fail u e => exact hr

theorem Run.each_rel {α : Type} {R : State → State → Prop} (hrefl : ∀ a, R a a)
    (htrans : ∀ a b c, R a b → R b c → R a c) {f : α → State → Run} :
    ∀ (xs : List α) (s : State), (∀ x ∈ xs, ∀ u, R u (f x u).state) → R s (Run.each f xs s).state
  | [], s, _ => hrefl s
  | x :: rest, s, h =>
    Run.andThen_rel htrans (h x (by simp) s) fun u _ =>
      Run.each_rel hrefl htrans rest u fun y hy => h y (by simp [hy])

/-! ### The frame of a write -/

/-- Outside the addresses `region`, memory and the record of racing writes are as they were; the host's side, BUSY and
the free-choice number are unchanged everywhere. -/
structure WritesIn (region : Nat → Prop) (s t : State) : Prop where
  host : HostSideSame s t
  busy : t.busy = s.busy
  drawNo : t.drawNo = s.drawNo
  addrs : t.raced.map RacedByte.addr = s.raced.map RacedByte.addr
  mem : ∀ a, ¬ region a → t.memByte a = s.memByte a
  raced : ∀ a, ¬ region a → t.racedAt a = s.racedAt a
  listed : ∀ x ∈ t.mem.map Prod.fst, x ∈ s.mem.map Prod.fst ∨ region x
  wf : Memory.wf s.mem → Memory.wf t.mem

theorem HostSideSame.refl (s : State) : HostSideSame s s := ⟨rfl, rfl, rfl, rfl, rfl, rfl, rfl, rfl⟩

theorem HostSideSame.trans {s t u : State} (h : HostSideSame s t) (h' : HostSideSame t u) : HostSideSame s u := by
  obtain ⟨a1, a2, a3, a4, a5, a6, a7, a8⟩ := h
  obtain ⟨b1, b2, b3, b4, b5, b6, b7, b8⟩ := h'
  exact ⟨b1.trans a1, b2.trans a2, b3.trans a3, b4.trans a4, b5.trans a5, b6.trans a6, b7.trans a7, b8.trans a8⟩

theorem WritesIn.refl (region : Nat → Prop) (s : State) : WritesIn region s s :=
  ⟨HostSideSame.refl s, rfl, rfl, rfl, fun _ _ => rfl, fun _ _ => rfl, fun _ h => .inl h, id⟩

theorem WritesIn.trans {region : Nat → Prop} {s t u : State} (h : WritesIn region s t) (h' : WritesIn region t u) :
    WritesIn region s u :=
  ⟨h.host.trans h'.host, h'.busy.trans h.busy, h'.drawNo.trans h.drawNo, h'.addrs.trans h.addrs,
   fun a ha => (h'.mem a ha).trans (h.mem a ha), fun a ha => (h'.raced a ha).trans (h.raced a ha),
   fun x hx => (h'.listed x hx).elim (h.listed x) .inr, fun hw => h'.wf (h.wf hw)⟩

theorem WritesIn.mono {r r' : Nat → Prop} {s t : State} (h : WritesIn r s t) (hr : ∀ a, r a → r' a) :
    WritesIn r' s t :=
  ⟨h.host, h.busy, h.drawNo, h.addrs, fun a ha => h.mem a (fun x => ha (hr a x)),
   fun a ha => h.raced a (fun x => ha (hr a x)), fun x hx => (h.listed x hx).imp id (hr x), h.wf⟩

/-- A change of the fields that neither memory nor the host's side hold writes nothing. -/
theorem WritesIn.of_same {region : Nat → Prop} {s t : State} (hh : HostSideSame s t) (hb : t.busy = s.busy)
    (hd : t.drawNo = s.drawNo) (hm : t.mem = s.mem) (hr : t.raced = s.raced) : WritesIn region s t :=
  ⟨hh, hb, hd, by rw [hr], fun a _ => State.memByte_congr hm hh.2.2.2.2.2.1 a,
   fun a _ => by simp [State.racedAt, hr], fun x hx => .inl (hm ▸ hx), fun hw => by rw [hm]; exact hw⟩

theorem writesIn_engWrite (s : State) (a : Nat) (v : Byte) : WritesIn (· = a) s (s.engWrite a v) :=
  ⟨HostSideSame.refl s, rfl, rfl, markWritten_addr _ _, fun b hb => by simp [hb],
   fun b hb => by rw [racedAt_engWrite]; cases s.racedAt b <;> simp [hb],
   fun x hx => (Memory.mem_put_addr.mp hx).symm, fun hw => engWrite_wf hw a v⟩

/-- The addresses of stream bits i .. i + n - 1 of the stream at base. -/
def BitBytes (base i n a : Nat) : Prop := base + i / 8 ≤ a ∧ a < base + bytesOfBits (i + n)

theorem writesIn_putBits (ord : BitOrder) (base : Nat) (bits : List Bool) :
    ∀ (i : Nat) (s : State), WritesIn (BitBytes base i bits.length) s (s.putBits ord base i bits) := by
  induction bits with
  | nil => intro i s; exact WritesIn.refl _ s
  | cons b rest ih =>
    intro i s
    refine WritesIn.trans ?_ ((ih (i + 1) (s.putBit ord base i b)).mono ?_)
    · refine (writesIn_engWrite s (base + i / 8) _).mono ?_
      intro a ha
      simp only [BitBytes, bytesOfBits, List.length_cons]
      omega
    · intro a ha
      simp only [BitBytes, bytesOfBits, List.length_cons] at ha ⊢
      omega

/-! ### The fields an engine write leaves alone -/

theorem putBits_fields (ord : BitOrder) (base : Nat) (bits : List Bool) : ∀ (i : Nat) (s : State),
    s.putBits ord base i bits =
      { s with mem := (s.putBits ord base i bits).mem, raced := (s.putBits ord base i bits).raced } := by
  induction bits with
  | nil => intro i s; rfl
  | cons b rest ih =>
    intro i s
    show (s.putBit ord base i b).putBits ord base (i + 1) rest = _
    conv => lhs; rw [ih]
    rfl

/-- What writing bits does to memory depends only on memory, the raced bytes and the free choices. -/
theorem putBits_congr (ord : BitOrder) (base : Nat) (bits : List Bool) : ∀ (i : Nat) (s t : State),
    t.mem = s.mem → t.raced = s.raced → t.powerEpoch = s.powerEpoch → t.drawNo = s.drawNo →
    (t.putBits ord base i bits).mem = (s.putBits ord base i bits).mem ∧
    (t.putBits ord base i bits).raced = (s.putBits ord base i bits).raced := by
  induction bits with
  | nil => intro i s t hm hr _ _; exact ⟨hm, hr⟩
  | cons b rest ih =>
    intro i s t hm hr he hd
    show ((t.putBit ord base i b).putBits ord base (i + 1) rest).mem = _ ∧ _
    refine ih (i + 1) (s.putBit ord base i b) (t.putBit ord base i b) ?_ ?_ he hd
    · simp only [State.putBit, State.engWrite_mem, hm, State.engByte_congr hm he hr hd]
    · simp only [State.putBit, State.engWrite_raced, hr]

/-! ### The encoder's output -/

theorem outFull_eq_false (s : State) (w : Nat) : s.ses.outFull w = false ↔ OutFits s w := by
  simp only [Session.outFull, OutFits, Bool.or_eq_false_iff, decide_eq_false_iff_not, not_lt, gt_iff_lt]

/-- A field that does not fit is refused, and nothing of it is written (45 R355). -/
theorem outAppendField_full {s : State} {w : Nat} (v : Nat) (hw : w ≠ 0) (h : ¬ OutFits s w) :
    outAppendField v w s = .fail s Err.outputFull := by
  rw [← outFull_eq_false, Bool.not_eq_false] at h
  rw [outAppendField, if_neg hw, if_pos h]

/-- A field that fits is written bit by bit and counted (45 R355). -/
theorem outAppendField_fits {s : State} {w : Nat} (v : Nat) (hw : w ≠ 0) (h : OutFits s w) :
    outAppendField v w s = .ok {
      s.putBits s.ses.ord s.ses.outBase.toNat s.ses.outBits.toNat (fieldBits s.ses.ord v w) with
      ses := { s.ses with
        outBits := word (s.ses.outBits.toNat + w), outLen := word (bytesOfBits (s.ses.outBits.toNat + w)) } } := by
  rw [outAppendField, if_neg hw, (outFull_eq_false s w).mpr h, if_neg Bool.false_ne_true]

end Sys2Proof.Machine
end

