-- ==== Sys2Proof/Laws/Session.lean ====
section
/-! SUPPORT. What the processing of a FEED can do, said once: every reflexive and transitive relation that its few writing operations keep is kept by the whole. -/

namespace Sys2Proof.Machine

/-! ### The decoder -/

/-- A relation that the decoder's writing operations keep. -/
structure DecodeRel (R : State → State → Prop) : Prop where
  refl : ∀ s, R s s
  trans : ∀ s t u, R s t → R t u → R s u
  out : ∀ b s, R s (outByte b s).state
  done : ∀ s, R s (sessionDone s)
  setDf : ∀ s df, R s (s.setDf df)
  setLz : ∀ (s : State) (lz : LzwDec), R s { s with lz := lz }

/-- `R s` holds of the state a unit leaves. -/
def UnitResult.Rel (R : State → State → Prop) (s : State) : UnitResult → Prop
  | .needMore => True
  | .raised t _ => R s t
  | .completed t _ => R s t

variable {R : State → State → Prop}

theorem UnitResult.rel_then {α : Type} (hr : ∀ s, R s s) (s : State) (r : Read α) (f : α → Nat → UnitResult)
    (hf : ∀ a c, r = .got a c → (f a c).Rel R s) : (r.then s f).Rel R s := by
  cases r with
  | got a c => exact hf a c rfl
  | needMore => trivial
  | bad e => exact hr s

theorem UnitResult.rel_endUnit (s : State) (r : Run) (c : Nat) (h : R s r.state) : (r.endUnit c).Rel R s := by
  cases r <;> exact h

theorem DecodeRel.endBlock (h : DecodeRel R) (s : State) : R s (endBlock s) := by
  unfold Sys2Proof.Machine.endBlock
  split
  · exact h.done s
  · exact h.setDf s _

theorem DecodeRel.copyBack (h : DecodeRel R) (dist : Nat) : ∀ (len : Nat) (s : State), R s (copyBack dist len s).state
  | 0, s => h.refl s
  | len + 1, s => Run.andThen_rel h.trans (h.out _ s) fun u _ => DecodeRel.copyBack h dist len u

theorem DecodeRel.lzwData (h : DecodeRel R) (c : Nat) (s : State) : R s (lzwData c s).state := by
  unfold Sys2Proof.Machine.lzwData
  split
  · exact h.refl s
  · next str _ =>
    split
    · exact h.refl s
    · refine Run.andThen_rel h.trans (Run.each_rel h.refl h.trans _ _ fun b _ u => h.out b u) fun u _ => ?_
      simp only [Run.state_ok, lzwLearn]
      split <;> exact h.setLz u _

theorem DecodeRel.lzwDecUnit (h : DecodeRel R) (s : State) (inp : Input) (c : Nat) : (lzwDecUnit s inp c).Rel R s := by
  refine UnitResult.rel_then h.refl s _ _ fun code c' _ => ?_
  split
  · exact h.setLz s _
  · split
    · exact h.done s
    · exact UnitResult.rel_endUnit s _ _ (h.lzwData code s)

theorem DecodeRel.dynLensEffects (h : DecodeRel R) (add : List Nat) (s : State) : R s (dynLensEffects add s).state := by
  unfold Sys2Proof.Machine.dynLensEffects
  simp only
  split
  · exact h.refl s
  · split
    · split
      · exact h.trans _ _ _ (h.setDf s _) (h.setDf _ _)
      · exact h.setDf s _
      · exact h.setDf s _
    · exact h.setDf s _

theorem DecodeRel.dflDecUnit (h : DecodeRel R) (s : State) (inp : Input) (c : Nat) : (dflDecUnit s inp c).Rel R s := by
  unfold Sys2Proof.Machine.dflDecUnit
  split
  · refine UnitResult.rel_then h.refl s _ _ fun f c1 _ => UnitResult.rel_then h.refl s _ _ fun t c2 _ => ?_
    simp only
    split
    · exact h.refl s
    · split
      · exact h.setDf s _
      · split <;> exact h.setDf s _
  · refine UnitResult.rel_then h.refl s _ _ fun l c1 _ => UnitResult.rel_then h.refl s _ _ fun n c2 _ => ?_
    split
    · exact h.refl s
    · simp only [UnitResult.Rel]
      split
      · exact h.trans _ _ _ (h.setDf s _) (h.endBlock _)
      · exact h.trans _ _ _ (h.setDf s _) (h.setDf _ _)
  · refine UnitResult.rel_then h.refl s _ _ fun b c1 _ => UnitResult.rel_endUnit s _ _ ?_
    refine Run.andThen_rel h.trans (h.out _ s) fun u _ => ?_
    simp only [Run.state_ok]
    split
    · exact h.trans _ _ _ (h.setDf u _) (h.endBlock _)
    · exact h.setDf u _
  · refine UnitResult.rel_then h.refl s _ _ fun a c1 _ => UnitResult.rel_then h.refl s _ _ fun b c2 _ =>
      UnitResult.rel_then h.refl s _ _ fun d c3 _ => ?_
    split
    · exact h.refl s
    · exact h.setDf s _
  · refine UnitResult.rel_then h.refl s _ _ fun w c1 _ => ?_
    simp only
    split
    · split
      · exact h.setDf s _
      · exact h.trans _ _ _ (h.setDf s _) (h.setDf _ _)
    · exact h.setDf s _
  · exact UnitResult.rel_then h.refl s _ _ fun sym c1 _ => UnitResult.rel_then h.refl s _ _ fun add c2 _ =>
      UnitResult.rel_endUnit s _ _ (h.dynLensEffects add s)
  · refine UnitResult.rel_then h.refl s _ _ fun sym c1 _ => ?_
    split_ifs with h1 h2 h3
    · exact UnitResult.rel_endUnit s _ _ (h.out _ s)
    · exact h.endBlock s
    · exact h.refl s
    · generalize lenExtra sym = width
      apply UnitResult.rel_then h.refl
      intro e c2 _
      apply UnitResult.rel_then h.refl
      intro d c3 _
      split_ifs
      · exact h.refl s
      · apply UnitResult.rel_then h.refl
        intro f c4 _
        simp only
        split_ifs
        · exact h.refl s
        · exact UnitResult.rel_endUnit s _ _ (h.copyBack _ _ s)

theorem DecodeRel.decodeUnit (h : DecodeRel R) (s : State) (inp : Input) (c : Nat) : (decodeUnit s inp c).Rel R s := by
  unfold Sys2Proof.Machine.decodeUnit
  split
  · exact h.lzwDecUnit s inp c
  · exact h.dflDecUnit s inp c

/-- The state a loop over the input left. -/
def LoopEnd.state : LoopEnd → State
  | .stopped s _ => s
  | .raised s _ _ => s

theorem DecodeRel.decodeLoop (h : DecodeRel R) (inp : Input) :
    ∀ (fuel c : Nat) (s : State), R s (decodeLoop inp fuel c s).state
  | 0, _, s => h.refl s
  | fuel + 1, c, s => by
    unfold Sys2Proof.Machine.decodeLoop
    split
    · have hu := h.decodeUnit s inp c
      split
      · exact h.refl s
      · next he => rw [he] at hu; exact hu
      · next he => rw [he] at hu; exact h.trans _ _ _ hu (h.decodeLoop inp fuel _ _)
    · exact h.refl s

/-! ### The encoders -/

/-- A relation that the encoders' writing operations keep. -/
structure EncodeRel (R : State → State → Prop) : Prop where
  refl : ∀ s, R s s
  trans : ∀ s t u, R s t → R t u → R s u
  append : ∀ v w s, R s (outAppendField v w s).state
  done : ∀ s, R s (sessionDone s)
  setLe : ∀ (s : State) (le : LzwEnc), R s { s with le := le }
  hist : ∀ b s, R s (dflEncByte b s).state

theorem EncodeRel.emitCode (h : EncodeRel R) (c : Nat) (s : State) : R s (emitCode c s).state := h.append _ _ s

theorem EncodeRel.outCode (h : EncodeRel R) (c : HufCode) (s : State) : R s (outCode c s).state := h.append _ _ s

theorem EncodeRel.emitData (h : EncodeRel R) (c : Nat) (s : State) : R s (emitData c s).state := by
  refine Run.andThen_rel h.trans (h.emitCode c s) fun u _ => ?_
  simp only [Run.state_ok, shadowData]
  split <;> exact h.setLe u _

theorem EncodeRel.lzwEncClear (h : EncodeRel R) (s : State) : R s (lzwEncClear s).state :=
  Run.andThen_rel h.trans (h.emitCode _ s) fun u _ => h.setLe u _

theorem EncodeRel.lzwEncByte (h : EncodeRel R) (k : Byte) (s : State) : R s (lzwEncByte k s).state := by
  unfold Sys2Proof.Machine.lzwEncByte
  split
  · exact h.refl s
  · split
    · exact h.setLe s _
    · split
      · exact h.setLe s _
      · refine Run.andThen_rel h.trans (Run.andThen_rel h.trans (h.emitData _ s) fun u _ => ?_) fun u _ => h.setLe u _
        split
        · exact h.setLe u _
        · exact h.lzwEncClear u

theorem EncodeRel.lzwEncFinish (h : EncodeRel R) (s : State) : R s (lzwEncFinish s).state := by
  unfold Sys2Proof.Machine.lzwEncFinish
  refine Run.andThen_rel h.trans (Run.andThen_rel h.trans ?_ fun u _ => h.emitCode _ u) fun u _ => h.done u
  split
  · exact h.refl s
  · exact h.emitData _ s

theorem EncodeRel.putToken (h : EncodeRel R) (lit dist : HufTable) (t : Token) (s : State) :
    R s (putToken lit dist t s).state := by
  unfold Sys2Proof.Machine.putToken
  split
  · exact h.outCode _ s
  · exact Run.andThen_rel h.trans (Run.andThen_rel h.trans (Run.andThen_rel h.trans (h.outCode _ s)
      fun u _ => h.append _ _ u) fun u _ => h.outCode _ u) fun u _ => h.append _ _ u

theorem EncodeRel.putTokens (h : EncodeRel R) (ts : List Token) (lit dist : HufTable) (s : State) :
    R s (putTokens ts lit dist s).state :=
  Run.andThen_rel h.trans (Run.each_rel h.refl h.trans _ _ fun t _ u => h.putToken lit dist t u) fun u _ => h.outCode _ u

theorem EncodeRel.storedBlock (h : EncodeRel R) (base a m : Nat) (last : Bool) (s : State) :
    R s (storedBlock base a m last s).state :=
  Run.andThen_rel h.trans (Run.andThen_rel h.trans (Run.andThen_rel h.trans (Run.andThen_rel h.trans
    (Run.andThen_rel h.trans (h.append _ _ s) fun u _ => h.append _ _ u) fun u _ => h.append _ _ u)
    fun u _ => h.append _ _ u) fun u _ => h.append _ _ u)
    fun u _ => Run.each_rel h.refl h.trans _ u fun _ _ v => h.append _ _ v

theorem EncodeRel.fixedOutput (h : EncodeRel R) (ts : List Token) (s : State) : R s (fixedOutput ts s).state :=
  Run.andThen_rel h.trans (Run.andThen_rel h.trans (h.append _ _ s) fun u _ => h.append _ _ u)
    fun u _ => h.putTokens ts _ _ u

theorem EncodeRel.dynOutput (h : EncodeRel R) (d : DynHeader) (ts : List Token) (s : State) :
    R s (dynOutput d ts s).state :=
  Run.andThen_rel h.trans (Run.andThen_rel h.trans (Run.andThen_rel h.trans (Run.andThen_rel h.trans
    (Run.andThen_rel h.trans (Run.andThen_rel h.trans (Run.andThen_rel h.trans (h.append _ _ s)
      fun u _ => h.append _ _ u) fun u _ => h.append _ _ u) fun u _ => h.append _ _ u) fun u _ => h.append _ _ u)
    fun u _ => Run.each_rel h.refl h.trans _ u fun _ _ v => h.append _ _ v)
    fun u _ => Run.each_rel h.refl h.trans _ u fun _ _ v =>
      Run.andThen_rel h.trans (h.outCode _ v) fun x _ => h.append _ _ x)
    fun u _ => h.putTokens ts _ _ u

theorem EncodeRel.dflEncFinish (h : EncodeRel R) (s : State) : R s (dflEncFinish s).state := by
  refine Run.andThen_rel h.trans ?_ fun u _ => h.done u
  unfold Sys2Proof.Machine.dflEncOutput
  simp only
  split
  · exact Run.each_rel h.refl h.trans _ s fun _ _ v => h.storedBlock _ _ _ _ v
  · split
    · split
      · exact h.dynOutput _ _ s
      · exact h.fixedOutput _ s
    · exact h.fixedOutput _ s

theorem EncodeRel.encodeByte (h : EncodeRel R) (b : Byte) (s : State) : R s (encodeByte b s).state := by
  unfold Sys2Proof.Machine.encodeByte
  split
  · exact h.lzwEncByte b s
  · exact h.hist b s

theorem EncodeRel.encodeFinish (h : EncodeRel R) (s : State) : R s (encodeFinish s).state := by
  unfold Sys2Proof.Machine.encodeFinish
  split
  · exact h.lzwEncFinish s
  · exact h.dflEncFinish s

theorem EncodeRel.encodeLoop (h : EncodeRel R) (inp : Input) :
    ∀ (left j : Nat) (s : State), R s (encodeLoop inp left j s).state
  | 0, _, s => h.refl s
  | left + 1, j, s => by
    unfold Sys2Proof.Machine.encodeLoop
    have hu := h.encodeByte (s.engByte [j] (inp.base + j)) s
    split
    · next he => rw [he] at hu; exact h.trans _ _ _ hu (h.encodeLoop inp left _ _)
    · next he => rw [he] at hu; exact hu

/-! ### FEED -/

/-- How the processing of a FEED on an ACTIVE session ends: the results of a clean end, or a session error, in each case
of a state that the processing reaches. -/
theorem feedProcess_cases (complete : Bool) (s : State) (ha : s.ses.sstate = .active)
    (hd : s.ses.isDecoder → DecodeRel R) (he : ¬ s.ses.isDecoder → EncodeRel R) :
    (∃ u n, R s u ∧ (feedProcess complete s = .ok (feedResults n s.ses.outLen true u) ∨
      (∃ b, feedProcess complete s = .ok (feedResults n s.ses.outLen true (setBitpos b u))) ∨
      (∃ b e, feedProcess complete s = sessionError e n s.ses.outLen (setBitpos b u)) ∨
      (∃ e, feedProcess complete s = sessionError e n s.ses.outLen u))) := by
  unfold feedProcess
  have hact : s.ses.isActive = true := by simp [Session.isActive, ha]
  simp only [hact, Bool.not_true, Bool.false_eq_true, if_false]
  by_cases hm : s.ses.isDecoder
  · have hm' : s.ses.mode = .lzwDec ∨ s.ses.mode = .dflDec := hm
    rw [if_pos hm']
    unfold feedDecode
    have hl := (hd hm).decodeLoop ⟨s.arg0, s.arg1⟩ (8 * s.arg1 + 1) s.ses.bitpos.toNat s
    split
    · next u e at_ h =>
      simp only at h
      rw [h] at hl
      exact ⟨_, _, hl, .inr (.inr (.inr ⟨_, rfl⟩))⟩
    · next u c h =>
      simp only at h
      rw [h] at hl
      split
      · exact ⟨_, _, hl, .inr (.inl ⟨_, rfl⟩)⟩
      · simp only
        split
        · exact ⟨_, _, hl, .inr (.inr (.inl ⟨_, _, rfl⟩))⟩
        · exact ⟨_, _, hl, .inr (.inl ⟨_, rfl⟩)⟩
  · have hm' : ¬ (s.ses.mode = .lzwDec ∨ s.ses.mode = .dflDec) := hm
    rw [if_neg hm']
    unfold feedEncode
    have hl := (he hm).encodeLoop ⟨s.arg0, s.arg1⟩ s.arg1 0 s
    split
    · next u e j h =>
      simp only at h
      rw [h] at hl
      exact ⟨_, _, hl, .inr (.inr (.inr ⟨_, rfl⟩))⟩
    · next u j h =>
      simp only at h
      rw [h] at hl
      split
      · have hf := (he hm).encodeFinish u
        split
        · next v hv => rw [hv] at hf; exact ⟨_, _, (he hm).trans _ _ _ hl hf, .inl rfl⟩
        · next v e hv => rw [hv] at hf; exact ⟨_, _, (he hm).trans _ _ _ hl hf, .inr (.inr (.inr ⟨_, rfl⟩))⟩
      · exact ⟨_, _, hl, .inl rfl⟩

end Sys2Proof.Machine
end

