-- ==== Sys2Proof/Laws/Feed.lean ====
section
/-! SUPPORT. The frame of a FEED: what the processing leaves alone, and where it writes. -/

namespace Sys2Proof.Machine

/-! ### What no piece of the processing touches -/

/-- The processing of a FEED before its results: the host's side, the status, the results, the bit sequence, the slots
and the session's set-up are as they were; the session is where it was or DONE. -/
structure FeedFrame (s t : State) : Prop where
  host : HostSideSame s t
  busy : t.busy = s.busy
  drawNo : t.drawNo = s.drawNo
  status : t.status = s.status
  errDetail : t.errDetail = s.errDetail
  bs : t.bs = s.bs
  huf : t.huf = s.huf
  setup : SessionSetupSame s t
  bitpos : t.ses.bitpos = s.ses.bitpos
  totalIn : t.ses.totalIn = s.ses.totalIn
  serr : t.ses.serr = s.ses.serr
  serrDetail : t.ses.serrDetail = s.ses.serrDetail
  sstate : t.ses.sstate = s.ses.sstate ∨ t.ses.sstate = .done
  addrs : t.raced.map RacedByte.addr = s.raced.map RacedByte.addr

theorem SessionSetupSame.refl (s : State) : SessionSetupSame s s := ⟨rfl, rfl, rfl, rfl, rfl, rfl, rfl, rfl⟩

theorem SessionSetupSame.trans {s t u : State} (h : SessionSetupSame s t) (h' : SessionSetupSame t u) :
    SessionSetupSame s u := by
  obtain ⟨a1, a2, a3, a4, a5, a6, a7, a8⟩ := h
  obtain ⟨b1, b2, b3, b4, b5, b6, b7, b8⟩ := h'
  exact ⟨b1.trans a1, b2.trans a2, b3.trans a3, b4.trans a4, b5.trans a5, b6.trans a6, b7.trans a7, b8.trans a8⟩

theorem FeedFrame.refl (s : State) : FeedFrame s s :=
  ⟨HostSideSame.refl s, rfl, rfl, rfl, rfl, rfl, rfl, SessionSetupSame.refl s, rfl, rfl, rfl, rfl, .inl rfl, rfl⟩

theorem FeedFrame.trans {s t u : State} (h : FeedFrame s t) (h' : FeedFrame t u) : FeedFrame s u where
  host := h.host.trans h'.host
  busy := h'.busy.trans h.busy
  drawNo := h'.drawNo.trans h.drawNo
  status := h'.status.trans h.status
  errDetail := h'.errDetail.trans h.errDetail
  bs := h'.bs.trans h.bs
  huf := h'.huf.trans h.huf
  setup := h.setup.trans h'.setup
  bitpos := h'.bitpos.trans h.bitpos
  totalIn := h'.totalIn.trans h.totalIn
  serr := h'.serr.trans h.serr
  serrDetail := h'.serrDetail.trans h.serrDetail
  sstate := h'.sstate.elim (fun e => h.sstate.elim (fun e' => .inl (e.trans e')) (fun e' => .inr (e.trans e'))) .inr
  addrs := h'.addrs.trans h.addrs

/-- All that OutByte can do (45 R357). -/
theorem outByte_cases (b : Byte) (s : State) :
    (s.ses.outLen = s.ses.outCap ∧ outByte b s = .fail s Err.outputFull) ∨
    (s.ses.outLen ≠ s.ses.outCap ∧ outByte b s =
      .ok { s.engWrite (s.ses.outBase.toNat + s.ses.outLen.toNat) b with
        ses := { s.ses with outLen := s.ses.outLen + 1, outBits := s.ses.outBits + 8 } }) := by
  unfold outByte
  split
  · next h => exact .inl ⟨h, rfl⟩
  · next h => exact .inr ⟨h, rfl⟩

/-- All that OutAppendField can do (45 R355). -/
theorem outAppendField_cases (v w : Nat) (s : State) :
    (w = 0 ∧ outAppendField v w s = .ok s) ∨
    (w ≠ 0 ∧ s.ses.outFull w = true ∧ outAppendField v w s = .fail s Err.outputFull) ∨
    (w ≠ 0 ∧ bytesOfBits (s.ses.outBits.toNat + w) ≤ s.ses.outCap.toNat ∧ s.ses.outBits.toNat + w < 2 ^ 32 ∧
      outAppendField v w s =
        .ok { s.putBits s.ses.ord s.ses.outBase.toNat s.ses.outBits.toNat (fieldBits s.ses.ord v w) with
          ses := { s.ses with
            outBits := word (s.ses.outBits.toNat + w)
            outLen := word (bytesOfBits (s.ses.outBits.toNat + w)) } }) := by
  unfold outAppendField
  split
  · next h => exact .inl ⟨h, rfl⟩
  · next h =>
    split
    · next hf => exact .inr (.inl ⟨h, hf, rfl⟩)
    · next hf =>
      simp only [Session.outFull, Bool.or_eq_true, decide_eq_true_eq, not_or, not_lt] at hf
      exact .inr (.inr ⟨h, hf.1, by omega, rfl⟩)

/-- All that DflEncByte can do (44 R294). -/
theorem dflEncByte_cases (b : Byte) (s : State) :
    (s.ses.histLen = s.ses.histCap ∧ dflEncByte b s = .fail s Err.historyFull) ∨
    (s.ses.histLen ≠ s.ses.histCap ∧ dflEncByte b s =
      .ok { s.engWrite (s.ses.histBase.toNat + s.ses.histLen.toNat) b with
        ses := { s.ses with histLen := s.ses.histLen + 1 } }) := by
  unfold dflEncByte
  split
  · next h => exact .inl ⟨h, rfl⟩
  · next h => exact .inr ⟨h, rfl⟩

theorem putBits_addrs (ord : BitOrder) (base i : Nat) (bits : List Bool) (s : State) :
    (s.putBits ord base i bits).raced.map RacedByte.addr = s.raced.map RacedByte.addr :=
  (writesIn_putBits ord base bits i s).addrs

@[simp] theorem fieldBits_length (ord : BitOrder) (v w : Nat) : (fieldBits ord v w).length = w := by
  cases ord <;> simp [fieldBits]

theorem feedFrame_outByte (b : Byte) (s : State) : FeedFrame s (outByte b s).state := by
  rcases outByte_cases b s with ⟨_, h⟩ | ⟨_, h⟩ <;> rw [h]
  · exact FeedFrame.refl s
  · exact ⟨HostSideSame.refl s, rfl, rfl, rfl, rfl, rfl, rfl, SessionSetupSame.refl s, rfl, rfl, rfl, rfl, .inl rfl,
      markWritten_addr _ _⟩

theorem feedFrame_outAppendField (v w : Nat) (s : State) : FeedFrame s (outAppendField v w s).state := by
  rcases outAppendField_cases v w s with ⟨_, h⟩ | ⟨_, _, h⟩ | ⟨_, _, _, h⟩ <;> rw [h]
  · exact FeedFrame.refl s
  · exact FeedFrame.refl s
  · have hp := putBits_fields s.ses.ord s.ses.outBase.toNat (fieldBits s.ses.ord v w) s.ses.outBits.toNat s
    have ha := putBits_addrs s.ses.ord s.ses.outBase.toNat s.ses.outBits.toNat (fieldBits s.ses.ord v w) s
    rw [hp]
    exact ⟨HostSideSame.refl s, rfl, rfl, rfl, rfl, rfl, rfl, SessionSetupSame.refl s, rfl, rfl, rfl, rfl, .inl rfl, ha⟩

theorem feedFrame_dflEncByte (b : Byte) (s : State) : FeedFrame s (dflEncByte b s).state := by
  rcases dflEncByte_cases b s with ⟨_, h⟩ | ⟨_, h⟩ <;> rw [h]
  · exact FeedFrame.refl s
  · exact ⟨HostSideSame.refl s, rfl, rfl, rfl, rfl, rfl, rfl, SessionSetupSame.refl s, rfl, rfl, rfl, rfl, .inl rfl,
      markWritten_addr _ _⟩

theorem feedFrame_sessionDone (s : State) : FeedFrame s (sessionDone s) :=
  ⟨HostSideSame.refl s, rfl, rfl, rfl, rfl, rfl, rfl, SessionSetupSame.refl s, rfl, rfl, rfl, rfl, .inr rfl, rfl⟩

theorem feedFrame_decode : DecodeRel FeedFrame where
  refl := FeedFrame.refl
  trans _ _ _ := FeedFrame.trans
  out := feedFrame_outByte
  done := feedFrame_sessionDone
  setDf s _ :=
    ⟨HostSideSame.refl s, rfl, rfl, rfl, rfl, rfl, rfl, SessionSetupSame.refl s, rfl, rfl, rfl, rfl, .inl rfl, rfl⟩
  setLz s _ :=
    ⟨HostSideSame.refl s, rfl, rfl, rfl, rfl, rfl, rfl, SessionSetupSame.refl s, rfl, rfl, rfl, rfl, .inl rfl, rfl⟩

theorem feedFrame_encode : EncodeRel FeedFrame where
  refl := FeedFrame.refl
  trans _ _ _ := FeedFrame.trans
  append := feedFrame_outAppendField
  done := feedFrame_sessionDone
  setLe s _ :=
    ⟨HostSideSame.refl s, rfl, rfl, rfl, rfl, rfl, rfl, SessionSetupSame.refl s, rfl, rfl, rfl, rfl, .inl rfl, rfl⟩
  hist := feedFrame_dflEncByte

/-! ### Where the processing writes -/

/-- The output and the history lie inside buffer memory and inside their capacities, as RegionsOk says of the session. -/
def SessionRegionsOk (s : State) : Prop :=
  s.ses.outBase.toNat + s.ses.outCap.toNat ≤ memSize s.par ∧ s.ses.outLen.toNat ≤ s.ses.outCap.toNat ∧
  s.ses.histBase.toNat + s.ses.histCap.toNat ≤ memSize s.par ∧ s.ses.histLen.toNat ≤ s.ses.histCap.toNat ∧
  (s.ses.isEncoder = true → s.ses.outLen.toNat = bytesOfBits s.ses.outBits.toNat) ∧
  (s.ses.isEncoder = false → s.ses.outBits = 8 * s.ses.outLen)

/-- The processing of a FEED of a session of the given kind, from a state whose regions are well: it writes only what it
adds to the output and the history, and leaves the regions well. -/
def FeedWrites (encoder : Bool) (s t : State) : Prop :=
  s.ses.isEncoder = encoder → SessionRegionsOk s →
    t.ses.isEncoder = encoder ∧ SessionRegionsOk t ∧ SessionSetupSame s t ∧ t.par = s.par ∧
    WritesIn (FeedStores s t) s t ∧
    s.ses.outLen.toNat ≤ t.ses.outLen.toNat ∧ s.ses.histLen.toNat ≤ t.ses.histLen.toNat ∧
    (encoder = true → s.ses.outBits.toNat ≤ t.ses.outBits.toNat)

theorem FeedWrites.same {s t : State} (hs : t.ses.isEncoder = s.ses.isEncoder) (hh : HostSideSame s t)
    (hb : t.busy = s.busy) (hd : t.drawNo = s.drawNo) (hm : t.mem = s.mem) (hr : t.raced = s.raced)
    (ho : t.ses.outLen = s.ses.outLen) (hbits : t.ses.outBits = s.ses.outBits) (hl : t.ses.histLen = s.ses.histLen)
    (hset : SessionSetupSame s t) (encoder : Bool) : FeedWrites encoder s t := by
  intro he hok
  refine ⟨hs.trans he, ?_, hset, hh.1, WritesIn.of_same hh hb hd hm hr, by rw [ho], by rw [hl], fun _ => by rw [hbits]⟩
  obtain ⟨_, _, _, _, e1, e2, e3, e4⟩ := hset
  simp only [SessionRegionsOk, hs, ho, hbits, hl, e1, e2, e3, e4, hh.1]
  exact hok

theorem FeedWrites.refl (encoder : Bool) (s : State) : FeedWrites encoder s s :=
  FeedWrites.same rfl (HostSideSame.refl s) rfl rfl rfl rfl rfl rfl rfl (SessionSetupSame.refl s) encoder

theorem FeedWrites.trans {encoder : Bool} {s t u : State} (h : FeedWrites encoder s t) (h' : FeedWrites encoder t u) :
    FeedWrites encoder s u := by
  intro he hok
  obtain ⟨e1, ok1, set1, par1, w1, o1, l1, b1⟩ := h he hok
  obtain ⟨e2, ok2, set2, par2, w2, o2, l2, b2⟩ := h' e1 ok1
  have hb1 : t.ses.outBase = s.ses.outBase := set1.2.2.2.2.1
  have hh1 : t.ses.histBase = s.ses.histBase := set1.2.2.2.2.2.2.1
  refine ⟨e2, ok2, set1.trans set2, par2.trans par1, ?_, o1.trans o2, l1.trans l2, fun hx => (b1 hx).trans (b2 hx)⟩
  refine (w1.mono ?_).trans (w2.mono ?_)
  · intro a ha
    simp only [FeedStores, he] at ha ⊢
    rcases ha with ha | ha
    · exact .inl ⟨ha.1, by omega⟩
    · exact .inr ⟨ha.1, by omega⟩
  · intro a ha
    simp only [FeedStores, he, e1, hb1, hh1] at ha ⊢
    rcases ha with ha | ha
    · refine .inl ⟨?_, ha.2⟩
      cases encoder with
      | true => have := b1 rfl; simp only [if_true] at ha ⊢; omega
      | false => simp only [Bool.false_eq_true, if_false] at ha ⊢; omega
    · exact .inr ⟨by omega, ha.2⟩

theorem toNat_add_one {x y : Word} (h : x ≠ y) (hle : x.toNat ≤ y.toNat) : (x + 1).toNat = x.toNat + 1 ∧
    x.toNat + 1 ≤ y.toNat := by
  have : x.toNat ≠ y.toNat := fun e => h (BitVec.eq_of_toNat_eq e)
  have := y.isLt
  rw [BitVec.toNat_add]
  simp
  omega

theorem feedWrites_outByte (b : Byte) (s : State) : FeedWrites false s (outByte b s).state := by
  rcases outByte_cases b s with ⟨_, h⟩ | ⟨hne, h⟩ <;> rw [h]
  · exact FeedWrites.refl _ s
  · intro he hok
    obtain ⟨k1, k2, k3, k4, k5, k6⟩ := hok
    obtain ⟨n1, n2⟩ := toNat_add_one hne k2
    refine ⟨he, ⟨k1, by simp only [Run.state_ok, n1]; exact n2, k3, k4, ?_, ?_⟩, SessionSetupSame.refl s, rfl, ?_, ?_, le_refl _,
      by simp⟩
    · intro hx; rw [show s.ses.isEncoder = true from hx] at he; cases he
    · intro _
      simp only [Run.state_ok, k6 he]
      rw [BitVec.mul_add]
      rfl
    · have hw := writesIn_engWrite s (s.ses.outBase.toNat + s.ses.outLen.toNat) b
      refine WritesIn.trans (hw.mono ?_) (WritesIn.of_same (HostSideSame.refl _) rfl rfl rfl rfl)
      intro a ha
      simp only [FeedStores, Run.state_ok, he, Bool.false_eq_true, if_false, n1]
      exact .inl ⟨by omega, by omega⟩
    · simp only [Run.state_ok, n1]; omega

theorem feedWrites_outAppendField (v w : Nat) (s : State) : FeedWrites true s (outAppendField v w s).state := by
  rcases outAppendField_cases v w s with ⟨_, h⟩ | ⟨_, _, h⟩ | ⟨hw, hcap, hbits, h⟩ <;> rw [h]
  · exact FeedWrites.refl _ s
  · exact FeedWrites.refl _ s
  · intro he hok
    obtain ⟨k1, k2, k3, k4, k5, k6⟩ := hok
    have hcaplt := s.ses.outCap.isLt
    have hb : (word (s.ses.outBits.toNat + w)).toNat = s.ses.outBits.toNat + w := by
      simp only [BitVec.toNat_ofNat]; exact Nat.mod_eq_of_lt hbits
    have hl : (word (bytesOfBits (s.ses.outBits.toNat + w))).toNat = bytesOfBits (s.ses.outBits.toNat + w) := by
      simp only [BitVec.toNat_ofNat]; exact Nat.mod_eq_of_lt (by omega)
    have hp := putBits_fields s.ses.ord s.ses.outBase.toNat (fieldBits s.ses.ord v w) s.ses.outBits.toNat s
    have hwi := writesIn_putBits s.ses.ord s.ses.outBase.toNat (fieldBits s.ses.ord v w) s.ses.outBits.toNat s
    rw [fieldBits_length] at hwi
    generalize hu : s.putBits s.ses.ord s.ses.outBase.toNat s.ses.outBits.toNat (fieldBits s.ses.ord v w) = u at hp hwi
    have hpar : u.par = s.par := by rw [hp]
    refine ⟨he, ⟨?_, ?_, ?_, k4, ?_, ?_⟩, SessionSetupSame.refl s, hpar, ?_, ?_, le_refl _, ?_⟩
    · simp only [Run.state_ok, hpar]; exact k1
    · simp only [Run.state_ok, hl]; exact hcap
    · simp only [Run.state_ok, hpar]; exact k3
    · intro _; simp only [Run.state_ok, hl, hb]
    · intro hx; rw [show s.ses.isEncoder = false from hx] at he; cases he
    · refine WritesIn.trans (hwi.mono ?_) (WritesIn.of_same (HostSideSame.refl _) rfl rfl rfl rfl)
      intro a ha
      simp only [FeedStores, Run.state_ok, he, if_true, hl, BitBytes] at ha ⊢
      exact .inl ha
    · rw [k5 he]; simp only [Run.state_ok, hl]; simp only [bytesOfBits]; omega
    · intro _; simp only [Run.state_ok, hb]; omega

theorem feedWrites_dflEncByte (b : Byte) (s : State) : FeedWrites true s (dflEncByte b s).state := by
  rcases dflEncByte_cases b s with ⟨_, h⟩ | ⟨hne, h⟩ <;> rw [h]
  · exact FeedWrites.refl _ s
  · intro he hok
    obtain ⟨k1, k2, k3, k4, k5, k6⟩ := hok
    obtain ⟨n1, n2⟩ := toNat_add_one hne k4
    refine ⟨he, ⟨k1, k2, k3, by simp only [Run.state_ok, n1]; exact n2, k5, k6⟩, SessionSetupSame.refl s, rfl, ?_, le_refl _, ?_,
      fun _ => le_refl _⟩
    · have hw := writesIn_engWrite s (s.ses.histBase.toNat + s.ses.histLen.toNat) b
      refine WritesIn.trans (hw.mono ?_) (WritesIn.of_same (HostSideSame.refl _) rfl rfl rfl rfl)
      intro a ha
      simp only [FeedStores, Run.state_ok, n1]
      exact .inr ⟨by omega, by omega⟩
    · simp only [Run.state_ok, n1]; omega

theorem feedWrites_sessionDone (encoder : Bool) (s : State) : FeedWrites encoder s (sessionDone s) :=
  FeedWrites.same (s := s) (t := sessionDone s) rfl (HostSideSame.refl s) rfl rfl rfl rfl rfl rfl rfl (SessionSetupSame.refl s) encoder

theorem feedWrites_decode : DecodeRel (FeedWrites false) where
  refl := FeedWrites.refl false
  trans _ _ _ := FeedWrites.trans
  out := feedWrites_outByte
  done := feedWrites_sessionDone false
  setDf s df := FeedWrites.same (s := s) (t := s.setDf df) rfl (HostSideSame.refl s) rfl rfl rfl rfl rfl rfl rfl (SessionSetupSame.refl s) false
  setLz s lz := FeedWrites.same (s := s) (t := { s with lz := lz }) rfl (HostSideSame.refl s) rfl rfl rfl rfl rfl rfl rfl (SessionSetupSame.refl s) false

theorem feedWrites_encode : EncodeRel (FeedWrites true) where
  refl := FeedWrites.refl true
  trans _ _ _ := FeedWrites.trans
  append := feedWrites_outAppendField
  done := feedWrites_sessionDone true
  setLe s le := FeedWrites.same (s := s) (t := { s with le := le }) rfl (HostSideSame.refl s) rfl rfl rfl rfl rfl rfl rfl (SessionSetupSame.refl s) true
  hist := feedWrites_dflEncByte

end Sys2Proof.Machine
end

