-- ==== Sys2Proof/Laws/Commands.lean ====
section
/-! SUPPORT. What the effects of each command leave alone, for the whole-machine rules. -/

namespace Sys2Proof.Machine

/-- What no command's effects but SOFT_RESET's change. -/
structure EffectsFrame (s t : State) : Prop where
  host : HostSideSame s t
  busy : t.busy = s.busy
  drawNo : t.drawNo = s.drawNo
  status : t.status = { s.status with needMore := t.status.needMore }
  errDetail : t.errDetail = s.errDetail
  addrs : t.raced.map RacedByte.addr = s.raced.map RacedByte.addr

theorem EffectsFrame.of_same {s t : State} (hh : HostSideSame s t) (hb : t.busy = s.busy) (hd : t.drawNo = s.drawNo)
    (hs : t.status = s.status) (he : t.errDetail = s.errDetail)
    (ha : t.raced.map RacedByte.addr = s.raced.map RacedByte.addr) : EffectsFrame s t :=
  ⟨hh, hb, hd, by rw [hs], he, ha⟩

theorem EffectsFrame.refl (s : State) : EffectsFrame s s :=
  EffectsFrame.of_same (HostSideSame.refl s) rfl rfl rfl rfl rfl

theorem FeedFrame.effects {s t : State} (h : FeedFrame s t) : EffectsFrame s t :=
  EffectsFrame.of_same h.host h.busy h.drawNo h.status h.errDetail h.addrs

theorem EffectsFrame.trans {s t u : State} (h : EffectsFrame s t) (h' : EffectsFrame t u) : EffectsFrame s u :=
  ⟨h.host.trans h'.host, h'.busy.trans h.busy, h'.drawNo.trans h.drawNo, by rw [h'.status, h.status],
   h'.errDetail.trans h.errDetail, h'.addrs.trans h.addrs⟩

theorem effectsFrame_bsAppendField (v w : Nat) (s : State) : EffectsFrame s (bsAppendField v w s) := by
  have ha := putBits_addrs s.bs.ord s.bs.base.toNat s.bs.bits.toNat (fieldBits s.bs.ord v w) s
  unfold bsAppendField
  rw [putBits_fields]
  exact EffectsFrame.of_same (HostSideSame.refl s) rfl rfl rfl rfl ha

theorem effectsFrame_session (mode : Mode) (ord : BitOrder) (lit : Nat) (base cap : Word) (bmode : Nat) (s : State) :
    EffectsFrame s (sessionStart mode ord lit base cap bmode s) :=
  EffectsFrame.of_same (HostSideSame.refl s) rfl rfl rfl rfl rfl

/-- The shape of the effects of FEED: refused, answered after the end, or the processing of an ACTIVE session. -/
theorem feedEffects_cases (complete : Bool) (s : State) :
    (∃ e, feedEffects complete s = .fail s e ∧
      ((e = Err.noSession ∧ s.ses.mode = .none) ∨ (e = Err.addressRange ∧ s.ses.mode ≠ .none) ∨
       (e = Err.overlap ∧ s.ses.mode ≠ .none))) ∨
    (s.ses.mode ≠ .none ∧ s.inRange s.arg0 s.arg1 = true ∧ s.inputOverlaps = false ∧
      feedEffects complete s = feedProcess complete s) := by
  unfold feedEffects
  split_ifs with h1 h2 h3
  · exact .inl ⟨_, rfl, .inl ⟨rfl, h1⟩⟩
  · exact .inl ⟨_, rfl, .inr (.inl ⟨rfl, h1⟩)⟩
  · exact .inl ⟨_, rfl, .inr (.inr ⟨rfl, h1⟩)⟩
  · exact .inr ⟨h1, by simpa using h2, by simpa using h3, rfl⟩

theorem feedProcess_afterEnd {complete : Bool} {s : State} (h : s.ses.sstate ≠ .active) :
    feedProcess complete s = feedAfterEnd s := by
  unfold feedProcess
  have : s.ses.isActive = false := by simp [Session.isActive, h]
  simp [this]

/-- What the results of a FEED leave alone. -/
theorem effectsFrame_feedResults (n : Nat) (out0 : Word) (clean : Bool) (s : State) :
    EffectsFrame s (feedResults n out0 clean s) :=
  ⟨HostSideSame.refl s, rfl, rfl, rfl, rfl, rfl⟩

/-- The frame of the processing of an ACTIVE session: a FeedFrame, then the results and S_BITPOS, SSTATE, SERR. -/
theorem feedProcess_frame (complete : Bool) (s : State) (ha : s.ses.sstate = .active) :
    ∃ u n b c, FeedFrame s u ∧
      ((feedProcess complete s = .ok (feedResults n s.ses.outLen true u) ∨
        feedProcess complete s = .ok (feedResults n s.ses.outLen true (setBitpos b u))) ∨
       (feedProcess complete s = sessionError c n s.ses.outLen u ∨
        feedProcess complete s = sessionError c n s.ses.outLen (setBitpos b u))) := by
  obtain ⟨u, n, hu, h⟩ := feedProcess_cases complete s ha (fun _ => feedFrame_decode) (fun _ => feedFrame_encode)
  rcases h with h | ⟨b, h⟩ | ⟨b, e, h⟩ | ⟨e, h⟩
  · exact ⟨u, n, 0, Err.noCode, hu, .inl (.inl h)⟩
  · exact ⟨u, n, b, Err.noCode, hu, .inl (.inr h)⟩
  · exact ⟨u, n, b, e, hu, .inr (.inr h)⟩
  · exact ⟨u, n, 0, e, hu, .inr (.inl h)⟩

theorem effectsFrame_feed (complete : Bool) (s : State) : EffectsFrame s (feedEffects complete s).state := by
  rcases feedEffects_cases complete s with ⟨e, h, _⟩ | ⟨_, _, _, h⟩
  · rw [h]; exact EffectsFrame.refl s
  · rw [h]
    by_cases ha : s.ses.sstate = .active
    · obtain ⟨u, n, b, c, hu, (h | h) | (h | h)⟩ := feedProcess_frame complete s ha <;> rw [h]
      · exact hu.effects.trans (effectsFrame_feedResults _ _ _ u)
      · exact hu.effects.trans ⟨HostSideSame.refl u, rfl, rfl, rfl, rfl, rfl⟩
      · exact hu.effects.trans ⟨HostSideSame.refl u, rfl, rfl, rfl, rfl, rfl⟩
      · exact hu.effects.trans ⟨HostSideSame.refl u, rfl, rfl, rfl, rfl, rfl⟩
    · rw [feedProcess_afterEnd ha, feedAfterEnd]
      split <;> exact ⟨HostSideSame.refl s, rfl, rfl, rfl, rfl, rfl⟩

theorem withSlot_cases (slot : Nat) (s : State) (f : Fin 4 → Run) :
    (4 ≤ slot ∧ withSlot slot s f = .fail s Err.slotRange) ∨ ∃ k : Fin 4, slot = k.val ∧ withSlot slot s f = f k := by
  unfold withSlot
  split
  · next h => exact .inr ⟨⟨slot, h⟩, rfl, rfl⟩
  · next h => exact .inl ⟨by omega, rfl⟩

theorem withTable_cases (k : Fin 4) (s : State) (f : HufTable → Run) :
    (s.huf[k].valid = false ∧ withTable k s f = .fail s Err.slotInvalid) ∨
    (s.huf[k].valid = true ∧ withTable k s f = f s.huf[k].table) := by
  unfold withTable
  split
  · next h => exact .inr ⟨h, rfl⟩
  · next h => exact .inl ⟨by simpa using h, rfl⟩

@[simp] theorem withSlot_fin (k : Fin 4) (s : State) (f : Fin 4 → Run) : withSlot k.val s f = f k := by
  simp [withSlot]

theorem withSlot_big {slot : Nat} (h : 4 ≤ slot) (s : State) (f : Fin 4 → Run) :
    withSlot slot s f = .fail s Err.slotRange := by
  simp [withSlot, Nat.not_lt.mpr h]

theorem withTable_valid {k : Fin 4} {s : State} (h : s.huf[k].valid = true) (f : HufTable → Run) :
    withTable k s f = f s.huf[k].table := by simp only [withTable, h, if_true]

theorem withTable_invalid {k : Fin 4} {s : State} (h : s.huf[k].valid = false) (f : HufTable → Run) :
    withTable k s f = .fail s Err.slotInvalid := by
  simp only [withTable, h, Bool.false_eq_true, if_false]

theorem matchResults_cases (m : MatchResult) (s : State) :
    (∃ x y z, matchResults m s = .ok (s.setResults x y z)) ∨ matchResults m s = .fail s Err.noCode := by
  cases m with
  | found a j => exact .inl ⟨_, _, _, rfl⟩
  | needMore => exact .inl ⟨_, _, _, rfl⟩
  | malformed => exact .inr rfl

/-- The commands whose effects are results only, or an error. -/
theorem resultsOnly (i : Instr) (s : State)
    (hi : i = .bsReadBit ∨ (∃ k, i = .hufGetCode k ∨ i = .hufMatch k ∨ i = .hufDecodeBs k) ∨ i = .lz77Match ∨ i = .nop) :
    (∃ x y z, effects i s = .ok (s.setResults x y z)) ∨ effects i s = .ok s ∨ ∃ e, effects i s = .fail s e := by
  rcases hi with rfl | ⟨k, rfl | rfl | rfl⟩ | rfl | rfl
  · simp only [effects, bsReadBitEffects]
    split_ifs
    · exact .inr (.inr ⟨_, rfl⟩)
    · exact .inr (.inr ⟨_, rfl⟩)
    · exact .inl ⟨_, _, _, rfl⟩
  · simp only [effects, hufGetCodeEffects]
    rcases withSlot_cases k s _ with ⟨_, h⟩ | ⟨j, _, h⟩ <;> rw [h]
    · exact .inr (.inr ⟨_, rfl⟩)
    · rcases withTable_cases j s _ with ⟨_, h⟩ | ⟨_, h⟩ <;> rw [h]
      · exact .inr (.inr ⟨_, rfl⟩)
      · split_ifs
        · exact .inr (.inr ⟨_, rfl⟩)
        · exact .inl ⟨_, _, _, rfl⟩
  · simp only [effects, hufMatchEffects]
    rcases withSlot_cases k s _ with ⟨_, h⟩ | ⟨j, _, h⟩ <;> rw [h]
    · exact .inr (.inr ⟨_, rfl⟩)
    · rcases withTable_cases j s _ with ⟨_, h⟩ | ⟨_, h⟩ <;> rw [h]
      · exact .inr (.inr ⟨_, rfl⟩)
      · split_ifs
        · exact .inr (.inr ⟨_, rfl⟩)
        · exact .inr (.inr ⟨_, rfl⟩)
        · exact (matchResults_cases _ s).imp id fun h => .inr ⟨_, h⟩
  · simp only [effects, hufDecodeBsEffects]
    rcases withSlot_cases k s _ with ⟨_, h⟩ | ⟨j, _, h⟩ <;> rw [h]
    · exact .inr (.inr ⟨_, rfl⟩)
    · rcases withTable_cases j s _ with ⟨_, h⟩ | ⟨_, h⟩ <;> rw [h]
      · exact .inr (.inr ⟨_, rfl⟩)
      · split_ifs
        · exact .inr (.inr ⟨_, rfl⟩)
        · exact .inr (.inr ⟨_, rfl⟩)
        · exact (matchResults_cases _ s).imp id fun h => .inr ⟨_, h⟩
  · simp only [effects, lz77MatchEffects]
    split_ifs
    · exact .inr (.inr ⟨_, rfl⟩)
    · exact .inr (.inr ⟨_, rfl⟩)
    · exact .inl ⟨_, _, _, rfl⟩
  · exact .inr (.inl rfl)

/-- HUF_BUILD_CANON and HUF_BUILD_WEIGHTED write at most their own slot. -/
theorem build_cases (i : Instr) (slot : Nat) (s : State) (hi : i = .hufBuildCanon slot ∨ i = .hufBuildWeighted slot) :
    (∃ e, effects i s = .fail s e ∧ (e = Err.slotRange ∨ e = Err.symbolCount ∨ e = Err.addressRange)) ∨
    ∃ k : Fin 4, slot = k.val ∧ 1 ≤ s.arg1 ∧ s.arg1 ≤ 288 ∧
      ((∃ t, effects i s = .ok (s.setSlot k ⟨true, t⟩) ∧
        ((i = .hufBuildCanon slot ∧ canon (s.readWidths s.arg0 s.arg1) = .ok t) ∨
         (i = .hufBuildWeighted slot ∧ weighted (s.readWeights s.arg0 s.arg1) = .ok t))) ∨
       (∃ e, effects i s = .fail (s.setSlot k ⟨false, s.huf[k].table⟩) e ∧
        ((i = .hufBuildCanon slot ∧ canon (s.readWidths s.arg0 s.arg1) = .error e) ∨
         (i = .hufBuildWeighted slot ∧ weighted (s.readWeights s.arg0 s.arg1) = .error e)))) := by
  rcases hi with rfl | rfl
  · simp only [effects, hufBuildCanonEffects]
    rcases withSlot_cases slot s _ with ⟨_, h⟩ | ⟨k, hk, h⟩ <;> rw [h]
    · exact .inl ⟨_, rfl, .inl rfl⟩
    · split_ifs with h1 h2
      · exact .inl ⟨_, rfl, .inr (.inl rfl)⟩
      · exact .inl ⟨_, rfl, .inr (.inr rfl)⟩
      · simp only [symbolCountBad, Bool.or_eq_true, decide_eq_true_eq, not_or, not_lt] at h1
        refine .inr ⟨k, hk, h1.1, h1.2, ?_⟩
        unfold buildSlot
        cases hc : canon (s.readWidths s.arg0 s.arg1) with
        | ok t => exact .inl ⟨t, rfl, by simp⟩
        | error e => exact .inr ⟨e, rfl, by simp⟩
  · simp only [effects, hufBuildWeightedEffects]
    rcases withSlot_cases slot s _ with ⟨_, h⟩ | ⟨k, hk, h⟩ <;> rw [h]
    · exact .inl ⟨_, rfl, .inl rfl⟩
    · split_ifs with h1 h2
      · exact .inl ⟨_, rfl, .inr (.inl rfl)⟩
      · exact .inl ⟨_, rfl, .inr (.inr rfl)⟩
      · simp only [symbolCountBad, Bool.or_eq_true, decide_eq_true_eq, not_or, not_lt] at h1
        refine .inr ⟨k, hk, h1.1, h1.2, ?_⟩
        unfold buildSlot
        cases hc : weighted (s.readWeights s.arg0 s.arg1) with
        | ok t => exact .inl ⟨t, rfl, by simp⟩
        | error e => exact .inr ⟨e, rfl, by simp⟩

/-- LZW_ENC_START's clear code always fits once the start's checks have passed. -/
theorem lzwEncStart_cases (ord : BitOrder) (lit : Nat) (s : State) :
    (∃ e, lzwEncStartEffects ord lit s = .fail s e ∧
      (e = Err.litWidth ∨ e = Err.addressRange ∨ e = Err.outputFull)) ∨
    (2 ≤ lit ∧ lit ≤ 8 ∧ s.arg0 + s.arg1 ≤ memSize s.par ∧ bytesOfBits (lit + 1) ≤ s.arg1 ∧
      lzwEncStartEffects ord lit s =
        .ok { s.putBits ord s.arg0 0 (fieldBits ord (2 ^ lit) (lit + 1)) with
          ses := { Session.released with
            mode := .lzwEnc, ord := ord, lit := BitVec.ofNat 4 lit, sstate := .active, outBase := s.larg.a0,
            outCap := s.larg.a1, outBits := word (lit + 1), outLen := word (bytesOfBits (lit + 1)) }
          lz := LzwDec.unused, df := DflDec.unused
          le := { map := [], size := 2 ^ lit + 2, w := none, dsize := 2 ^ lit + 2, dwidth := lit + 1, dprev := false } }) := by
  unfold lzwEncStartEffects
  split_ifs with h1 h2 h3
  · exact .inl ⟨_, rfl, .inl rfl⟩
  · exact .inl ⟨_, rfl, .inr (.inl rfl)⟩
  · exact .inl ⟨_, rfl, .inr (.inr rfl)⟩
  · simp only [litWidthBad, Bool.or_eq_true, decide_eq_true_eq, not_or, not_lt] at h1
    have hlo : 2 ≤ lit := h1.1
    have hhi : lit ≤ 8 := h1.2
    have h2' : s.arg0 + s.arg1 ≤ memSize s.par := by simpa [State.inRange, Nat.ble_eq] using h2
    refine .inr ⟨hlo, hhi, h2', by omega, ?_⟩
    have hl : (BitVec.ofNat 4 lit).toNat = lit := by simp; omega
    have e0 : s.larg.a0.toNat = s.arg0 := rfl
    have e1 : s.larg.a1.toNat = s.arg1 := rfl
    simp only [lzwEncClear, emitCode, clearEncoder, sessionStart, State.clearCode, State.firstCode, State.litWidth, hl]
    unfold outAppendField
    rw [if_neg (by simp), if_neg]
    · simp only [Run.andThen_ok, setMatched, Session.released, e0]
      rw [putBits_fields]
      conv => rhs; rw [putBits_fields]
      simp only [hl, Run.ok.injEq, State.mk.injEq, true_and, and_true]
      refine ⟨?_, ?_, ?_⟩
      · simp
      · refine (putBits_congr _ _ _ _ s _ ?_ ?_ ?_ ?_).1 <;> rfl
      · refine (putBits_congr _ _ _ _ s _ ?_ ?_ ?_ ?_).2 <;> rfl
    · simp [Session.outFull, Session.released, e1]
      omega

/-- The check of two regions decides whether they share a byte (44 R290). -/
theorem shareByte_iff (a alen b blen : Nat) : shareByte a alen b blen = true ↔ SharesByte a alen b blen := by
  simp only [shareByte, SharesByte, InRegion, Bool.and_eq_true, decide_eq_true_eq]
  constructor
  · rintro ⟨⟨⟨h1, h2⟩, h3⟩, h4⟩
    exact ⟨max a b, by omega, by omega⟩
  · rintro ⟨x, h1, h2⟩
    omega

/-- FEED's command checks, decided. -/
theorem feedAccepted_iff (s : State) :
    FeedAccepted s ↔ s.ses.mode ≠ .none ∧ s.inRange s.arg0 s.arg1 = true ∧ s.inputOverlaps = false := by
  simp only [FeedAccepted, State.inputOverlaps, ← Bool.not_eq_true, Bool.or_eq_true, not_or,
    shareByte_iff, State.inRange, Nat.ble_eq]

/-- A session whose setup is unchanged keeps its shape. -/
theorem SessionShapeOk.of_setup {s t : State} (h : SessionShapeOk s) (hs : SessionSetupSame s t) : SessionShapeOk t := by
  obtain ⟨hm, ho, -, -, h1, h2, h3, h4⟩ := hs
  rw [SessionShapeOk, hm, ho, h1, h2, h3, h4]
  exact h

theorem feedEffects_accepted {complete : Bool} {s : State} (h : FeedAccepted s) :
    feedEffects complete s = feedProcess complete s := by
  obtain ⟨h1, h2, h3⟩ := (feedAccepted_iff s).mp h
  simp [feedEffects, h1, h2, h3]

/-- The start commands other than LZW_ENC_START: an error, or a new session. -/
theorem start_cases (i : Instr) (s : State)
    (hi : (∃ o l, i = .lzwDecStart o l) ∨ i = .dflDecStart ∨ ∃ m, i = .dflEncStart m) :
    (∃ e, effects i s = .fail s e) ∨
    (s.arg0 + s.arg1 ≤ memSize s.par ∧
      ((∃ o l, i = .lzwDecStart o l ∧ 2 ≤ l ∧ l ≤ 8 ∧
        effects i s = .ok (lzwReset (sessionStart .lzwDec o l s.larg.a0 s.larg.a1 0 s))) ∨
       (i = .dflDecStart ∧ effects i s = .ok ((sessionStart .dflDec .lsb 0 s.larg.a0 s.larg.a1 0 s).setDf
          { DflDec.unused with p := .header, final := false })) ∨
       (∃ m, i = .dflEncStart m ∧ m ≤ 2 ∧ s.arg2 + s.arg3 ≤ memSize s.par ∧
        ∃ u, u = sessionStart .dflEnc .lsb 0 s.larg.a0 s.larg.a1 m s ∧
        effects i s = .ok { u with ses := { u.ses with histBase := s.larg.a2, histCap := s.larg.a3, histLen := 0 } }))) := by
  have hr : ∀ a b, s.inRange a b = true ↔ a + b ≤ memSize s.par := by simp [State.inRange, Nat.ble_eq]
  rcases hi with ⟨o, l, rfl⟩ | rfl | ⟨m, rfl⟩
  · simp only [effects, lzwDecStartEffects]
    split_ifs with h1 h2
    · exact .inl ⟨_, rfl⟩
    · exact .inl ⟨_, rfl⟩
    · simp only [litWidthBad, Bool.or_eq_true, decide_eq_true_eq, not_or, not_lt] at h1
      exact .inr ⟨(hr _ _).mp (by simpa using h2), .inl ⟨o, l, rfl, h1.1, h1.2, rfl⟩⟩
  · simp only [effects, dflDecStartEffects]
    split_ifs with h2
    · exact .inl ⟨_, rfl⟩
    · exact .inr ⟨(hr _ _).mp (by simpa using h2), .inr (.inl ⟨trivial, rfl⟩)⟩
  · simp only [effects, dflEncStartEffects]
    split_ifs with h1 h2 h3 h4
    · exact .inl ⟨_, rfl⟩
    · exact .inl ⟨_, rfl⟩
    · exact .inl ⟨_, rfl⟩
    · exact .inl ⟨_, rfl⟩
    · exact .inr ⟨(hr _ _).mp (by simpa using h2), .inr (.inr ⟨m, rfl, by omega, (hr _ _).mp (by simpa using h3), _, rfl, rfl⟩)⟩

/-- BS_INIT: an error, or a new empty sequence. -/
theorem bsInit_cases (ord : BitOrder) (s : State) :
    bsInitEffects ord s = .fail s Err.addressRange ∨
    (s.arg0 + s.arg1 ≤ memSize s.par ∧ bsInitEffects ord s =
      .ok { s with bs := { base := s.larg.a0, cap := s.larg.a1, bits := 0, ord := ord, valid := true } }) := by
  unfold bsInitEffects
  split_ifs with h
  · exact .inl rfl
  · exact .inr ⟨by simpa [State.inRange, Nat.ble_eq] using h, rfl⟩

/-- BS_APPEND and HUF_ENCODE: an error, or a field appended (and results written). -/
theorem append_cases (i : Instr) (s : State) (hi : (∃ w, i = .bsAppend w) ∨ ∃ k, i = .hufEncode k) :
    (∃ e, effects i s = .fail s e) ∨
    ∃ v w, bytesOfBits (s.bs.bits.toNat + w) ≤ s.bs.cap.toNat ∧ s.bs.bits.toNat + w < 2 ^ 32 ∧
      (effects i s = .ok (bsAppendField v w s) ∨
       ∃ x y, effects i s = .ok ((bsAppendField v w s).setResults x y 0)) := by
  have hfull : ∀ w, ¬ s.bs.full w = true →
      bytesOfBits (s.bs.bits.toNat + w) ≤ s.bs.cap.toNat ∧ s.bs.bits.toNat + w < 2 ^ 32 := by
    intro w h
    simp only [BitSeq.full, Bool.or_eq_true, decide_eq_true_eq, not_or, not_lt] at h
    exact ⟨h.1, by have := h.2; omega⟩
  rcases hi with ⟨w, rfl⟩ | ⟨k, rfl⟩
  · simp only [effects, bsAppendEffects]
    split_ifs with h1 h2 h3 h4
    · exact .inl ⟨_, rfl⟩
    · exact .inl ⟨_, rfl⟩
    · exact .inl ⟨_, rfl⟩
    · exact .inl ⟨_, rfl⟩
    · exact .inr ⟨_, w, (hfull w h4).1, (hfull w h4).2, .inl rfl⟩
  · simp only [effects, hufEncodeEffects]
    rcases withSlot_cases k s _ with ⟨_, h⟩ | ⟨j, _, h⟩ <;> rw [h]
    · exact .inl ⟨_, rfl⟩
    · rcases withTable_cases j s _ with ⟨_, h⟩ | ⟨_, h⟩ <;> rw [h]
      · exact .inl ⟨_, rfl⟩
      · split_ifs with h2 h3 h4
        · exact .inl ⟨_, rfl⟩
        · exact .inl ⟨_, rfl⟩
        · exact .inl ⟨_, rfl⟩
        · exact .inr ⟨_, _, (hfull _ h4).1, (hfull _ h4).2, .inr ⟨_, _, rfl⟩⟩

theorem effects_frame (i : Instr) (s : State) (hi : i ≠ .softReset) : EffectsFrame s (effects i s).state := by
  have hres : (i = .bsReadBit ∨ (∃ k, i = .hufGetCode k ∨ i = .hufMatch k ∨ i = .hufDecodeBs k) ∨ i = .lz77Match ∨
      i = .nop) → EffectsFrame s (effects i s).state := by
    intro h
    rcases resultsOnly i s h with ⟨x, y, z, h⟩ | h | ⟨e, h⟩ <;> rw [h]
    · exact EffectsFrame.of_same (HostSideSame.refl s) rfl rfl rfl rfl rfl
    · exact EffectsFrame.refl s
    · exact EffectsFrame.refl s
  have hbuild : ∀ k, (i = .hufBuildCanon k ∨ i = .hufBuildWeighted k) → EffectsFrame s (effects i s).state := by
    intro k h
    rcases build_cases i k s h with ⟨e, h, _⟩ | ⟨j, _, _, _, ⟨t, h, _⟩ | ⟨e, h, _⟩⟩ <;> rw [h]
    · exact EffectsFrame.refl s
    · exact EffectsFrame.of_same (HostSideSame.refl s) rfl rfl rfl rfl rfl
    · exact EffectsFrame.of_same (HostSideSame.refl s) rfl rfl rfl rfl rfl
  have hstart : ((∃ o l, i = .lzwDecStart o l) ∨ i = .dflDecStart ∨ ∃ m, i = .dflEncStart m) →
      EffectsFrame s (effects i s).state := by
    intro h
    rcases start_cases i s h with ⟨e, h⟩ | ⟨_, ⟨o, l, _, _, _, h⟩ | ⟨_, h⟩ | ⟨m, _, _, _, u, rfl, h⟩⟩ <;> rw [h]
    · exact EffectsFrame.refl s
    all_goals exact EffectsFrame.of_same (HostSideSame.refl s) rfl rfl rfl rfl rfl
  have happ : ((∃ w, i = .bsAppend w) ∨ ∃ k, i = .hufEncode k) → EffectsFrame s (effects i s).state := by
    intro h
    rcases append_cases i s h with ⟨e, h⟩ | ⟨v, w, _, _, h | ⟨x, y, h⟩⟩ <;> rw [h]
    · exact EffectsFrame.refl s
    · exact effectsFrame_bsAppendField v w s
    · exact (effectsFrame_bsAppendField v w s).trans
        (EffectsFrame.of_same (HostSideSame.refl _) rfl rfl rfl rfl rfl)
  cases i with
  | nop => exact hres (by simp)
  | bsInit ord =>
    rcases bsInit_cases ord s with h | ⟨_, h⟩ <;> rw [effects, h]
    · exact EffectsFrame.refl s
    · exact EffectsFrame.of_same (HostSideSame.refl s) rfl rfl rfl rfl rfl
  | bsAppend w => exact happ (by simp)
  | bsReadBit => exact hres (by simp)
  | hufBuildCanon k => exact hbuild k (by simp)
  | hufBuildWeighted k => exact hbuild k (by simp)
  | hufGetCode k => exact hres (by simp)
  | hufEncode k => exact happ (by simp)
  | hufMatch k => exact hres (by simp)
  | hufDecodeBs k => exact hres (by simp)
  | lzwDecStart o l => exact hstart (by simp)
  | lzwEncStart o l =>
    rcases lzwEncStart_cases o l s with ⟨e, h, _⟩ | ⟨_, _, _, _, h⟩ <;> rw [effects, h]
    · exact EffectsFrame.refl s
    · have ha := putBits_addrs o s.arg0 0 (fieldBits o (2 ^ l) (l + 1)) s
      rw [putBits_fields]
      exact EffectsFrame.of_same (HostSideSame.refl s) rfl rfl rfl rfl ha
  | dflDecStart => exact hstart (by simp)
  | dflEncStart m => exact hstart (by simp)
  | feed c => exact effectsFrame_feed c s
  | sessionEnd => exact EffectsFrame.of_same (HostSideSame.refl s) rfl rfl rfl rfl rfl
  | lz77Match => exact hres (by simp)
  | softReset => exact absurd rfl hi

end Sys2Proof.Machine
end

