-- ==== Sys2Proof/Laws/LzwEncoder.lean ====
section
/-! SUPPORT. The LZW encoder keeps its invariant: what the byte step of 42 R223 does to the dictionary, the match and the shadow of the decoder. -/

namespace Sys2Proof.Machine

/-- What LzwEncOk says of an ACTIVE LZW encoder session, apart from the session. -/
structure LzwEncReady (s : State) : Prop where
  minLit : Config.lzwMinLit ≤ s.litWidth
  maxLit : s.litWidth ≤ Config.lzwMaxLit
  first : s.firstCode ≤ s.le.dsize
  shadow : s.le.dsize + s.le.dprev.toNat = s.le.size
  full : s.le.size ≤ 2 ^ Config.lzwMaxWidth
  minWidth : s.litWidth + 1 ≤ s.le.dwidth
  maxWidth : s.le.dwidth ≤ Config.lzwMaxWidth
  grown : s.le.dwidth < Config.lzwMaxWidth → s.le.dsize + s.par.lzwEarlyChange.toNat < 2 ^ s.le.dwidth
  matched : ∀ w ∈ s.le.w, w < s.le.size ∧ w ≠ s.clearCode ∧ w ≠ s.endCode
  codes : ∀ e ∈ s.le.map, s.firstCode ≤ e.newCode ∧ e.newCode < s.le.size

theorem LzwEncReady.of_ok {s : State} (h : LzwEncOk s) (hm : s.ses.mode = .lzwEnc) (ha : s.ses.sstate = .active) :
    LzwEncReady s := by
  obtain ⟨h1, h2, h3, h4, h5, h6, h7, h8, h9, h10, h11, h12⟩ := h hm
  exact ⟨h1, h2, h5, h7 ha, h4, h8, h9, h10, h11, h12⟩

theorem LzwEncReady.ok {s : State} (h : LzwEncReady s) : LzwEncOk s := by
  intro _
  have := h.first
  have := h.shadow
  exact ⟨h.minLit, h.maxLit, by omega, h.full, h.first, by omega, fun _ => h.shadow, h.minWidth, h.maxWidth, h.grown,
    h.matched, h.codes⟩

/-- Emitting a field leaves the encoder's dictionary and the literal width alone. -/
theorem outAppendField_le {v w : Nat} {s t : State} (h : outAppendField v w s = .ok t) :
    t.le = s.le ∧ t.par = s.par ∧ t.ses.lit = s.ses.lit ∧ t.ses.sstate = s.ses.sstate ∧ t.ses.mode = s.ses.mode := by
  rcases outAppendField_cases v w s with ⟨_, e⟩ | ⟨_, _, e⟩ | ⟨_, _, _, e⟩ <;> rw [e] at h
  · cases h; exact ⟨rfl, rfl, rfl, rfl, rfl⟩
  · cases h
  · cases h
    rw [putBits_fields]
    exact ⟨rfl, rfl, rfl, rfl, rfl⟩

/-- A field that is not emitted leaves everything alone. -/
theorem outAppendField_fail {v w : Nat} {s t : State} {e : Err} (h : outAppendField v w s = .fail t e) : t = s := by
  rcases outAppendField_cases v w s with ⟨_, e⟩ | ⟨_, _, e⟩ | ⟨_, _, _, e⟩ <;> rw [e] at h <;> cases h
  rfl

/-- The grown width stays in range, and a width below the largest leaves room for one more entry. -/
theorem grownWidth_spec (par : Params) (size width : Nat) (hw : width ≤ Config.lzwMaxWidth)
    (h : width < Config.lzwMaxWidth → size + par.lzwEarlyChange.toNat ≤ 2 ^ width) :
    width ≤ grownWidth par size width ∧ grownWidth par size width ≤ Config.lzwMaxWidth ∧
    (grownWidth par size width < Config.lzwMaxWidth →
      size + par.lzwEarlyChange.toNat < 2 ^ grownWidth par size width) := by
  unfold grownWidth
  have hp : 0 < 2 ^ width := Nat.two_pow_pos width
  have hc : par.lzwEarlyChange.toNat ≤ 2 ^ width := by
    have := Bool.toNat_le par.lzwEarlyChange
    omega
  split
  · next hg =>
    refine ⟨by omega, by omega, fun _ => ?_⟩
    rw [pow_succ]
    omega
  · next hg =>
    refine ⟨le_refl _, hw, fun hlt => ?_⟩
    have := h hlt
    have : size ≠ 2 ^ width - par.lzwEarlyChange.toNat := fun e => hg ⟨e, hlt⟩
    omega

/-- The shadow after a data code: the decoder's size is the encoder's, the widths stay in range, and nothing else of the
encoder changed. -/
theorem LzwEncReady.shadowData {s : State} (h : LzwEncReady s) :
    ∃ d, (shadowData s).le = { s.le with dsize := s.le.size, dwidth := d, dprev := true } ∧
      s.le.dwidth ≤ d ∧ d ≤ Config.lzwMaxWidth ∧
      (d < Config.lzwMaxWidth → s.le.size + s.par.lzwEarlyChange.toNat < 2 ^ d) := by
  have hs := h.shadow
  cases hp : s.le.dprev
  · simp only [hp, Bool.toNat_false, Nat.add_zero] at hs
    refine ⟨s.le.dwidth, ?_, le_refl _, h.maxWidth, fun hlt => hs ▸ h.grown hlt⟩
    simp [Sys2Proof.Machine.shadowData, hp, hs]
  · simp only [hp, Bool.toNat_true] at hs
    have hg := grownWidth_spec s.par (s.le.dsize + 1) s.le.dwidth h.maxWidth
      (fun hlt => by have := h.grown hlt; omega)
    rw [hs] at hg
    refine ⟨_, ?_, hg⟩
    simp [Sys2Proof.Machine.shadowData, hp, hs]

/-- A byte of the alphabet is a code of the dictionary. -/
theorem LzwEncReady.literal {s : State} (h : LzwEncReady s) {k : Byte} (hk : k.toNat < 2 ^ s.litWidth) :
    k.toNat < s.le.size ∧ k.toNat ≠ s.clearCode ∧ k.toNat ≠ s.endCode := by
  have := h.first
  have := h.shadow
  simp only [State.firstCode, State.clearCode, State.endCode] at *
  omega

/-- After the emission of the matched code the encoder that learns the new pair is ready for the next byte. -/
theorem LzwEncReady.learnPair {s : State} (h : LzwEncReady s) {u : State} {d : Nat} {k : Byte} (w : Nat)
    (hpar : u.par = s.par) (hlit : u.ses.lit = s.ses.lit)
    (hle : u.le = { s.le with dsize := s.le.size, dwidth := d, dprev := true })
    (hmono : s.le.dwidth ≤ d) (hmax : d ≤ Config.lzwMaxWidth)
    (hgrown : d < Config.lzwMaxWidth → s.le.size + s.par.lzwEarlyChange.toNat < 2 ^ d)
    (hk : k.toNat < 2 ^ s.litWidth) (hroom : s.le.size < 2 ^ Config.lzwMaxWidth) :
    LzwEncReady (setMatched (some k.toNat) (learnPair w k u)) := by
  have hf := h.first
  have hs := h.shadow
  have hc := h.codes
  have hl := h.literal hk
  have h1 := h.minLit
  have h2 := h.maxLit
  have h3 := h.minWidth
  simp only [State.firstCode, State.litWidth, State.clearCode, State.endCode] at hf hc hl h1 h2 h3
  constructor <;>
    simp only [Sys2Proof.Machine.learnPair, setMatched, State.firstCode, State.litWidth, State.clearCode, State.endCode, hle,
      hpar, hlit, Bool.toNat_true]
  · exact h1
  · exact h2
  · omega
  · omega
  · omega
  · exact hmax
  · exact hgrown
  · intro c hc
    cases hc
    omega
  · intro e he
    rcases List.mem_cons.mp he with rfl | he
    · dsimp only
      omega
    · have := hc e he
      omega

/-- An encoder that has just cleared its dictionary and matched a byte of the alphabet is ready for the next one. -/
theorem lzwEncReady_clearEncoder {s : State} {k : Byte} (hmin : Config.lzwMinLit ≤ s.litWidth)
    (hmax : s.litWidth ≤ Config.lzwMaxLit) (hk : k.toNat < 2 ^ s.litWidth) :
    LzwEncReady (setMatched (some k.toNat) (clearEncoder s)) := by
  have h4 : 2 ^ 2 ≤ 2 ^ s.litWidth := Nat.pow_le_pow_right (by omega) hmin
  have hb := Bool.toNat_le s.par.lzwEarlyChange
  have hbig : 2 ^ (s.litWidth + 1) ≤ 2 ^ Config.lzwMaxWidth :=
    Nat.pow_le_pow_right (by omega) (by simp only [Config.lzwMaxLit, Config.lzwMaxWidth] at *; omega)
  have hsucc : 2 ^ (s.litWidth + 1) = 2 ^ s.litWidth * 2 := pow_succ 2 s.litWidth
  simp only [State.litWidth] at *
  constructor <;>
    simp only [clearEncoder, setMatched, State.firstCode, State.litWidth, State.clearCode, State.endCode, Bool.toNat_false]
  · exact hmin
  · exact hmax
  · exact le_refl _
  · omega
  · exact le_refl _
  · simp only [Config.lzwMaxLit, Config.lzwMaxWidth] at *
    omega
  · intro _
    omega
  · intro c hc
    cases hc
    omega
  · intro e he
    cases he

/-- What a byte can leave: the encoder ready for the next byte, or an error with the match and the dictionary as they
were and the shadow at most one entry further. -/
theorem lzwEncByte_ready (k : Byte) (s : State) (h : LzwEncReady s) :
    (∀ t, lzwEncByte k s = .ok t → LzwEncReady t) ∧
    ∀ t e, lzwEncByte k s = .fail t e → t.le = s.le ∨
      ∃ d, t.le = { s.le with dsize := s.le.size, dwidth := d, dprev := true } ∧ s.le.dwidth ≤ d ∧
        d ≤ Config.lzwMaxWidth ∧ (d < Config.lzwMaxWidth → s.le.size + s.par.lzwEarlyChange.toNat < 2 ^ d) := by
  obtain ⟨d, hd, hmono, hmax, hgrown⟩ := h.shadowData
  unfold lzwEncByte
  split
  · refine ⟨fun t ht => (by cases ht), fun t e ht => ?_⟩
    cases ht
    exact .inl rfl
  · next hk =>
    rw [not_le] at hk
    split
    · refine ⟨fun t ht => ?_, fun t e ht => (by cases ht)⟩
      cases ht
      exact { h with matched := fun w hw => by cases hw; exact h.literal hk }
    · next w hw =>
      split
      · next code hcode =>
        refine ⟨fun t ht => ?_, fun t e ht => (by cases ht)⟩
        cases ht
        refine { h with matched := fun c hc => ?_ }
        cases hc
        simp only [LzwEnc.find, Option.map_eq_some_iff] at hcode
        obtain ⟨en, hen, rfl⟩ := hcode
        have hr := h.codes en (List.mem_of_find?_eq_some hen)
        simp only [setMatched, State.firstCode, State.clearCode, State.endCode, State.litWidth] at *
        omega
      · simp only [emitData, emitCode]
        cases hout : outAppendField w s.le.dwidth s with
        | fail u e =>
          refine ⟨fun t ht => (by cases ht), fun t e' ht => ?_⟩
          cases ht
          exact .inl (by rw [outAppendField_fail hout])
        | ok u =>
          obtain ⟨ule, upar, ulit, _, _⟩ := outAppendField_le hout
          have hv : (shadowData u).le = (shadowData s).le ∧ (shadowData u).par = s.par ∧
              (shadowData u).ses.lit = s.ses.lit := by
            simp only [Sys2Proof.Machine.shadowData, ule, upar]
            split <;> exact ⟨rfl, rfl, ulit⟩
          simp only [Run.andThen]
          generalize shadowData u = v at hv
          obtain ⟨vle, vpar, vlit⟩ := hv
          rw [hd] at vle
          have vsize : v.le.size = s.le.size := by rw [vle]
          rw [vsize]
          by_cases hroom : s.le.size < 2 ^ Config.lzwMaxWidth
          · rw [if_pos hroom]
            refine ⟨fun t ht => ?_, fun t e ht => (by cases ht)⟩
            cases ht
            exact h.learnPair w vpar vlit vle hmono hmax hgrown hk hroom
          · rw [if_neg hroom]
            simp only [lzwEncClear, emitCode]
            cases hclear : outAppendField v.clearCode v.le.dwidth v with
            | fail x e =>
              refine ⟨fun t ht => (by cases ht), fun t e' ht => ?_⟩
              cases ht
              exact .inr ⟨d, by rw [outAppendField_fail hclear, vle], hmono, hmax, hgrown⟩
            | ok x =>
              obtain ⟨_, _, xlit, _, _⟩ := outAppendField_le hclear
              refine ⟨fun t ht => ?_, fun t e ht => (by cases ht)⟩
              cases ht
              have hx : x.litWidth = s.litWidth := by simp only [State.litWidth, xlit, vlit]
              exact lzwEncReady_clearEncoder (hx ▸ h.minLit) (hx ▸ h.maxLit) (hx ▸ hk)

end Sys2Proof.Machine
end

