-- ==== Sys2Proof/Laws/PerInstr.lean ====
section
/-! SUPPORT. Statements made per command: the word a well-formed command encodes to matches the command's own row of the opcode table. -/

namespace Sys2Proof.Laws

-- The kernel evaluations below run one after another: waiting for each other they would hold a thread each.
set_option Elab.async false

namespace EncodedInRow

/-- The encoding of a well-formed command matches its row of spec/opcode_table.json and carries its fields (30 R110,
R113, R116). -/
def Statement (i : Instr) : Prop :=
  i.wellFormed = true →
    encode i &&& i.row.mask = i.row.matchBits ∧ (fieldOpc (encode i)).toNat = i.opcode ∧
    (fieldA (encode i)).toNat = i.fieldA ∧ (fieldB (encode i)).toNat = i.fieldB ∧ fieldRsv (encode i) = 0

theorem nop : Statement .nop := by unfold Statement; decide

theorem bsInit (ord : BitOrder) : Statement (.bsInit ord) := by unfold Statement; cases ord <;> decide

theorem bsAppend (n : Nat) : Statement (.bsAppend n) := fun h =>
  (by unfold Statement; decide +kernel : ∀ x : Fin 256, Statement (.bsAppend x.val)) ⟨n, by simpa [Instr.wellFormed, fitsField] using h⟩ h

theorem bsReadBit : Statement .bsReadBit := by unfold Statement; decide

theorem hufBuildCanon (n : Nat) : Statement (.hufBuildCanon n) := fun h =>
  (by unfold Statement; decide +kernel : ∀ x : Fin 256, Statement (.hufBuildCanon x.val)) ⟨n, by simpa [Instr.wellFormed, fitsField] using h⟩ h

theorem hufBuildWeighted (n : Nat) : Statement (.hufBuildWeighted n) := fun h =>
  (by unfold Statement; decide +kernel : ∀ x : Fin 256, Statement (.hufBuildWeighted x.val)) ⟨n, by simpa [Instr.wellFormed, fitsField] using h⟩ h

theorem hufGetCode (n : Nat) : Statement (.hufGetCode n) := fun h =>
  (by unfold Statement; decide +kernel : ∀ x : Fin 256, Statement (.hufGetCode x.val)) ⟨n, by simpa [Instr.wellFormed, fitsField] using h⟩ h

theorem hufEncode (n : Nat) : Statement (.hufEncode n) := fun h =>
  (by unfold Statement; decide +kernel : ∀ x : Fin 256, Statement (.hufEncode x.val)) ⟨n, by simpa [Instr.wellFormed, fitsField] using h⟩ h

theorem hufMatch (n : Nat) : Statement (.hufMatch n) := fun h =>
  (by unfold Statement; decide +kernel : ∀ x : Fin 256, Statement (.hufMatch x.val)) ⟨n, by simpa [Instr.wellFormed, fitsField] using h⟩ h

theorem hufDecodeBs (n : Nat) : Statement (.hufDecodeBs n) := fun h =>
  (by unfold Statement; decide +kernel : ∀ x : Fin 256, Statement (.hufDecodeBs x.val)) ⟨n, by simpa [Instr.wellFormed, fitsField] using h⟩ h

theorem lzwDecStart (ord : BitOrder) (n : Nat) : Statement (.lzwDecStart ord n) := fun h => by
  have hn : n < 256 := by simpa [Instr.wellFormed, fitsField] using h
  cases ord
  · exact (by unfold Statement; decide +kernel : ∀ x : Fin 256, Statement (.lzwDecStart .lsb x.val)) ⟨n, hn⟩ h
  · exact (by unfold Statement; decide +kernel : ∀ x : Fin 256, Statement (.lzwDecStart .msb x.val)) ⟨n, hn⟩ h

theorem lzwEncStart (ord : BitOrder) (n : Nat) : Statement (.lzwEncStart ord n) := fun h => by
  have hn : n < 256 := by simpa [Instr.wellFormed, fitsField] using h
  cases ord
  · exact (by unfold Statement; decide +kernel : ∀ x : Fin 256, Statement (.lzwEncStart .lsb x.val)) ⟨n, hn⟩ h
  · exact (by unfold Statement; decide +kernel : ∀ x : Fin 256, Statement (.lzwEncStart .msb x.val)) ⟨n, hn⟩ h

theorem dflDecStart : Statement .dflDecStart := by unfold Statement; decide

theorem dflEncStart (n : Nat) : Statement (.dflEncStart n) := fun h =>
  (by unfold Statement; decide +kernel : ∀ x : Fin 256, Statement (.dflEncStart x.val)) ⟨n, by simpa [Instr.wellFormed, fitsField] using h⟩ h

theorem feed (complete : Bool) : Statement (.feed complete) := by unfold Statement; cases complete <;> decide

theorem sessionEnd : Statement .sessionEnd := by unfold Statement; decide

theorem lz77Match : Statement .lz77Match := by unfold Statement; decide

theorem softReset : Statement .softReset := by unfold Statement; decide

end EncodedInRow

end Sys2Proof.Laws
end

