-- ==== Sys2Proof/Tests/Slice0.lean ====
section
/-! SUPPORT. The model's own tests: ill-formed terms, the words of every command, the spec's examples one step at a time, and for each statement with hypotheses a state and operands that meet them. -/

namespace Sys2Proof.Tests

-- The kernel evaluations below run one after another: waiting for each other they would hold a thread each.
set_option Elab.async false

open Sys2Proof.Machine

/-! ### Ill-formed terms (30 R111) -/

theorem test_illformed_bsAppend : (Instr.bsAppend 256).wellFormed = false := by decide
theorem test_illformed_hufBuildCanon : (Instr.hufBuildCanon 256).wellFormed = false := by decide
theorem test_illformed_hufBuildWeighted : (Instr.hufBuildWeighted 256).wellFormed = false := by decide
theorem test_illformed_hufGetCode : (Instr.hufGetCode 300).wellFormed = false := by decide
theorem test_illformed_hufEncode : (Instr.hufEncode 256).wellFormed = false := by decide
theorem test_illformed_hufMatch : (Instr.hufMatch 256).wellFormed = false := by decide
theorem test_illformed_hufDecodeBs : (Instr.hufDecodeBs 256).wellFormed = false := by decide
theorem test_illformed_lzwDecStart : (Instr.lzwDecStart .lsb 256).wellFormed = false := by decide
theorem test_illformed_lzwEncStart : (Instr.lzwEncStart .msb 256).wellFormed = false := by decide
theorem test_illformed_dflEncStart : (Instr.dflEncStart 256).wellFormed = false := by decide

/-! ### Words, written out as RSV, B, A, OPC (30 R110, R112) -/

theorem test_word_nop : decode 0b00000000000000000000000000000000 = .ok .nop := by decide
theorem test_word_bsInit : decode 0b00000000000000000000000100000001 = .ok (.bsInit .msb) := by decide
theorem test_word_bsAppend : decode 0b00000000000000000010000000000010 = .ok (.bsAppend 32) := by decide
theorem test_word_bsReadBit : decode 0b00000000000000000000000000000011 = .ok .bsReadBit := by decide
theorem test_word_hufBuildCanon : decode 0b00000000000000000000000100010000 = .ok (.hufBuildCanon 1) := by decide
theorem test_word_hufBuildWeighted : decode 0b00000000000000000000001000010001 = .ok (.hufBuildWeighted 2) := by decide
theorem test_word_hufGetCode : decode 0b00000000000000000000001100010010 = .ok (.hufGetCode 3) := by decide
theorem test_word_hufEncode : decode 0b00000000000000000000000100010011 = .ok (.hufEncode 1) := by decide
theorem test_word_hufMatch : decode 0b00000000000000000000000000010100 = .ok (.hufMatch 0) := by decide
theorem test_word_hufDecodeBs : decode 0b00000000000000000000001000010101 = .ok (.hufDecodeBs 2) := by decide
theorem test_word_lzwDecStart : decode 0b00000000000010000000000100100000 = .ok (.lzwDecStart .msb 8) := by decide
theorem test_word_lzwEncStart : decode 0b00000000000000100000000000100001 = .ok (.lzwEncStart .lsb 2) := by decide
theorem test_word_dflDecStart : decode 0b00000000000000000000000000110000 = .ok .dflDecStart := by decide
theorem test_word_dflEncStart : decode 0b00000000000000000000001000110001 = .ok (.dflEncStart 2) := by decide
theorem test_word_feed : decode 0b00000000000000000000000101000000 = .ok (.feed true) := by decide
theorem test_word_sessionEnd : decode 0b00000000000000000000000001000001 = .ok .sessionEnd := by decide
theorem test_word_lz77Match : decode 0b00000000000000000000000001010000 = .ok .lz77Match := by decide
theorem test_word_softReset : decode 0b00000000000000000000000001111111 = .ok .softReset := by decide
theorem test_word_unknown : decode 0b00000000000000000000000010000000 = .error .unknownOpcode := by decide
theorem test_word_fixed_bit : decode 0b00000001000000000000000000000000 = .error .fixedBitSet := by decide
theorem test_word_flag_bit : decode 0b00000000000000000000001001000000 = .error .fixedBitSet := by decide

/-! ### Small states -/

/-- A machine right after reset with MEM_SIZE = 256. -/
def machine : State := State.resetWith ⟨255#32, false⟩

/-- Operands. -/
def args (a0 a1 : Word) (a2 a3 : Word := 0) : Args := ⟨a0, a1, a2, a3⟩

/-- With operands latched. -/
def given (a : Args) (s : State) : State := { s with larg := a }

/-- With bytes in buffer memory. -/
def holding (a : Nat) (bytes : List Byte) (s : State) : State :=
  { s with mem := bytes.zipIdx.foldl (fun m p => Memory.put m (a + p.2) p.1) s.mem }

/-- With a command accepted. -/
def accepted (w : Word) (s : State) : State := { s with busy := true, lcmd := w }

/-- With one event to come. -/
def facing (e : Event) (s : State) : State := { s with agenda := [e] }

/-- The state after a command. -/
def after (i : Instr) (s : State) : State :=
  match exec i s with
  | .next t => t
  | .fault _ => s
  | .refused _ => s

/-- The state after a step. -/
def stepped (s : State) : Option State :=
  match step s with
  | .next t => some t
  | .fault _ => none
  | .refused _ => none

/-- A bit sequence at address 16 of capacity 2. -/
def sequence (ord : BitOrder) (bits : Word) (bytes : List Byte) : State :=
  holding 16 bytes { machine with bs := ⟨16, 2, bits, ord, true⟩ }

/-- The table of widths [2, 1, 3, 3]: "codes 10, 0, 110, 111" (41 R163). -/
def exampleTable : HufTable := ⟨[⟨2, 0b10⟩, ⟨1, 0b0⟩, ⟨3, 0b110⟩, ⟨3, 0b111⟩], 3⟩

/-- Slot 0 holds that table. -/
def coded (s : State) : State := { s with huf := s.huf.set 0 ⟨true, exampleTable⟩ }

/-- A session with output at 64 of capacity 16. -/
def lzwDecoder : State := lzwReset (sessionStart .lzwDec .lsb 8 64 16 0 machine)
def dflDecoder : State := sessionStart .dflDec .lsb 0 64 16 0 machine
def lzwEncoder : State := after (.lzwEncStart .lsb 2) (given (args 64 16) machine)
def dflEncoder : State :=
  let s := sessionStart .dflEnc .lsb 0 64 16 0 machine
  { s with ses := { s.ses with histBase := 96, histCap := 4 } }

/-! ### The spec's examples -/

theorem test_nop_clears_error :
    (after .nop { machine with status := ⟨true, true, false, true, 9⟩, errDetail := 0x0901 }).statusWord = 0b10 := by
  decide
/-- 40 R143: "BS_CTRL = 0b11". -/
theorem test_bsInit : (after (.bsInit .msb) (given (args 0x10 16) machine)).bs.ctrlWord = 0b11 := by decide
theorem test_bsInit_range : (after (.bsInit .msb) (given (args 250 7) machine)).errDetail = 0x0A01 := by decide
/-- 40 R144: the third append gives bytes fe 03. -/
theorem test_bsAppend_lsb :
    (after (.bsAppend 2) (given (args 3 0) (sequence .lsb 8 [0xFE]))).mem = [(16, 0xFE), (17, 0x03)] := by decide
/-- 40 R144: "with ord=1 ... bytes df c0". -/
theorem test_bsAppend_msb :
    (after (.bsAppend 2) (given (args 3 0) (sequence .msb 8 [0xDF]))).mem = [(16, 0xDF), (17, 0xC0)] := by decide
/-- 40 R145: "index 0 reads 0, index 1 reads 1". -/
theorem test_bsReadBit : (after .bsReadBit (given (args 1 0) (sequence .lsb 10 [0xFE, 0x03]))).res0 = 1 := by decide
theorem test_bsReadBit_end :
    (after .bsReadBit (given (args 10 0) (sequence .lsb 10 [0xFE, 0x03]))).errDetail = 0x0909 := by decide
/-- 41 R163: "widths [2, 1, 3, 3] give codes 10, 0, 110, 111". -/
theorem test_hufBuildCanon :
    (after (.hufBuildCanon 0) (given (args 0 4) (holding 0 [2, 1, 3, 3] machine))).huf[0] = ⟨true, exampleTable⟩ := by
  decide +kernel
theorem test_hufBuildCanon_oversubscribed :
    (after (.hufBuildCanon 1) (given (args 0 3) (holding 0 [1, 1, 1] machine))).errDetail = 0x0C02 := by decide +kernel
/-- 41 R165: "weights [1, 1, 1, 1] give every symbol width 2 (codes 00, 01, 10, 11)". -/
theorem test_hufBuildWeighted :
    (after (.hufBuildWeighted 2) (given (args 0 4)
      (holding 0 [1, 0, 0, 0, 1, 0, 0, 0, 1, 0, 0, 0, 1, 0, 0, 0] machine))).huf[2].table.entries =
    [⟨2, 0b00⟩, ⟨2, 0b01⟩, ⟨2, 0b10⟩, ⟨2, 0b11⟩] := by decide +kernel
/-- 41 R165: "one non-zero weight gives that symbol code `0` of width 1". -/
theorem test_hufBuildWeighted_single :
    (after (.hufBuildWeighted 2) (given (args 0 2) (holding 0 [0, 0, 0, 0, 0, 0, 0, 9] machine))).huf[2].table.entries =
    [⟨0, 0⟩, ⟨1, 0⟩] := by decide +kernel
/-- 41 R167: "symbol 2 gives RES0 = 0b110, RES1 = 3". -/
theorem test_hufGetCode :
    let t := after (.hufGetCode 0) (given (args 2 0) (coded machine))
    (t.res0, t.res1) = (0b110, 3) := by decide
/-- 41 R173: "code `110` (width 3) into an empty ORD = 0 sequence gives byte `03`; into an ORD = 1 sequence, byte `c0`". -/
theorem test_hufEncode_lsb :
    (after (.hufEncode 0) (given (args 2 0) (coded (sequence .lsb 0 [])))).mem = [(16, 0x03)] := by decide
theorem test_hufEncode_msb :
    (after (.hufEncode 0) (given (args 2 0) (coded (sequence .msb 0 [])))).mem = [(16, 0xC0)] := by decide
/-- 41 R170: "(0b1110, 4) symbol 3 using 3". -/
theorem test_hufMatch :
    let t := after (.hufMatch 0) (given (args 0b1110 4) (coded machine))
    (t.res0, t.res1, t.res2) = (1, 3, 3) := by decide
theorem test_hufMatch_needMore :
    let t := after (.hufMatch 0) (given (args 0b1 1) (coded machine))
    (t.res0, t.status.err) = (0, false) := by decide
/-- 41 R171: stream bits 1, 1, 0, 0: "at i = 0 gives symbol 2 using 3, at i = 3 symbol 1 using 1". -/
theorem test_hufDecodeBs :
    let t := after (.hufDecodeBs 0) (given (args 0 0) (coded (sequence .lsb 4 [0x03])))
    (t.res0, t.res1, t.res2) = (1, 2, 3) := by decide
theorem test_hufDecodeBs_second :
    let t := after (.hufDecodeBs 0) (given (args 3 0) (coded (sequence .lsb 4 [0x03])))
    (t.res0, t.res1, t.res2) = (1, 1, 1) := by decide
/-- 42 R202: S_CTRL 0x00010801. -/
theorem test_lzwDecStart :
    (after (.lzwDecStart .lsb 8) (given (args 64 16) machine)).ses.ctrlWord = 0x00010801 := by decide
/-- 42 R220: the output is already the clear code, the first nine bits of `00 03 02`. -/
theorem test_lzwEncStart :
    let t := after (.lzwEncStart .lsb 8) (given (args 64 16) machine)
    (t.mem, t.ses.outBits, t.ses.outLen) = ([(64, 0x00), (65, 0x01)], 9, 2) := by decide
/-- 43 R240: S_CTRL = 0x00010003. -/
theorem test_dflDecStart : (after .dflDecStart (given (args 64 16) machine)).ses.ctrlWord = 0x00010003 := by decide
/-- 44 R290: S_CTRL = 0x00012004. -/
theorem test_dflEncStart :
    (after (.dflEncStart 2) (given (args 64 16 96 4) machine)).ses.ctrlWord = 0x00012004 := by decide
/-- 42 R201: `00 03 02` read LSB-first in 9-bit fields is the clear and the end code: DONE, nothing written. -/
theorem test_feed_lzw :
    let t := after (.feed true) (given (args 0 3) (holding 0 [0x00, 0x03, 0x02] lzwDecoder))
    (t.ses.sstate, t.res0, t.res2) = (.done, 3, 0) := by decide +kernel
/-- 43 R260: `07` gives INVALID_BLOCK_TYPE 0x0201, consumed 0. -/
theorem test_feed_block_type :
    let t := after (.feed true) (given (args 0 1) (holding 0 [0x07] dflDecoder))
    (t.errDetail, t.res0) = (0x0201, 0) := by decide +kernel
theorem test_sessionEnd : (after .sessionEnd dflDecoder).ses.ctrlWord = 0 := by decide
/-- 44 R292: "abcabcabc", p = 3 gives (6, 3). -/
theorem test_lz77Match :
    let t := after .lz77Match (given (args 0 3 9)
      (holding 0 [0x61, 0x62, 0x63, 0x61, 0x62, 0x63, 0x61, 0x62, 0x63] machine))
    (t.res0, t.res1) = (6, 3) := by decide +kernel
/-- 44 R292: "abcXabcYabc", p = 8 gives (3, 4), the nearer of the two equal matches. -/
theorem test_lz77Match_nearest :
    let t := after .lz77Match (given (args 0 8 11)
      (holding 0 [0x61, 0x62, 0x63, 0x58, 0x61, 0x62, 0x63, 0x59, 0x61, 0x62, 0x63] machine))
    (t.res0, t.res1) = (3, 4) := by decide +kernel
theorem test_softReset :
    (after .softReset (sequence .lsb 8 [0xFE])).mem = [(16, 0xFE)] ∧
    (after .softReset { machine with status := ⟨true, true, true, true, 9⟩ }).statusWord = 0 := by decide

/-! ### Witnesses: encoding, the engine and the host -/

theorem witness_EncodeThenDecode :
    (Instr.bsAppend 255).wellFormed = true ∧ decode 0x0000FF02 = .ok (.bsAppend 255) := by decide

theorem witness_DecodingIsTotal :
    decode 0x00000101 = .ok (.bsInit .msb) ∧
    (⟨0x00000001, 0xFFFFFEFF⟩ ∈ opcodeRows ∧ (0x00000101 : Word) &&& 0xFFFFFEFF = 0x00000001) ∧
    (accepted 0x16 machine).busy = true ∧ (∀ r ∈ opcodeRows, fieldOpc r.matchBits ≠ fieldOpc 0x16) ∧
    (∀ r ∈ opcodeRows, fieldOpc r.matchBits ≠ fieldOpc 0xFF) ∧
    (∃ r ∈ opcodeRows, fieldOpc r.matchBits = fieldOpc 0x01000000) ∧
    (∀ r ∈ opcodeRows, 0x01000000 &&& r.mask ≠ r.matchBits) ∧
    (∃ r ∈ opcodeRows, fieldOpc r.matchBits = fieldOpc 0x00010102) ∧
    (∀ r ∈ opcodeRows, 0x00010102 &&& r.mask ≠ r.matchBits) := by
  decide

theorem witness_KnownCommandWords : (Instr.lzwEncStart .msb 255).wellFormed = true := by decide

theorem witness_StepRunsTheLatchedCommand :
    ((accepted 0x41 machine).busy = true ∧ decode (accepted 0x41 machine).lcmd = .ok .sessionEnd ∧
      (accepted 0x41 machine).agenda = []) ∧
    (facing .engine (accepted 0x41 machine)).agenda = [.engine] ∧
    (facing .wait (accepted 0x41 machine)).agenda = [.wait] ∧
    (machine.busy = false ∧ machine.agenda = []) ∧
    (facing .engine machine).busy = false ∧ (facing .wait machine).busy = false := by decide

theorem witness_CommandWriteIsAcceptedOrIgnored :
    ((facing (.regWrite 0 4 0x40) machine).agenda = [.regWrite 0 4 0x40] ∧
      (facing (.regWrite 0 4 0x40) machine).busy = false) ∧
    (facing (.regWrite 0 4 0x40) (accepted 0 machine)).busy = true := by decide

theorem witness_OverrunIsSticky :
    (let s := { accepted 0x7F machine with status := ⟨true, false, false, false, 0⟩ }
     s.status.overrun = true ∧ (stepped s).map (·.status.overrun) = some false) ∧
    (let s := facing (.regWrite 0 4 0) (accepted 0 machine)
     s.status.overrun = false ∧ (stepped s).map (·.status.overrun) = some true) := by decide +kernel

theorem witness_RegisterMap :
    (∀ o ∈ [0x04, 0x08, 0x0C, 0x10, 0x14, 0xFC], o % 4 = 0 ∧ o < 256 ∧
      (facing (.regWrite o 4 7) machine).agenda = [.regWrite o 4 7]) ∧
    (∀ o ∈ [0x00, 0x04, 0x60, 0x64, 0xFC], o % 4 = 0 ∧ o < 256 ∧
      (facing (.regRead o 4) machine).agenda = [.regRead o 4]) := by decide

theorem witness_RegisterAccessForm :
    ((252 < 256 ∧ 252 % 4 = 0) ∧ (facing (.regWrite 252 4 7) machine).agenda = [.regWrite 252 4 7]) ∧
    (¬ ((4 : Nat) = 4 ∧ 254 % 4 = 0) ∧ (facing (.regRead 254 4) machine).agenda = [.regRead 254 4]) ∧
    (¬ ((2 : Nat) = 4 ∧ 0 % 4 = 0) ∧ (facing (.regRead 0 2) machine).agenda = [.regRead 0 2]) := by decide

theorem witness_ResetClearsEverything :
    (facing .reset (accepted 0 machine)).agenda = [.reset] ∧ (facing .powerOn machine).agenda = [.powerOn] := by decide

theorem witness_HostMemoryAccess :
    (memSize machine.par ≤ 256 ∧ (facing (.memRead 256) machine).agenda = [.memRead 256]) ∧
    (255 < memSize machine.par ∧ (facing (.memWrite 255 9) machine).agenda = [.memWrite 255 9] ∧
      (facing (.memWrite 255 9) machine).busy = false) ∧
    ((facing (.memRead 255) machine).agenda = [.memRead 255] ∧
      (facing (.memRead 255) (accepted 0 machine)).busy = true) ∧
    RacesOk (facing (.memWrite 255 9) machine) ∧ RacesOk (facing (.memRead 255) (accepted 0 machine)) := by
  unfold RacesOk RacedOnce
  decide

/-- 20 R95: a first and a second host write to the last byte while BUSY = 1 are recorded and leave memory. -/
theorem witness_HostMemoryAccess_racing :
    (let s := facing (.memWrite 255 9) (accepted 0 machine)
     RacesOk s ∧ s.busy = true ∧ s.racedAt 255 = none ∧ (stepped s).map (·.raced) = some [⟨255, 9, [], false⟩] ∧
     (stepped s).map (·.mem) = some []) ∧
    (let s := facing (.memWrite 255 9) { accepted 0 machine with raced := [⟨255, 7, [], false⟩] }
     RacesOk s ∧ s.racedAt 255 = some ⟨255, 7, [], false⟩ ∧
     (stepped s).map (·.raced) = some [⟨255, 9, [7], false⟩]) := by
  unfold RacesOk RacedOnce
  decide

/-! ### Pseudo-operations (30 R118) -/

/-- 95, 8.4: "Each `DO` line expands to two ARG writes, the CMD write and WAIT", with the word of its line. -/
theorem test_doCommand_feed :
    doCommand (.feed true) [(0, 6), (1, 2)] =
      [.regWrite 0x04 4 6, .regWrite 0x08 4 2, .regWrite 0x00 4 0x00000140, .wait] := by decide

/-- "one WR per listed ARG, in order": none for an operand that is not listed. -/
theorem test_doCommand_order :
    doCommand .nop [(3, 1), (2, 5)] = [.regWrite 0x10 4 1, .regWrite 0x0C 4 5, .regWrite 0x00 4 0, .wait] := by decide

theorem test_readAllSync :
    readAllSync .dflDecStart 0x300 0x10 0x100 7 =
      [.regWrite 0x04 4 0x300, .regWrite 0x08 4 0x10, .regWrite 0x00 4 0x30, .wait,
       .regWrite 0x04 4 0x100, .regWrite 0x08 4 7, .regWrite 0x00 4 0x140, .wait] := by decide

/-- 95, 1.1: `00 01 04 04` decodes to `00`. -/
theorem test_readAllOutput :
    ((after (.feed true) (given (args 0 4) (holding 0 [0x00, 0x01, 0x04, 0x04] lzwDecoder))).readAllOutput 64 =
      .ok [0x00]) ∧
    (after (.feed true) (given (args 0 1) (holding 0 [0x07] dflDecoder))).readAllOutput 64 = .error Err.blockType := by
  decide +kernel

/-- 41 R173: code `110` of width 3 is the value 011 under ORD = 0 and 110 under ORD = 1. -/
theorem test_bsAppendCode :
    bsAppendCode .lsb 0b110 3 = [.regWrite 0x04 4 0b011, .regWrite 0x00 4 0x00000302, .wait] ∧
    bsAppendCode .msb 0b110 3 = [.regWrite 0x04 4 0b110, .regWrite 0x00 4 0x00000302, .wait] := by decide

theorem witness_RacedByteIsEitherValue :
    (RacedOnce machine ∧ machine.racedAt 5 = none) ∧
    (let s := { machine with raced := [⟨5, 1, [], false⟩] }
     RacedOnce s ∧ s.racedAt 5 = some ⟨5, 1, [], false⟩) ∧
    (let s := { machine with raced := [⟨5, 1, [2], true⟩] }
     RacedOnce s ∧ s.racedAt 5 = some ⟨5, 1, [2], true⟩) := by unfold RacedOnce; decide

/-! ### Witnesses: the bit sequence and the Huffman coder -/

theorem witness_BsInitStartsAnEmptySequence :
    (let s := given (args 250 7) machine; memSize s.par < s.arg0 + s.arg1) ∧
    (let s := given (args 250 6) machine; s.arg0 + s.arg1 ≤ memSize s.par) := by decide

theorem witness_BsAppendAppendsTheField :
    machine.bs.valid = false ∧
    (let s := given (args 8 0) (sequence .lsb 8 [0xFE]); s.bs.valid = true ∧ 2 ^ 3 ≤ s.arg0) ∧
    (let s := given (args 7 0) (sequence .lsb 14 [0xFE, 0]); s.bs.valid = true ∧ s.arg0 < 2 ^ 3 ∧
      s.bs.cap.toNat < bytesOfBits (s.bs.bits.toNat + 3)) ∧
    (let s := given (args 7 0) (sequence .lsb 13 [0xFE, 0]); s.bs.valid = true ∧ s.arg0 < 2 ^ 3 ∧
      bytesOfBits (s.bs.bits.toNat + 3) ≤ s.bs.cap.toNat ∧ s.bs.bits.toNat + 3 ≤ 2 ^ 32 - 1) ∧
    (let s := given (args 0xFFFFFFFF 0) { machine with bs := ⟨0, 4, 0, .msb, true⟩ }
     s.arg0 < 2 ^ 32 ∧ bytesOfBits (s.bs.bits.toNat + 32) ≤ s.bs.cap.toNat ∧ s.bs.bits.toNat + 32 ≤ 2 ^ 32 - 1) := by
  decide

theorem witness_BsReadBitReadsTheBit :
    machine.bs.valid = false ∧
    (let s := given (args 10 0) (sequence .lsb 10 [0xFE, 0x03]); s.bs.valid = true ∧ s.bs.bits.toNat ≤ s.arg0) ∧
    (let s := given (args 9 0) (sequence .lsb 10 [0xFE, 0x03])
     s.bs.valid = true ∧ s.arg0 < s.bs.bits.toNat ∧ s.raced = []) := by decide

theorem witness_CanonicalConstruction :
    (∃ w ∈ [17, 1], 16 < w) ∧
    ((∀ w ∈ [1, 1, 16], w ≤ 16) ∧ 2 ^ 16 < (([1, 1, 16].filter (0 < ·)).map fun w => 2 ^ (16 - w)).sum) ∧
    (let ws := [2, 0, 1, 3, 3]
     (∀ w ∈ ws, w ≤ 16) ∧ ((ws.filter (0 < ·)).map fun w => 2 ^ (16 - w)).sum ≤ 2 ^ 16 ∧ ws.getD 1 0 = 0 ∧
     (0 < ws.getD 2 0 ∧ ∀ b, b < ws.length → 0 < ws.getD b 0 → ¬ CanonBefore ws b 2) ∧
     CanonBefore ws 0 3 ∧ ∀ c, c < ws.length → CanonBefore ws 0 c → ¬ CanonBefore ws c 3) := by
  unfold CanonBefore
  decide

theorem witness_CanonicalCodesArePrefixFree :
    canon [2, 1, 3, 3] = .ok exampleTable ∧ 3 < exampleTable.n := by decide +kernel

/-- 41 R164: of the weights 1, 0, 2, 3 the leaves of 1 and 2 are merged first, the 3 of their parent ties with the leaf of
3 and comes after it, so symbol 3 is child 0 and the codes are 10, -, 11, 0. -/
theorem witness_WeightedCodesArePrefixFree :
    (2 < [5, 0, 1].length ∧ [5, 0, 1].getD 1 0 = 0) ∧ queueLeaves [0, 7] = [⟨7, 0, .leaf 1⟩] ∧
    2 ≤ (queueLeaves [1, 0, 2, 3]).length ∧
    MergesTo 3 (queueLeaves [1, 0, 2, 3]) ⟨6, 4, .node (.leaf 3) (.node (.leaf 0) (.leaf 2))⟩ ∧
    (weightedTree [1, 0, 2, 3]).entries = [⟨2, 0b10⟩, ⟨0, 0⟩, ⟨2, 0b11⟩, ⟨1, 0b0⟩] := by
  refine ⟨by decide, by decide, by decide, ?_, by decide +kernel⟩
  refine .merge 3 _ [⟨3, 2, .leaf 3⟩] ⟨1, 0, .leaf 0⟩ ⟨2, 1, .leaf 2⟩ _ (by decide) ?_ ?_
    (.merge 4 _ [] ⟨3, 2, .leaf 3⟩ ⟨3, 3, .node (.leaf 0) (.leaf 2)⟩ _ (.swap _ _ _) ?_ ?_ (.single 5 _)) <;>
  simp [QueueNode.Precedes]

theorem witness_HufBuildCanonFillsItsSlot :
    (let s := given (args 0 0) machine; s.arg1 < 1) ∧ (let s := given (args 0 289) machine; 288 < s.arg1) ∧
    (let s := given (args 253 4) machine; 1 ≤ s.arg1 ∧ s.arg1 ≤ 288 ∧ memSize s.par < s.arg0 + s.arg1) ∧
    (let s := given (args 252 4) (holding 252 [2, 1, 3, 3] machine)
     s.arg0 + s.arg1 ≤ memSize s.par ∧ s.raced = [] ∧ canon (s.readWidths s.arg0 s.arg1) = .ok exampleTable) ∧
    (let s := given (args 0 1) (holding 0 [17] machine)
     canon (s.readWidths s.arg0 s.arg1) = .error (Err.ofDetail 0x0C01)) := by decide +kernel

/-- 41 R165: "18 weights 1, 1, 2, 3, 5, ... (Fibonacci) give depth 17". -/
def fibonacciWeights : List Byte :=
  [1, 1, 2, 3, 5, 8, 13, 21, 34, 55, 89, 144, 233].flatMap (fun w => [w, 0, 0, 0]) ++
  [(377, 0), (610, 0), (987, 0), (1597, 0), (2584, 0)].flatMap fun p =>
    [BitVec.ofNat 8 p.1, BitVec.ofNat 8 (p.1 / 256), p.2, 0]

theorem witness_HufBuildWeightedFillsItsSlot :
    (let s := given (args 0 289) machine; 288 < s.arg1) ∧
    (let s := given (args 241 4) machine; 1 ≤ s.arg1 ∧ s.arg1 ≤ 288 ∧ memSize s.par < s.arg0 + 4 * s.arg1) ∧
    (let s := given (args 0 2) (holding 0 [1, 0, 0, 0, 2, 0, 0, 0] machine)
     s.arg0 + 4 * s.arg1 ≤ memSize s.par ∧ s.raced = [] ∧ (weightedTree (s.readWeights s.arg0 s.arg1)).maxw ≤ 16) ∧
    (let s := given (args 0 18) (holding 0 fibonacciWeights machine)
     16 < (weightedTree (s.readWeights s.arg0 s.arg1)).maxw) := by decide +kernel

theorem witness_HufGetCodeReturnsCodeAndWidth :
    machine.huf[3].valid = false ∧
    (let s := given (args 4 0) (coded machine); s.huf[0].valid = true ∧ s.huf[0].table.n ≤ s.arg0) ∧
    (let s := given (args 3 0) (coded machine); s.huf[0].valid = true ∧ s.arg0 < s.huf[0].table.n) := by decide

theorem witness_HufEncodeAppendsTheCode :
    0b110 < 2 ^ 3 ∧
    (let s := given (args 2 0) (coded machine); s.huf[0].valid = true ∧ s.bs.valid = false) ∧
    (let s := given (args 4 0) (coded (sequence .lsb 13 [0, 0])); s.bs.valid = true ∧ s.huf[0].table.n ≤ s.arg0) ∧
    (let s := given (args 2 0) (coded (sequence .lsb 14 [0, 0]))
     s.arg0 < s.huf[0].table.n ∧ 0 < (s.huf[0].table.entry s.arg0).width ∧
     s.bs.cap.toNat < bytesOfBits (s.bs.bits.toNat + (s.huf[0].table.entry s.arg0).width)) ∧
    (let s := given (args 2 0) (coded (sequence .lsb 13 [0, 0]))
     bytesOfBits (s.bs.bits.toNat + (s.huf[0].table.entry s.arg0).width) ≤ s.bs.cap.toNat ∧
     s.bs.bits.toNat + (s.huf[0].table.entry s.arg0).width ≤ 2 ^ 32 - 1) := by decide

theorem witness_LookupFindsTheShortestPrefix :
    exampleTable.lookup 0b1110 4 = .found 3 3 ∧ MatchesPrefix exampleTable 0b1110 4 3 3 ∧
    ∀ k ≤ 1, ∀ a < exampleTable.n, ¬ MatchesPrefix exampleTable 0b1 1 k a := by
  unfold MatchesPrefix
  decide

theorem witness_HufMatchReportsTheLookup :
    (let s := given (args 0 33) (coded machine); s.huf[0].valid = true ∧ 32 < s.arg1) ∧
    (let s := given (args 2 1) (coded machine); s.arg1 < 32 ∧ 2 ^ s.arg1 ≤ s.arg0) ∧
    (let s := given (args 0xFFFFFFFF 32) (coded machine); s.arg1 ≤ 32 ∧ s.arg0 < 2 ^ s.arg1 ∧
      s.huf[0].table.lookup s.arg0 s.arg1 = .found 3 3) ∧
    (let s := given (args 0 0) (coded machine); s.arg0 < 2 ^ s.arg1 ∧
      s.huf[0].table.lookup s.arg0 s.arg1 = .needMore) ∧
    (⟨[⟨1, 0⟩], 1⟩ : HufTable).lookup 0b10 2 = .malformed := by decide +kernel

theorem witness_HufDecodeBsReadsTheSequence :
    (let s := given (args 5 0) (coded (sequence .lsb 4 [0x03]))
     s.huf[0].valid = true ∧ s.bs.valid = true ∧ s.bs.bits.toNat < s.arg0) ∧
    (let s := given (args 3 0) (coded (sequence .lsb 4 [0x03]))
     s.arg0 ≤ s.bs.bits.toNat ∧ min (s.bs.bits.toNat - s.arg0) (s.huf[0].table.maxw + 1) = 1 ∧
     s.huf[0].table.lookup (fieldValue .msb ((List.range 1).map fun j =>
       s.bitAt [j] s.bs.ord s.bs.base.toNat (s.arg0 + j))) 1 = .found 1 1) ∧
    (let s := given (args 4 0) (coded (sequence .lsb 4 [0x03])); s.huf[0].table.lookup 0 0 = .needMore) := by
  decide +kernel

theorem exampleTable_sized : TableSized exampleTable ∧ PrefixFree exampleTable := by
  constructor
  · unfold TableSized; decide
  · intro a b ha hb
    have ha' : a < 4 := ha
    have hb' : b < 4 := hb
    interval_cases a <;> interval_cases b <;> decide

theorem witness_HuffmanRoundTrip :
    let s := coded (sequence .lsb 0 [])
    s.raced = [] ∧ s.huf[(0 : Fin 4)].valid = true ∧ TableSized s.huf[(0 : Fin 4)].table ∧
    PrefixFree s.huf[(0 : Fin 4)].table ∧ s.bs.valid = true ∧ s.bs.bits = 0 ∧ (∀ a ∈ [2, 1], a < 2 ^ 32) ∧
    (encodeSymbols 0 [2, 1] s).isSome = true :=
  ⟨by decide, by decide, exampleTable_sized.1, exampleTable_sized.2, by decide, by decide, by decide, by decide +kernel⟩

/-! ### Witnesses: LZ77, tables, starts -/

theorem witness_Lz77MatchIsLongestAndNearest :
    (let s := given (args 0 10 9) machine; s.arg2 < s.arg1) ∧
    (let s := given (args 248 9 9) machine; s.arg1 ≤ s.arg2 ∧ memSize s.par < s.arg0 + s.arg2) ∧
    (let s := given (args 247 9 9) machine; s.arg1 ≤ s.arg2 ∧ s.arg0 + s.arg2 ≤ memSize s.par ∧ s.raced = []) := by
  decide

theorem witness_LengthAndDistanceSymbols :
    lenSym 3 = (257, 0) ∧ lenSym 6 = (260, 0) ∧ lenSym 18 = (268, 1) ∧ lenSym 257 = (284, 30) ∧ lenSym 258 = (285, 0) ∧
    distSym 1 = (0, 0) ∧ distSym 3 = (2, 0) ∧ distSym 5 = (4, 0) ∧ distSym 32768 = (29, 8191) := by decide

/-- 44 R302: "S is 97 zeros, 3, 3, 2, 156 zeros, 2, 0, 0, 0, 2 ..., 0, 0, 1" and its coding. -/
theorem witness_WidthRunsReadBack :
    (let ws := List.replicate 97 0 ++ [3, 3, 2] ++ List.replicate 156 0 ++ [2, 0, 0, 0, 2, 0, 0, 1]
     (∀ w ∈ ws, w < 16) ∧ rle ws = [(18, 86), (3, 0), (3, 0), (2, 0), (18, 127), (18, 7), (2, 0), (17, 0), (2, 0),
       (0, 0), (0, 0), (1, 0)]) ∧
    (let s := holding 0 [0x02] dflDecoder
     s.df.lens = [] ∧ inField s ⟨0, 1⟩ (clExtra 16) 0 = .got 2 2) ∧
    (let s := holding 0 [0x02] { dflDecoder with df := { DflDec.unused with lens := [7] } }
     ¬ (16 = 16 ∧ s.df.lens = []) ∧ inField s ⟨0, 1⟩ (clExtra 16) 0 = .got 2 2) := by decide +kernel

/-- 43 R250 to R252, from the rules' own fields: HLIT 29 and 30, a third width, and a code-length table of one code of
width 1 for symbol 2 and one for symbol 16. -/
theorem witness_WidthRunsReadBack_units :
    (let s := holding 0 [0xBD, 0x01] (dflDecoder.setDf { DflDec.unused with p := .dynCounts })
     s.df.p = .dynCounts ∧ inField s ⟨0, 2⟩ 5 0 = .got 29 (0 + 5) ∧ inField s ⟨0, 2⟩ 5 (0 + 5) = .got 13 (0 + 10) ∧
     inField s ⟨0, 2⟩ 4 (0 + 10) = .got 0 (0 + 14) ∧ 8 * 1 < 0 + 14) ∧
    inField (holding 0 [0x1E] (dflDecoder.setDf { DflDec.unused with p := .dynCounts })) ⟨0, 1⟩ 5 0 = .got 30 (0 + 5) ∧
    (let s := holding 0 [0x07] (dflDecoder.setDf { DflDec.unused with p := .dynClLen, cli := 3, ncl := 4 })
     s.df.p = .dynClLen ∧ inField s ⟨0, 1⟩ 3 0 = .got 7 (0 + 3) ∧ s.df.cli + 1 = s.df.ncl ∧
     (canon (s.df.clw.set 0 7)).isOk = true) ∧
    (let s := dflDecoder.setDf { DflDec.unused with p := .dynClLen, cli := 3, ncl := 5 }
     s.df.cli + 1 ≠ s.df.ncl) ∧
    canon (([1, 1] ++ List.replicate 17 0).set 2 1) = .error Err.overSubscribed ∧
    (let cl : HufTable := ⟨(List.range 19).map fun a => if a = 2 then ⟨1, 0⟩ else if a = 16 then ⟨1, 1⟩ else ⟨0, 0⟩, 1⟩
     let s := holding 0 [0x01] (dflDecoder.setDf { DflDec.unused with p := .dynLens, cltab := cl, nlit := 257, ndist := 1 })
     s.df.p = .dynLens ∧ decodeSym s ⟨0, 1⟩ s.df.cltab 0 = .got 16 1 ∧ decodeSym s ⟨0, 1⟩ s.df.cltab 1 = .got 2 2 ∧
     decodeSym s ⟨0, 0⟩ s.df.cltab 0 = .needMore ∧ decodeSym s ⟨0, 1⟩ HufTable.empty 0 = .bad Err.noCode ∧
     inField s ⟨0, 1⟩ (clExtra 16) 1 = .got 0 3 ∧ 8 * 1 < 7 + clExtra 16 ∧ s.df.lens = [] ∧
     (([] : List Nat) ++ expandRun [] (2, 0)).length < s.df.nlit + s.df.ndist) ∧
    (List.replicate 257 2 ++ expandRun [2] (2, 0)).length = 257 + 1 ∧ 257 + 1 < (List.replicate 257 2 ++ expandRun [2] (16, 0)).length ∧
    (canon ((List.replicate 257 8).take 257)).isOk = false := by decide +kernel

theorem witness_DecoderStartsOpenASession :
    (let s := given (args 64 193) machine; memSize s.par < s.arg0 + s.arg1) ∧
    (let s := given (args 64 192) machine; s.arg0 + s.arg1 ≤ memSize s.par) := by decide

theorem witness_LzwEncStartEmitsTheClearCode :
    (let s := given (args 64 193) machine; memSize s.par < s.arg0 + s.arg1) ∧
    (let s := given (args 64 1) machine; s.arg0 + s.arg1 ≤ memSize s.par ∧ s.arg1 < bytesOfBits (8 + 1)) ∧
    (let s := given (args 64 2) machine; bytesOfBits (8 + 1) ≤ s.arg1 ∧ s.raced = []) ∧
    (let s := given (args 64 1) machine; bytesOfBits (2 + 1) ≤ s.arg1) := by decide

theorem witness_DflEncStartOpensAnEncoder :
    (let s := given (args 64 16 96 161) machine; memSize s.par < s.arg2 + s.arg3) ∧
    (let s := given (args 64 16 79 4) machine
     s.arg0 + s.arg1 ≤ memSize s.par ∧ s.arg2 + s.arg3 ≤ memSize s.par ∧ SharesByte s.arg0 s.arg1 s.arg2 s.arg3) ∧
    (let s := given (args 64 16 80 4) machine
     s.arg0 + s.arg1 ≤ memSize s.par ∧ s.arg2 + s.arg3 ≤ memSize s.par ∧ ¬ SharesByte s.arg0 s.arg1 s.arg2 s.arg3) := by
  simp only [← shareByte_iff]
  decide

/-! ### Witnesses: FEED -/

theorem witness_FeedChecksItsOperands :
    machine.ses.mode = .none ∧
    (let s := given (args 250 7) dflDecoder; s.ses.mode ≠ .none ∧ memSize s.par < s.arg0 + s.arg1) ∧
    (let s := given (args 79 2) dflDecoder; s.arg0 + s.arg1 ≤ memSize s.par ∧
      SharesByte s.arg0 s.arg1 s.ses.outBase.toNat s.ses.outCap.toNat) ∧
    (let s := given (args 90 7) dflEncoder; s.ses.mode ≠ .none ∧
      SharesByte s.arg0 s.arg1 s.ses.histBase.toNat s.ses.histCap.toNat) := by
  simp only [← shareByte_iff]
  decide

theorem witness_FeedAfterTheEnd :
    (let s := sessionDone (given (args 0 2) dflDecoder); FeedAccepted s ∧ s.ses.sstate = .done) ∧
    (let s := markSessionError Err.blockType (given (args 0 2) dflDecoder); FeedAccepted s ∧ s.ses.sstate = .error) := by
  simp only [feedAccepted_iff]
  decide

theorem witness_FeedReportsWhatItDid :
    (let s := given (args 80 16) dflDecoder; FeedAccepted s ∧ s.ses.sstate = .active) ∧
    (let s := given (args 0 64) lzwEncoder; FeedAccepted s ∧ s.ses.sstate = .active) := by
  simp only [feedAccepted_iff]
  decide

theorem dflEncoder_regions : RegionsOk dflEncoder := by unfold RegionsOk; decide

theorem lzwDecoder_regions : RegionsOk lzwDecoder := by unfold RegionsOk; decide

theorem lzwDecoder_ok : LzwDecOk lzwDecoder := by unfold LzwDecOk; decide

theorem witness_FeedStoresOnlyWhatItAdds :
    let s := given (args 0 3) dflEncoder
    RegionsOk s ∧ FeedAccepted s ∧ s.ses.sstate = .active :=
  ⟨dflEncoder_regions, (feedAccepted_iff _).mpr (by decide), by decide⟩

theorem witness_FeedWithoutAWholeUnit :
    let s := given (args 0 1) (holding 0 [0x00] lzwDecoder)
    FeedAccepted s ∧ s.ses.sstate = .active ∧ s.ses.isDecoder ∧
    decodeUnit (startCommand s) ⟨s.arg0, s.arg1⟩ s.ses.bitpos.toNat = .needMore :=
  ⟨(feedAccepted_iff _).mpr (by decide), by decide, .inl (by decide), by decide⟩

theorem witness_FragmentationInvariance :
    let s := given (args 0 3) lzwDecoder
    s.raced = [] ∧ RegionsOk s ∧ LzwDecOk s ∧ FeedAccepted s ∧ s.ses.sstate = .active ∧ s.ses.isDecoder ∧
    2 ≤ s.arg1 :=
  ⟨by decide, lzwDecoder_regions, lzwDecoder_ok, (feedAccepted_iff _).mpr (by decide), by decide,
    .inl (by decide), by decide⟩

theorem witness_CompleteEndsTheSession :
    (let s := given (args 0 3) lzwDecoder; FeedAccepted s ∧ s.ses.sstate = .active) ∧
    (let s := given (args 0 1) (holding 0 [1] lzwEncoder)
     FeedAccepted s ∧ s.ses.sstate = .active ∧ s.ses.isEncoder = true ∧
     (after (.feed true) s).status.err = false) := by
  simp only [feedAccepted_iff]
  decide +kernel

/-- 45 R346, R347: nine bits and a rest that lacks bits: consumed 1, S_BITPOS 1, and 0x0601 with COMPLETE = 1. -/
theorem witness_CompleteEndsTheSession_decoder :
    (let s := given (args 0 2) (holding 0 [0x00, 0x01] lzwDecoder)
     FeedAccepted s ∧ s.ses.sstate = .active ∧ s.ses.isDecoder ∧ LzwDecOk s ∧
     (match decodeLoop ⟨s.arg0, s.arg1⟩ (8 * s.arg1 + 1) s.ses.bitpos.toNat (startCommand s) with
       | .stopped u c => (u.ses.sstate, c)
       | .raised u _ c => (u.ses.sstate, c)) = (.active, 9)) ∧
    (let t := after (.feed true) (given (args 0 2) (holding 0 [0x00, 0x01] lzwDecoder))
     (t.res0, t.errDetail, t.ses.sstate) = (1, 0x0601, .error)) :=
  ⟨⟨(feedAccepted_iff _).mpr (by decide), by decide, .inl (by decide), lzwDecoder_ok, by decide +kernel⟩, by decide +kernel⟩

/-- 45 R346: the four ways a run of parse units goes on or ends: a block header and then no input, an undefined block
type, and a session that is not ACTIVE. -/
theorem test_decodeSteps :
    DecodeSteps ⟨0, 0⟩ 0 dflDecoder (.stopped dflDecoder 0) ∧
    DecodeSteps ⟨0, 1⟩ 0 (holding 0 [0x07] dflDecoder) (.raised (holding 0 [0x07] dflDecoder) Err.blockType 0) ∧
    DecodeSteps ⟨0, 0⟩ 3 machine (.stopped machine 3) ∧
    ∃ t, DecodeSteps ⟨0, 1⟩ 5 (holding 0 [0x80] dflDecoder) (.stopped t 8) ∧ t.df.p = .dynCounts :=
  ⟨.needMore _ _ (by decide) (by decide), .raised _ _ _ _ (by decide) (by decide), .ended _ _ (by decide),
   _, .completed 5 8 _ _ _ (by decide) (by decide : _ = UnitResult.completed (State.setDf (holding 0 [0x80] dflDecoder)
     { dflDecoder.df with final := false, p := .dynCounts }) 8) (.needMore _ _ (by decide) (by decide)), rfl⟩

/-- The other ends of the decoder's loop: 43 R246 `03 00` is an empty fixed block, ten bits to DONE (44 R300), and 43 R260
`07` an undefined block type at cursor 0. -/
theorem witness_CompleteEndsTheSession_ends :
    (let s := given (args 0 2) (holding 0 [0x03, 0x00] dflDecoder)
     FeedAccepted s ∧ s.ses.sstate = .active ∧ s.ses.isDecoder ∧
     (match decodeLoop ⟨s.arg0, s.arg1⟩ (8 * s.arg1 + 1) s.ses.bitpos.toNat (startCommand s) with
       | .stopped u c => (u.ses.sstate, c)
       | .raised u _ c => (u.ses.sstate, c)) = (.done, 10)) ∧
    (let s := given (args 0 1) (holding 0 [0x07] dflDecoder)
     (match decodeLoop ⟨s.arg0, s.arg1⟩ (8 * s.arg1 + 1) s.ses.bitpos.toNat (startCommand s) with
       | .stopped _ c => (none, c)
       | .raised _ e c => (some e, c)) = (some Err.blockType, 0)) :=
  ⟨⟨(feedAccepted_iff _).mpr (by decide), by decide, .inr (by decide), by decide +kernel⟩, by decide +kernel⟩

/-- 44 R299: "!" in stored mode gives `01 01 00 fe ff 21`. -/
def storedEncoder (cap : Word) : State :=
  let s := sessionStart .dflEnc .lsb 0 64 cap 0 machine
  given (args 0 1) (holding 0 [0x21] { s with ses := { s.ses with histBase := 96, histCap := 4 } })

theorem witness_CompleteEndsTheSession_encoder :
    (let s := storedEncoder 6
     s.raced = [] ∧ RegionsOk s ∧ SessionShapeOk s ∧ FeedAccepted s ∧ s.ses.sstate = .active ∧ s.ses.mode = .dflEnc ∧
     s.arg1 ≤ s.ses.histCap.toNat - s.ses.histLen.toNat ∧
     OutFits s (storedBits 0 [0x21]).length ∧ ¬ OutFits (storedEncoder 5) (storedBits 0 [0x21]).length) ∧
    (after (.feed true) (storedEncoder 6)).mem =
      [(0, 0x21), (64, 0x01), (65, 0x01), (66, 0x00), (67, 0xFE), (68, 0xFF), (69, 0x21), (96, 0x21)] := by
  simp only [feedAccepted_iff, SessionShapeOk, ← shareByte_iff, RegionsOk, OutFits]
  decide +kernel

theorem witness_DecoderLoopIsNotCutShort :
    let s := given (args 0 3) (holding 0 [0x00, 0x03, 0x02] lzwDecoder)
    LzwDecOk s ∧ (match decodeLoop ⟨0, 3⟩ 25 0 s with
      | .stopped t c => (t.ses.sstate, c)
      | .raised t _ c => (t.ses.sstate, c)) = (.done, 18) :=
  ⟨lzwDecoder_ok, by decide +kernel⟩

/-! ### Witnesses: parse units and encoder steps -/

/-- 42 R205: after codes 256 and 97, code 258 is the next to be assigned. -/
def afterOneCode : State := { lzwDecoder with lz := { lzwDecoder.lz with prev := some 97 } }

theorem witness_LzwCodeDecodes :
    inField (holding 0 [0x00, 0x01] lzwDecoder) ⟨0, 2⟩ 9 0 = .got 256 9 ∧
    inField (holding 0 [0x01, 0x01] lzwDecoder) ⟨0, 2⟩ 9 0 = .got 257 9 ∧
    (let s := holding 0 [0x02, 0x01] lzwDecoder; inField s ⟨0, 2⟩ s.lz.width 0 = .got 258 9 ∧ 258 = s.lz.size ∧
      s.lz.prev = none) ∧
    (let s := holding 0 [0x02, 0x01] afterOneCode; inField s ⟨0, 2⟩ s.lz.width 0 = .got 258 9 ∧ 258 = s.lz.size ∧
      s.lz.prev = some 97 ∧ [97, 97] = s.lzwStr 97 ++ (s.lzwStr 97).take 1 ∧ s.lz.size ≠ 4096 ∧
      s.ses.outLen.toNat + 2 ≤ s.ses.outCap.toNat) ∧
    (let s := { afterOneCode with lz := { afterOneCode.lz with size := 4096 } }
     97 < s.lz.size ∧ s.lz.prev ≠ none ∧ s.lz.size = 4096) ∧
    (let s := { afterOneCode with ses := { afterOneCode.ses with outLen := 15 } }
     s.ses.outLen.toNat ≤ s.ses.outCap.toNat ∧ s.ses.outCap.toNat < s.ses.outLen.toNat + 2) := by decide +kernel

/-- 42 R201: "`80 40 40` read MSB-first is 256, 257" in fields of nine bits, and a field past the end of the input. -/
theorem witness_LzwCodeDecodes_msb :
    let s := holding 0 [0x80, 0x40, 0x40] { lzwDecoder with ses := { lzwDecoder.ses with ord := .msb } }
    inField s ⟨0, 3⟩ 9 0 = .got 256 9 ∧ inField s ⟨0, 3⟩ 9 9 = .got 257 18 ∧ 9 + 9 ≤ 8 * 3 ∧ 8 * 3 < 18 + 9 ∧ s.raced = [] ∧
    inField s ⟨0, 3⟩ s.lz.width 18 = .needMore := by decide +kernel

theorem test_lzwStr_clear_end :
    let s := { afterOneCode with lz := { afterOneCode.lz with size := 259, strs := [[97, 97]] } }
    s.lzwStr 256 = [] ∧ s.lzwStr 257 = [] ∧ s.lzwStr 258 = [97, 97] := by decide

theorem witness_DecodeSymReadsOneSymbol :
    let s := holding 0 [0x03] dflDecoder
    min (8 * 1 - 0) (exampleTable.maxw + 1) = 4 ∧
    exampleTable.lookup (fieldValue .msb ((List.range 4).map fun j => s.bitAt [0 + j] s.ses.ord 0 (0 + j))) 4 =
      .found 2 3 := by decide +kernel

theorem witness_BlockHeader :
    (dflDecoder.raced = [] ∧ dflDecoder.ses.ord = .lsb ∧ dflDecoder.df.p = .header) ∧ 8 * 1 < 6 + 3 ∧ 5 + 3 ≤ 8 * 1 ∧
    (let s := holding 0 [0x07, 0x01, 0x03, 0x05] dflDecoder
     (s.streamBit .lsb 0 1, s.streamBit .lsb 0 2) = (true, true) ∧
     (s.streamBit .lsb 0 9, s.streamBit .lsb 0 10) = (false, false) ∧
     (s.streamBit .lsb 0 17, s.streamBit .lsb 0 18) = (true, false) ∧
     (s.streamBit .lsb 0 25, s.streamBit .lsb 0 26) = (false, true)) := by decide +kernel

theorem witness_StoredBlock :
    (let s := holding 0 [0x01, 0x01, 0x00, 0xFE, 0xFF, 0x21] (dflDecoder.setDf { DflDec.unused with p := .storedLen })
     s.raced = [] ∧ s.ses.ord = .lsb ∧ s.df.p = .storedLen ∧ 4 < (3 + 7) / 8 + 4 ∧ (3 + 7) / 8 + 4 ≤ 6 ∧
     (s.hostByte 1).toNat + 256 * (s.hostByte 2).toNat = 1 ∧
     (s.hostByte 3).toNat + 256 * (s.hostByte 4).toNat = 65535 - 1) ∧
    (let s := holding 0 [0x01, 0x00, 0x00, 0xFF, 0xFF] (dflDecoder.setDf { DflDec.unused with p := .storedLen, final := true })
     (s.hostByte 1).toNat + 256 * (s.hostByte 2).toNat = 0 ∧
     (s.hostByte 3).toNat + 256 * (s.hostByte 4).toNat = 65535 - 0 ∧ s.df.final = true) ∧
    (let s := holding 0 [0x21] (dflDecoder.setDf { DflDec.unused with p := .storedData, remaining := 1 })
     s.df.p = .storedData ∧ 1 ≤ s.df.remaining ∧ 0 < 1 ∧ s.ses.outLen.toNat < s.ses.outCap.toNat ∧
     s.df.remaining = 1 ∧ s.df.final = false ∧ 8 * 1 < 1 + 8) ∧
    (let s := dflDecoder.setDf { DflDec.unused with p := .storedData, remaining := 2, final := true }
     2 ≤ s.df.remaining ∧ { s with ses := { s.ses with outLen := 16 } }.ses.outLen = s.ses.outCap) := by decide +kernel

theorem witness_BackReferenceCopies :
    let s := { dflDecoder with ses := { dflDecoder.ses with outLen := 1 } }
    s.raced = [] ∧ 1 ≤ s.ses.outLen.toNat ∧ s.ses.outLen.toNat + 15 ≤ s.ses.outCap.toNat ∧
    s.ses.outLen.toNat ≤ s.ses.outCap.toNat ∧ s.ses.outCap.toNat < s.ses.outLen.toNat + 16 := by decide

/-- A BODY whose literal/length table gives symbols 65, 256, 257 and 286 the codes 0, 10, 110, 111, and whose distance
table gives symbols 0 and 30 the codes 0 and 1. -/
def body : State :=
  let lit : HufTable := ⟨(List.range 287).map fun s =>
    if s = 65 then ⟨1, 0⟩ else if s = 256 then ⟨2, 2⟩ else if s = 257 then ⟨3, 6⟩ else if s = 286 then ⟨3, 7⟩ else ⟨0, 0⟩, 3⟩
  let dist : HufTable := ⟨(List.range 31).map fun s => if s = 0 then ⟨1, 0⟩ else if s = 30 then ⟨1, 1⟩ else ⟨0, 0⟩, 1⟩
  dflDecoder.setDf { DflDec.unused with p := .body, lit := lit, dist := dist }

theorem witness_BlockBody :
    body.df.p = .body ∧ decodeSym (holding 0 [0x00] body) ⟨0, 1⟩ body.df.lit 0 = .got 65 1 ∧
    body.ses.outLen.toNat < body.ses.outCap.toNat ∧
    decodeSym (holding 0 [0x01] body) ⟨0, 1⟩ body.df.lit 0 = .got 256 2 ∧
    decodeSym (holding 0 [0x07] body) ⟨0, 1⟩ body.df.lit 0 = .got 286 3 ∧
    (let s := holding 0 [0x0B] body
     decodeSym s ⟨0, 1⟩ s.df.lit 0 = .got 257 3 ∧ inField s ⟨0, 1⟩ (lenExtra 257) 3 = .got 0 3 ∧
     decodeSym s ⟨0, 1⟩ s.df.dist 3 = .got 30 4) ∧
    (let s := holding 0 [0x03] body
     decodeSym s ⟨0, 1⟩ s.df.dist 3 = .got 0 4 ∧ inField s ⟨0, 1⟩ (distExtra 0) 4 = .got 0 4 ∧
     s.ses.outLen.toNat < distBase 0 + 0 ∧
     (let u := holding 64 [9] { s with ses := { s.ses with outLen := 1 } }
      distBase 0 + 0 ≤ u.ses.outLen.toNat ∧ (match copyBack (distBase 0 + 0) (lenBase 257 + 0) u with
        | .ok _ => true
        | .fail _ _ => false) = true) ∧
     (let u := holding 78 [9, 9] { s with ses := { s.ses with outLen := 15 } }
      (match copyBack (distBase 0 + 0) (lenBase 257 + 0) u with
        | .ok _ => none
        | .fail _ e => some e) = some Err.outputFull)) := by decide +kernel

/-- A BODY whose one literal/length symbol 265 and one distance symbol 4 have the code 0; each has one extra bit. -/
def shortBody : State :=
  dflDecoder.setDf { DflDec.unused with
    p := .body, lit := ⟨(List.range 266).map fun s => if s = 265 then ⟨1, 0⟩ else ⟨0, 0⟩, 1⟩,
    dist := ⟨(List.range 5).map fun s => if s = 4 then ⟨1, 0⟩ else ⟨0, 0⟩, 1⟩ }

/-- Input that ends before each of the four reads of a unit, and two bits that are no code at each of its symbols. -/
theorem witness_BlockBody_reads :
    (let s := holding 0 [0x00] shortBody
     s.df.p = .body ∧ decodeSym s ⟨0, 1⟩ s.df.lit 8 = .needMore ∧
     decodeSym s ⟨0, 1⟩ s.df.lit 7 = .got 265 8 ∧ inField s ⟨0, 1⟩ (lenExtra 265) 8 = .needMore ∧
     inField s ⟨0, 1⟩ (lenExtra 265) 7 = .got 0 8 ∧ decodeSym s ⟨0, 1⟩ s.df.dist 8 = .needMore ∧
     decodeSym s ⟨0, 1⟩ s.df.dist 7 = .got 4 8 ∧ inField s ⟨0, 1⟩ (distExtra 4) 8 = .needMore) ∧
    (let s := holding 0 [0x0F] shortBody
     decodeSym s ⟨0, 1⟩ s.df.lit 0 = .bad (Err.ofDetail 0x0101) ∧
     decodeSym s ⟨0, 1⟩ s.df.dist 2 = .bad (Err.ofDetail 0x0101)) := by decide +kernel

/-- 43 R254: 11110 with a sixth bit, and the same five bits at the end of the input. -/
theorem witness_BlockBody_fixed :
    (let s := holding 0 [0x3C] dflDecoder
     s.raced = [] ∧ s.ses.ord = .lsb ∧ (∀ k < 4, s.streamBit .lsb 0 (2 + k) = true) ∧ 2 + 6 ≤ 8 * 1 ∧
     decodeSym s ⟨0, 1⟩ fixedDist 2 = .bad (Err.ofDetail 0x0101)) ∧
    (let s := holding 0 [0x78] dflDecoder
     (∀ k < 4, s.streamBit .lsb 0 (3 + k) = true) ∧ 8 * 1 < 3 + 6 ∧
     decodeSym s ⟨0, 1⟩ fixedDist 3 = .needMore) := by decide +kernel

theorem witness_LzwEncoderByte :
    (2 ^ lzwEncoder.ses.lit.toNat ≤ (4 : Byte).toNat ∧ (3 : Byte).toNat < 2 ^ lzwEncoder.ses.lit.toNat ∧
      lzwEncoder.le.w = none) ∧
    (let s := { lzwEncoder with le := { lzwEncoder.le with w := some 1, map := [⟨1, 2, 6⟩] } }
     s.le.find 1 2 = some 6 ∧ s.le.find 1 3 = none ∧ s.le.size < 4096 ∧ 1 ≤ s.le.dwidth ∧ s.le.dprev = false ∧
     (match outAppendField 1 s.le.dwidth s with
       | .ok _ => true
       | .fail _ _ => false) = true) ∧
    (let s := { lzwEncoder with ses := { lzwEncoder.ses with outBits := 128 } }
     ¬ OutFits s s.le.dwidth ∧ ¬ OutFits s s.nextCodeWidth) ∧
    OutFits lzwEncoder 32 ∧
    ¬ OutFits { lzwEncoder with ses := { lzwEncoder.ses with outBits := 0xFFFFFFF0, outCap := 0xFFFFFFFF } } 16 ∧
    (let s := { lzwEncoder with le := { lzwEncoder.le with w := some 1, size := 4096, dwidth := 12 } }
     4096 ≤ s.le.size ∧ s.le.find 1 3 = none ∧ 1 ≤ s.le.dwidth ∧ s.nextCodeWidth = 12 ∧
     (match (outAppendField 1 12 s).andThen (outAppendField (2 ^ s.ses.lit.toNat) 12) with
       | .ok _ => true
       | .fail _ _ => false) = true) := by
  unfold OutFits
  decide +kernel

/-- 42 R223, 45 R348: a byte inside the alphabet of L = 2 and then one outside it: consumed 1. -/
theorem witness_LzwEncoderByte_feed :
    (let s := given (args 0 2) (holding 0 [0x01, 0x04] lzwEncoder)
     s.raced = [] ∧ RegionsOk s ∧ FeedAccepted s ∧ s.ses.sstate = .active ∧ s.ses.mode = .lzwEnc) ∧
    (let t := after (.feed true) (given (args 0 2) (holding 0 [0x01, 0x04] lzwEncoder))
     (t.res0, t.errDetail, t.ses.sstate) = (1, 0x0905, .error)) ∧
    (let t := after (.feed true) (given (args 0 1) (holding 0 [0x00] lzwEncoder))
     (t.res0, t.mem, t.ses.outBits, t.ses.sstate) = (1, [(0, 0x00), (64, 0x44), (65, 0x01)], 9, .done)) := by
  simp only [feedAccepted_iff, RegionsOk]
  decide +kernel

/-- 42 R226, the finish: a match of one byte 0 (code 0) and the end code 5, three bits each, after the clear code 4. -/
theorem test_lzwEncFinish :
    (match lzwEncFinish { lzwEncoder with le := { lzwEncoder.le with w := some 0 } } with
      | .ok t => (t.mem, t.ses.outBits, t.ses.sstate)
      | .fail t _ => (t.mem, t.ses.outBits, t.ses.sstate)) = ([(64, 0x44), (65, 0x01)], 9, .done) := by decide +kernel

theorem witness_DflEncoderKeepsItsInput :
    (let s := given (args 0 4) dflEncoder
     s.raced = [] ∧ RegionsOk s ∧ FeedAccepted s ∧ s.ses.sstate = .active ∧ s.ses.mode = .dflEnc ∧
     4 = min s.arg1 (s.ses.histCap.toNat - s.ses.histLen.toNat) ∧ 4 = s.arg1) ∧
    (let s := given (args 0 5) dflEncoder
     RegionsOk s ∧ FeedAccepted s ∧ 4 = min s.arg1 (s.ses.histCap.toNat - s.ses.histLen.toNat) ∧ 4 < s.arg1) :=
  ⟨⟨by decide, dflEncoder_regions, (feedAccepted_iff _).mpr (by decide), by decide, by decide, by decide, by decide⟩,
   dflEncoder_regions, (feedAccepted_iff _).mpr (by decide), by decide, by decide⟩

/-! ### Witnesses: whole-machine rules and invariants -/

theorem witness_OnlyTheirCommandsChangeThem :
    (stepped (facing (.regWrite 4 4 7) machine)).map (·.arg.a0) = some 7 ∧
    (stepped (given (args 16 2) (accepted 0x101 machine))).map (·.bs.valid) = some true ∧
    (stepped (given (args 64 16) (accepted 0x30 machine))).map (·.ses.mode) = some .dflDec ∧
    (stepped (given (args 0 4) (holding 0 [2, 1, 3, 3] (accepted 0x10 machine)))).map (·.huf[0].valid) = some true := by
  decide +kernel

theorem witness_FailingCommandsChangeNothingElse :
    (after (.bsAppend 0) machine).status.err = true ∧
    (after (.hufBuildCanon 0) (given (args 0 1) (holding 0 [17] (coded machine)))).status.err = true := by decide +kernel

theorem machine_inv : MemoryOk machine ∧ RegionsOk machine ∧ StatusOk machine ∧ RacesOk machine ∧ SlotsOk machine ∧
    LzwDecOk machine ∧ DflDecOk machine := by
  refine ⟨?_, ?_, ?_, ?_, ?_, ?_, ?_⟩
  · unfold MemoryOk; decide
  · unfold RegionsOk; decide
  · refine ⟨?_, ?_⟩
    · unfold ErrorFieldsOk; decide
    · unfold SessionCtrlOk; decide
  · unfold RacesOk RacedOnce; decide
  · intro k hk
    have h : ∀ k : Fin 4, machine.huf[k].valid = false := by decide
    rw [h k] at hk
    cases hk
  · intro h; cases h
  · intro h; cases h

theorem witness_StepKeepsMemoryAndRegions :
    MemoryOk machine ∧ RegionsOk machine ∧ SessionShapeOk machine ∧
    (stepped (facing (.memWrite 255 7) machine)).map (·.mem) = some [(255, 7)] :=
  ⟨machine_inv.1, machine_inv.2.1, by simp only [SessionShapeOk, ← shareByte_iff]; decide, by decide⟩

theorem witness_StepKeepsStatusFields :
    StatusOk machine ∧ RacesOk machine ∧ (stepped (facing (.regWrite 0 4 3) machine)).map (·.busy) = some true :=
  ⟨machine_inv.2.2.1, machine_inv.2.2.2.1, by decide⟩

theorem witness_StepKeepsSlotsPrefixFree :
    SlotsOk machine ∧ (stepped (facing .wait machine)).isSome = true := ⟨machine_inv.2.2.2.2.1, by decide⟩

theorem witness_StepKeepsDecoderState :
    LzwDecOk machine ∧ DflDecOk machine ∧ (stepped (facing .wait machine)).isSome = true :=
  ⟨machine_inv.2.2.2.2.2.1, machine_inv.2.2.2.2.2.2, by decide⟩

theorem lzwEncoder_ok : LzwEncOk lzwEncoder := by unfold LzwEncOk; decide +kernel

/-- An LZW encoder session right after its start takes a FEED of the pair (1, 3) and defines code 6 for it. -/
theorem witness_StepKeepsDecoderState_encoder :
    let s := given (args 0 2) (holding 0 [0x01, 0x03] (accepted 0x40 lzwEncoder))
    s.ses.mode = .lzwEnc ∧ LzwEncOk s ∧ (stepped s).map (·.le.w) = some (some 3) ∧
    (stepped s).map (·.le.size) = some 7 :=
  ⟨by decide +kernel, lzwEncoder_ok, by decide +kernel, by decide +kernel⟩

end Sys2Proof.Tests
end

section
/-! SUPPORT. Huffman tables over an association list of codes: when the table is sized and PrefixFree (10 R46, 41 R161). -/

namespace Sys2Proof.Machine

/-! ### Codes of an association list -/

/-- The bits of `c` begin the bits of `d`. -/
def HufCode.PrefixOf (c d : HufCode) : Prop := c.width ≤ d.width ∧ d.code >>> (d.width - c.width) = c.code

/-- Every code fits its width, and no symbol's code begins the code of another symbol. -/
structure CodesOk (coded : List (Nat × HufCode)) : Prop where
  fit : ∀ p ∈ coded, p.2.code < 2 ^ p.2.width
  free : ∀ p ∈ coded, ∀ q ∈ coded, p.1 ≠ q.1 → ¬ p.2.PrefixOf q.2

theorem foldl_max_le_iff (ws : List Nat) (a m : Nat) : ws.foldl max a ≤ m ↔ a ≤ m ∧ ∀ w ∈ ws, w ≤ m := by
  induction ws generalizing a with
  | nil => simp
  | cons w rest ih => simp [ih, and_assoc]

theorem maxWidth_le_iff (ws : List Nat) (m : Nat) : maxWidth ws ≤ m ↔ ∀ w ∈ ws, w ≤ m := by
  simp [maxWidth, foldl_max_le_iff]

theorem le_maxWidth {ws : List Nat} {w : Nat} (h : w ∈ ws) : w ≤ maxWidth ws :=
  (maxWidth_le_iff ws _).mp le_rfl w h

/-! ### The table of an association list -/

@[simp] theorem tableOf_n (n : Nat) (coded : List (Nat × HufCode)) : (tableOf n coded).n = n := by
  simp [tableOf, HufTable.n]

theorem tableOf_maxw (n : Nat) (coded : List (Nat × HufCode)) :
    (tableOf n coded).maxw = maxWidth (tableOf n coded).widths := rfl

theorem tableOf_entry {n s : Nat} (coded : List (Nat × HufCode)) (h : s < n) :
    (tableOf n coded).entry s = (coded.lookup s).getD ⟨0, 0⟩ := by
  simp [tableOf, HufTable.entry, h]

theorem mem_of_lookup {α : Type} {coded : List (Nat × α)} {s : Nat} {c : α} (h : coded.lookup s = some c) :
    (s, c) ∈ coded := by
  obtain ⟨l, r, rfl, -⟩ := List.lookup_eq_some_iff.mp h
  simp

/-- A symbol of the table has the empty code or one of the codes of the list. -/
theorem tableOf_entry_cases {n s : Nat} (coded : List (Nat × HufCode)) (h : s < n) :
    (tableOf n coded).entry s = ⟨0, 0⟩ ∨ (s, (tableOf n coded).entry s) ∈ coded := by
  rw [tableOf_entry coded h]
  cases hl : coded.lookup s with
  | none => exact .inl rfl
  | some c => exact .inr (mem_of_lookup hl)

theorem tableOf_maxw_le {coded : List (Nat × HufCode)} {m : Nat} (h : ∀ p ∈ coded, p.2.width ≤ m) (n : Nat) :
    (tableOf n coded).maxw ≤ m := by
  refine (maxWidth_le_iff _ _).mpr fun w hw => ?_
  simp only [List.map_map, List.mem_map, Function.comp] at hw
  obtain ⟨s, -, rfl⟩ := hw
  cases hl : coded.lookup s with
  | none => exact Nat.zero_le _
  | some c => exact h _ (mem_of_lookup hl)

theorem tableOf_prefixFree {coded : List (Nat × HufCode)} (h : CodesOk coded) (n : Nat) :
    PrefixFree (tableOf n coded) := by
  intro a b ha hb hne hpos hle heq
  rw [tableOf_n] at ha hb
  have hb0 : (tableOf n coded).entry b ≠ ⟨0, 0⟩ := fun e => by rw [e] at hle; exact absurd hpos (by simpa using hle)
  have ha0 : (tableOf n coded).entry a ≠ ⟨0, 0⟩ := fun e => by rw [e] at hpos; exact absurd hpos (by simp)
  exact h.free _ ((tableOf_entry_cases coded ha).resolve_left ha0) _ ((tableOf_entry_cases coded hb).resolve_left hb0)
    hne ⟨hle, heq⟩

/-- The table of a list of codes of widths at most 16 is sized. -/
theorem tableOf_sized {n : Nat} {coded : List (Nat × HufCode)} (h : CodesOk coded) (hlo : 1 ≤ n) (hhi : n ≤ 288)
    (hw : (tableOf n coded).maxw ≤ 16) : TableSized (tableOf n coded) := by
  refine ⟨by simpa using hlo, by simpa using hhi, tableOf_maxw n coded, fun s hs => ⟨?_, ?_⟩⟩
  · refine (le_maxWidth ?_).trans hw
    rw [HufTable.n] at hs
    refine List.mem_map_of_mem ?_
    simp only [HufTable.entry, List.getD_eq_getElem?_getD, List.getElem?_eq_getElem hs, Option.getD_some]
    exact List.getElem_mem hs
  · rw [tableOf_n] at hs
    rcases tableOf_entry_cases coded hs with e | e
    · rw [e]; exact Nat.one_pos
    · exact h.fit _ e

end Sys2Proof.Machine
end

section
/-! SUPPORT. Canonical construction (41 R162): the codes take consecutive intervals of the 16-bit code space. -/

namespace Sys2Proof.Machine

/-! ### Codes as intervals of the code space -/

/-- The first 16-bit value whose top bits are the code. -/
def HufCode.low (c : HufCode) : Nat := c.code * 2 ^ (Config.hufMaxWidth - c.width)

/-- The first 16-bit value past those whose top bits are the code. -/
def HufCode.high (c : HufCode) : Nat := (c.code + 1) * 2 ^ (Config.hufMaxWidth - c.width)

/-- A code's interval lies in the interval of a code it begins with. -/
theorem HufCode.PrefixOf.nested {c d : HufCode} (h : c.PrefixOf d) (hd : d.width ≤ Config.hufMaxWidth) :
    c.low ≤ d.low ∧ d.high ≤ c.high := by
  obtain ⟨hw, hc⟩ := h
  have hp : 2 ^ (Config.hufMaxWidth - c.width) = 2 ^ (d.width - c.width) * 2 ^ (Config.hufMaxWidth - d.width) := by
    rw [← pow_add]; congr 1; omega
  have hdiv : c.code = d.code / 2 ^ (d.width - c.width) := by rw [← hc, Nat.shiftRight_eq_div_pow]
  simp only [HufCode.low, HufCode.high, hp, ← mul_assoc]
  constructor
  · refine Nat.mul_le_mul_right _ ?_
    rw [hdiv]
    exact Nat.div_mul_le_self _ _
  · refine Nat.mul_le_mul_right _ ?_
    rw [hdiv, Nat.succ_le_iff, ← Nat.div_lt_iff_lt_mul (Nat.two_pow_pos _)]
    omega

theorem HufCode.low_lt_high (c : HufCode) : c.low < c.high :=
  Nat.mul_lt_mul_of_pos_right (Nat.lt_succ_self _) (Nat.two_pow_pos _)

/-- A code whose interval ends inside the code space fits its width. -/
theorem HufCode.code_lt_of_high_le {c : HufCode} (hw : c.width ≤ Config.hufMaxWidth)
    (h : c.high ≤ 2 ^ Config.hufMaxWidth) : c.code < 2 ^ c.width := by
  have hp : 2 ^ Config.hufMaxWidth = 2 ^ c.width * 2 ^ (Config.hufMaxWidth - c.width) := by
    rw [← pow_add]; congr 1; omega
  rw [hp] at h
  exact Nat.le_of_mul_le_mul_right h (Nat.two_pow_pos _)

/-! ### The assignment along the order -/

/-- The code that follows `prev` at width `w`. -/
def nextCode (prev : Option (Nat × Nat)) (w : Nat) : Nat :=
  match prev with
  | none => 0
  | some (c, pw) => (c + 1) <<< (w - pw)

theorem canonAssign_cons (prev : Option (Nat × Nat)) (w s : Nat) (rest : List (Nat × Nat)) :
    canonAssign prev ((w, s) :: rest) =
      (s, ⟨w, nextCode prev w⟩) :: canonAssign (some (nextCode prev w, w)) rest := by
  cases prev <;> rfl

/-- Where the next code's interval begins. -/
def nextLow : Option (Nat × Nat) → Nat
  | none => 0
  | some (c, pw) => HufCode.high ⟨pw, c⟩

/-- The part of the code space that the symbols of an order take. -/
def orderSpace (order : List (Nat × Nat)) : Nat := (order.map fun p => 2 ^ (Config.hufMaxWidth - p.1)).sum

/-- The code that follows `prev` at width `w` begins where the code `prev` ended. -/
theorem low_nextCode (prev : Option (Nat × Nat)) (w : Nat) (hw : w ≤ Config.hufMaxWidth) (hprev : ∀ p ∈ prev, p.2 ≤ w) :
    HufCode.low ⟨w, nextCode prev w⟩ = nextLow prev := by
  match prev with
  | none => simp [HufCode.low, nextLow, nextCode]
  | some (c, pw) =>
    have hle : pw ≤ w := hprev (c, pw) rfl
    simp only [HufCode.low, HufCode.high, nextLow, nextCode, Nat.shiftLeft_eq, mul_assoc, ← pow_add]
    congr 2
    omega

theorem high_eq_low_add (c : HufCode) : c.high = c.low + 2 ^ (Config.hufMaxWidth - c.width) := by
  simp [HufCode.high, HufCode.low, Nat.add_mul]

/-- The codes along an order of rising widths take consecutive intervals from `nextLow prev` on. -/
theorem canonAssign_intervals (order : List (Nat × Nat)) (prev : Option (Nat × Nat))
    (hw : ∀ p ∈ order, p.1 ≤ Config.hufMaxWidth) (hsorted : order.Pairwise fun p q => p.1 ≤ q.1)
    (hprev : ∀ c ∈ prev, ∀ p ∈ order, c.2 ≤ p.1) :
    (∀ p ∈ canonAssign prev order, p.2.width ≤ Config.hufMaxWidth ∧ nextLow prev ≤ p.2.low ∧
      p.2.high ≤ nextLow prev + orderSpace order) ∧
    (canonAssign prev order).Pairwise fun p q => p.2.high ≤ q.2.low := by
  induction order generalizing prev with
  | nil => simp [canonAssign]
  | cons x rest ih =>
    obtain ⟨w, s⟩ := x
    obtain ⟨hx, hrest⟩ := List.forall_mem_cons.mp hw
    obtain ⟨hxs, hsorted⟩ := List.pairwise_cons.mp hsorted
    have hlow := low_nextCode prev w hx fun p hp => hprev p hp _ List.mem_cons_self
    rw [canonAssign_cons]
    generalize nextCode prev w = c at hlow
    obtain ⟨hall, hpair⟩ := ih (some (c, w)) hrest hsorted (by simpa using fun a b h => hxs _ h)
    have hspace : orderSpace ((w, s) :: rest) = 2 ^ (Config.hufMaxWidth - w) + orderSpace rest := by simp [orderSpace]
    have hhigh := high_eq_low_add ⟨w, c⟩
    simp only [nextLow] at hall
    rw [hspace]
    refine ⟨?_, List.pairwise_cons.mpr ⟨fun p hp => (hall p hp).2.1, hpair⟩⟩
    rintro p (_ | ⟨_, hp⟩)
    · exact ⟨hx, hlow.ge, by simp only [hhigh, hlow]; omega⟩
    · obtain ⟨h1, h2, h3⟩ := hall p hp
      have := Nat.two_pow_pos (Config.hufMaxWidth - w)
      simp only at hhigh
      exact ⟨h1, by omega, by omega⟩

/-- Codes at disjoint intervals of the code space fit, and none begins another. -/
theorem codesOk_of_intervals {coded : List (Nat × HufCode)}
    (hin : ∀ p ∈ coded, p.2.width ≤ Config.hufMaxWidth ∧ p.2.high ≤ 2 ^ Config.hufMaxWidth)
    (hpair : coded.Pairwise fun p q => p.2.high ≤ q.2.low) : CodesOk coded := by
  refine ⟨fun p hp => HufCode.code_lt_of_high_le (hin p hp).1 (hin p hp).2, fun p hp q hq hne hpre => ?_⟩
  have hsymm : Std.Symm fun p q : Nat × HufCode => p.2.high ≤ q.2.low ∨ q.2.high ≤ p.2.low := ⟨fun _ _ => Or.symm⟩
  have hor : coded.Pairwise fun p q => p.2.high ≤ q.2.low ∨ q.2.high ≤ p.2.low := hpair.imp Or.inl
  have hdisj := hor.forall hp hq (fun e => hne (by rw [e]))
  have := hpre.nested (hin q hq).1
  have := p.2.low_lt_high
  have := q.2.low_lt_high
  omega

/-! ### The order -/

theorem mem_canonOrder {ws : List Nat} {p : Nat × Nat} :
    p ∈ canonOrder ws ↔ p ∈ ws.zipIdx ∧ 0 < p.1 ∧ p.1 ≤ Config.hufMaxWidth := by
  simp only [canonOrder, List.mem_flatMap, List.mem_range, List.mem_filter, beq_iff_eq]
  constructor
  · rintro ⟨j, hj, hp, h⟩; exact ⟨hp, by omega, by omega⟩
  · rintro ⟨hp, h0, h⟩; exact ⟨p.1 - 1, by omega, hp, by omega⟩

/-- The symbols of widths 1 .. n, width by width, are a rearrangement of those of width 1 .. n. -/
theorem flatMap_filter_perm (l : List (Nat × Nat)) (n : Nat) :
    ((List.range n).flatMap fun j => l.filter fun p => p.1 == j + 1).Perm
      (l.filter fun p => decide (0 < p.1) && decide (p.1 ≤ n)) := by
  induction n with
  | zero =>
    rw [List.filter_eq_nil_iff.mpr]
    · simp
    · intro p _; simp; omega
  | succ n ih =>
    rw [List.range_succ, List.flatMap_append, List.flatMap_singleton]
    refine (ih.append_right _).trans ?_
    refine List.Perm.trans (List.Perm.of_eq ?_)
      (List.filter_append_perm (fun p : Nat × Nat => decide (p.1 ≤ n)) _)
    simp only [List.filter_filter]
    congr 1 <;> refine List.filter_congr fun p _ => ?_
    · rw [Bool.eq_iff_iff]; simp; omega
    · rw [Bool.eq_iff_iff]; simp; omega

theorem canonOrder_perm (ws : List Nat) :
    (canonOrder ws).Perm (ws.zipIdx.filter fun p => decide (0 < p.1) && decide (p.1 ≤ Config.hufMaxWidth)) :=
  flatMap_filter_perm _ _

theorem canonOrder_sorted (ws : List Nat) : (canonOrder ws).Pairwise fun p q => p.1 ≤ q.1 := by
  refine List.pairwise_flatMap.mpr ⟨fun j _ => ?_, ?_⟩
  · refine List.pairwise_of_forall_mem_list fun p hp q hq => ?_
    simp only [List.mem_filter, beq_iff_eq] at hp hq
    omega
  · refine List.pairwise_lt_range.imp fun hlt p hp q hq => ?_
    simp only [List.mem_filter, beq_iff_eq] at hp hq
    omega

/-- The order takes as much of the code space as the Kraft sum says. -/
theorem orderSpace_canonOrder {ws : List Nat} (h : ∀ w ∈ ws, w ≤ Config.hufMaxWidth) :
    orderSpace (canonOrder ws) = kraftSum ws := by
  have hz : ws.filter (fun w => decide (0 < w)) =
      (ws.zipIdx.filter fun p => decide (0 < p.1) && decide (p.1 ≤ Config.hufMaxWidth)).map Prod.fst := by
    conv_lhs => rw [← List.zipIdx_map_fst 0 ws, List.filter_map]
    congr 1
    refine List.filter_congr fun p hp => ?_
    have := h p.1 (List.fst_mem_of_mem_zipIdx hp)
    simp [this]
  rw [orderSpace, ((canonOrder_perm ws).map _).sum_eq, kraftSum, hz, List.map_map]
  rfl

/-! ### The construction -/

/-- When the construction does not fail, and the table it gives (41 R162). -/
theorem canon_eq_ok_iff {ws : List Nat} {t : HufTable} :
    canon ws = .ok t ↔ (∀ w ∈ ws, w ≤ Config.hufMaxWidth) ∧ kraftSum ws ≤ 2 ^ Config.hufMaxWidth ∧
      t = tableOf ws.length (canonAssign none (canonOrder ws)) := by
  unfold canon
  split_ifs with h1 h2
  · simp only [List.any_eq_true, decide_eq_true_eq] at h1
    obtain ⟨w, hw, hlt⟩ := h1
    simp only [false_iff]
    exact fun h => absurd (h.1 w hw) (by omega)
  · simp only [false_iff]
    exact fun h => absurd h.2.1 (by omega)
  · simp only [List.any_eq_true, decide_eq_true_eq, not_exists, not_and, not_lt] at h1
    simp only [Except.ok.injEq]
    exact ⟨fun h => ⟨h1, by omega, h.symm⟩, fun h => h.2.2.symm⟩

theorem canonAssign_codesOk {ws : List Nat} (h : ∀ w ∈ ws, w ≤ Config.hufMaxWidth)
    (hk : kraftSum ws ≤ 2 ^ Config.hufMaxWidth) :
    CodesOk (canonAssign none (canonOrder ws)) ∧
      ∀ p ∈ canonAssign none (canonOrder ws), p.2.width ≤ Config.hufMaxWidth := by
  obtain ⟨hall, hpair⟩ := canonAssign_intervals (canonOrder ws) none (fun p hp => (mem_canonOrder.mp hp).2.2)
    (canonOrder_sorted ws) (by simp)
  rw [orderSpace_canonOrder h] at hall
  have hw : ∀ p ∈ canonAssign none (canonOrder ws), p.2.width ≤ Config.hufMaxWidth := fun p hp => (hall p hp).1
  refine ⟨codesOk_of_intervals (fun p hp => ⟨hw p hp, (hall p hp).2.2.trans ?_⟩) hpair, hw⟩
  simpa [nextLow] using hk

/-- The table of a construction over 1 to 288 widths is sized and PrefixFree (41 R161). -/
theorem canon_ok {ws : List Nat} {t : HufTable} (h : canon ws = .ok t) (hlo : 1 ≤ ws.length) (hhi : ws.length ≤ 288) :
    TableSized t ∧ PrefixFree t := by
  obtain ⟨hw, hk, rfl⟩ := canon_eq_ok_iff.mp h
  have hc := canonAssign_codesOk hw hk
  exact ⟨tableOf_sized hc.1 hlo hhi (tableOf_maxw_le hc.2 _), tableOf_prefixFree hc.1 _⟩

end Sys2Proof.Machine
end

section
/-! SUPPORT. Weighted construction (41 R164): no leaf's path begins another's in any node of the queue. -/

namespace Sys2Proof.Machine

/-! ### Merging two nodes -/

theorem mem_underParent {b : Nat} {leaves : List (Nat × HufCode)} {p : Nat × HufCode} :
    p ∈ underParent b leaves ↔ ∃ q ∈ leaves, p = (q.1, ⟨q.2.width + 1, q.2.code + b * 2 ^ q.2.width⟩) := by
  simp [underParent, eq_comm]

/-- A path begins another path under the same child as it does above it. -/
theorem shiftRight_underParent (b code k w : Nat) : (code + b * 2 ^ (w + k)) >>> k = code >>> k + b * 2 ^ w := by
  rw [Nat.shiftRight_eq_div_pow, Nat.shiftRight_eq_div_pow, pow_add, ← mul_assoc,
    Nat.add_mul_div_right _ _ (Nat.two_pow_pos k)]

/-- If a path begins another one, both go to the same child and their rests begin each other. -/
theorem prefixOf_underParent {c d : HufCode} {b b' : Nat} (hc : c.code < 2 ^ c.width) (hd : d.code < 2 ^ d.width)
    (h : HufCode.PrefixOf ⟨c.width + 1, c.code + b * 2 ^ c.width⟩ ⟨d.width + 1, d.code + b' * 2 ^ d.width⟩) :
    b = b' ∧ c.PrefixOf d := by
  obtain ⟨hw, he⟩ := h
  simp only [Nat.add_sub_add_right] at he
  obtain ⟨k, hk⟩ : ∃ k, d.width = c.width + k := ⟨d.width - c.width, by simp only at hw; omega⟩
  have hsub : c.width + k - c.width = k := by omega
  rw [hk, hsub, shiftRight_underParent] at he
  have hlt : d.code >>> k < 2 ^ c.width := by
    rw [Nat.shiftRight_eq_div_pow, Nat.div_lt_iff_lt_mul (Nat.two_pow_pos k), ← pow_add, ← hk]
    exact hd
  have hb : b = b' := by
    have hdiv := congrArg (· / 2 ^ c.width) he
    simpa [Nat.add_mul_div_right _ _ (Nat.two_pow_pos c.width), Nat.div_eq_of_lt hc, Nat.div_eq_of_lt hlt,
      eq_comm] using hdiv
  subst hb
  exact ⟨rfl, by omega, by rw [hk, hsub]; omega⟩

theorem mergeNodes_codesOk {x y : HufNode} (hx : CodesOk x.leaves) (hy : CodesOk y.leaves) (seq : Nat) :
    CodesOk (mergeNodes x y seq).leaves := by
  have hmem : ∀ p ∈ (mergeNodes x y seq).leaves, ∃ b q, (b = 0 ∧ q ∈ x.leaves ∨ b = 1 ∧ q ∈ y.leaves) ∧
      p = (q.1, ⟨q.2.width + 1, q.2.code + b * 2 ^ q.2.width⟩) ∧ q.2.code < 2 ^ q.2.width := by
    intro p hp
    rcases List.mem_append.mp hp with hp | hp <;> obtain ⟨q, hq, rfl⟩ := mem_underParent.mp hp
    · exact ⟨0, q, .inl ⟨rfl, hq⟩, rfl, hx.fit q hq⟩
    · exact ⟨1, q, .inr ⟨rfl, hq⟩, rfl, hy.fit q hq⟩
  constructor
  · intro p hp
    obtain ⟨b, q, hb, rfl, hq⟩ := hmem p hp
    have hb1 : b * 2 ^ q.2.width ≤ 1 * 2 ^ q.2.width := Nat.mul_le_mul_right _ (by omega)
    simp only [pow_succ]
    omega
  · intro p hp p' hp' hne hpre
    obtain ⟨b, q, hb, rfl, hq⟩ := hmem p hp
    obtain ⟨b', q', hb', rfl, hq'⟩ := hmem p' hp'
    obtain ⟨rfl, hrest⟩ := prefixOf_underParent hq hq' hpre
    rcases hb with ⟨rfl, hb⟩ | ⟨rfl, hb⟩
    · exact hx.free q hb q' (by simpa using hb') hne hrest
    · exact hy.free q hb q' (by simpa using hb') hne hrest

/-! ### The loop -/

theorem popLeast_perm (x : HufNode) (rest : List HufNode) :
    ((popLeast x rest).1 :: (popLeast x rest).2).Perm (x :: rest) := by
  induction rest generalizing x with
  | nil => rfl
  | cons y rest ih =>
    unfold popLeast
    split
    · exact (List.Perm.swap _ _ _).trans ((ih y).cons x)
    · exact (List.Perm.swap _ _ _).trans (((ih x).cons y).trans (List.Perm.swap _ _ _))

/-- One turn of the loop: the two least nodes, in order, and the nodes that stay. -/
theorem mergeAll_turn (fuel next : Nat) (x y : HufNode) (rest : List HufNode) :
    ∃ a b others, (a :: b :: others).Perm (x :: y :: rest) ∧
      mergeAll (fuel + 1) next (x :: y :: rest) = mergeAll fuel (next + 1) (mergeNodes a b next :: others) := by
  have hp := popLeast_perm x (y :: rest)
  simp only [mergeAll]
  split
  · next h => rw [h] at hp; simpa using hp.length_eq
  · next z zs h =>
    rw [h] at hp
    exact ⟨_, _, _, ((popLeast_perm z zs).cons _).trans hp, rfl⟩

/-- The loop leaves at most one node, in which no leaf's path begins another's. -/
theorem mergeAll_codesOk (fuel next : Nat) (q : List HufNode) (hlen : q.length ≤ fuel + 1)
    (hq : ∀ x ∈ q, CodesOk x.leaves) : CodesOk ((mergeAll fuel next q).flatMap HufNode.leaves) := by
  induction fuel generalizing next q with
  | zero =>
    match q, hlen with
    | [], _ => exact ⟨by simp [mergeAll], by simp [mergeAll]⟩
    | [x], _ => simpa [mergeAll] using hq x (by simp)
  | succ fuel ih =>
    match q with
    | [] => exact ⟨by simp [mergeAll], by simp [mergeAll]⟩
    | [x] => simpa [mergeAll] using hq x (by simp)
    | x :: y :: rest =>
      obtain ⟨a, b, others, hperm, h⟩ := mergeAll_turn fuel next x y rest
      have hlen' := hperm.length_eq
      have hall : ∀ c ∈ a :: b :: others, CodesOk c.leaves := fun c hc => hq c (hperm.mem_iff.mp hc)
      rw [h]
      refine ih (next + 1) _ (by simp only [List.length_cons] at *; omega) ?_
      rintro c (_ | ⟨_, hc⟩)
      · exact mergeNodes_codesOk (hall a (by simp)) (hall b (by simp)) next
      · exact hall c (List.mem_cons_of_mem _ (List.mem_cons_of_mem _ hc))

/-! ### The tree -/

theorem weightedLeaves_leaves {wts : List Nat} {x : HufNode} (h : x ∈ weightedLeaves wts) :
    ∃ s, x.leaves = [(s, ⟨0, 0⟩)] := by
  simp only [weightedLeaves, List.mem_map] at h
  obtain ⟨q, -, rfl⟩ := h
  exact ⟨_, rfl⟩

theorem codesOk_single (s : Nat) (c : HufCode) (h : c.code < 2 ^ c.width) : CodesOk [(s, c)] := by
  constructor
  · simpa using h
  · intro p hp q hq hne
    rw [List.mem_singleton.mp hp, List.mem_singleton.mp hq] at hne
    exact absurd rfl hne

/-- The tree's table is the table of codes that fit and of which none begins another. -/
theorem weightedTree_codes (wts : List Nat) : ∃ coded, CodesOk coded ∧ weightedTree wts = tableOf wts.length coded := by
  have hleaf := fun x (hx : x ∈ weightedLeaves wts) => weightedLeaves_leaves hx
  unfold weightedTree
  split
  · exact ⟨[], ⟨by simp, by simp⟩, rfl⟩
  · next leaf h =>
    obtain ⟨s, hs⟩ := hleaf leaf (by simp [h])
    exact ⟨_, by rw [hs]; exact codesOk_single s ⟨1, 0⟩ (by decide), rfl⟩
  · next a b rest h =>
    refine ⟨_, mergeAll_codesOk _ _ _ (Nat.le_succ _) fun x hx => ?_, rfl⟩
    obtain ⟨s, hs⟩ := hleaf x (h ▸ hx)
    rw [hs]
    exact codesOk_single s ⟨0, 0⟩ (by decide)

/-- The table of a construction over 1 to 288 weights is sized and PrefixFree (41 R161). -/
theorem weighted_ok {wts : List Nat} {t : HufTable} (h : weighted wts = .ok t) (hlo : 1 ≤ wts.length)
    (hhi : wts.length ≤ 288) : TableSized t ∧ PrefixFree t := by
  obtain ⟨coded, hc, ht⟩ := weightedTree_codes wts
  simp only [weighted, ht] at h
  split at h
  · cases h
  · next hw =>
    cases h
    exact ⟨tableOf_sized hc hlo hhi (not_lt.mp hw), tableOf_prefixFree hc _⟩

end Sys2Proof.Machine
end

section
/-! SUPPORT. What the effects of a command can do, said once for all commands, and the invariants a step keeps because its pieces keep them. -/

namespace Sys2Proof.Machine

/-! ### The processing of a FEED -/

theorem DecodeRel.and {R Q : State → State → Prop} (h : DecodeRel R) (h' : DecodeRel Q) :
    DecodeRel fun s t => R s t ∧ Q s t where
  refl s := ⟨h.refl s, h'.refl s⟩
  trans s t u hst htu := ⟨h.trans s t u hst.1 htu.1, h'.trans s t u hst.2 htu.2⟩
  out b s := ⟨h.out b s, h'.out b s⟩
  done s := ⟨h.done s, h'.done s⟩
  setDf s df := ⟨h.setDf s df, h'.setDf s df⟩
  setLz s lz := ⟨h.setLz s lz, h'.setLz s lz⟩

theorem EncodeRel.and {R Q : State → State → Prop} (h : EncodeRel R) (h' : EncodeRel Q) :
    EncodeRel fun s t => R s t ∧ Q s t where
  refl s := ⟨h.refl s, h'.refl s⟩
  trans s t u hst htu := ⟨h.trans s t u hst.1 htu.1, h'.trans s t u hst.2 htu.2⟩
  append v w s := ⟨h.append v w s, h'.append v w s⟩
  done s := ⟨h.done s, h'.done s⟩
  setLe s le := ⟨h.setLe s le, h'.setLe s le⟩
  hist b s := ⟨h.hist b s, h'.hist b s⟩

/-- What the codec's work in a FEED of the session of `s` keeps, S_BITPOS aside. -/
structure Processed (s u : State) : Prop where
  bs : u.bs = s.bs
  huf : u.huf = s.huf
  setup : SessionSetupSame s u
  serr : u.ses.serr = s.ses.serr
  serrDetail : u.ses.serrDetail = s.ses.serrDetail
  sstate : u.ses.sstate = s.ses.sstate ∨ u.ses.sstate = .done
  writes : FeedWrites s.ses.isEncoder s u

theorem Processed.of_frame {s u : State} (hf : FeedFrame s u) (hw : FeedWrites s.ses.isEncoder s u) : Processed s u :=
  ⟨hf.bs, hf.huf, hf.setup, hf.serr, hf.serrDetail, hf.sstate, hw⟩

theorem feedWrites_setBitpos (encoder : Bool) (n : Nat) (s : State) : FeedWrites encoder s (setBitpos n s) :=
  FeedWrites.same (s := s) (t := setBitpos n s) rfl (HostSideSame.refl s) rfl rfl rfl rfl rfl rfl rfl
    (SessionSetupSame.refl s) encoder

theorem Processed.setBitpos {s u : State} (h : Processed s u) (n : Nat) : Processed s (setBitpos n u) where
  bs := h.bs
  huf := h.huf
  setup := h.setup
  serr := h.serr
  serrDetail := h.serrDetail
  sstate := h.sstate
  writes := h.writes.trans (feedWrites_setBitpos _ n u)

/-- How a FEED of an ACTIVE session ends: with its results, or in a session error. -/
theorem feedProcess_ends (complete : Bool) (s : State) (hm : s.ses.mode ≠ .none) (ha : s.ses.sstate = .active) :
    ∃ u n, Processed s u ∧ (feedProcess complete s = .ok (feedResults n s.ses.outLen true u) ∨
      ∃ e, feedProcess complete s = .fail (feedResults n s.ses.outLen false (markSessionError e u)) e) := by
  have hd : s.ses.isDecoder → DecodeRel fun s' t => FeedFrame s' t ∧ FeedWrites s.ses.isEncoder s' t := by
    intro hdec
    have he : s.ses.isEncoder = false := by rcases hdec with h | h <;> simp [Session.isEncoder, h]
    exact he ▸ feedFrame_decode.and feedWrites_decode
  have he : ¬ s.ses.isDecoder → EncodeRel fun s' t => FeedFrame s' t ∧ FeedWrites s.ses.isEncoder s' t := by
    intro hdec
    have he : s.ses.isEncoder = true := by
      cases h : s.ses.mode <;> simp_all [Session.isDecoder, Session.isEncoder]
    exact he ▸ feedFrame_encode.and feedWrites_encode
  obtain ⟨u, n, ⟨hf, hw⟩, h⟩ := feedProcess_cases complete s ha hd he
  have hu := Processed.of_frame hf hw
  rcases h with h | ⟨b, h⟩ | ⟨b, e, h⟩ | ⟨e, h⟩
  · exact ⟨u, n, hu, .inl h⟩
  · exact ⟨_, n, hu.setBitpos b, .inl h⟩
  · exact ⟨_, n, hu.setBitpos b, .inr ⟨e, h⟩⟩
  · exact ⟨u, n, hu, .inr ⟨e, h⟩⟩

/-! ### The effects of a command -/

/-- `EffectsDo i s r`: command `i` may run its effects from `s` as `r` says. -/
inductive EffectsDo (i : Instr) (s : State) : Run → Prop where
  /-- The command is refused with an error. -/
  | refused (e : Err) : EffectsDo i s (.fail s e)
  /-- NOP. -/
  | nothing : EffectsDo i s (.ok s)
  /-- A command that only answers in RES0 to RES2. -/
  | results (x y z : Nat) : EffectsDo i s (.ok (s.setResults x y z))
  /-- A build fills its slot with the table of its construction. -/
  | built (k : Fin 4) (t : HufTable) : i = .hufBuildCanon k.val ∨ i = .hufBuildWeighted k.val →
      1 ≤ s.arg1 → s.arg1 ≤ 288 →
      canon (s.readWidths s.arg0 s.arg1) = .ok t ∨ weighted (s.readWeights s.arg0 s.arg1) = .ok t →
      EffectsDo i s (.ok (s.setSlot k ⟨true, t⟩))
  /-- A build whose construction fails invalidates its slot. -/
  | unbuilt (k : Fin 4) (e : Err) : i = .hufBuildCanon k.val ∨ i = .hufBuildWeighted k.val →
      EffectsDo i s (.fail (s.setSlot k ⟨false, s.huf[k].table⟩) e)
  /-- BS_INIT. -/
  | sequence (ord : BitOrder) : i = .bsInit ord → s.arg0 + s.arg1 ≤ memSize s.par →
      EffectsDo i s (.ok { s with bs := { base := s.larg.a0, cap := s.larg.a1, bits := 0, ord := ord, valid := true } })
  /-- BS_APPEND and HUF_ENCODE. -/
  | appended (v w : Nat) (u : State) : (∃ w, i = .bsAppend w) ∨ (∃ k, i = .hufEncode k) →
      bytesOfBits (s.bs.bits.toNat + w) ≤ s.bs.cap.toNat → s.bs.bits.toNat + w < 2 ^ 32 →
      u = bsAppendField v w s ∨ (∃ x y, u = (bsAppendField v w s).setResults x y 0) → EffectsDo i s (.ok u)
  /-- LZW_DEC_START. -/
  | lzwDecoder (o : BitOrder) (l : Nat) : i = .lzwDecStart o l → s.arg0 + s.arg1 ≤ memSize s.par →
      EffectsDo i s (.ok (lzwReset (sessionStart .lzwDec o l s.larg.a0 s.larg.a1 0 s)))
  /-- DFL_DEC_START. -/
  | dflDecoder (df : DflDec) : i = .dflDecStart → s.arg0 + s.arg1 ≤ memSize s.par →
      EffectsDo i s (.ok ((sessionStart .dflDec .lsb 0 s.larg.a0 s.larg.a1 0 s).setDf df))
  /-- DFL_ENC_START. -/
  | dflEncoder (m : Nat) (u : State) : i = .dflEncStart m → s.arg0 + s.arg1 ≤ memSize s.par →
      s.arg2 + s.arg3 ≤ memSize s.par → ¬ SharesByte s.arg0 s.arg1 s.arg2 s.arg3 →
      u = sessionStart .dflEnc .lsb 0 s.larg.a0 s.larg.a1 m s →
      EffectsDo i s (.ok { u with ses := { u.ses with histBase := s.larg.a2, histCap := s.larg.a3, histLen := 0 } })
  /-- LZW_ENC_START, which emits the clear code. -/
  | lzwEncoder (o : BitOrder) (l : Nat) (le : LzwEnc) : i = .lzwEncStart o l → l ≤ 8 →
      s.arg0 + s.arg1 ≤ memSize s.par → bytesOfBits (l + 1) ≤ s.arg1 →
      EffectsDo i s (.ok { s.putBits o s.arg0 0 (fieldBits o (2 ^ l) (l + 1)) with
        ses := { Session.released with
          mode := .lzwEnc, ord := o, lit := BitVec.ofNat 4 l, sstate := .active, outBase := s.larg.a0,
          outCap := s.larg.a1, outBits := word (l + 1), outLen := word (bytesOfBits (l + 1)) }
        lz := LzwDec.unused, df := DflDec.unused, le := le })
  /-- FEED of an ACTIVE session. -/
  | fed (c : Bool) (u : State) (n : Nat) : i = .feed c → s.ses.mode ≠ .none → s.ses.sstate = .active → Processed s u →
      EffectsDo i s (.ok (feedResults n s.ses.outLen true u))
  /-- FEED of an ACTIVE session that ends in a session error. -/
  | feedFailed (c : Bool) (u : State) (n : Nat) (e : Err) : i = .feed c → s.ses.mode ≠ .none →
      s.ses.sstate = .active → Processed s u →
      EffectsDo i s (.fail (feedResults n s.ses.outLen false (markSessionError e u)) e)
  /-- FEED of a DONE or ERROR session. -/
  | afterEnd (c : Bool) (r : Run) : i = .feed c → r.state = { s with res0 := 0, res1 := 0, res2 := s.ses.outLen } →
      EffectsDo i s r
  /-- SESSION_END. -/
  | ended : i = .sessionEnd → EffectsDo i s (.ok { s with ses := Session.released })
  /-- SOFT_RESET. -/
  | softReset : i = .softReset → EffectsDo i s (.ok (resetRegisters s))

theorem dflEncStart_disjoint {m : Nat} {s u : State} (h : dflEncStartEffects m s = .ok u) :
    ¬ SharesByte s.arg0 s.arg1 s.arg2 s.arg3 := by
  rw [← shareByte_iff]
  unfold dflEncStartEffects at h
  split_ifs at h
  assumption

theorem feedEffects_do (c : Bool) (s : State) : EffectsDo (.feed c) s (feedEffects c s) := by
  rcases feedEffects_cases c s with ⟨e, h, _⟩ | ⟨hm, _, _, h⟩ <;> rw [h]
  · exact .refused e
  · by_cases ha : s.ses.sstate = .active
    · obtain ⟨u, n, hu, h | ⟨e, h⟩⟩ := feedProcess_ends c s hm ha <;> rw [h]
      · exact .fed c u n rfl hm ha hu
      · exact .feedFailed c u n e rfl hm ha hu
    · rw [feedProcess_afterEnd ha]
      refine .afterEnd c _ rfl ?_
      unfold feedAfterEnd
      split <;> rfl

/-- Every command runs its effects in one of the ways listed. -/
theorem effects_do (i : Instr) (s : State) : EffectsDo i s (effects i s) := by
  have hres (h : i = .bsReadBit ∨ (∃ k, i = .hufGetCode k ∨ i = .hufMatch k ∨ i = .hufDecodeBs k) ∨ i = .lz77Match ∨
      i = .nop) : EffectsDo i s (effects i s) := by
    rcases resultsOnly i s h with ⟨x, y, z, h⟩ | h | ⟨e, h⟩ <;> rw [h]
    · exact .results x y z
    · exact .nothing
    · exact .refused e
  have hbuild (k : Nat) (hi : i = .hufBuildCanon k ∨ i = .hufBuildWeighted k) : EffectsDo i s (effects i s) := by
    rcases build_cases i k s hi with ⟨e, h, _⟩ | ⟨j, rfl, hlo, hhi, ⟨t, h, ht⟩ | ⟨e, h, _⟩⟩ <;> rw [h]
    · exact .refused e
    · exact .built j t hi hlo hhi (ht.imp And.right And.right)
    · exact .unbuilt j e hi
  have hstart (h : (∃ o l, i = .lzwDecStart o l) ∨ i = .dflDecStart ∨ ∃ m, i = .dflEncStart m) :
      EffectsDo i s (effects i s) := by
    rcases start_cases i s h with ⟨e, h⟩ | ⟨hr, ⟨o, l, hi, _, _, h⟩ | ⟨hi, h⟩ | ⟨m, hi, _, hr', u, hu, h⟩⟩
    · rw [h]; exact .refused e
    · rw [h]; exact .lzwDecoder o l hi hr
    · rw [h]; exact .dflDecoder _ hi hr
    · subst hi
      have hdisj := dflEncStart_disjoint h
      rw [h]; exact .dflEncoder m u rfl hr hr' hdisj hu
  have happ (hi : (∃ w, i = .bsAppend w) ∨ ∃ k, i = .hufEncode k) : EffectsDo i s (effects i s) := by
    rcases append_cases i s hi with ⟨e, h⟩ | ⟨v, w, hc, hb, h | ⟨x, y, h⟩⟩ <;> rw [h]
    · exact .refused e
    · exact .appended v w _ hi hc hb (.inl rfl)
    · exact .appended v w _ hi hc hb (.inr ⟨x, y, rfl⟩)
  cases i with
  | nop => exact hres (by simp)
  | bsInit ord =>
    rcases bsInit_cases ord s with h | ⟨hr, h⟩ <;> rw [effects, h]
    · exact .refused _
    · exact .sequence ord rfl hr
  | bsAppend w => exact happ (by simp)
  | bsReadBit => exact hres (by simp)
  | hufBuildCanon k => exact hbuild k (by simp)
  | hufBuildWeighted k => exact hbuild k (by simp)
  | hufGetCode k => exact hres (by simp)
  | hufEncode k => exact happ (by simp)
  | hufMatch k => exact hres (by simp)
  | hufDecodeBs k => exact hres (by simp)
  | lzwDecStart o l => exact hstart (by simp)
  | lzwEncStart o l =>
    rcases lzwEncStart_cases o l s with ⟨e, h, _⟩ | ⟨_, hl, hr, hb, h⟩ <;> rw [effects, h]
    · exact .refused e
    · exact .lzwEncoder o l _ rfl hl hr hb
  | dflDecStart => exact hstart (by simp)
  | dflEncStart m => exact hstart (by simp)
  | feed c => exact feedEffects_do c s
  | sessionEnd => exact .ended rfl
  | lz77Match => exact hres (by simp)
  | softReset => exact .softReset rfl

/-! ### The end of a command -/

@[simp] theorem Run.finish_par (r : Run) : r.finish.par = r.state.par := by cases r <;> rfl
@[simp] theorem Run.finish_arg (r : Run) : r.finish.arg = r.state.arg := by cases r <;> rfl
@[simp] theorem Run.finish_bs (r : Run) : r.finish.bs = r.state.bs := by cases r <;> rfl
@[simp] theorem Run.finish_ses (r : Run) : r.finish.ses = r.state.ses := by cases r <;> rfl
@[simp] theorem Run.finish_huf (r : Run) : r.finish.huf = r.state.huf := by cases r <;> rfl
@[simp] theorem Run.finish_raced (r : Run) : r.finish.raced = [] := by cases r <;> rfl
@[simp] theorem Run.finish_busy (r : Run) : r.finish.busy = false := by cases r <;> rfl
theorem Run.finish_mem (r : Run) : r.finish.mem = r.state.settle.mem := by cases r <;> rfl

@[simp] theorem bsAppendField_ses (v w : Nat) (s : State) : (bsAppendField v w s).ses = s.ses := by
  rw [bsAppendField, putBits_fields]
@[simp] theorem bsAppendField_huf (v w : Nat) (s : State) : (bsAppendField v w s).huf = s.huf := by
  rw [bsAppendField, putBits_fields]
@[simp] theorem bsAppendField_bs (v w : Nat) (s : State) :
    (bsAppendField v w s).bs = { s.bs with bits := word (s.bs.bits.toNat + w) } := rfl

/-! ### Invariants of a step -/

/-- A property of states that each piece of a step keeps. -/
structure StepKept (P : State → Prop) : Prop where
  /-- The model's own record of what comes next and of what the host read. -/
  record : ∀ s rest d n, P s → P { s with agenda := rest, hostData := d, drawNo := n }
  /-- A command, from its start to its end. -/
  command : ∀ s i, P s → P (effects i (startCommand s)).finish
  /-- A word that is no command. -/
  rejected : ∀ s d, P s → P (raiseError (rejectError d) (startCommand s))
  accept : ∀ s w, P s → P (acceptCommand w s)
  overrun : ∀ s, P s → P (overrunCommand s)
  argument : ∀ s a, P s → P { s with arg := a }
  race : ∀ s a v, P s → s.busy = true → a < memSize s.par → P { s with raced := addRaced s.raced a v }
  store : ∀ s a v, P s → s.busy = false → a < memSize s.par → P { s with mem := Memory.put s.mem a v }
  reset : ∀ s, P s → P (resetInput s)
  powerOn : ∀ s, P s → P (powerOnReset s)

/-- A host write of a register keeps what its three forms keep (10 R32). -/
theorem writeReg_cases (s : State) (o : Nat) (v : Word) :
    (o = 0 ∧ ((s.busy = true ∧ s.writeReg o v = overrunCommand s) ∨
      (s.busy = false ∧ s.writeReg o v = acceptCommand v s))) ∨
    ∃ a, s.writeReg o v = { s with arg := a } := by
  unfold State.writeReg
  split
  · refine .inl ⟨rfl, ?_⟩
    split
    · next h => exact .inl ⟨h, rfl⟩
    · next h => exact .inr ⟨by simpa using h, rfl⟩
  all_goals exact .inr ⟨_, rfl⟩

theorem StepKept.step {P : State → Prop} (hP : StepKept P) {s t : State} (hs : P s) (h : step s = .next t) : P t := by
  have hrest : ∀ rest, P (s.withAgenda rest) := fun rest => hP.record s rest s.hostData s.drawNo hs
  rcases step_cases h with hcommand | hidle | hwrite | hread | hmemWrite | hmemRead | hreset | hpower
  · obtain ⟨r, _, rfl, u, hu, hr⟩ := hcommand
    have hPu : P u := by
      rcases hu with ⟨_, rfl⟩ | ⟨rest, _, rfl⟩ | ⟨_, rfl⟩
      · exact hs
      · exact hrest rest
      · exact hs
    rcases hr with ⟨i, _, rfl⟩ | ⟨d, _, rfl⟩
    · exact hP.command u i hPu
    · exact hP.rejected u d hPu
  · obtain ⟨-, rfl | ⟨rest, rfl⟩ | ⟨rest, rfl⟩⟩ := hidle
    · exact hs
    · exact hrest rest
    · exact hP.record s rest _ s.drawNo hs
  · obtain ⟨o, b, v, rest, -, rfl, -⟩ := hwrite
    rcases writeReg_cases (s.withAgenda rest) o v with ⟨_, ⟨_, h⟩ | ⟨_, h⟩⟩ | ⟨a, h⟩ <;> rw [h]
    · exact hP.overrun _ (hrest rest)
    · exact hP.accept _ v (hrest rest)
    · exact hP.argument _ a (hrest rest)
  · obtain ⟨o, b, rest, -, rfl⟩ := hread
    exact hP.record s rest _ s.drawNo hs
  · obtain ⟨a, v, rest, -, ha, ⟨hb, rfl⟩ | ⟨hb, rfl⟩⟩ := hmemWrite
    · exact hP.race _ a v (hrest rest) hb ha
    · exact hP.store _ a v (hrest rest) hb ha
  · obtain ⟨a, rest, -, d, rfl⟩ := hmemRead
    exact hP.record s rest d _ hs
  · obtain ⟨rest, -, rfl⟩ := hreset
    exact hP.reset _ (hrest rest)
  · obtain ⟨rest, -, rfl⟩ := hpower
    exact hP.powerOn _ (hrest rest)

end Sys2Proof.Machine
end

section
/-! SUPPORT. Every valid Huffman slot stays sized and PrefixFree over every step (41 R161). -/

namespace Sys2Proof.Machine

theorem SlotsOk.congr {s t : State} (h : SlotsOk s) (ht : t.huf = s.huf) : SlotsOk t := by
  unfold SlotsOk
  rw [ht]
  exact h

theorem slotsOk_of_invalid {s : State} (h : ∀ k : Fin 4, s.huf[k].valid = false) : SlotsOk s := by
  intro k hk
  rw [h k] at hk
  cases hk

theorem resetWith_huf_valid (par : Params) (k : Fin 4) : (State.resetWith par).huf[k].valid = false := by
  simp [State.resetWith, HufSlot.invalid]

/-- A slot that takes a sized and PrefixFree table, or becomes invalid, leaves all slots well. -/
theorem SlotsOk.setSlot {s : State} (h : SlotsOk s) (k : Fin 4) (slot : HufSlot)
    (hslot : slot.valid = true → TableSized slot.table ∧ PrefixFree slot.table) : SlotsOk (s.setSlot k slot) := by
  intro j
  simp only [State.setSlot_huf, Fin.getElem_fin, Vector.getElem_set]
  split
  · exact hslot
  · exact h j

theorem slotsOk_effects {i : Instr} {s : State} {r : Run} (hs : SlotsOk s) (h : EffectsDo i s r) : SlotsOk r.state := by
  cases h with
  | built k t hi hlo hhi ht =>
    refine hs.setSlot k _ fun _ => ?_
    rcases ht with ht | ht
    · exact canon_ok ht (by simpa [State.readWidths] using hlo) (by simpa [State.readWidths] using hhi)
    · exact weighted_ok ht (by simpa [State.readWeights] using hlo) (by simpa [State.readWeights] using hhi)
  | unbuilt k e hi => exact hs.setSlot k _ (by simp)
  | appended v w u hi hc hb hu =>
    refine hs.congr ?_
    rcases hu with rfl | ⟨x, y, rfl⟩ <;> simp
  | lzwEncoder o l le hi hl hr hb => exact hs.congr (by rw [putBits_fields]; rfl)
  | fed c u n hi hm ha hu => exact hs.congr hu.huf
  | feedFailed c u n e hi hm ha hu => exact hs.congr hu.huf
  | afterEnd c r hi hr => rw [hr]; exact hs.congr rfl
  | softReset hi => exact slotsOk_of_invalid (resetWith_huf_valid s.par)
  | refused | nothing | results | sequence | lzwDecoder | dflDecoder | ended => exact hs.congr rfl
  | dflEncoder m u _ _ _ _ hu => subst hu; exact hs.congr rfl

theorem slotsOk_kept : StepKept SlotsOk where
  record _ _ _ _ h := h.congr rfl
  command s i h := (slotsOk_effects (s := startCommand s) (h.congr rfl) (effects_do i _)).congr (Run.finish_huf _)
  rejected _ _ h := h.congr rfl
  accept _ _ h := h.congr rfl
  overrun _ h := h.congr rfl
  argument _ _ h := h.congr rfl
  race _ _ _ h _ _ := h.congr rfl
  store _ _ _ h _ _ := h.congr rfl
  reset s _ := slotsOk_of_invalid (resetWith_huf_valid s.par)
  powerOn s _ := slotsOk_of_invalid (resetWith_huf_valid s.par)

/-- Settles O58: only a build fills a slot, and both constructions give a sized and PrefixFree table. -/
theorem stepKeepsSlotsPrefixFree : Obligations.StepKeepsSlotsPrefixFree :=
  fun _ _ hs h => slotsOk_kept.step hs h

end Sys2Proof.Machine
end

section
/-! SUPPORT. Buffer memory, the regions and the shape of the session over every step (10 R39, R40, R42; 20 R90; 40 R146; 44 R290). -/

namespace Sys2Proof.Machine

/-! ### Buffer memory -/

/-- Memory is well when its addresses, and those racing, rise and lie below MEM_SIZE, whatever stands at them. -/
theorem memoryOk_iff (s : State) : MemoryOk s ↔ Memory.wf s.mem ∧ (∀ x ∈ s.mem.map Prod.fst, x < memSize s.par) ∧
    ∀ x ∈ s.raced.map RacedByte.addr, x < memSize s.par := by
  simp only [MemoryOk, List.forall_mem_map]

theorem MemoryOk.of_same {s t : State} (h : MemoryOk s) (hp : t.par = s.par) (hm : t.mem = s.mem)
    (hr : t.raced.map RacedByte.addr = s.raced.map RacedByte.addr) : MemoryOk t := by
  rw [memoryOk_iff] at h ⊢
  rw [hp, hm, hr]
  exact h

/-- Writes inside buffer memory keep it well. -/
theorem MemoryOk.writes {region : Nat → Prop} {s t : State} (h : MemoryOk s) (hw : WritesIn region s t)
    (hin : ∀ a, region a → a < memSize s.par) : MemoryOk t := by
  rw [memoryOk_iff] at h ⊢
  obtain ⟨hwf, hmem, hraced⟩ := h
  rw [hw.addrs, hw.host.1]
  exact ⟨hw.wf hwf, fun x hx => (hw.listed x hx).elim (hmem x) (hin x), hraced⟩

theorem MemoryOk.put {s : State} (h : MemoryOk s) {a : Nat} (ha : a < memSize s.par) (v : Byte) :
    MemoryOk { s with mem := Memory.put s.mem a v } := by
  rw [memoryOk_iff] at h ⊢
  obtain ⟨hwf, hmem, hraced⟩ := h
  refine ⟨Memory.put_wf hwf a v, fun x hx => ?_, hraced⟩
  rcases Memory.mem_put_addr.mp hx with rfl | hx
  · exact ha
  · exact hmem x hx

theorem MemoryOk.race {s : State} (h : MemoryOk s) {a : Nat} (ha : a < memSize s.par) (v : Byte) :
    MemoryOk { s with raced := addRaced s.raced a v } := by
  rw [memoryOk_iff] at h ⊢
  obtain ⟨hwf, hmem, hraced⟩ := h
  refine ⟨hwf, hmem, fun x hx => ?_⟩
  rcases mem_addRaced_addr.mp hx with rfl | hx
  · exact ha
  · exact hraced x hx

/-- The settling of raced bytes lists no address but theirs and those listed before. -/
theorem mem_foldr_settleByte {raced : List RacedByte} {draw x : Nat} {m : Memory}
    (h : x ∈ (raced.foldr (settleByte draw) m).map Prod.fst) :
    x ∈ raced.map RacedByte.addr ∨ x ∈ m.map Prod.fst := by
  induction raced with
  | nil => exact .inr h
  | cons r rest ih =>
    rw [List.foldr_cons, settleByte] at h
    rw [List.map_cons, List.mem_cons]
    split at h
    · exact (ih h).imp .inr id
    · rcases Memory.mem_put_addr.mp h with rfl | h
      · exact .inl (.inl rfl)
      · exact (ih h).imp .inr id

theorem MemoryOk.settle {s : State} (h : MemoryOk s) : MemoryOk s.settle := by
  rw [memoryOk_iff] at h ⊢
  obtain ⟨hwf, hmem, hraced⟩ := h
  exact ⟨settle_wf hwf, fun x hx => (mem_foldr_settleByte hx).elim (hraced x) (hmem x), by simp⟩

theorem MemoryOk.startCommand {s : State} (h : MemoryOk s) : MemoryOk (startCommand s) :=
  h.of_same rfl rfl (clearWritten_addr _)

theorem MemoryOk.finish {r : Run} (h : MemoryOk r.state) : MemoryOk r.finish :=
  h.settle.of_same (Run.finish_par r) (Run.finish_mem r) (by simp)

/-! ### Regions -/

/-- The bit sequence lies inside buffer memory and inside its capacity, as RegionsOk says of it. -/
def SequenceRegionOk (s : State) : Prop :=
  s.bs.base.toNat + s.bs.cap.toNat ≤ memSize s.par ∧ s.bs.bits.toNat ≤ 8 * s.bs.cap.toNat

theorem regionsOk_iff (s : State) : RegionsOk s ↔ SequenceRegionOk s ∧ SessionRegionsOk s := by
  simp only [RegionsOk, SequenceRegionOk, SessionRegionsOk, and_assoc]

theorem RegionsOk.congr {s t : State} (h : RegionsOk s) (hp : t.par = s.par) (hb : t.bs = s.bs) (hs : t.ses = s.ses) :
    RegionsOk t := by
  unfold RegionsOk
  rw [hp, hb, hs]
  exact h

theorem SequenceRegionOk.congr {s t : State} (h : SequenceRegionOk s) (hp : t.par = s.par) (hb : t.bs = s.bs) :
    SequenceRegionOk t := by
  unfold SequenceRegionOk
  rw [hp, hb]
  exact h

theorem SessionRegionsOk.congr {s t : State} (h : SessionRegionsOk s) (hp : t.par = s.par) (hs : t.ses = s.ses) :
    SessionRegionsOk t := by
  unfold SessionRegionsOk
  rw [hp, hs]
  exact h

theorem bytesOfBits_zero : bytesOfBits 0 = 0 := rfl

/-- A session that has just started, with no history: its empty output fits. -/
theorem sessionRegionsOk_start {mode : Mode} {ord : BitOrder} {lit bmode : Nat} {s : State}
    (h : s.arg0 + s.arg1 ≤ memSize s.par) :
    SessionRegionsOk (sessionStart mode ord lit s.larg.a0 s.larg.a1 bmode s) :=
  ⟨h, Nat.zero_le _, Nat.zero_le _, Nat.le_refl _, fun _ => bytesOfBits_zero.symm, fun _ => rfl⟩

theorem sessionRegionsOk_released {s : State} (h : s.ses = Session.released) : SessionRegionsOk s := by
  unfold SessionRegionsOk
  rw [h]
  exact ⟨Nat.zero_le _, Nat.le_refl _, Nat.zero_le _, Nat.le_refl _, fun _ => rfl, fun _ => rfl⟩

theorem regionsOk_reset {s : State} (hb : s.bs = BitSeq.released) (hs : s.ses = Session.released) : RegionsOk s := by
  refine (regionsOk_iff s).mpr ⟨?_, sessionRegionsOk_released hs⟩
  unfold SequenceRegionOk
  rw [hb]
  exact ⟨Nat.zero_le _, Nat.le_refl _⟩

/-- What a FEED adds to the output and the history lies inside their capacities, so inside buffer memory. -/
theorem feedStores_lt {s u : State} (hset : SessionSetupSame s u) (hp : u.par = s.par) (h : SessionRegionsOk u)
    {a : Nat} (ha : FeedStores s u a) : a < memSize s.par := by
  obtain ⟨h1, h2, h3, h4, -⟩ := h
  obtain ⟨-, -, -, -, hob, hoc, hhb, hhc⟩ := hset
  rw [hob, hoc, hp] at h1
  rw [hoc] at h2
  rw [hhb, hhc, hp] at h3
  rw [hhc] at h4
  rcases ha with ⟨-, ha⟩ | ⟨-, ha⟩ <;> omega

/-- The processing of a FEED keeps memory and the session's regions well. -/
theorem Processed.regions {s u : State} (h : Processed s u) (hm : MemoryOk s) (hs : SessionRegionsOk s) :
    MemoryOk u ∧ SessionRegionsOk u ∧ u.par = s.par := by
  obtain ⟨-, hok, hset, hp, hw, -⟩ := h.writes rfl hs
  exact ⟨hm.writes hw fun a ha => feedStores_lt hset hp hok ha, hok, hp⟩

/-- The bytes of an append lie inside the bit sequence's capacity (40 R146). -/
theorem bitBytes_lt {base i n cap size a : Nat} (hfit : base + cap ≤ size) (hcap : bytesOfBits (i + n) ≤ cap)
    (ha : BitBytes base i n a) : a < size := by
  obtain ⟨-, ha⟩ := ha
  omega

/-- Appending to the bit sequence writes only its own bytes. -/
theorem writesIn_bsAppendField (v w : Nat) (s : State) :
    WritesIn (BitBytes s.bs.base.toNat s.bs.bits.toNat w) s (bsAppendField v w s) := by
  have h := writesIn_putBits s.bs.ord s.bs.base.toNat (fieldBits s.bs.ord v w) s.bs.bits.toNat s
  rw [fieldBits_length] at h
  exact h.trans (WritesIn.of_same (HostSideSame.refl _) rfl rfl rfl rfl)

theorem MemoryOk.append {v w : Nat} {s : State} (hm : MemoryOk s) (hs : SequenceRegionOk s)
    (hcap : bytesOfBits (s.bs.bits.toNat + w) ≤ s.bs.cap.toNat) : MemoryOk (bsAppendField v w s) :=
  hm.writes (writesIn_bsAppendField v w s) fun _ ha => bitBytes_lt hs.1 hcap ha

theorem SequenceRegionOk.append {v w : Nat} {s : State} (hs : SequenceRegionOk s)
    (hcap : bytesOfBits (s.bs.bits.toNat + w) ≤ s.bs.cap.toNat) (hb : s.bs.bits.toNat + w < 2 ^ 32) :
    SequenceRegionOk (bsAppendField v w s) := by
  have hp : (bsAppendField v w s).par = s.par := (writesIn_bsAppendField v w s).host.1
  simp only [SequenceRegionOk, bsAppendField_bs, hp, BitVec.toNat_ofNat, Nat.mod_eq_of_lt hb]
  refine ⟨hs.1, ?_⟩
  simp only [bytesOfBits] at hcap
  omega

/-! ### Memory and regions over a step -/

theorem memoryAndRegions_effects {i : Instr} {s : State} {r : Run} (hm : MemoryOk s) (hr : RegionsOk s)
    (h : EffectsDo i s r) : MemoryOk r.state ∧ RegionsOk r.state := by
  obtain ⟨hseq, hses⟩ := (regionsOk_iff s).mp hr
  cases h with
  | refused | nothing | results | built | unbuilt => exact ⟨hm, hr⟩
  | sequence ord hi hfit => exact ⟨hm, (regionsOk_iff _).mpr ⟨⟨hfit, Nat.zero_le _⟩, hses⟩⟩
  | appended v w u hi hcap hb hu =>
    have hp : (bsAppendField v w s).par = s.par := (writesIn_bsAppendField v w s).host.1
    have hok := (regionsOk_iff _).mpr ⟨hseq.append (v := v) hcap hb, hses.congr hp (bsAppendField_ses v w s)⟩
    rcases hu with rfl | ⟨x, y, rfl⟩ <;> exact ⟨hm.append hseq hcap, hok⟩
  | lzwDecoder o l hi hfit => exact ⟨hm, (regionsOk_iff _).mpr ⟨hseq, sessionRegionsOk_start hfit⟩⟩
  | dflDecoder df hi hfit => exact ⟨hm, (regionsOk_iff _).mpr ⟨hseq, sessionRegionsOk_start hfit⟩⟩
  | dflEncoder m u hi hfit hfit' hdisj hu =>
    subst hu
    exact ⟨hm, (regionsOk_iff _).mpr
      ⟨hseq, hfit, Nat.zero_le _, hfit', Nat.zero_le _, fun _ => bytesOfBits_zero.symm, fun _ => rfl⟩⟩
  | lzwEncoder o l le hi hl hfit hcap =>
    have hw := writesIn_putBits o s.arg0 (fieldBits o (2 ^ l) (l + 1)) 0 s
    have hmem := hm.writes hw fun a ha => bitBytes_lt hfit (by simpa using hcap) ha
    have hbytes : bytesOfBits (l + 1) < 2 ^ 32 := by simp only [bytesOfBits]; omega
    have hbits : l + 1 < 2 ^ 32 := by omega
    refine ⟨hmem, (regionsOk_iff _).mpr ⟨?_, ?_⟩⟩
    · exact hseq.congr hw.host.1 (by rw [putBits_fields]; rfl)
    · simp only [SessionRegionsOk, Run.state_ok, hw.host.1, BitVec.toNat_ofNat, Nat.mod_eq_of_lt hbytes,
        Nat.mod_eq_of_lt hbits]
      exact ⟨hfit, hcap, Nat.zero_le _, Nat.le_refl _, by simp, by simp [Session.isEncoder]⟩
  | fed c u n hi hmode ha hu =>
    obtain ⟨hmem, hok, hp⟩ := hu.regions hm hses
    exact ⟨hmem, (regionsOk_iff _).mpr ⟨hseq.congr hp hu.bs, hok⟩⟩
  | feedFailed c u n e hi hmode ha hu =>
    obtain ⟨hmem, hok, hp⟩ := hu.regions hm hses
    exact ⟨hmem, (regionsOk_iff _).mpr ⟨hseq.congr hp hu.bs, hok⟩⟩
  | afterEnd c r hi hr' => rw [hr']; exact ⟨hm, hr⟩
  | ended => exact ⟨hm, (regionsOk_iff _).mpr ⟨hseq, sessionRegionsOk_released rfl⟩⟩
  | softReset => exact ⟨hm, regionsOk_reset rfl rfl⟩

theorem memoryAndRegions_kept : StepKept fun s => MemoryOk s ∧ RegionsOk s where
  record _ _ _ _ h := h
  command s i h := by
    obtain ⟨hm, hr⟩ := memoryAndRegions_effects (s := startCommand s) h.1.startCommand h.2 (effects_do i _)
    exact ⟨hm.finish, hr.congr (by simp) (by simp) (by simp)⟩
  rejected s d h := ⟨MemoryOk.finish (r := .fail (startCommand s) (rejectError d)) h.1.startCommand, h.2⟩
  accept _ _ h := h
  overrun _ h := h
  argument _ _ h := h
  race _ _ v h _ ha := ⟨h.1.race ha v, h.2⟩
  store _ _ v h _ ha := ⟨h.1.put ha v, h.2⟩
  reset s h := by
    have hm : MemoryOk ({ s with raced := clearWritten s.raced } : State) := h.1.of_same rfl rfl (clearWritten_addr _)
    exact ⟨hm.settle, regionsOk_reset rfl rfl⟩
  powerOn _ _ := ⟨⟨List.Pairwise.nil, by simp [powerOnReset], by simp [powerOnReset]⟩, regionsOk_reset rfl rfl⟩

/-! ### The shape of the session over a step -/

theorem SessionShapeOk.congr {s t : State} (h : SessionShapeOk s) (ht : t.ses = s.ses) : SessionShapeOk t := by
  unfold SessionShapeOk
  rw [ht]
  exact h

/-- Without a history no byte is shared. -/
theorem not_sharesByte_empty (a alen b : Nat) : ¬ SharesByte a alen b 0 := by
  rintro ⟨x, -, hlo, hhi⟩
  omega

theorem sessionShapeOk_released {s : State} (h : s.ses = Session.released) : SessionShapeOk s := by
  unfold SessionShapeOk
  rw [h]
  exact ⟨not_sharesByte_empty _ _ _, by simp [Session.released]⟩

theorem sessionShape_effects {i : Instr} {s : State} {r : Run} (hs : SessionShapeOk s) (h : EffectsDo i s r) :
    SessionShapeOk r.state := by
  cases h with
  | refused | nothing | results | built | unbuilt | sequence => exact hs.congr rfl
  | appended v w u hi hcap hb hu =>
    refine hs.congr ?_
    rcases hu with rfl | ⟨x, y, rfl⟩ <;> simp
  | lzwDecoder o l => exact ⟨not_sharesByte_empty _ _ _, by simp [sessionStart]⟩
  | dflDecoder df => exact ⟨not_sharesByte_empty _ _ _, fun _ => rfl⟩
  | dflEncoder m u hi hfit hfit' hdisj hu => subst hu; exact ⟨hdisj, fun _ => rfl⟩
  | lzwEncoder o l le => exact ⟨not_sharesByte_empty _ _ _, by simp⟩
  | fed c u n hi hmode ha hu => exact hs.of_setup hu.setup
  | feedFailed c u n e hi hmode ha hu => exact hs.of_setup hu.setup
  | afterEnd c r hi hr => rw [hr]; exact hs.congr rfl
  | ended | softReset => exact sessionShapeOk_released rfl

theorem sessionShape_kept : StepKept SessionShapeOk where
  record _ _ _ _ h := h
  command s i h := (sessionShape_effects (s := startCommand s) h (effects_do i _)).congr (by simp)
  rejected _ _ h := h
  accept _ _ h := h
  overrun _ h := h
  argument _ _ h := h
  race _ _ _ h _ _ := h
  store _ _ _ h _ _ := h
  reset _ _ := sessionShapeOk_released rfl
  powerOn _ _ := sessionShapeOk_released rfl

/-- Settles O56: every write lies inside a region that its command or its session's start has checked. -/
theorem stepKeepsMemoryAndRegions : Obligations.StepKeepsMemoryAndRegions :=
  ⟨fun _ _ hm hr h => memoryAndRegions_kept.step ⟨hm, hr⟩ h, fun _ _ hs h => sessionShape_kept.step hs h⟩

end Sys2Proof.Machine
end

section
/-! SUPPORT. Every error a command can raise is one that 60 R381 lists. -/

namespace Sys2Proof.Machine

/-! ### Runs, reads and units that raise only listed errors -/

/-- An error the run raises is listed (60 R381). -/
def Run.Listed : Run → Prop
  | .ok _ => True
  | .fail _ e => e ∈ Err.all

/-- An error the read raises is listed. -/
def Read.Listed {α : Type} : Read α → Prop
  | .got _ _ => True
  | .needMore => True
  | .bad e => e ∈ Err.all

/-- An error the unit raises is listed. -/
def UnitResult.Listed : UnitResult → Prop
  | .needMore => True
  | .raised _ e => e ∈ Err.all
  | .completed _ _ => True

/-- An error that ends the loop is listed. -/
def LoopEnd.Listed : LoopEnd → Prop
  | .stopped _ _ => True
  | .raised _ e _ => e ∈ Err.all

theorem Run.Listed.andThen {r : Run} {f : State → Run} (hr : r.Listed) (hf : ∀ u, (f u).Listed) :
    (r.andThen f).Listed := by
  cases r with
  | ok u => exact hf u
  | fail u e => exact hr

theorem Run.Listed.each {α : Type} {f : α → State → Run} (hf : ∀ x u, (f x u).Listed) (xs : List α) (s : State) :
    (Run.each f xs s).Listed := by
  induction xs generalizing s with
  | nil => trivial
  | cons x rest ih => exact (hf x s).andThen ih

theorem Run.Listed.endUnit {r : Run} (h : r.Listed) (c : Nat) : (r.endUnit c).Listed := by
  cases r with
  | ok u => trivial
  | fail u e => exact h

theorem Read.Listed.then {α : Type} {r : Read α} (h : r.Listed) (s : State) {f : α → Nat → UnitResult}
    (hf : ∀ a c, (f a c).Listed) : (r.then s f).Listed := by
  cases r with
  | got a c => exact hf a c
  | needMore => trivial
  | bad e => exact h

theorem Run.Listed.ite {p : Prop} [Decidable p] {r q : Run} (hr : r.Listed) (hq : q.Listed) :
    (if p then r else q).Listed := by
  split
  · exact hr
  · exact hq

/-- A check with a listed error before what goes on. -/
theorem Run.Listed.check {p : Prop} [Decidable p] {s : State} {e : Err} {q : Run} (he : e ∈ Err.all) (hq : q.Listed) :
    (if p then .fail s e else q).Listed :=
  .ite he hq

theorem Run.listed_ok (s : State) : (Run.ok s).Listed := trivial

theorem UnitResult.Listed.ite {p : Prop} [Decidable p] {r q : UnitResult} (hr : r.Listed) (hq : q.Listed) :
    (if p then r else q).Listed := by
  split
  · exact hr
  · exact hq

/-- A check with a listed error before the rest of the unit. -/
theorem UnitResult.Listed.check {p : Prop} [Decidable p] {s : State} {e : Err} {q : UnitResult} (he : e ∈ Err.all)
    (hq : q.Listed) : (if p then .raised s e else q).Listed :=
  .ite he hq

theorem UnitResult.listed_completed (s : State) (c : Nat) : (UnitResult.completed s c).Listed := trivial

theorem canon_error_listed {ws : List Nat} {e : Err} (h : canon ws = .error e) : e ∈ Err.all := by
  unfold canon at h
  split_ifs at h <;> cases h <;> decide

theorem weighted_error_listed {ws : List Nat} {e : Err} (h : weighted ws = .error e) : e ∈ Err.all := by
  simp only [weighted] at h
  split at h <;> cases h
  decide

/-! ### The decoders -/

theorem outByte_listed (b : Byte) (s : State) : (outByte b s).Listed := .check (by decide) (Run.listed_ok _)

theorem inField_listed (s : State) (inp : Input) (w c : Nat) : (inField s inp w c).Listed := by
  unfold inField
  split <;> trivial

theorem decodeSym_listed (s : State) (inp : Input) (t : HufTable) (c : Nat) : (decodeSym s inp t c).Listed := by
  unfold decodeSym
  simp only
  split
  · trivial
  · trivial
  · show _ ∈ Err.all; decide

theorem lzwData_listed (c : Nat) (s : State) : (lzwData c s).Listed := by
  unfold lzwData
  split
  · show _ ∈ Err.all; decide
  · exact .check (by decide) ((Run.Listed.each outByte_listed _ _).andThen fun _ => Run.listed_ok _)

theorem lzwDecUnit_listed (s : State) (inp : Input) (c : Nat) : (lzwDecUnit s inp c).Listed :=
  (inField_listed s inp _ c).then s fun code c' => .ite trivial (.ite trivial ((lzwData_listed code s).endUnit c'))

theorem headerUnit_listed (s : State) (inp : Input) (c : Nat) : (headerUnit s inp c).Listed :=
  (inField_listed s inp 1 c).then s fun _ c1 => (inField_listed s inp 2 c1).then s fun _ _ =>
    .check (by decide) (.ite trivial (.ite trivial trivial))

theorem storedLenUnit_listed (s : State) (inp : Input) (c : Nat) : (storedLenUnit s inp c).Listed :=
  (inField_listed s inp 16 _).then s fun _ c1 => (inField_listed s inp 16 c1).then s fun _ _ =>
    .check (by decide) (UnitResult.listed_completed _ _)

theorem storedDataUnit_listed (s : State) (inp : Input) (c : Nat) : (storedDataUnit s inp c).Listed :=
  (inField_listed s inp 8 c).then s fun _ c1 => ((outByte_listed _ s).andThen fun _ => Run.listed_ok _).endUnit c1

theorem dynCountsUnit_listed (s : State) (inp : Input) (c : Nat) : (dynCountsUnit s inp c).Listed :=
  (inField_listed s inp 5 c).then s fun _ c1 => (inField_listed s inp 5 c1).then s fun _ c2 =>
    (inField_listed s inp 4 c2).then s fun _ _ => .check (by decide) (UnitResult.listed_completed _ _)

theorem dynClLenUnit_listed (s : State) (inp : Input) (c : Nat) : (dynClLenUnit s inp c).Listed := by
  refine (inField_listed s inp 3 c).then s fun w c1 => .ite ?_ trivial
  split
  · show _ ∈ Err.all; decide
  · trivial

theorem dynLensAdd_listed (s : State) (inp : Input) (sym c : Nat) : (dynLensAdd s inp sym c).Listed := by
  have hfield : ∀ w e, inField s inp w c = .bad e → e ∈ Err.all := fun w e h => by
    have hl := inField_listed s inp w c
    rw [h] at hl
    exact hl
  unfold dynLensAdd
  split_ifs
  · trivial
  · split
    · split
      · show _ ∈ Err.all; decide
      · trivial
    · trivial
    · exact hfield 2 _ ‹_›
  · split
    · trivial
    · trivial
    · exact hfield 3 _ ‹_›
  · split
    · trivial
    · trivial
    · exact hfield 7 _ ‹_›

theorem dynLensEffects_listed (add : List Nat) (s : State) : (dynLensEffects add s).Listed := by
  refine .check (by decide) (.ite ?_ trivial)
  split
  · trivial
  · show _ ∈ Err.all; decide
  · show _ ∈ Err.all; decide

theorem dynLensUnit_listed (s : State) (inp : Input) (c : Nat) : (dynLensUnit s inp c).Listed :=
  (decodeSym_listed s inp _ c).then s fun sym c1 => (dynLensAdd_listed s inp sym c1).then s fun add c2 =>
    (dynLensEffects_listed add s).endUnit c2

theorem copyBack_listed (dist len : Nat) (s : State) : (copyBack dist len s).Listed := by
  induction len generalizing s with
  | zero => trivial
  | succ len ih => exact (outByte_listed _ s).andThen ih

theorem bodyUnit_listed (s : State) (inp : Input) (c : Nat) : (bodyUnit s inp c).Listed := by
  refine (decodeSym_listed s inp _ c).then s fun sym c1 => ?_
  split_ifs
  · exact (outByte_listed _ s).endUnit c1
  · trivial
  · show _ ∈ Err.all; decide
  · generalize lenExtra sym = width
    refine (inField_listed s inp width c1).then s fun e c2 => (decodeSym_listed s inp _ c2).then s fun d c3 => ?_
    split_ifs
    · show _ ∈ Err.all; decide
    · generalize distExtra d = width
      refine (inField_listed s inp width c3).then s fun f c4 => ?_
      exact .check (by decide) ((copyBack_listed _ _ s).endUnit c4)

theorem decodeUnit_listed (s : State) (inp : Input) (c : Nat) : (decodeUnit s inp c).Listed := by
  refine .ite (lzwDecUnit_listed s inp c) ?_
  unfold dflDecUnit
  split
  · exact headerUnit_listed s inp c
  · exact storedLenUnit_listed s inp c
  · exact storedDataUnit_listed s inp c
  · exact dynCountsUnit_listed s inp c
  · exact dynClLenUnit_listed s inp c
  · exact dynLensUnit_listed s inp c
  · exact bodyUnit_listed s inp c

theorem decodeLoop_listed (inp : Input) (fuel c : Nat) (s : State) : (decodeLoop inp fuel c s).Listed := by
  induction fuel generalizing c s with
  | zero => trivial
  | succ fuel ih =>
    unfold decodeLoop
    split
    · have hu := decodeUnit_listed s inp c
      split
      · trivial
      · next he => rw [he] at hu; exact hu
      · exact ih _ _
    · trivial

/-! ### The encoders -/

theorem outAppendField_listed (v w : Nat) (s : State) : (outAppendField v w s).Listed :=
  .ite trivial (.check (by decide) (Run.listed_ok _))

theorem outCode_listed (c : HufCode) (s : State) : (outCode c s).Listed := outAppendField_listed _ _ s

theorem emitData_listed (c : Nat) (s : State) : (emitData c s).Listed :=
  (outAppendField_listed _ _ s).andThen fun _ => Run.listed_ok _

theorem lzwEncClear_listed (s : State) : (lzwEncClear s).Listed :=
  (outAppendField_listed _ _ s).andThen fun _ => Run.listed_ok _

theorem lzwEncByte_listed (k : Byte) (s : State) : (lzwEncByte k s).Listed := by
  refine .check (by decide) ?_
  split
  · trivial
  · split
    · trivial
    · exact ((emitData_listed _ s).andThen fun u => .ite (Run.listed_ok _) (lzwEncClear_listed u)).andThen
        fun _ => Run.listed_ok _

theorem lzwEncFinish_listed (s : State) : (lzwEncFinish s).Listed := by
  refine Run.Listed.andThen (Run.Listed.andThen ?_ fun u => outAppendField_listed _ _ u) fun _ => Run.listed_ok _
  split
  · trivial
  · exact emitData_listed _ s

theorem putToken_listed (lit dist : HufTable) (t : Token) (s : State) : (putToken lit dist t s).Listed := by
  cases t with
  | lit b => exact outCode_listed _ s
  | copy len d =>
    exact (((outCode_listed _ s).andThen (outAppendField_listed _ _)).andThen (outCode_listed _)).andThen
      (outAppendField_listed _ _)

theorem putTokens_listed (ts : List Token) (lit dist : HufTable) (s : State) : (putTokens ts lit dist s).Listed :=
  (Run.Listed.each (putToken_listed lit dist) ts s).andThen (outCode_listed _)

theorem storedBlock_listed (base a m : Nat) (last : Bool) (s : State) : (storedBlock base a m last s).Listed :=
  (((((outAppendField_listed _ _ s).andThen (outAppendField_listed _ _)).andThen
    fun u => outAppendField_listed _ _ u).andThen (outAppendField_listed _ _)).andThen
    (outAppendField_listed _ _)).andThen (Run.Listed.each (fun _ u => outAppendField_listed _ _ u) _)

theorem fixedOutput_listed (ts : List Token) (s : State) : (fixedOutput ts s).Listed :=
  ((outAppendField_listed _ _ s).andThen (outAppendField_listed _ _)).andThen (putTokens_listed ts _ _)

theorem dynOutput_listed (h : DynHeader) (ts : List Token) (s : State) : (dynOutput h ts s).Listed :=
  (((((((outAppendField_listed _ _ s).andThen (outAppendField_listed _ _)).andThen
    (outAppendField_listed _ _)).andThen (outAppendField_listed _ _)).andThen
    (outAppendField_listed _ _)).andThen (Run.Listed.each (fun _ u => outAppendField_listed _ _ u) _)).andThen
    (Run.Listed.each (fun _ u => (outCode_listed _ u).andThen (outAppendField_listed _ _)) _)).andThen
    (putTokens_listed ts _ _)

theorem dflEncOutput_listed (s : State) : (dflEncOutput s).Listed := by
  refine .ite (Run.Listed.each (fun _ u => storedBlock_listed _ _ _ _ u) _ s) (.ite ?_ (fixedOutput_listed _ s))
  split
  · exact dynOutput_listed _ _ s
  · exact fixedOutput_listed _ s

theorem encodeByte_listed (b : Byte) (s : State) : (encodeByte b s).Listed :=
  .ite (lzwEncByte_listed b s) (.check (by decide) (Run.listed_ok _))

theorem encodeFinish_listed (s : State) : (encodeFinish s).Listed :=
  .ite (lzwEncFinish_listed s) ((dflEncOutput_listed s).andThen fun _ => Run.listed_ok _)

theorem encodeLoop_listed (inp : Input) (left j : Nat) (s : State) : (encodeLoop inp left j s).Listed := by
  induction left generalizing j s with
  | zero => trivial
  | succ left ih =>
    unfold encodeLoop
    have hb := encodeByte_listed (s.engByte [j] (inp.base + j)) s
    split
    · exact ih _ _
    · next he => rw [he] at hb; exact hb

/-! ### FEED -/

theorem feedDecode_listed (inp : Input) (complete : Bool) (out0 : Word) (s : State) :
    (feedDecode inp complete out0 s).Listed := by
  unfold feedDecode
  have hl := decodeLoop_listed inp (8 * inp.len + 1) s.ses.bitpos.toNat s
  split
  · next he => rw [he] at hl; exact hl
  · exact .ite trivial (.check (by decide) (Run.listed_ok _))

theorem feedEncode_listed (inp : Input) (complete : Bool) (out0 : Word) (s : State) :
    (feedEncode inp complete out0 s).Listed := by
  unfold feedEncode
  have hl := encodeLoop_listed inp inp.len 0 s
  split
  · next he => rw [he] at hl; exact hl
  · next u _ _ =>
    refine .ite ?_ trivial
    have hf := encodeFinish_listed u
    split
    · trivial
    · next he => rw [he] at hf; exact hf

/-- A session that is neither ACTIVE nor DONE raises its stored error, which is a listed one. -/
theorem feedAfterEnd_listed {s : State} (hs : SessionCtrlOk s) (hm : s.ses.mode ≠ .none) (ha : s.ses.sstate ≠ .active) :
    (feedAfterEnd s).Listed := by
  obtain ⟨hidle, -, herr⟩ := hs
  unfold feedAfterEnd
  simp only
  split
  · trivial
  · next hd =>
    refine herr ?_
    cases h : s.ses.sstate with
    | idle => exact absurd (hidle.mpr h) hm
    | active => exact absurd h ha
    | done => simp [Session.isDone, h] at hd
    | error => rfl

theorem feedEffects_listed (c : Bool) {s : State} (hs : SessionCtrlOk s) : (feedEffects c s).Listed := by
  rcases feedEffects_cases c s with ⟨e, h, he⟩ | ⟨hm, _, _, h⟩ <;> rw [h]
  · show e ∈ Err.all
    rcases he with ⟨rfl, _⟩ | ⟨rfl, _⟩ | ⟨rfl, _⟩ <;> decide
  · by_cases ha : s.ses.sstate = .active
    · have hact : s.ses.isActive = true := by simp [Session.isActive, ha]
      simp only [feedProcess, hact, Bool.not_true, Bool.false_eq_true, if_false]
      exact .ite (feedDecode_listed _ _ _ s) (feedEncode_listed _ _ _ s)
    · rw [feedProcess_afterEnd ha]
      exact feedAfterEnd_listed hs hm ha

/-! ### Every command -/

theorem withSlot_listed {slot : Nat} {s : State} {f : Fin 4 → Run} (hf : ∀ k, (f k).Listed) :
    (withSlot slot s f).Listed := by
  rcases withSlot_cases slot s f with ⟨_, h⟩ | ⟨k, _, h⟩ <;> rw [h]
  · show _ ∈ Err.all; decide
  · exact hf k

theorem withTable_listed {k : Fin 4} {s : State} {f : HufTable → Run} (hf : ∀ t, (f t).Listed) :
    (withTable k s f).Listed := by
  rcases withTable_cases k s f with ⟨_, h⟩ | ⟨_, h⟩ <;> rw [h]
  · show _ ∈ Err.all; decide
  · exact hf _

theorem matchResults_listed (m : MatchResult) (s : State) : (matchResults m s).Listed := by
  cases m with
  | found a j => trivial
  | needMore => trivial
  | malformed => show _ ∈ Err.all; decide

theorem build_listed {i : Instr} {slot : Nat} (s : State) (hi : i = .hufBuildCanon slot ∨ i = .hufBuildWeighted slot) :
    (effects i s).Listed := by
  rcases build_cases i slot s hi with ⟨e, h, he⟩ | ⟨k, _, _, _, ⟨t, h, _⟩ | ⟨e, h, he⟩⟩ <;> rw [h]
  · show e ∈ Err.all
    rcases he with rfl | rfl | rfl <;> decide
  · trivial
  · exact he.elim (fun h => canon_error_listed h.2) (fun h => weighted_error_listed h.2)

/-- Every error that a command raises is listed (60 R381). -/
theorem effects_listed (i : Instr) {s : State} (hs : SessionCtrlOk s) : (effects i s).Listed := by
  cases i with
  | nop => trivial
  | bsInit ord => exact .check (by decide) (Run.listed_ok _)
  | bsAppend w =>
    exact .check (by decide) (.check (by decide) (.check (by decide) (.check (by decide) (Run.listed_ok _))))
  | bsReadBit => exact .check (by decide) (.check (by decide) (Run.listed_ok _))
  | hufBuildCanon slot => exact build_listed s (.inl rfl)
  | hufBuildWeighted slot => exact build_listed s (.inr rfl)
  | hufGetCode slot =>
    simp only [effects, hufGetCodeEffects]
    exact withSlot_listed fun k => withTable_listed fun t => .check (by decide) (Run.listed_ok _)
  | hufEncode slot =>
    simp only [effects, hufEncodeEffects]
    exact withSlot_listed fun k => withTable_listed fun t =>
      .check (by decide) (.check (by decide) (.check (by decide) (Run.listed_ok _)))
  | hufMatch slot =>
    simp only [effects, hufMatchEffects]
    exact withSlot_listed fun k => withTable_listed fun t =>
      .check (by decide) (.check (by decide) (matchResults_listed _ s))
  | hufDecodeBs slot =>
    simp only [effects, hufDecodeBsEffects]
    exact withSlot_listed fun k => withTable_listed fun t =>
      .check (by decide) (.check (by decide) (matchResults_listed _ s))
  | lzwDecStart ord lit => exact .check (by decide) (.check (by decide) (Run.listed_ok _))
  | lzwEncStart ord lit =>
    exact .check (by decide) (.check (by decide) (.check (by decide)
      ((lzwEncClear_listed _).andThen fun _ => Run.listed_ok _)))
  | dflDecStart => exact .check (by decide) (Run.listed_ok _)
  | dflEncStart mode =>
    exact .check (by decide) (.check (by decide) (.check (by decide) (.check (by decide) (Run.listed_ok _))))
  | feed c => exact feedEffects_listed c hs
  | sessionEnd => trivial
  | lz77Match => exact .check (by decide) (.check (by decide) (Run.listed_ok _))
  | softReset => trivial

end Sys2Proof.Machine
end

section
/-! SUPPORT. The status fields, the session's stored error and the record of racing writes over every step (10 R36, R37, R39; 20 R95; 60 R381). -/

namespace Sys2Proof.Machine

/-! ### The reported error -/

/-- The start of a command clears the error fields (10 R36, R37), and its effects leave them cleared. -/
theorem effects_noError (i : Instr) (s : State) :
    (effects i (startCommand s)).state.status.err = false ∧
    (effects i (startCommand s)).state.status.errCode = 0 ∧ (effects i (startCommand s)).state.errDetail = 0 := by
  by_cases hi : i = .softReset
  · subst hi
    exact ⟨rfl, rfl, rfl⟩
  · have hf := effects_frame i (startCommand s) hi
    rw [hf.status, hf.errDetail]
    exact ⟨rfl, rfl, rfl⟩

/-- A run that raises listed errors, from cleared error fields, ends with its error reported or with them cleared. -/
theorem errorFieldsOk_finish {r : Run} (h : r.Listed)
    (hclear : r.state.status.err = false ∧ r.state.status.errCode = 0 ∧ r.state.errDetail = 0) :
    ErrorFieldsOk r.finish := by
  obtain ⟨herr, hcode, hdetail⟩ := hclear
  cases r with
  | ok u => exact ⟨fun _ => ⟨hcode, hdetail⟩, fun he => absurd (herr.symm.trans he) Bool.false_ne_true⟩
  | fail u e => exact ⟨fun he => by simp [Status.withError] at he, fun _ => h⟩

theorem rejectError_listed (d : DecodeReject) : rejectError d ∈ Err.all := by cases d <;> decide

theorem errorFieldsOk_clear {s : State} (hs : s.status = Status.zero) (hd : s.errDetail = 0) : ErrorFieldsOk s := by
  unfold ErrorFieldsOk
  rw [hs, hd]
  exact ⟨fun _ => ⟨rfl, rfl⟩, fun h => by cases h⟩

/-! ### The session's stored error -/

theorem SessionCtrlOk.congr {s t : State} (h : SessionCtrlOk s) (ht : t.ses = s.ses) : SessionCtrlOk t := by
  unfold SessionCtrlOk
  rw [ht]
  exact h

theorem sessionCtrlOk_released {s : State} (h : s.ses = Session.released) : SessionCtrlOk s := by
  unfold SessionCtrlOk
  rw [h]
  exact ⟨⟨fun _ => rfl, fun _ => rfl⟩, fun _ => ⟨rfl, rfl⟩, fun he => by cases he⟩

/-- A session that is ACTIVE or DONE and stores no error. -/
theorem sessionCtrlOk_running {s : State} (hm : s.ses.mode ≠ .none)
    (hstate : s.ses.sstate = .active ∨ s.ses.sstate = .done) (hserr : s.ses.serr = 0 ∧ s.ses.serrDetail = 0) :
    SessionCtrlOk s := by
  refine ⟨⟨fun h => absurd h hm, fun h => ?_⟩, fun _ => hserr, fun h => ?_⟩
  all_goals rw [h] at hstate; simp at hstate

theorem sessionCtrlOk_effects {i : Instr} {s : State} {r : Run} (hs : SessionCtrlOk s) (hl : r.Listed)
    (h : EffectsDo i s r) : SessionCtrlOk r.state := by
  cases h with
  | refused | nothing | results | built | unbuilt | sequence => exact hs.congr rfl
  | appended v w u hi hcap hb hu =>
    refine hs.congr ?_
    rcases hu with rfl | ⟨x, y, rfl⟩ <;> simp
  | lzwDecoder | dflDecoder | lzwEncoder => exact sessionCtrlOk_running (by rintro ⟨⟩) (.inl rfl) ⟨rfl, rfl⟩
  | dflEncoder m u hi hfit hfit' hdisj hu =>
    subst hu
    exact sessionCtrlOk_running (by rintro ⟨⟩) (.inl rfl) ⟨rfl, rfl⟩
  | fed c u n hi hm ha hu =>
    have hstored := hs.2.1 (by rw [ha]; rintro ⟨⟩)
    refine sessionCtrlOk_running ?_ ?_ ⟨hu.serr.trans hstored.1, hu.serrDetail.trans hstored.2⟩
    · exact fun h => hm (hu.setup.1.symm.trans h)
    · exact hu.sstate.imp_left (·.trans ha)
  | feedFailed c u n e hi hm ha hu =>
    refine ⟨⟨fun h => absurd (hu.setup.1.symm.trans h) hm, fun h => by cases h⟩, fun h => absurd rfl h, fun _ => hl⟩
  | afterEnd c r hi hr => rw [hr]; exact hs.congr rfl
  | ended | softReset => exact sessionCtrlOk_released rfl

/-! ### Over a step -/

theorem racesOk_none {s : State} (h : s.raced = []) : RacesOk s := by
  unfold RacesOk RacedOnce
  rw [h]
  exact ⟨fun _ => rfl, List.nodup_nil⟩

theorem statusAndRaces_kept : StepKept fun s => StatusOk s ∧ RacesOk s where
  record _ _ _ _ h := h
  command s i h := by
    obtain ⟨⟨_, hses⟩, _⟩ := h
    have hl := effects_listed i (s := startCommand s) hses
    have hctrl := sessionCtrlOk_effects (s := startCommand s) hses hl (effects_do i _)
    exact ⟨⟨errorFieldsOk_finish hl (effects_noError i s), hctrl.congr (Run.finish_ses _)⟩,
      racesOk_none (Run.finish_raced _)⟩
  rejected s d h := by
    have hl : (Run.fail (startCommand s) (rejectError d)).Listed := rejectError_listed d
    exact ⟨⟨errorFieldsOk_finish hl ⟨rfl, rfl, rfl⟩, h.1.2⟩, racesOk_none rfl⟩
  accept _ _ h := ⟨h.1, ⟨fun hb => absurd hb.symm Bool.false_ne_true, h.2.2⟩⟩
  overrun _ h := h
  argument _ _ h := h
  race _ a v h hb _ := ⟨h.1, ⟨fun hb' => absurd (hb'.symm.trans hb) Bool.false_ne_true, addRaced_nodup h.2.2 a v⟩⟩
  store _ _ _ h _ _ := h
  reset _ _ := ⟨⟨errorFieldsOk_clear rfl rfl, sessionCtrlOk_released rfl⟩, racesOk_none rfl⟩
  powerOn _ _ := ⟨⟨errorFieldsOk_clear rfl rfl, sessionCtrlOk_released rfl⟩, racesOk_none rfl⟩

/-- Settles O57: every command raises listed errors only, and its end leaves no racing write. -/
theorem stepKeepsStatusFields : Obligations.StepKeepsStatusFields :=
  fun _ _ hs hr h => statusAndRaces_kept.step ⟨hs, hr⟩ h

end Sys2Proof.Machine
end

section
/-! SUPPORT. What each kind of state changes by, over every step (10 R30, R34, R38; 41 R161; 60 R383). -/

namespace Sys2Proof.Machine

/-! ### What the effects of a command change -/

theorem effects_par (i : Instr) (s : State) : (effects i s).state.par = s.par := by
  by_cases hi : i = .softReset
  · subst hi; rfl
  · exact (effects_frame i s hi).host.1

theorem effects_arg {i : Instr} (hi : i ≠ .softReset) (s : State) : (effects i s).state.arg = s.arg := by
  obtain ⟨-, -, harg, -⟩ := (effects_frame i s hi).host
  exact harg

/-- A slot changes by a build that names it, or by SOFT_RESET (41 R161). -/
theorem effects_huf {i : Instr} {s : State} {r : Run} (h : EffectsDo i s r) (k : Fin 4)
    (hk : r.state.huf[k] ≠ s.huf[k]) : i = .softReset ∨ i = .hufBuildCanon k.val ∨ i = .hufBuildWeighted k.val := by
  have hset : ∀ (j : Fin 4) slot, (s.setSlot j slot).huf[k] ≠ s.huf[k] → j = k := by
    intro j slot hne
    by_contra hjk
    have : j.val ≠ k.val := fun e => hjk (Fin.ext e)
    simp [this] at hne
  cases h with
  | built j t hi => exact .inr (hset j _ hk ▸ hi)
  | unbuilt j e hi => exact .inr (hset j _ hk ▸ hi)
  | appended v w u hi hc hb hu =>
    have he : u.huf = s.huf := by rcases hu with rfl | ⟨x, y, rfl⟩ <;> simp
    exact absurd (by simp only [Run.state_ok, he]) hk
  | lzwEncoder => exact absurd (by rw [putBits_fields]; rfl) hk
  | fed c u n hi hm ha hu => exact absurd (by simp only [Run.state_ok, feedResults, hu.huf]) hk
  | feedFailed c u n e hi hm ha hu =>
    exact absurd (by simp only [Run.state_fail, feedResults, markSessionError_huf, hu.huf]) hk
  | afterEnd c r hi hr => exact absurd (by rw [hr]) hk
  | dflEncoder m u _ _ _ _ hu => subst hu; exact absurd rfl hk
  | softReset hi => exact .inl hi
  | refused | nothing | results | sequence | lzwDecoder | dflDecoder | ended => exact absurd rfl hk

/-- The bit sequence changes by BS_INIT or SOFT_RESET, and by BS_APPEND and HUF_ENCODE in its length only (10 R38). -/
theorem effects_bs {i : Instr} {s : State} {r : Run} (h : EffectsDo i s r) (hne : r.state.bs ≠ s.bs) :
    i = .softReset ∨ (∃ ord, i = .bsInit ord) ∨
    ((∃ w, i = .bsAppend w) ∨ (∃ k, i = .hufEncode k)) ∧ r.state.bs = { s.bs with bits := r.state.bs.bits } := by
  cases h with
  | sequence ord hi => exact .inr (.inl ⟨ord, hi⟩)
  | appended v w u hi hc hb hu =>
    refine .inr (.inr ⟨hi, ?_⟩)
    rcases hu with rfl | ⟨x, y, rfl⟩ <;> simp
  | lzwEncoder => exact absurd (by rw [putBits_fields]; rfl) hne
  | fed c u n hi hm ha hu => exact absurd hu.bs hne
  | feedFailed c u n e hi hm ha hu => exact absurd hu.bs hne
  | afterEnd c r hi hr => exact absurd (by rw [hr]) hne
  | dflEncoder m u _ _ _ _ hu => subst hu; exact absurd rfl hne
  | softReset hi => exact .inl hi
  | refused | nothing | results | built | unbuilt | lzwDecoder | dflDecoder | ended => exact absurd rfl hne

/-- The session changes by a start, SESSION_END or SOFT_RESET, and by a FEED of an ACTIVE session, which keeps its setup
(60 R383). -/
theorem effects_ses {i : Instr} {s : State} {r : Run} (h : EffectsDo i s r) (hne : r.state.ses ≠ s.ses) :
    i = .softReset ∨ i = .sessionEnd ∨ (∃ o l, i = .lzwDecStart o l ∨ i = .lzwEncStart o l) ∨ i = .dflDecStart ∨
    (∃ m, i = .dflEncStart m) ∨ (∃ c, i = .feed c) ∧ s.ses.sstate = .active ∧ SessionSetupSame s r.state := by
  cases h with
  | appended v w u hi hc hb hu => exact absurd (by rcases hu with rfl | ⟨x, y, rfl⟩ <;> simp) hne
  | lzwDecoder o l hi => exact .inr (.inr (.inl ⟨o, l, .inl hi⟩))
  | lzwEncoder o l le hi => exact .inr (.inr (.inl ⟨o, l, .inr hi⟩))
  | dflDecoder df hi => exact .inr (.inr (.inr (.inl hi)))
  | dflEncoder m u hi => exact .inr (.inr (.inr (.inr (.inl ⟨m, hi⟩))))
  | fed c u n hi hm ha hu => exact .inr (.inr (.inr (.inr (.inr ⟨⟨c, hi⟩, ha, hu.setup⟩))))
  | feedFailed c u n e hi hm ha hu => exact .inr (.inr (.inr (.inr (.inr ⟨⟨c, hi⟩, ha, hu.setup⟩))))
  | afterEnd c r hi hr => exact absurd (by rw [hr]) hne
  | ended hi => exact .inr (.inl hi)
  | softReset hi => exact .inl hi
  | refused | nothing | results | built | unbuilt | sequence => exact absurd rfl hne

/-! ### What a step changes -/

/-- A step other than a command that decodes, the reset input and power-on changes at most ARG0 to ARG3 of these, and
those by a host write. -/
structure HostStep (s t : State) : Prop where
  par : t.par = s.par
  huf : t.huf = s.huf
  bs : t.bs = s.bs
  ses : t.ses = s.ses
  arg : t.arg = s.arg ∨ ∃ o b v rest, s.agenda = .regWrite o b v :: rest

/-- A step runs a command, takes a reset, or is a host's. -/
theorem step_kinds {s t : State} (h : step s = .next t) :
    (s.busy = true ∧ ∃ i rest, decode s.lcmd = .ok i ∧ t = (effects i (startCommand (s.withAgenda rest))).finish) ∨
    (∃ rest, s.agenda = .reset :: rest ∧ t = resetInput (s.withAgenda rest)) ∨
    (∃ rest, s.agenda = .powerOn :: rest ∧ t = powerOnReset (s.withAgenda rest)) ∨
    HostStep s t := by
  rcases step_cases h with hcommand | hidle | hwrite | hread | hmemWrite | hmemRead | hreset | hpower
  · obtain ⟨r, hb, rfl, u, hu, hr⟩ := hcommand
    obtain ⟨rest, rfl⟩ : ∃ rest, u = s.withAgenda rest := by
      rcases hu with ⟨_, rfl⟩ | ⟨rest, _, rfl⟩ | ⟨_, rfl⟩
      · exact ⟨_, rfl⟩
      · exact ⟨rest, rfl⟩
      · exact ⟨_, rfl⟩
    rcases hr with ⟨i, hi, rfl⟩ | ⟨d, _, rfl⟩
    · exact .inl ⟨hb, i, rest, hi, rfl⟩
    · exact .inr (.inr (.inr ⟨rfl, rfl, rfl, rfl, .inl rfl⟩))
  · obtain ⟨-, rfl | ⟨rest, rfl⟩ | ⟨rest, rfl⟩⟩ := hidle <;>
      exact .inr (.inr (.inr ⟨rfl, rfl, rfl, rfl, .inl rfl⟩))
  · obtain ⟨o, b, v, rest, hag, rfl, -⟩ := hwrite
    rcases writeReg_cases (s.withAgenda rest) o v with ⟨_, ⟨_, h⟩ | ⟨_, h⟩⟩ | ⟨a, h⟩ <;> rw [h] <;>
      exact .inr (.inr (.inr ⟨rfl, rfl, rfl, rfl, .inr ⟨o, b, v, rest, hag⟩⟩))
  · obtain ⟨o, b, rest, -, rfl⟩ := hread
    exact .inr (.inr (.inr ⟨rfl, rfl, rfl, rfl, .inl rfl⟩))
  · obtain ⟨a, v, rest, -, -, ⟨-, rfl⟩ | ⟨-, rfl⟩⟩ := hmemWrite <;>
      exact .inr (.inr (.inr ⟨rfl, rfl, rfl, rfl, .inl rfl⟩))
  · obtain ⟨a, rest, -, d, rfl⟩ := hmemRead
    exact .inr (.inr (.inr ⟨rfl, rfl, rfl, rfl, .inl rfl⟩))
  · exact .inr (.inl hreset)
  · exact .inr (.inr (.inl hpower))

/-- Settles O53: a step changes these only as its kind, and a command only as its effects, can. -/
theorem onlyTheirCommandsChangeThem : Obligations.OnlyTheirCommandsChangeThem := by
  intro s t h
  rcases step_kinds h with ⟨hb, i, rest, hi, rfl⟩ | ⟨rest, hag, rfl⟩ | ⟨rest, hag, rfl⟩ | hhost
  · have hdo := effects_do i (startCommand (s.withAgenda rest))
    have hpar := effects_par i (startCommand (s.withAgenda rest))
    simp only [hi, Except.ok.injEq, hb, true_and, Run.finish_par, Run.finish_arg, Run.finish_huf, Run.finish_bs,
      Run.finish_ses, SessionSetupSame]
    refine ⟨hpar, fun hne => ?_, fun k hne => ?_, fun hne => ?_, fun hne => ?_⟩
    · refine .inr (.inr (.inr ?_))
      by_contra hsoft
      exact hne (effects_arg hsoft _)
    · exact .inr (.inr (effects_huf hdo k hne))
    · exact .inr (.inr (effects_bs (s := startCommand (s.withAgenda rest)) hdo hne))
    · exact .inr (.inr (effects_ses (s := startCommand (s.withAgenda rest)) hdo hne))
  · have hreset : ∃ rest, s.agenda = .reset :: rest := ⟨rest, hag⟩
    exact ⟨rfl, fun _ => .inr (.inl hreset), fun _ _ => .inl hreset, fun _ => .inl hreset, fun _ => .inl hreset⟩
  · have hpower : ∃ rest, s.agenda = .powerOn :: rest := ⟨rest, hag⟩
    exact ⟨rfl, fun _ => .inr (.inr (.inl hpower)), fun _ _ => .inr (.inl hpower), fun _ => .inr (.inl hpower),
      fun _ => .inr (.inl hpower)⟩
  · exact ⟨hhost.par, fun hne => .inl (hhost.arg.resolve_left hne), fun k hne => absurd (by rw [hhost.huf]) hne,
      fun hne => absurd hhost.bs hne, fun hne => absurd hhost.ses hne⟩

end Sys2Proof.Machine
end

section
/-! SUPPORT. The engine's turn and the host's register accesses (10 R32, R33, R45), and the register words bit by bit (10 R36, R38, R39, R44). -/

namespace Sys2Proof.Machine

/-! ### The engine's turn -/

theorem runLatched_of_decode {s : State} {i : Instr} (h : decode s.lcmd = .ok i) : runLatched s = exec i s := by
  simp only [runLatched, h]

theorem engineTurn_busy {s : State} {i : Instr} (hb : s.busy = true) (h : decode s.lcmd = .ok i) :
    engineTurn s = exec i s := by
  rw [engineTurn, if_pos hb, runLatched_of_decode h]

theorem engineTurn_idle {s : State} (hb : s.busy = false) : engineTurn s = .next s := by
  rw [engineTurn, hb, if_neg Bool.false_ne_true]

theorem step_cons {s : State} {e : Event} {rest : List Event} (h : s.agenda = e :: rest) :
    step s = runEvent e rest s := by
  simp only [step, h]

theorem step_nil {s : State} (h : s.agenda = []) : step s = engineTurn s := by
  simp only [step, h]

/-- Settles O4: an engine turn runs the latched command, and an idle engine takes none. -/
theorem stepRunsTheLatchedCommand : Obligations.StepRunsTheLatchedCommand := by
  refine fun s i rest => ⟨fun hb hi => ⟨fun h => ?_, fun h => ?_, fun h => ?_⟩,
    fun hb => ⟨fun h => ?_, fun h => ?_, fun h => ?_⟩⟩
  · rw [step_nil h, engineTurn_busy hb hi]
  · rw [step_cons h]
    exact engineTurn_busy (s := s.withAgenda rest) hb hi
  · rw [step_cons h, runEvent, hostWait, if_pos hb, runLatched_of_decode hi]
  · rw [step_nil h, engineTurn_idle hb]
  · rw [step_cons h]
    exact engineTurn_idle (s := s.withAgenda rest) hb
  · rw [step_cons h, runEvent, hostWait, if_neg (by simp [hb])]
    rfl

/-! ### Host accesses to registers -/

theorem step_regWrite {s : State} {o : Nat} {v : Word} {rest : List Event} (h : s.agenda = .regWrite o 4 v :: rest)
    (ho : o % 4 = 0) (hlt : o < 256) : step s = .next ((s.withAgenda rest).writeReg o v) := by
  rw [step_cons h, runEvent, hostRegWrite, if_pos (by simp [accessForm, ho, hlt])]

theorem step_regRead {s : State} {o : Nat} {rest : List Event} (h : s.agenda = .regRead o 4 :: rest)
    (ho : o % 4 = 0) (hlt : o < 256) : step s = .next { s with agenda := rest, hostData := s.readReg o } := by
  rw [step_cons h, runEvent, hostRegRead, if_pos (by simp [accessForm, ho, hlt])]
  rfl

theorem writeReg_cmd (s : State) (v : Word) :
    s.writeReg 0x00 v = if s.busy then overrunCommand s else acceptCommand v s := rfl

/-- The registers past ARG3 take no host write (10 R30). -/
theorem writeReg_ignored {s : State} {o : Nat} (h : 0x14 ≤ o) (v : Word) : s.writeReg o v = s := by
  unfold State.writeReg
  split
  on_goal 6 => rfl
  all_goals exact absurd h (by decide)

/-- The reserved offsets read 0 (10 R32). -/
theorem readReg_reserved {s : State} {o : Nat} (h : 0x64 ≤ o) : s.readReg o = 0 := by
  unfold State.readReg
  split
  on_goal 26 => rfl
  all_goals exact absurd h (by decide)

/-- Settles O5: the two branches of a CMD write. -/
theorem commandWriteIsAcceptedOrIgnored : Obligations.CommandWriteIsAcceptedOrIgnored := by
  intro s w rest h
  have hstep := step_regWrite h rfl (by decide)
  rw [writeReg_cmd] at hstep
  refine ⟨fun hb => ?_, fun hb => ?_⟩
  · rw [hstep, if_neg (by simp [hb])]
    rfl
  · rw [hstep, if_pos (by simpa using hb)]
    rfl

/-- Settles O7: each offset in turn, writing and reading. -/
theorem registerMap : Obligations.RegisterMap := by
  refine fun s o v rest ho hlt => ⟨fun h => ?_, fun h => ⟨_, step_regRead h ho hlt, ?_⟩⟩
  · rw [step_regWrite h ho hlt]
    refine ⟨?_, ?_, ?_, ?_, fun hbig => by rw [writeReg_ignored hbig]; rfl⟩ <;> rintro rfl <;> rfl
  · and_intros
    on_goal 26 => exact readReg_reserved
    all_goals rintro rfl; rfl

/-! ### Register words -/

/-- Bit i of a word whose field at bit `lo` is `x` (00 R8). -/
theorem getElem_fieldAt {n : Nat} (x : BitVec n) (lo i : Nat) (h : i < 32) :
    (fieldAt x.toNat lo)[i] = (decide (lo ≤ i) && x.getLsbD (i - lo)) := by
  simp [fieldAt, ← BitVec.getLsbD_eq_getElem, BitVec.getLsbD_ofNat, Nat.testBit_shiftLeft, BitVec.testBit_toNat, h]

/-- Bit i of a word whose bit `lo` is the flag `b`. -/
theorem getElem_fieldAt_flag (b : Bool) (lo i : Nat) (h : i < 32) :
    (fieldAt b.toNat lo)[i] = (decide (i = lo) && b) := by
  have hi : (lo ≤ i ∧ i - lo = 0) ↔ i = lo := by omega
  rw [← BitVec.toNat_ofBool, getElem_fieldAt, BitVec.getLsbD_ofBool, ← Bool.and_assoc, ← Bool.decide_and]
  simp only [hi]

/-- The MODE field's bits (10 R39). -/
def Mode.bits (m : Mode) : BitVec 4 := BitVec.ofNat 4 m.toNat

/-- The SSTATE field's bits (10 R39). -/
def SState.bits (st : SState) : BitVec 2 := BitVec.ofNat 2 st.toNat

theorem Mode.toNat_eq_bits (m : Mode) : m.toNat = m.bits.toNat := by cases m <;> rfl

theorem SState.toNat_eq_bits (st : SState) : st.toNat = st.bits.toNat := by cases st <;> rfl

theorem flag_eq_toNat (ord : BitOrder) : ord.flag = (ord == .msb).toNat := by cases ord <;> rfl

/-- A field of a register word is the value whose bits stand there. -/
theorem extractLsb'_eq_of_bits {w : Word} {lo n : Nat} {x : BitVec n} (h : ∀ i < n, w.getLsbD (lo + i) = x.getLsbD i) :
    w.extractLsb' lo n = x := by
  refine BitVec.eq_of_getLsbD_eq fun i hi => ?_
  simpa [hi] using h i hi

/-- STATUS bit by bit (10 R36). -/
theorem getElem_statusWord (s : State) (i : Nat) (h : i < 32) : s.statusWord[i] =
    (decide (i = 0) && s.busy || decide (i = 1) && s.status.overrun || decide (i = 2) && s.status.needMore ||
     decide (i = 3) && s.status.done || decide (i = 4) && s.status.err ||
     decide (8 ≤ i) && s.status.errCode.getLsbD (i - 8)) := by
  simp only [State.statusWord, BitVec.getElem_or, getElem_fieldAt, getElem_fieldAt_flag]

/-- BS_CTRL bit by bit (10 R38). -/
theorem getElem_bitSeqWord (b : BitSeq) (i : Nat) (h : i < 32) :
    b.ctrlWord[i] = (decide (i = 0) && b.ord == .msb || decide (i = 1) && b.valid) := by
  simp only [BitSeq.ctrlWord, BitVec.getElem_or, flag_eq_toNat, getElem_fieldAt_flag]

/-- S_CTRL bit by bit (10 R39). -/
theorem getElem_sessionWord (ses : Session) (i : Nat) (h : i < 32) : ses.ctrlWord[i] =
    (ses.mode.bits.getLsbD i || decide (i = 4) && ses.ord == .msb ||
     decide (8 ≤ i) && ses.lit.getLsbD (i - 8) || decide (12 ≤ i) && ses.bmode.getLsbD (i - 12) ||
     decide (16 ≤ i) && ses.sstate.bits.getLsbD (i - 16) || decide (24 ≤ i) && ses.serr.getLsbD (i - 24)) := by
  simp only [Session.ctrlWord, BitVec.getElem_or, flag_eq_toNat, Mode.toNat_eq_bits, SState.toNat_eq_bits,
    getElem_fieldAt, getElem_fieldAt_flag, Nat.zero_le, Nat.sub_zero, decide_true, Bool.true_and]

/-- HUF_VALID bit by bit (10 R44). -/
theorem getElem_hufValidWord (s : State) (i : Nat) (h : i < 32) : s.hufValidWord[i] =
    (decide (i = 0) && s.huf[0].valid || decide (i = 1) && s.huf[1].valid || decide (i = 2) && s.huf[2].valid ||
     decide (i = 3) && s.huf[3].valid) := by
  simp only [State.hufValidWord, BitVec.getElem_or, getElem_fieldAt_flag]

theorem statusWord_fields (s : State) :
    s.statusWord.extractLsb' 5 3 = 0 ∧ s.statusWord.extractLsb' 8 5 = s.status.errCode ∧
    s.statusWord.extractLsb' 13 19 = 0 := by
  refine ⟨extractLsb'_eq_of_bits fun i hi => ?_, extractLsb'_eq_of_bits fun i hi => ?_,
    extractLsb'_eq_of_bits fun i hi => ?_⟩
  all_goals interval_cases i
  all_goals simp [getElem_statusWord]

theorem bitSeqWord_reserved (b : BitSeq) : b.ctrlWord.extractLsb' 2 30 = 0 := by
  refine extractLsb'_eq_of_bits fun i hi => ?_
  interval_cases i <;> simp [getElem_bitSeqWord]

theorem sessionWord_fields (ses : Session) :
    ses.ctrlWord.extractLsb' 0 4 = ses.mode.bits ∧ ses.ctrlWord.extractLsb' 5 3 = 0 ∧
    ses.ctrlWord.extractLsb' 8 4 = ses.lit ∧ ses.ctrlWord.extractLsb' 12 2 = ses.bmode ∧
    ses.ctrlWord.extractLsb' 14 2 = 0 ∧ ses.ctrlWord.extractLsb' 16 2 = ses.sstate.bits ∧
    ses.ctrlWord.extractLsb' 18 6 = 0 ∧ ses.ctrlWord.extractLsb' 24 5 = ses.serr ∧
    ses.ctrlWord.extractLsb' 29 3 = 0 := by
  and_intros
  all_goals refine extractLsb'_eq_of_bits fun i hi => ?_
  all_goals interval_cases i
  all_goals simp [getElem_sessionWord]

theorem hufValidWord_slot (s : State) (k : Fin 4) : s.hufValidWord.getLsbD k.val = s.huf[k].valid := by
  fin_cases k <;> simp [getElem_hufValidWord]

theorem hufValidWord_reserved (s : State) {k : Nat} (hk : 4 ≤ k) : s.hufValidWord.getLsbD k = false := by
  by_cases h : k < 32
  · have h0 : k ≠ 0 ∧ k ≠ 1 ∧ k ≠ 2 ∧ k ≠ 3 := by omega
    rw [BitVec.getLsbD_eq_getElem h, getElem_hufValidWord]
    simp [h0]
  · exact BitVec.getLsbD_of_ge _ _ (not_lt.mp h)

/-- Settles O8: each word bit by bit. -/
theorem statusWordFields : Obligations.StatusWordFields := by
  intro s
  obtain ⟨hst1, hst2, hst3⟩ := statusWord_fields s
  obtain ⟨hmode, hz1, hlit, hbmode, hz2, hsstate, hz3, hserr, hz4⟩ := sessionWord_fields s.ses
  refine ⟨⟨?_, ?_, ?_, ?_, ?_, hst1, hst2, hst3⟩, ⟨?_, ?_, bitSeqWord_reserved s.bs⟩,
    ⟨?_, ?_, hz1, hlit, hbmode, hz2, ?_, hz3, hserr, hz4⟩, hufValidWord_slot s, fun _ hk => hufValidWord_reserved s hk⟩
  · simp [getElem_statusWord]
  · simp [getElem_statusWord]
  · simp [getElem_statusWord]
  · simp [getElem_statusWord]
  · simp [getElem_statusWord]
  · simp [getElem_bitSeqWord]
  · simp [getElem_bitSeqWord]
  · rw [hmode]
    cases s.ses.mode <;> rfl
  · simp [getElem_sessionWord]
  · rw [hsstate]
    cases s.ses.sstate <;> rfl

end Sys2Proof.Machine
end

section
/-! SUPPORT. The host's accesses to buffer memory and to registers of another form (20 R80, R82, R88, R91), and the two ends of a race (20 R95). -/

namespace Sys2Proof.Machine

/-! ### The form of a register access -/

theorem accessForm_iff {offset bytes : Nat} (hlt : offset < 256) :
    accessForm offset bytes = true ↔ bytes = 4 ∧ offset % 4 = 0 := by
  simp [accessForm, hlt]

/-- A register access of a form the interface does not have (20 R88). -/
theorem step_register_refused {s : State} {o b : Nat} {v : Word} {rest : List Event}
    (h : s.agenda = .regWrite o b v :: rest ∨ s.agenda = .regRead o b :: rest) (hform : ¬ accessForm o b = true) :
    step s = .refused .registerAccessForm := by
  rcases h with h | h <;> rw [step_cons h, runEvent]
  · rw [hostRegWrite, if_neg hform]
  · rw [hostRegRead, if_neg hform]

/-- Settles O9: the two forms, each for writing and reading. -/
theorem registerAccessForm : Obligations.RegisterAccessForm := by
  refine fun s o b v rest hlt h => ⟨fun ⟨hb, ho⟩ => ?_, fun hform => ?_⟩
  · subst hb
    rcases h with h | h
    · exact ⟨_, step_regWrite h ho hlt⟩
    · exact ⟨_, step_regRead h ho hlt⟩
  · exact step_register_refused h (mt (accessForm_iff hlt).mp hform)

/-! ### One event at an address of buffer memory -/

theorem inRange_one_iff {s : State} {a : Nat} : s.inRange a 1 = true ↔ a < memSize s.par := by
  simp [State.inRange, Nat.ble_eq]

/-- An address at or above MEM_SIZE does not exist (20 R80). -/
theorem step_memory_absent {s : State} {a : Nat} {v : Byte} {rest : List Event} (ha : memSize s.par ≤ a)
    (h : s.agenda = .memWrite a v :: rest ∨ s.agenda = .memRead a :: rest) :
    step s = .fault .hostAddressAbsent := by
  have hout : ¬ (s.withAgenda rest).inRange a 1 = true := fun hin => Nat.not_lt.mpr ha (inRange_one_iff.mp hin)
  rcases h with h | h <;> rw [step_cons h, runEvent]
  · rw [hostMemWrite, if_neg hout]
  · rw [hostMemRead, if_neg hout]

section
variable {s : State} {a : Nat} {v : Byte} {rest : List Event}

theorem step_memWrite_idle (ha : a < memSize s.par) (h : s.agenda = .memWrite a v :: rest) (hb : s.busy = false) :
    step s = .next { s with agenda := rest, mem := Memory.put s.mem a v } := by
  have hin : (s.withAgenda rest).inRange a 1 = true := inRange_one_iff.mpr ha
  rw [step_cons h, runEvent, hostMemWrite, if_pos hin, if_neg (by simp [hb])]
  rfl

theorem step_memWrite_busy (ha : a < memSize s.par) (h : s.agenda = .memWrite a v :: rest) (hb : s.busy = true) :
    step s = .next { s with agenda := rest, raced := addRaced s.raced a v } := by
  have hin : (s.withAgenda rest).inRange a 1 = true := inRange_one_iff.mpr ha
  rw [step_cons h, runEvent, hostMemWrite, if_pos hin, if_pos (by simp [hb])]
  rfl

theorem step_memRead (ha : a < memSize s.par) (h : s.agenda = .memRead a :: rest) :
    step s = .next { s with
      agenda := rest, hostData := ((s.withAgenda rest).hostReads a).zeroExtend 32, drawNo := s.drawNo + 1 } := by
  have hin : (s.withAgenda rest).inRange a 1 = true := inRange_one_iff.mpr ha
  rw [step_cons h, runEvent, hostMemRead, if_pos hin]
  rfl

/-! ### Bytes after a host write -/

/-- A write to memory while nothing races (20 R82). -/
theorem hostByte_put (hs : s.raced = []) (b : Nat) :
    State.hostByte { s with agenda := rest, mem := Memory.put s.mem a v } b = if b = a then v else s.hostByte b := by
  rw [State.hostByte_of_no_race hs, State.hostByte_of_no_race (by exact hs)]
  exact State.memByte_engWrite s a b v

/-- All that a racing write does to the record (20 R95; log 7). -/
theorem racedAt_addRaced (b : Nat) :
    State.racedAt { s with agenda := rest, raced := addRaced s.raced a v } b =
      if b = a then some (((s.racedAt a).map (·.again v)).getD ⟨a, v, [], false⟩) else s.racedAt b :=
  find_addRaced_entry s.raced a b v

/-- The host's view of a byte: its last racing write if there is one, else memory. -/
theorem State.hostByte_eq_getD (s : State) (a : Nat) :
    s.hostByte a = ((s.racedAt a).map RacedByte.last).getD (s.memByte a) := by
  unfold State.hostByte
  cases s.racedAt a <;> rfl

/-- The host sees its own racing write at once (20 R95). -/
theorem hostByte_addRaced (b : Nat) :
    State.hostByte { s with agenda := rest, raced := addRaced s.raced a v } b = if b = a then v else s.hostByte b := by
  have hlast := find_addRaced s.raced a b v
  rw [State.hostByte_eq_getD, State.hostByte_eq_getD, State.racedAt, hlast]
  split <;> rfl

end

/-! ### What a host read returns -/

theorem hostReads_idle {s : State} (hb : s.busy = false) (a : Nat) : s.hostReads a = s.hostByte a := by
  rw [State.hostReads, hb, if_neg Bool.false_ne_true]

theorem hostReads_old_or_turn (s : State) (a : Nat) :
    s.hostReads a = s.hostByte a ∨ s.hostReads a = byteAfterTurn a s := by
  unfold State.hostReads
  dsimp only
  split
  · split
    · exact .inl rfl
    · split
      · exact .inr rfl
      · exact .inl rfl
  · exact .inl rfl

/-- While BUSY = 1 the engine's transition answers a next state, whose byte the read may already see (20 R91). -/
theorem byteAfterTurn_engineTurn {s : State} (hb : s.busy = true) (a : Nat) :
    ∃ u, engineTurn s = .next u ∧ byteAfterTurn a s = u.hostByte a := by
  obtain ⟨r, hr, -⟩ := runLatched_next s
  exact ⟨r.finish, by rw [engineTurn, if_pos hb, hr], by rw [byteAfterTurn, hr]⟩

/-- Settles O11: an idle write stores, a busy write is recorded, and a read sees one side of the engine's turn. -/
theorem hostMemoryAccess : Obligations.HostMemoryAccess := by
  refine fun s a v rest ⟨hidle, _⟩ => ⟨step_memory_absent, fun ha h => ?_, fun ha h => ⟨_, step_memRead ha h, ?_, ?_⟩⟩
  · rcases Bool.eq_false_or_eq_true s.busy with hb | hb
    · refine ⟨_, step_memWrite_busy ha h hb, (hostByte_addRaced a).trans (if_pos rfl),
        fun b hne => (hostByte_addRaced b).trans (if_neg hne), rfl, by simp [hb],
        fun _ => ⟨rfl, fun b hne => (racedAt_addRaced b).trans (if_neg hne), fun hr => ?_, fun r hr => ?_⟩⟩
      all_goals rw [racedAt_addRaced, if_pos rfl, hr]; rfl
    · exact ⟨_, step_memWrite_idle ha h hb, (hostByte_put (hidle hb) a).trans (if_pos rfl),
        fun b hne => (hostByte_put (hidle hb) b).trans (if_neg hne), rfl, fun _ => rfl, by simp [hb]⟩
  · exact fun hb => hostReads_idle (s := s.withAgenda rest) hb a
  · intro hb
    obtain ⟨u, hu, hnew⟩ := byteAfterTurn_engineTurn (s := s.withAgenda rest) hb a
    exact (hostReads_old_or_turn _ a).imp id fun hread => ⟨u, hu, hread.trans hnew⟩

/-! ### The two ends of a race -/

theorem engByte_of_not_raced {s : State} {a : Nat} (h : s.racedAt a = none) (site : List Nat) :
    s.engByte site a = s.memByte a := by
  simp only [State.engByte, h]

/-- Whatever the free choice, an engine read of a raced byte gives one of the values it may have (20 R95). -/
theorem engByte_mem_of_raced {s : State} {a : Nat} {r : RacedByte} (h : s.racedAt a = some r) (site : List Nat) :
    s.engByte site a ∈ s.memByte a :: r.last :: r.earlier := by
  have hpick : Config.racePick s.drawNo site a % (s.memByte a :: r.last :: r.earlier).length <
      (s.memByte a :: r.last :: r.earlier).length := Nat.mod_lt _ (by simp)
  simp only [State.engByte, h]
  rw [List.getD_eq_getElem _ _ hpick]
  exact List.getElem_mem _

/-- A raced byte ends as the host's last value or as memory holds it, whoever wrote it. -/
theorem hostByte_finishCommand_of_raced {s : State} {a : Nat} {r : RacedByte} (hs : RacedOnce s)
    (h : s.racedAt a = some r) : (finishCommand s).hostByte a = r.last ∨ (finishCommand s).hostByte a = s.memByte a := by
  obtain ⟨-, -, hends⟩ := find_settle s.raced s.drawNo s.mem a
  rw [State.hostByte_of_no_race rfl]
  simp only [State.memByte, finishCommand_mem, finishCommand_powerEpoch]
  rcases hends r hs h with hfind | hfind <;> rw [hfind]
  · exact .inl rfl
  · exact .inr rfl

/-- Settles O12: the two ends of a race, for a byte that is in the record and for one that is not. -/
theorem racedByteIsEitherValue : Obligations.RacedByteIsEitherValue := by
  refine fun s a hs => ⟨fun hnone => ⟨engByte_of_not_raced hnone, ?_⟩, fun r hr => ⟨engByte_mem_of_raced hr, ?_, ?_⟩⟩
  · rw [hostByte_finishCommand (by simp [hnone]), State.hostByte_eq_getD, hnone]
    rfl
  · intro hw
    rw [hostByte_finishCommand (by simp [hr, hw]), State.hostByte_eq_getD, hr]
    rfl
  · exact fun _ => hostByte_finishCommand_of_raced hs hr

end Sys2Proof.Machine
end

section
/-! SUPPORT. The decoder and the encoder of command words (30 R110 to R116): the fields a word carries for a command, the row that an opcode selects, and the refusal of every other word. -/

namespace Sys2Proof.Machine

/-! ### Words and their fields (30 R110) -/

/-- A word carries a command: OPC, A and B are the command's, each field in its 8 bits, and RSV is 0 (30 R116). -/
def Carries (w : Word) (i : Instr) : Prop :=
  i.wellFormed = true ∧ (fieldOpc w).toNat = i.opcode ∧ (fieldA w).toNat = i.fieldA ∧
  (fieldB w).toNat = i.fieldB ∧ fieldRsv w = 0

theorem word_eq_fields (w : Word) : w = fieldRsv w ++ (fieldB w ++ (fieldA w ++ fieldOpc w)) := by
  simp only [fieldRsv, fieldB, fieldA, fieldOpc, BitVec.extractLsb'_append_extractLsb'_eq_extractLsb',
    BitVec.extractLsb'_eq_self]

theorem word_ext_iff {w v : Word} : w = v ↔
    fieldOpc w = fieldOpc v ∧ fieldA w = fieldA v ∧ fieldB w = fieldB v ∧ fieldRsv w = fieldRsv v := by
  refine ⟨fun h => h ▸ ⟨rfl, rfl, rfl, rfl⟩, fun ⟨ho, ha, hb, hr⟩ => ?_⟩
  rw [word_eq_fields w, word_eq_fields v, ho, ha, hb, hr]

/-- No other word carries the same command. -/
theorem Carries.word_unique {w v : Word} {i : Instr} (hw : Carries w i) (hv : Carries v i) : w = v := by
  obtain ⟨-, ho, ha, hb, hr⟩ := hw
  obtain ⟨-, ho', ha', hb', hr'⟩ := hv
  exact word_ext_iff.mpr ⟨BitVec.eq_of_toNat_eq (ho.trans ho'.symm), BitVec.eq_of_toNat_eq (ha.trans ha'.symm),
    BitVec.eq_of_toNat_eq (hb.trans hb'.symm), hr.trans hr'.symm⟩

theorem encodedInRow (i : Instr) : Laws.EncodedInRow.Statement i := by
  cases i with
  | nop => exact Laws.EncodedInRow.nop
  | bsInit ord => exact Laws.EncodedInRow.bsInit ord
  | bsAppend n => exact Laws.EncodedInRow.bsAppend n
  | bsReadBit => exact Laws.EncodedInRow.bsReadBit
  | hufBuildCanon n => exact Laws.EncodedInRow.hufBuildCanon n
  | hufBuildWeighted n => exact Laws.EncodedInRow.hufBuildWeighted n
  | hufGetCode n => exact Laws.EncodedInRow.hufGetCode n
  | hufEncode n => exact Laws.EncodedInRow.hufEncode n
  | hufMatch n => exact Laws.EncodedInRow.hufMatch n
  | hufDecodeBs n => exact Laws.EncodedInRow.hufDecodeBs n
  | lzwDecStart ord n => exact Laws.EncodedInRow.lzwDecStart ord n
  | lzwEncStart ord n => exact Laws.EncodedInRow.lzwEncStart ord n
  | dflDecStart => exact Laws.EncodedInRow.dflDecStart
  | dflEncStart n => exact Laws.EncodedInRow.dflEncStart n
  | feed complete => exact Laws.EncodedInRow.feed complete
  | sessionEnd => exact Laws.EncodedInRow.sessionEnd
  | lz77Match => exact Laws.EncodedInRow.lz77Match
  | softReset => exact Laws.EncodedInRow.softReset

theorem carries_encode {i : Instr} (hi : i.wellFormed = true) : Carries (encode i) i :=
  ⟨hi, (encodedInRow i hi).2⟩

/-! ### The fields of a decoded word (30 R111 to R113) -/

@[simp] theorem whenFixedZero_eq_ok {ok : Bool} {i j : Instr} : whenFixedZero ok i = .ok j ↔ ok = true ∧ i = j := by
  cases ok <;> simp [whenFixedZero]

/-- A flag field with its reserved bits 0 is its bit 0 (30 R111). -/
theorem flag_eq_iff (a : BitVec 8) (c : Bool) : a.toNat = c.toNat ↔ flagClean a = true ∧ a[0] = c := by
  revert a c
  decide

theorem orderFlag_eq_iff (a : BitVec 8) (ord : BitOrder) :
    a.toNat = ord.flag ↔ flagClean a = true ∧ orderOfFlag a = ord := by
  cases ord with
  | lsb => simpa [orderOfFlag, BitOrder.flag] using flag_eq_iff a false
  | msb => simpa [orderOfFlag, BitOrder.flag] using flag_eq_iff a true

@[simp] theorem fitsField_toNat (b : BitVec 8) : fitsField b.toNat = true := by
  simpa [fitsField] using b.isLt

/-- A word that carries a command passes the checks of the command's arm, which reads the command back. -/
theorem decode_of_carries {w : Word} {i : Instr} (h : Carries w i) : decode w = .ok i := by
  obtain ⟨-, hopc, ha, hb, hrsv⟩ := h
  unfold decode decodeFields
  rw [hopc]
  cases i
  all_goals
    simp only [Instr.fieldA, Instr.fieldB, orderFlag_eq_iff, flag_eq_iff] at ha hb
    simp [Instr.opcode, ha, hb, hrsv, BitVec.toNat_eq]

theorem carries_of_decode {w : Word} {i : Instr} (h : decode w = .ok i) : Carries w i := by
  unfold decode decodeFields at h
  split at h
  case h_19 => cases h -- the last arm, an opcode of no row
  all_goals
    next hopc =>
    obtain ⟨hok, rfl⟩ := whenFixedZero_eq_ok.mp h
    simp only [Bool.and_eq_true, beq_iff_eq] at hok
    refine ⟨?wf, hopc, ?a, ?b, ?rsv⟩
    case wf => simp [Instr.wellFormed]
    case rsv => simp [hok]
    case a => simp [Instr.fieldA, orderFlag_eq_iff, flag_eq_iff, hok]
    case b => simp [Instr.fieldB, hok]

/-! ### The row of an opcode (30 R112, R113) -/

theorem byte_and_ones (b : BitVec 8) : b &&& 0xFF#8 = b := BitVec.and_allOnes

/-- Every row compares OPC and RSV whole, and fixes bits of A and B to 0 only. -/
theorem row_fields : ∀ r ∈ opcodeRows,
    fieldOpc r.mask = 0xFF#8 ∧ fieldRsv r.mask = 0xFF#8 ∧
    fieldA r.matchBits = 0#8 ∧ fieldB r.matchBits = 0#8 ∧ fieldRsv r.matchBits = 0#8 := by
  decide

theorem row_eq_of_opc_eq : ∀ r ∈ opcodeRows, ∀ r' ∈ opcodeRows,
    fieldOpc r.matchBits = fieldOpc r'.matchBits → r = r' := by
  decide

theorem row_matches_iff {w : Word} {r : OpcodeRow} (hr : r ∈ opcodeRows) :
    w &&& r.mask = r.matchBits ↔
      fieldOpc r.matchBits = fieldOpc w ∧ fieldA w &&& fieldA r.mask = 0#8 ∧ fieldB w &&& fieldB r.mask = 0#8 ∧
        fieldRsv w = 0#8 := by
  obtain ⟨hopc, hrsv, ha0, hb0, hrsv0⟩ := row_fields r hr
  rw [word_ext_iff, ha0, hb0, hrsv0, eq_comm (a := fieldOpc r.matchBits)]
  simp only [fieldOpc, fieldA, fieldB, fieldRsv, BitVec.extractLsb'_and] at hopc hrsv ⊢
  rw [hopc, hrsv, byte_and_ones, byte_and_ones]

/-- The decoder's arm for a row's opcode asks that the bits the row fixes are 0, and answers a command of the row. -/
theorem decodeFields_of_row {r : OpcodeRow} (hr : r ∈ opcodeRows) (a b rsv : BitVec 8) :
    ∃ i, i.row = r ∧ decodeFields (fieldOpc r.matchBits) a b rsv =
      whenFixedZero (a &&& fieldA r.mask == 0#8 && (b &&& fieldB r.mask == 0#8 && rsv == 0#8)) i := by
  simp only [opcodeRows, List.mem_cons, List.not_mem_nil, or_false] at hr
  rcases hr with rfl | rfl | rfl | rfl | rfl | rfl | rfl | rfl | rfl |
    rfl | rfl | rfl | rfl | rfl | rfl | rfl | rfl | rfl
  all_goals
    refine ⟨_, ?row, congrArg (whenFixedZero · _) (?fixed : _ = _)⟩
    case row => rfl
    case fixed => simp [fieldA, fieldB, byte_and_ones, flagClean, Bool.and_assoc]

/-- The row of a word's opcode decides whether the word is a command. -/
theorem decode_of_row {w : Word} {r : OpcodeRow} (hr : r ∈ opcodeRows) (hopc : fieldOpc r.matchBits = fieldOpc w) :
    ∃ i, i.row = r ∧ decode w = whenFixedZero (decide (w &&& r.mask = r.matchBits)) i := by
  obtain ⟨i, hrow, hdec⟩ := decodeFields_of_row hr (fieldA w) (fieldB w) (fieldRsv w)
  refine ⟨i, hrow, ?_⟩
  rw [decode, ← hopc, hdec]
  simp [row_matches_iff hr, hopc, Bool.beq_eq_decide_eq, Bool.decide_and]

theorem decode_unknownOpcode {w : Word} (h : ∀ r ∈ opcodeRows, fieldOpc r.matchBits ≠ fieldOpc w) :
    decode w = .error .unknownOpcode := by
  have hnone : ∀ r ∈ opcodeRows, (fieldOpc r.matchBits).toNat ≠ (fieldOpc w).toNat :=
    fun r hr => mt BitVec.eq_of_toNat_eq (h r hr)
  unfold decode decodeFields
  split
  case h_19 => rfl -- the last arm; every other one names the opcode of a row
  all_goals
    next hopc =>
    rw [hopc] at hnone
    exact absurd hnone (by decide)

theorem decode_fixedBitSet {w : Word} {r : OpcodeRow} (hr : r ∈ opcodeRows) (hopc : fieldOpc r.matchBits = fieldOpc w)
    (hno : w &&& r.mask ≠ r.matchBits) : decode w = .error .fixedBitSet := by
  obtain ⟨i, -, hdec⟩ := decode_of_row hr hopc
  rw [hdec, decide_eq_false hno, whenFixedZero, if_neg Bool.false_ne_true]

theorem decode_of_row_matches {w : Word} {r : OpcodeRow} (hr : r ∈ opcodeRows) (h : w &&& r.mask = r.matchBits) :
    ∃ i, decode w = .ok i ∧ i.row = r := by
  obtain ⟨i, hrow, hdec⟩ := decode_of_row hr ((row_matches_iff hr).mp h).1
  exact ⟨i, hdec.trans (whenFixedZero_eq_ok.mpr ⟨decide_eq_true h, rfl⟩), hrow⟩

theorem row_mem_opcodeRows (i : Instr) : i.row ∈ opcodeRows := by
  cases i <;> simp [Instr.row, opcodeRows]

/-! ### Words that are no command (30 R113) -/

/-- An error raised before any effect leaves everything but STATUS, ERR_DETAIL and RES as it was (60 R382). -/
theorem refusedWith_raiseError (e : Err) (s : State) : RefusedWith e s (raiseError e (startCommand s)) := by
  have hmem : MemorySame s (raiseError e (startCommand s)) := by
    intro a
    rw [hostByte_raiseError, hostByte_startCommand]
    intro r hr
    rw [racedAt_startCommand, Option.map_eq_some_iff] at hr
    obtain ⟨_, -, rfl⟩ := hr
    rfl
  exact ⟨⟨rfl, rfl, rfl, rfl⟩, ⟨rfl, rfl, rfl⟩, ⟨rfl, rfl, rfl, rfl, rfl, rfl, rfl, rfl⟩,
    ⟨rfl, rfl, rfl, rfl⟩, rfl, rfl, hmem⟩

theorem engineTurn_rejected {s : State} {d : DecodeReject} (hb : s.busy = true) (h : decode s.lcmd = .error d) :
    ∃ t, engineTurn s = .next t ∧ RefusedWith (rejectError d) s t := by
  refine ⟨_, ?_, refusedWith_raiseError (rejectError d) s⟩
  rw [engineTurn, if_pos hb, runLatched, h]
  rfl

/-! ### Encoding and decoding (30 R113, R116) -/

theorem encode_of_decode {w : Word} {i : Instr} (h : decode w = .ok i) : i.wellFormed = true ∧ encode i = w := by
  have hw := carries_of_decode h
  exact ⟨hw.1, (carries_encode hw.1).word_unique hw⟩

/-- Settles O1: a word decodes to the command it carries, and only the command's encoding carries it. -/
theorem encodeThenDecode : Obligations.EncodeThenDecode :=
  ⟨fun _ hi => decode_of_carries (carries_encode hi), fun _ _ => encode_of_decode⟩

/-- Settles O2: the row of a word's opcode decides, and the engine refuses the words that no row matches. -/
theorem decodingIsTotal : Obligations.DecodingIsTotal := by
  refine fun w => ⟨fun i hi => ⟨row_mem_opcodeRows i, ?_⟩, fun r hr => decode_of_row_matches hr,
    fun r hr r' hr' h h' => ?_, fun s hb hw => ⟨fun hnone => ?_, fun ⟨r, hr, hopc⟩ hno => ?_⟩⟩
  · obtain ⟨hwf, rfl⟩ := encode_of_decode hi
    exact (encodedInRow i hwf).1
  · exact row_eq_of_opc_eq r hr r' hr' (((row_matches_iff hr).mp h).1.trans ((row_matches_iff hr').mp h').1.symm)
  · exact engineTurn_rejected hb (hw ▸ decode_unknownOpcode hnone)
  · exact engineTurn_rejected hb (hw ▸ decode_fixedBitSet hr hopc (hno r hr))

theorem encode_and_decode {i : Instr} {w : Word} (hi : i.wellFormed = true) (hw : encode i = w) :
    encode i = w ∧ decode w = .ok i :=
  ⟨hw, hw ▸ encodeThenDecode.1 i hi⟩

/-- Settles O3: RSV of every encoded command, and the eight examples, each encoded and then decoded by O1. -/
theorem knownCommandWords : Obligations.KnownCommandWords := by
  refine ⟨fun i hi => ⟨rfl, ?_⟩, ?_, ?_, ?_, ?_, ?_, ?_, ?_, ?_⟩
  · obtain ⟨-, -, -, -, hrsv⟩ := carries_encode hi
    exact hrsv
  all_goals exact encode_and_decode rfl rfl

end Sys2Proof.Machine
end

section
/-! SUPPORT. How a command's effects end it, what the host then sees of memory, and the bits of a stream that the engine writes and reads (00 R10; 40 R142). -/

namespace Sys2Proof.Machine

/-! ### From the effects of a command to its end -/

/-- Effects that stop at their first check refuse the command (60 R382). -/
theorem completes_refused {i : Instr} {s : State} {e : Err}
    (h : effects i (startCommand s) = .fail (startCommand s) e) : Completes i s (RefusedWith e s) := by
  rw [completes_iff, h]
  exact refusedWith_raiseError e s

theorem completes_ok {i : Instr} {s u : State} {P : State → Prop} (h : effects i (startCommand s) = .ok u)
    (hP : P (finishCommand u)) : Completes i s P := by
  rw [completes_iff, h]
  exact hP

/-- The host sees no change outside the bytes that the effects wrote: races there end as the host left them. -/
theorem WritesIn.memorySameOutside {region : Nat → Prop} {s u : State} (h : WritesIn region (startCommand s) u) :
    MemorySameOutside region s (finishCommand u) := by
  intro a ha
  have hraced := h.raced a ha
  have hunwritten : ∀ r, u.racedAt a = some r → r.engineWrote = false := by
    intro r hr
    rw [hraced, racedAt_startCommand, Option.map_eq_some_iff] at hr
    obtain ⟨_, -, rfl⟩ := hr
    rfl
  calc (finishCommand u).hostByte a = u.hostByte a := hostByte_finishCommand hunwritten
    _ = (startCommand s).hostByte a := by rw [State.hostByte_eq_getD, State.hostByte_eq_getD, hraced, h.mem a ha]
    _ = s.hostByte a := hostByte_startCommand s a

theorem WritesIn.memorySame {s u : State} (h : WritesIn (fun _ => False) (startCommand s) u) :
    MemorySame s (finishCommand u) :=
  fun a => h.memorySameOutside a id

/-- A command that changed the bit sequence's registers and memory at most ends clean, with no other effect. -/
theorem finishCommand_onlyBitSeq (s : State) (b : BitSeq) (m : Memory) (r : List RacedByte) :
    EndedClean s (finishCommand { startCommand s with bs := b, mem := m, raced := r }) ∧
    ResultsAre (finishCommand { startCommand s with bs := b, mem := m, raced := r }) 0 0 0 ∧
    OnlyBitSeq s (finishCommand { startCommand s with bs := b, mem := m, raced := r }) :=
  ⟨⟨rfl, rfl, rfl, rfl⟩, ⟨rfl, rfl, rfl⟩, ⟨rfl, rfl, rfl, rfl, rfl, rfl, rfl, rfl⟩, ⟨rfl, rfl, rfl, rfl⟩, rfl⟩

/-- A command that wrote its results at most ends clean, with no other effect. -/
theorem finishCommand_onlyResults (s : State) (x y z : Nat) :
    EndedClean s (finishCommand ((startCommand s).setResults x y z)) ∧
    OnlyResults s (finishCommand ((startCommand s).setResults x y z)) ∧
    ResultsAre (finishCommand ((startCommand s).setResults x y z)) x y z :=
  ⟨⟨rfl, rfl, rfl, rfl⟩, ⟨⟨rfl, rfl, rfl, rfl, rfl, rfl, rfl, rfl⟩, ⟨rfl, rfl, rfl, rfl⟩, rfl, rfl,
    (WritesIn.of_same (s := startCommand s) (HostSideSame.refl _) rfl rfl rfl rfl).memorySame⟩, rfl, rfl, rfl⟩

/-! ### One bit of a byte -/

theorem bitPos_lt (ord : BitOrder) (i : Nat) : bitPos ord i < 8 := by
  cases ord with
  | lsb => exact Nat.mod_lt i (by decide)
  | msb => exact Nat.lt_succ_of_le (Nat.sub_le _ _)

theorem bitPos_inj {ord : BitOrder} {i j : Nat} : bitPos ord i = bitPos ord j ↔ i % 8 = j % 8 := by
  cases ord with
  | lsb => rfl
  | msb => simp only [bitPos]; omega

/-- "old with bit pos set to b" (40 R142), bit by bit. -/
theorem getLsbD_withBit (old : Byte) {p q : Nat} (b : Bool) (hq : q < 8) :
    (withBit old p b).getLsbD q = if q = p then b else old.getLsbD q := by
  have hone : (1#8 <<< p).getLsbD q = decide (q = p) := by
    rw [← BitVec.twoPow_eq, BitVec.getLsbD_twoPow, Bool.eq_iff_iff]
    simp only [Bool.and_eq_true, decide_eq_true_eq]
    omega
  cases b
  · simp only [withBit, Bool.false_eq_true, if_false, BitVec.getLsbD_and, BitVec.getLsbD_not, hone, hq]
    split_ifs with h <;> simp [h]
  · simp only [withBit, if_true, BitVec.getLsbD_or, hone]
    split_ifs with h <;> simp [h]

/-! ### The bits of a stream that the engine writes (40 R142) -/

section
variable {s : State} (hr : s.raced = [])
include hr

theorem putBit_raced (ord : BitOrder) (base i : Nat) (b : Bool) : (s.putBit ord base i b).raced = [] := by
  simp [State.putBit, hr]

/-- Writing stream bit i sets it, clears the others of a fresh byte, and leaves the others as they are. -/
theorem streamBit_putBit (ord : BitOrder) (base i j : Nat) (b : Bool) :
    (s.putBit ord base i b).streamBit ord base j =
      if j = i then b else if j / 8 = i / 8 ∧ i % 8 = 0 then false else s.streamBit ord base j := by
  have haddr : base + j / 8 = base + i / 8 ↔ j / 8 = i / 8 := by omega
  rw [State.streamBit, State.streamBit, State.hostByte_of_no_race (putBit_raced hr ord base i b),
    State.hostByte_of_no_race hr]
  simp only [State.putBit, State.memByte_engWrite, State.engByte_of_no_race hr, haddr]
  by_cases hbyte : j / 8 = i / 8
  · have hpos : bitPos ord j = bitPos ord i ↔ j = i := by rw [bitPos_inj]; omega
    simp only [hbyte, if_true, getLsbD_withBit _ _ (bitPos_lt ord j), hpos, true_and]
    split_ifs <;> simp
  · have hne : j ≠ i := fun h => hbyte (by rw [h])
    simp only [hbyte, hne, false_and, if_false]

theorem streamBit_putBits_before (ord : BitOrder) (base : Nat) (bits : List Bool) {i j : Nat} (hj : j < i) :
    (s.putBits ord base i bits).streamBit ord base j = s.streamBit ord base j := by
  induction bits generalizing i s with
  | nil => rfl
  | cons b rest ih =>
    have hne : j ≠ i := by omega
    have hfresh : ¬ (j / 8 = i / 8 ∧ i % 8 = 0) := by omega
    rw [State.putBits, ih (putBit_raced hr ord base i b) (by omega), streamBit_putBit hr, if_neg hne, if_neg hfresh]

theorem streamBit_putBits_written (ord : BitOrder) (base i : Nat) (bits : List Bool) {k : Nat} (hk : k < bits.length) :
    (s.putBits ord base i bits).streamBit ord base (i + k) = bits.getD k false := by
  induction bits generalizing i k s with
  | nil => cases hk
  | cons b rest ih =>
    have hr' := putBit_raced hr ord base i b
    cases k with
    | zero =>
      rw [Nat.add_zero, State.putBits, streamBit_putBits_before hr' _ _ _ (Nat.lt_succ_self i), streamBit_putBit hr,
        if_pos rfl]
      rfl
    | succ k =>
      rw [State.putBits, show i + (k + 1) = i + 1 + k by omega, ih hr' _ (by simpa using hk)]
      rfl

/-- A last byte that is clear behind the stream stays clear behind the bits appended to it (40 R148). -/
theorem streamBit_putBits_tail (ord : BitOrder) (base i : Nat) (bits : List Bool)
    (htail : ∀ j, i ≤ j → j < ceil8 i → s.streamBit ord base j = false) :
    ∀ j, i + bits.length ≤ j → j < ceil8 (i + bits.length) →
      (s.putBits ord base i bits).streamBit ord base j = false := by
  induction bits generalizing i s with
  | nil => exact htail
  | cons b rest ih =>
    have hstep : ∀ j, i + 1 ≤ j → j < ceil8 (i + 1) → (s.putBit ord base i b).streamBit ord base j = false := by
      intro j hle hlt
      rw [streamBit_putBit hr, if_neg (by omega)]
      split_ifs with hfresh
      · rfl
      · exact htail j (by omega) (by simp only [ceil8] at hlt ⊢; omega)
    intro j hle hlt
    rw [List.length_cons, ← Nat.add_assoc, Nat.add_right_comm] at hle hlt
    exact ih (putBit_raced hr ord base i b) (i + 1) hstep j hle hlt

theorem putBits_raced (ord : BitOrder) (base i : Nat) (bits : List Bool) : (s.putBits ord base i bits).raced = [] := by
  simpa [hr] using putBits_addrs ord base i bits s

theorem streamBit_finishCommand (ord : BitOrder) (base i : Nat) :
    (finishCommand s).streamBit ord base i = s.streamBit ord base i := by
  rw [State.streamBit, hostByte_finishCommand (by simp [State.racedAt, hr])]
  rfl

end

/-! ### The bits of a stream that the engine reads (00 R10) -/

@[simp] theorem bitAt_startCommand (s : State) (site : List Nat) (ord : BitOrder) (base i : Nat) :
    (startCommand s).bitAt site ord base i = s.bitAt site ord base i := by
  rw [State.bitAt, engByte_startCommand, State.bitAt]

/-- Without races the engine reads the bit that memory now holds (00 R10). -/
theorem bitAt_of_no_race {s : State} (hr : s.raced = []) (site : List Nat) (ord : BitOrder) (base i : Nat) :
    s.bitAt site ord base i = s.streamBit ord base i := by
  rw [State.bitAt, State.engByte_of_no_race hr, State.streamBit, State.hostByte_of_no_race hr]

end Sys2Proof.Machine
end

section
/-! SUPPORT. The bit sequence (40): BS_APPEND, BS_INIT and BS_READ_BIT, each check in its order and what the command then does. -/

namespace Sys2Proof.Machine

/-! ### Appending to the bit sequence (40 R142, R144, R148) -/

theorem bsAppendField_fields (v w : Nat) (s : State) :
    bsAppendField v w s = { s with
      mem := (bsAppendField v w s).mem, raced := (bsAppendField v w s).raced
      bs := { s.bs with bits := word (s.bs.bits.toNat + w) } } := by
  conv_lhs => rw [bsAppendField, putBits_fields]
  rfl

theorem bsAppendField_ends (v w : Nat) (s : State) :
    EndedClean s (finishCommand (bsAppendField v w (startCommand s))) ∧
    ResultsAre (finishCommand (bsAppendField v w (startCommand s))) 0 0 0 ∧
    OnlyBitSeq s (finishCommand (bsAppendField v w (startCommand s))) := by
  rw [bsAppendField_fields]
  exact finishCommand_onlyBitSeq s _ _ _

/-- A field that fits is appended as its bits in stream order. -/
theorem appendsBits_bsAppendField {s : State} (v : Nat) {w : Nat} (hfit : s.bs.bits.toNat + w ≤ 2 ^ 32 - 1) :
    AppendsBits w (fieldBits s.bs.ord v w) s (finishCommand (bsAppendField v w (startCommand s))) := by
  have hlen := fieldBits_length s.bs.ord v w
  have hbits : (word (s.bs.bits.toNat + w)).toNat = s.bs.bits.toNat + w := by
    rw [BitVec.toNat_ofNat, Nat.mod_eq_of_lt (by omega)]
  refine ⟨?_, (writesIn_bsAppendField v w (startCommand s)).memorySameOutside, fun hs => ?_⟩
  · simp [BitVec.ofNat_add]
  have hr : (startCommand s).raced = [] := by simp [hs]
  have hbit : ∀ j, (finishCommand (bsAppendField v w (startCommand s))).seqBit j =
      ((startCommand s).putBits s.bs.ord s.bs.base.toNat s.bs.bits.toNat (fieldBits s.bs.ord v w)).streamBit
        s.bs.ord s.bs.base.toNat j :=
    streamBit_finishCommand (s := bsAppendField v w (startCommand s)) (putBits_raced hr _ _ _ _) _ _
  have hold : ∀ j, (startCommand s).streamBit s.bs.ord s.bs.base.toNat j = s.seqBit j := fun j => by
    rw [State.streamBit, hostByte_startCommand]; rfl
  refine ⟨fun i hi => ?_, fun k hk => ?_, fun htail => ?_⟩
  · rw [hbit, streamBit_putBits_before hr _ _ _ hi, hold]
  · rw [hbit, streamBit_putBits_written hr _ _ _ _ (by rwa [hlen])]
  · have hclear := streamBit_putBits_tail hr s.bs.ord s.bs.base.toNat s.bs.bits.toNat (fieldBits s.bs.ord v w)
      fun j hle hlt => (hold j).trans (htail j hle hlt)
    intro j hle hlt
    rw [finishCommand_bs, bsAppendField_bs, startCommand_bs, hbits] at hle hlt
    rw [hbit]
    exact hclear j (by rwa [hlen]) (by rwa [hlen])

theorem BitSeq.full_iff (b : BitSeq) (w : Nat) :
    b.full w = true ↔ b.cap.toNat < bytesOfBits (b.bits.toNat + w) ∨ 2 ^ 32 - 1 < b.bits.toNat + w := by
  simp only [BitSeq.full, Bool.or_eq_true, decide_eq_true_eq, gt_iff_lt]

/-! ### The checks of BS_APPEND, in their order (40 R144) -/

section
variable {w : Nat} {s : State}

theorem bsAppendEffects_width (h : w < 1 ∨ 32 < w) : bsAppendEffects w s = .fail s Err.widthRange := if_pos h

variable (hlo : 1 ≤ w) (hhi : w ≤ 32)
include hlo hhi

theorem bsAppendEffects_noBitSeq (hv : s.bs.valid = false) : bsAppendEffects w s = .fail s Err.noBitSeq := by
  rw [bsAppendEffects, if_neg (by omega), if_pos (by simp [hv])]

variable (hv : s.bs.valid = true)
include hv

/-- No operand is too wide for a field of 32 bits, so the check speaks of narrower fields only. -/
theorem bsAppendEffects_valueTooWide (h : 2 ^ w ≤ s.arg0) : bsAppendEffects w s = .fail s Err.valueTooWide := by
  have hw : w < 32 := (Nat.pow_lt_pow_iff_right (by decide)).mp (h.trans_lt s.larg.a0.isLt)
  rw [bsAppendEffects, if_neg (by omega), if_neg (by simp [hv]), if_pos ⟨hw, h⟩]

variable (hval : s.arg0 < 2 ^ w)
include hval

theorem bsAppendEffects_full
    (h : s.bs.cap.toNat < bytesOfBits (s.bs.bits.toNat + w) ∨ 2 ^ 32 - 1 < s.bs.bits.toNat + w) :
    bsAppendEffects w s = .fail s Err.bitSeqFull := by
  rw [bsAppendEffects, if_neg (by omega), if_neg (by simp [hv]), if_neg (by omega), if_pos ((s.bs.full_iff w).mpr h)]

theorem bsAppendEffects_fits (hcap : bytesOfBits (s.bs.bits.toNat + w) ≤ s.bs.cap.toNat)
    (hlen : s.bs.bits.toNat + w ≤ 2 ^ 32 - 1) : bsAppendEffects w s = .ok (bsAppendField s.arg0 w s) := by
  have hfull : ¬ s.bs.full w = true := by rw [BitSeq.full_iff]; omega
  rw [bsAppendEffects, if_neg (by omega), if_neg (by simp [hv]), if_neg (by omega), if_neg hfull]

end

/-- Settles O17: each check refuses in its turn, and a field that fits is appended bit by bit. -/
theorem bsAppendAppendsTheField : Obligations.BsAppendAppendsTheField := by
  refine fun w s => ⟨fun h => completes_refused (bsAppendEffects_width h),
    fun hlo hhi hv => completes_refused (bsAppendEffects_noBitSeq hlo hhi hv),
    fun hlo hhi hv h => completes_refused (bsAppendEffects_valueTooWide hlo hhi hv h),
    fun hlo hhi hv hval => ⟨fun h => completes_refused (bsAppendEffects_full hlo hhi hv hval h),
      fun hcap hlen => completes_ok (u := bsAppendField s.arg0 w (startCommand s))
        (bsAppendEffects_fits hlo hhi hv hval hcap hlen) ?_⟩⟩
  obtain ⟨hend, hres, honly⟩ := bsAppendField_ends s.arg0 w s
  refine ⟨hend, hres, honly, ?_⟩
  convert appendsBits_bsAppendField s.arg0 hlen using 1
  cases s.bs.ord <;> rfl

/-! ### BS_INIT (40 R143) -/

theorem State.inRange_iff (s : State) (addr len : Nat) : s.inRange addr len = true ↔ addr + len ≤ memSize s.par :=
  Nat.ble_eq.to_iff

theorem bsInitEffects_misfit {ord : BitOrder} {s : State} (h : memSize s.par < s.arg0 + s.arg1) :
    bsInitEffects ord s = .fail s Err.addressRange := by
  have hout : s.inRange s.arg0 s.arg1 = false := by rw [← Bool.not_eq_true, State.inRange_iff]; omega
  rw [bsInitEffects, hout]
  rfl

theorem bsInitEffects_fits {ord : BitOrder} {s : State} (h : s.arg0 + s.arg1 ≤ memSize s.par) : bsInitEffects ord s =
    .ok { s with bs := { base := s.larg.a0, cap := s.larg.a1, bits := 0, ord := ord, valid := true } } := by
  rw [bsInitEffects, (s.inRange_iff _ _).mpr h]
  rfl

/-- Settles O16: the region check, and the registers that BS_INIT sets. -/
theorem bsInitStartsAnEmptySequence : Obligations.BsInitStartsAnEmptySequence := by
  refine fun ord s => ⟨fun h => completes_refused (bsInitEffects_misfit h),
    fun h => completes_ok (bsInitEffects_fits (s := startCommand s) h) ?_⟩
  obtain ⟨hend, hres, honly⟩ := finishCommand_onlyBitSeq s ⟨s.larg.a0, s.larg.a1, 0, ord, true⟩ s.mem
    (clearWritten s.raced)
  exact ⟨hend, hres, honly, (WritesIn.of_same (s := startCommand s) (HostSideSame.refl _) rfl rfl rfl rfl).memorySame, rfl⟩

/-! ### BS_READ_BIT (40 R145) -/

theorem bsReadBitEffects_noBitSeq {s : State} (hv : s.bs.valid = false) :
    bsReadBitEffects s = .fail s Err.noBitSeq := by
  rw [bsReadBitEffects, if_pos (by simp [hv])]

theorem bsReadBitEffects_bitIndex {s : State} (hv : s.bs.valid = true) (h : s.bs.bits.toNat ≤ s.arg0) :
    bsReadBitEffects s = .fail s Err.bitIndex := by
  rw [bsReadBitEffects, if_neg (by simp [hv]), if_pos h]

theorem bsReadBitEffects_read {s : State} (hv : s.bs.valid = true) (h : s.arg0 < s.bs.bits.toNat) :
    bsReadBitEffects s = .ok (s.setResults (s.bitAt [s.arg0] s.bs.ord s.bs.base.toNat s.arg0).toNat 0 0) := by
  rw [bsReadBitEffects, if_neg (by simp [hv]), if_neg (by omega)]

/-- Settles O18: the checks in their order, and the bit as the engine reads it. -/
theorem bsReadBitReadsTheBit : Obligations.BsReadBitReadsTheBit := by
  refine fun s => ⟨fun hv => completes_refused (bsReadBitEffects_noBitSeq hv),
    fun hv h => completes_refused (bsReadBitEffects_bitIndex hv h),
    fun hv h => completes_ok (bsReadBitEffects_read (s := startCommand s) hv h) ?_⟩
  rw [bitAt_startCommand]
  obtain ⟨hend, honly, hres⟩ :=
    finishCommand_onlyResults s (s.bitAt [s.arg0] s.bs.ord s.bs.base.toNat s.arg0).toNat 0 0
  refine ⟨hend, honly, hres, fun hr => ?_⟩
  rw [State.seqBit, ← bitAt_of_no_race hr [s.arg0]]
  exact hres

end Sys2Proof.Machine
end

section
/-! SUPPORT. The value of bits that come most significant first (00 R11; 41 R169, R172): the first bits of a source of bits, and the paths of a tree. -/

namespace Sys2Proof.Machine

/-! ### The first bits of a source -/

/-- The value of bits 0 .. n - 1 of a source, the first bit most significant (41 R169). -/
def firstBits (bit : Nat → Bool) (n : Nat) : Nat := fieldValue .msb ((List.range n).map bit)

theorem firstBits_succ (bit : Nat → Bool) (n : Nat) : firstBits bit (n + 1) = 2 * firstBits bit n + (bit n).toNat := by
  simp [firstBits, fieldValue, List.range_succ]

theorem firstBits_lt (bit : Nat → Bool) (n : Nat) : firstBits bit n < 2 ^ n := by
  induction n with
  | zero => exact Nat.one_pos
  | succ n ih =>
    have := (bit n).toNat_le
    rw [firstBits_succ, pow_succ]
    omega

theorem firstBits_shiftRight (bit : Nat → Bool) (k d : Nat) : firstBits bit (k + d) >>> d = firstBits bit k := by
  induction d with
  | zero => rfl
  | succ d ih =>
    have hhalf : firstBits bit (k + (d + 1)) >>> 1 = firstBits bit (k + d) := by
      rw [← Nat.add_assoc, firstBits_succ, Nat.shiftRight_eq_div_pow]
      have := (bit (k + d)).toNat_le
      omega
    rw [Nat.add_comm d 1, Nat.shiftRight_add, Nat.add_comm 1 d, hhalf, ih]

theorem testBit_firstBits (bit : Nat → Bool) {n k : Nat} (hk : k < n) :
    (firstBits bit n).testBit k = bit (n - 1 - k) := by
  have hd : n - 1 - k + 1 + k = n := by omega
  have hshift : firstBits bit n >>> k = firstBits bit (n - 1 - k + 1) := by
    conv_lhs => rw [← hd]
    exact firstBits_shiftRight bit _ k
  calc (firstBits bit n).testBit k = (firstBits bit n >>> k).testBit 0 := by rw [Nat.testBit_shiftRight, Nat.add_zero]
    _ = bit (n - 1 - k) := by
      rw [hshift, firstBits_succ, Nat.testBit_zero, Nat.mul_add_mod]
      cases bit (n - 1 - k) <;> rfl

/-- The bits of a value that fits, most significant first, give the value back. -/
theorem firstBits_testBit {v n : Nat} (hv : v < 2 ^ n) : firstBits (fun j => v.testBit (n - 1 - j)) n = v := by
  refine Nat.eq_of_testBit_eq fun k => ?_
  by_cases hk : k < n
  · rw [testBit_firstBits _ hk]
    congr 1
    omega
  · have hle : 2 ^ n ≤ 2 ^ k := Nat.pow_le_pow_right (by decide) (by omega)
    rw [Nat.testBit_lt_two_pow ((firstBits_lt _ n).trans_le hle), Nat.testBit_lt_two_pow (hv.trans_le hle)]

theorem firstBits_congr {bit bit' : Nat → Bool} {n : Nat} (h : ∀ j < n, bit j = bit' j) :
    firstBits bit n = firstBits bit' n := by
  rw [firstBits, firstBits, List.map_congr_left fun j hj => h j (List.mem_range.mp hj)]

/-! ### Reversed values (00 R9) -/

theorem revBits_lt (w v : Nat) : revBits w v < 2 ^ w := firstBits_lt _ _

theorem testBit_revBits {w v k : Nat} (hk : k < w) : (revBits w v).testBit k = v.testBit (w - 1 - k) :=
  testBit_firstBits _ hk

/-! ### The first bit of a field -/

/-- An MSB-first field read behind the value `acc`. -/
theorem foldl_msb (bits : List Bool) (acc : Nat) :
    bits.foldl (fun acc b => 2 * acc + b.toNat) acc = fieldValue .msb bits + acc * 2 ^ bits.length := by
  induction bits generalizing acc with
  | nil => simp [fieldValue]
  | cons c rest ih =>
    have hrest : fieldValue .msb (c :: rest) = fieldValue .msb rest + c.toNat * 2 ^ rest.length := by
      simpa [fieldValue] using ih c.toNat
    rw [List.foldl_cons, ih, hrest, List.length_cons, pow_succ]
    ring

theorem fieldValue_msb_cons (b : Bool) (bits : List Bool) :
    fieldValue .msb (b :: bits) = fieldValue .msb bits + b.toNat * 2 ^ bits.length := by
  simpa [fieldValue] using foldl_msb bits b.toNat

end Sys2Proof.Machine
end

section
/-! SUPPORT. Symbol lookup (41 R169): which code a match reports, when there is none, and the bit-by-bit loop of HUF_DECODE_BS and DecodeSym (41 R171, 43 R245). -/

namespace Sys2Proof.Machine

/-! ### Codes of one width -/

/-- A symbol of that code and width is found, and none only when no symbol has them. -/
theorem symbolOf_eq_some {t : HufTable} {k p a : Nat} (h : t.symbolOf k p = some a) :
    a < t.n ∧ (t.entry a).width = k ∧ (t.entry a).code = p := by
  obtain ⟨ha, hcode, -⟩ := List.findIdx?_eq_some_iff_getElem.mp h
  rw [HufTable.entry, List.getD_eq_getElem _ _ ha]
  exact ⟨ha, by simpa using hcode⟩

theorem symbolOf_eq_none_iff {t : HufTable} {k p : Nat} :
    t.symbolOf k p = none ↔ ∀ a, ¬ (a < t.n ∧ (t.entry a).width = k ∧ (t.entry a).code = p) := by
  rw [HufTable.symbolOf, List.findIdx?_eq_none_iff, List.forall_mem_iff_forall_getElem]
  refine forall_congr' fun a => ?_
  rw [not_and]
  refine forall_congr' fun ha => ?_
  rw [HufTable.entry, List.getD_eq_getElem _ _ ha]
  simp

/-! ### The shortest code -/

theorem findSome?_range_eq_some_iff {α : Type} {f : Nat → Option α} {n : Nat} {x : α} :
    (List.range n).findSome? f = some x ↔ ∃ j < n, f j = some x ∧ ∀ i < j, f i = none := by
  induction n with
  | zero => simp
  | succ n ih =>
    rw [List.range_succ, List.findSome?_append, Option.or_eq_some_iff, ih, List.findSome?_eq_none_iff]
    simp only [List.mem_range, List.findSome?_singleton]
    constructor
    · rintro (⟨j, hj, h⟩ | ⟨hnone, h⟩)
      · exact ⟨j, by omega, h⟩
      · exact ⟨n, by omega, h, hnone⟩
    · rintro ⟨j, hj, h, hnone⟩
      rcases Nat.lt_or_ge j n with hlt | hge
      · exact .inl ⟨j, hlt, h, hnone⟩
      · obtain rfl : j = n := by omega
        exact .inr ⟨hnone, h⟩

/-- A match is reported exactly when the first k bits, 1 to min(n, maxw) of them, are a code and no fewer are. -/
theorem lookup_eq_found_iff {t : HufTable} {v n a k : Nat} : t.lookup v n = .found a k ↔
    1 ≤ k ∧ k ≤ n ∧ k ≤ t.maxw ∧ t.symbolOf k (v >>> (n - k)) = some a ∧
    ∀ j, 1 ≤ j → j < k → t.symbolOf j (v >>> (n - j)) = none := by
  have hfound : t.lookup v n = .found a k ↔ t.prefixOf v n = some (a, k) := by
    unfold HufTable.lookup
    cases t.prefixOf v n with
    | none => split_ifs <;> simp
    | some r => simp [Prod.ext_iff]
  rw [hfound, HufTable.prefixOf, findSome?_range_eq_some_iff]
  constructor
  · rintro ⟨i, hi, h, hnone⟩
    obtain ⟨b, hb, hbk⟩ := Option.map_eq_some_iff.mp h
    obtain ⟨rfl, rfl⟩ := Prod.mk.inj hbk
    refine ⟨by omega, by omega, by omega, hb, fun j hj hlt => ?_⟩
    obtain ⟨j, rfl⟩ : ∃ i, j = i + 1 := ⟨j - 1, by omega⟩
    exact Option.map_eq_none_iff.mp (hnone j (by omega))
  · rintro ⟨hk, hn, hmax, hsym, hnone⟩
    obtain ⟨i, rfl⟩ : ∃ i, k = i + 1 := ⟨k - 1, by omega⟩
    exact ⟨i, by omega, by rw [hsym]; rfl, fun j hj => by rw [hnone (j + 1) (by omega) (by omega)]; rfl⟩

/-- Without a match the bits are malformed exactly when there are more of them than any code has. -/
theorem lookup_of_not_found {t : HufTable} {v n : Nat} (h : ∀ a k, t.lookup v n ≠ .found a k) :
    t.lookup v n = if t.maxw < n then .malformed else .needMore := by
  unfold HufTable.lookup at h ⊢
  cases hp : t.prefixOf v n with
  | none => rfl
  | some r => exact absurd (by rw [hp]) (h r.1 r.2)

/-- Where some first bits are a code there is a match, of the fewest such bits. -/
theorem lookup_found_of_symbolOf {t : HufTable} {v n k a : Nat} (hk : 1 ≤ k) (hn : k ≤ n) (hmax : k ≤ t.maxw)
    (h : t.symbolOf k (v >>> (n - k)) = some a) : ∃ b j, t.lookup v n = .found b j := by
  have hex : ∃ j, 1 ≤ j ∧ j ≤ k ∧ t.symbolOf j (v >>> (n - j)) ≠ none := ⟨k, hk, le_rfl, by simp [h]⟩
  obtain ⟨hj, hjk, hne⟩ := Nat.find_spec hex
  obtain ⟨b, hb⟩ := Option.ne_none_iff_exists'.mp hne
  refine ⟨b, Nat.find hex, lookup_eq_found_iff.mpr ⟨hj, by omega, by omega, hb, fun i hi hlt => ?_⟩⟩
  by_contra hsome
  exact Nat.find_min hex hlt ⟨hi, by omega, hsome⟩

/-- Settles O26: the fewest first bits that are a code, and what is said when none are. -/
theorem lookupFindsTheShortestPrefix : Obligations.LookupFindsTheShortestPrefix := by
  have hsome : ∀ (t : HufTable) (v n k a : Nat), MatchesPrefix t v n k a →
      ∃ b, t.symbolOf k (v >>> (n - k)) = some b :=
    fun t v n k a h => Option.ne_none_iff_exists'.mp fun hnone => symbolOf_eq_none_iff.mp hnone a h
  refine fun t v n => ⟨fun a k h => ?_, fun a k hk hn hmax h => ?_, fun hno => lookup_of_not_found fun a k h => ?_⟩
  · obtain ⟨hk, hn, hmax, hsym, hnone⟩ := lookup_eq_found_iff.mp h
    exact ⟨hk, hn, hmax, symbolOf_eq_some hsym, fun j b hj hlt => symbolOf_eq_none_iff.mp (hnone j hj hlt) b⟩
  · obtain ⟨b, hb⟩ := hsome t v n k a h
    exact lookup_found_of_symbolOf hk hn hmax hb
  · obtain ⟨hk, hn, hmax, hsym, -⟩ := lookup_eq_found_iff.mp h
    exact hno a k hk hn hmax (symbolOf_eq_some hsym)

/-! ### Reading bit by bit -/

/-- On the first bits of a source a match depends on the bits of its code only. -/
theorem lookup_firstBits_eq_found_iff {t : HufTable} {bit : Nat → Bool} {n a k : Nat} :
    t.lookup (firstBits bit n) n = .found a k ↔
      1 ≤ k ∧ k ≤ n ∧ k ≤ t.maxw ∧ t.symbolOf k (firstBits bit k) = some a ∧
      ∀ j, 1 ≤ j → j < k → t.symbolOf j (firstBits bit j) = none := by
  have hfirst : ∀ j ≤ n, firstBits bit n >>> (n - j) = firstBits bit j := fun j hj => by
    conv_lhs => rw [← Nat.add_sub_cancel' hj]
    rw [Nat.add_sub_cancel_left, firstBits_shiftRight]
  rw [lookup_eq_found_iff]
  refine and_congr_right fun hk => and_congr_right fun hn => and_congr_right fun hmax => ?_
  rw [hfirst k hn]
  exact and_congr_right fun _ => forall_congr' fun j => forall₂_congr fun _ hj => by rw [hfirst j (by omega)]

/-- A match on fewer bits is the match on more of them. -/
theorem lookup_found_mono {t : HufTable} {bit : Nat → Bool} {n m a k : Nat} (hnm : n ≤ m)
    (h : t.lookup (firstBits bit n) n = .found a k) : t.lookup (firstBits bit m) m = .found a k := by
  obtain ⟨hk, hn, hrest⟩ := lookup_firstBits_eq_found_iff.mp h
  exact lookup_firstBits_eq_found_iff.mpr ⟨hk, hn.trans hnm, hrest⟩

section
variable {t : HufTable} {bit : Nat → Bool} {next : Nat → Option Bool} {remaining : Nat}
  (hsome : ∀ n < remaining, next n = some (bit n)) (hnone : ∀ n, remaining ≤ n → next n = none)
include hsome hnone

/-- The loop after n bits without a match answers the lookup on all the bits it may read, and a match is reported when
the last bit of its code is read. -/
theorem symbolLoop_eq_lookup {m : Nat} (hm : m = min remaining (t.maxw + 1)) (fuel n : Nat) (hn : n ≤ m)
    (hfuel : t.maxw + 1 < fuel + n) (hbefore : ∀ j < n, ∀ a k, t.lookup (firstBits bit j) j ≠ .found a k) :
    (symbolLoop t next fuel (firstBits bit n) n).1 = t.lookup (firstBits bit m) m ∧
    ∀ a k, t.lookup (firstBits bit m) m = .found a k → (symbolLoop t next fuel (firstBits bit n) n).2 = k := by
  induction fuel generalizing n with
  | zero => omega
  | succ fuel ih =>
    by_cases hfound : ∃ a k, t.lookup (firstBits bit n) n = .found a k
    · obtain ⟨a, k, h⟩ := hfound
      have hkn : k = n := by
        obtain ⟨hk, hle, hrest⟩ := lookup_firstBits_eq_found_iff.mp h
        by_contra hne
        exact hbefore k (by omega) a k (lookup_firstBits_eq_found_iff.mpr ⟨hk, le_rfl, hrest⟩)
      simp [symbolLoop, h, lookup_found_mono hn h, hkn]
    · push Not at hfound
      have hnow := lookup_of_not_found hfound
      by_cases hend : n = m
      · subst hend
        have hstop : symbolLoop t next (fuel + 1) (firstBits bit n) n = (t.lookup (firstBits bit n) n, n) := by
          rw [symbolLoop, hnow]
          split_ifs with hlong
          · rfl
          · rw [hnone n (by omega)]
        rw [hstop]
        exact ⟨rfl, fun a k h => absurd h (hfound a k)⟩
      · have hgo : symbolLoop t next (fuel + 1) (firstBits bit n) n =
            symbolLoop t next fuel (firstBits bit (n + 1)) (n + 1) := by
          rw [symbolLoop, hnow, if_neg (by omega), hsome n (by omega), firstBits_succ]
        rw [hgo]
        refine ih (n + 1) (by omega) (by omega) fun j hj => ?_
        rcases Nat.lt_or_ge j n with hlt | hge
        · exact hbefore j hlt
        · obtain rfl : j = n := by omega
          exact hfound

/-- One symbol from a source of bits is what the lookup answers on its next bits, no more than maxw + 1 of them
(41 R171, 43 R245). -/
theorem readSymbol_eq_lookup {m : Nat} (hm : m = min remaining (t.maxw + 1)) :
    (t.readSymbol next).1 = t.lookup (firstBits bit m) m ∧
    ∀ a k, t.lookup (firstBits bit m) m = .found a k → (t.readSymbol next).2 = k :=
  symbolLoop_eq_lookup hsome hnone hm (t.maxw + 2) 0 (Nat.zero_le m) (by omega) (by simp)

end

/-! ### Tables that are PrefixFree -/

theorem width_le_maxw {t : HufTable} (hmax : t.maxw = maxWidth t.widths) {a : Nat} (ha : a < t.n) :
    (t.entry a).width ≤ t.maxw := by
  rw [hmax, HufTable.entry, List.getD_eq_getElem _ _ ha]
  exact le_maxWidth (List.mem_map_of_mem (List.getElem_mem ha))

/-- In a PrefixFree table, bits that begin with a symbol's code match that symbol. -/
theorem lookup_of_code {t : HufTable} {bit : Nat → Bool} {m a : Nat} (hfree : PrefixFree t) (hcoded : Coded t a)
    (hmax : (t.entry a).width ≤ t.maxw) (hm : (t.entry a).width ≤ m)
    (hcode : firstBits bit (t.entry a).width = (t.entry a).code) :
    t.lookup (firstBits bit m) m = .found a (t.entry a).width := by
  obtain ⟨ha, hpos⟩ := hcoded
  have hother : ∀ k ≤ (t.entry a).width, ∀ b, 1 ≤ k → t.symbolOf k (firstBits bit k) = some b → b = a := by
    intro k hk b hk1 hb
    obtain ⟨hbn, rfl, hbc⟩ := symbolOf_eq_some hb
    by_contra hne
    refine hfree b a hbn ha hne hk1 hk ?_
    rw [← hcode, hbc]
    conv_lhs => rw [← Nat.add_sub_cancel' hk]
    rw [Nat.add_sub_cancel_left, firstBits_shiftRight]
  obtain ⟨b, hb⟩ : ∃ b, t.symbolOf (t.entry a).width (firstBits bit (t.entry a).width) = some b :=
    Option.ne_none_iff_exists'.mp fun hnone => symbolOf_eq_none_iff.mp hnone a ⟨ha, rfl, hcode.symm⟩
  obtain rfl := hother _ le_rfl b hpos hb
  refine lookup_firstBits_eq_found_iff.mpr ⟨hpos, hm, hmax, hb, fun j hj hlt => ?_⟩
  cases hc : t.symbolOf j (firstBits bit j) with
  | none => rfl
  | some c =>
    obtain rfl := hother j hlt.le c hj hc
    obtain ⟨-, hw, -⟩ := symbolOf_eq_some hc
    omega

end Sys2Proof.Machine
end

section
/-! SUPPORT. The commands that read a Huffman slot (41 R167 to R173): HUF_GET_CODE, HUF_ENCODE, HUF_MATCH and HUF_DECODE_BS, each check in its order and what the command then does. -/

namespace Sys2Proof.Machine

/-! ### The slot operand (41, opening; 41 R167) -/

/-- A command on a slot that does not exist is refused (41, opening). -/
theorem completes_badSlot {i : Instr} {slot : Nat} {s : State} {f : Fin 4 → Run}
    (hi : effects i (startCommand s) = withSlot slot (startCommand s) f) (h : 4 ≤ slot) :
    Completes i s (RefusedWith Err.slotRange s) :=
  completes_refused (hi.trans (withSlot_big h _ _))

section
variable {i : Instr} {k : Fin 4} {s : State} {f : Fin 4 → HufTable → Run}
  (hi : effects i (startCommand s) = withSlot k.val (startCommand s) fun j => withTable j (startCommand s) (f j))
include hi

/-- A command on the table of a slot that holds none is refused (41 R167). -/
theorem completes_invalidSlot (hv : s.huf[k].valid = false) : Completes i s (RefusedWith Err.slotInvalid s) :=
  completes_refused (hi.trans ((withSlot_fin _ _ _).trans (withTable_invalid (s := startCommand s) hv _)))

theorem effects_validSlot (hv : s.huf[k].valid = true) : effects i (startCommand s) = f k s.huf[k].table :=
  hi.trans ((withSlot_fin _ _ _).trans (withTable_valid (s := startCommand s) hv _))

end

/-! ### Commands that answer in RES0 to RES2 -/

theorem completes_results {i : Instr} {s : State} {x y z : Nat}
    (h : effects i (startCommand s) = .ok ((startCommand s).setResults x y z)) :
    Completes i s fun t => EndedClean s t ∧ OnlyResults s t ∧ ResultsAre t x y z :=
  completes_ok h (finishCommand_onlyResults s x y z)

/-- The three answers of a lookup (41 R170, R171). -/
theorem completes_matchResults {i : Instr} {s : State} {r : MatchResult}
    (h : effects i (startCommand s) = matchResults r (startCommand s)) :
    (∀ a j, r = .found a j → Completes i s fun t => EndedClean s t ∧ OnlyResults s t ∧ ResultsAre t 1 a j) ∧
    (r = .needMore → Completes i s fun t => EndedClean s t ∧ OnlyResults s t ∧ ResultsAre t 0 0 0) ∧
    (r = .malformed → Completes i s (RefusedWith Err.noCode s)) := by
  refine ⟨fun a j hr => ?_, fun hr => ?_, fun hr => ?_⟩ <;> rw [hr] at h
  · exact completes_results h
  · exact completes_results h
  · exact completes_refused h

/-! ### HUF_GET_CODE (41 R167) -/

/-- Settles O24: the checks in their order, and the entry of the symbol. -/
theorem hufGetCodeReturnsCodeAndWidth : Obligations.HufGetCodeReturnsCodeAndWidth := by
  refine fun slot s => ⟨completes_badSlot (by rw [effects, hufGetCodeEffects]), ?_⟩
  rintro k rfl
  refine ⟨completes_invalidSlot (by rw [effects, hufGetCodeEffects]),
    fun hv hn => completes_refused ?_, fun hv hn => completes_results ?_⟩ <;>
    refine (effects_validSlot (by rw [effects, hufGetCodeEffects]) hv).trans ?_
  · exact if_pos hn
  · exact if_neg (not_le.mpr hn)

/-! ### HUF_MATCH (41 R170) -/

/-- Settles O27: the checks in their order, and the three answers of the lookup. -/
theorem hufMatchReportsTheLookup : Obligations.HufMatchReportsTheLookup := by
  refine fun slot s => ⟨completes_badSlot (by rw [effects, hufMatchEffects]), ?_⟩
  rintro k rfl
  refine ⟨completes_invalidSlot (by rw [effects, hufMatchEffects]), fun hv hlong => completes_refused ?_,
    fun hv hlt hwide => completes_refused ?_, fun hv hle hfits => completes_matchResults ?_⟩ <;>
    refine (effects_validSlot (by rw [effects, hufMatchEffects]) hv).trans ?_
  · exact if_pos hlong
  · exact (if_neg hlt.not_gt).trans (if_pos ⟨hlt, hwide⟩)
  · exact (if_neg hle.not_gt).trans (if_neg fun h => hfits.not_ge h.2)

/-! ### HUF_DECODE_BS (41 R171) -/

@[simp] theorem bitSeqBit_startCommand (s : State) (i n : Nat) : (startCommand s).bitSeqBit i n = s.bitSeqBit i n := by
  simp [State.bitSeqBit]

/-- The symbol read from the bit sequence is what the lookup answers on the next bits (41 R171). -/
theorem readSymbol_bitSeqBit (t : HufTable) (s : State) (i : Nat) {m : Nat}
    (hm : m = min (s.bs.bits.toNat - i) (t.maxw + 1)) :
    (t.readSymbol (s.bitSeqBit i)).1 =
      t.lookup (firstBits (fun j => s.bitAt [j] s.bs.ord s.bs.base.toNat (i + j)) m) m :=
  (readSymbol_eq_lookup (fun n hn => if_neg (by omega)) (fun n hn => if_pos (by omega)) hm).1

/-- Settles O28: the checks in their order, and the three answers of the lookup on the next bits. -/
theorem hufDecodeBsReadsTheSequence : Obligations.HufDecodeBsReadsTheSequence := by
  refine fun slot s => ⟨completes_badSlot (by rw [effects, hufDecodeBsEffects]), ?_⟩
  rintro k m r rfl hm hr
  refine ⟨completes_invalidSlot (by rw [effects, hufDecodeBsEffects]), fun hv hseq => completes_refused ?_,
    fun hv hseq hpast => completes_refused ?_, fun hv hseq hle => completes_matchResults ?_⟩ <;>
    refine (effects_validSlot (by rw [effects, hufDecodeBsEffects]) hv).trans ?_
  · exact if_pos (by simp [hseq])
  · exact (if_neg (by simp [hseq])).trans (if_pos hpast)
  · refine ((if_neg (by simp [hseq])).trans (if_neg hle.not_gt)).trans ?_
    rw [hr, funext (bitSeqBit_startCommand s _)]
    exact congrArg (matchResults · _) (readSymbol_bitSeqBit _ s s.arg0 hm)

/-! ### HUF_ENCODE (41 R173; 30 R118) -/

theorem codeField_eq_codeOperand (ord : BitOrder) (c : HufCode) : codeField ord c = codeOperand ord c.width c.code := by
  cases ord <;> rfl

theorem codeOperand_lt (ord : BitOrder) {width code : Nat} (h : code < 2 ^ width) :
    codeOperand ord width code < 2 ^ width := by
  cases ord with
  | lsb => exact revBits_lt width code
  | msb => exact h

/-- Under either order the operand's field is the code, most significant bit first (40 R149). -/
theorem fieldBits_codeOperand (ord : BitOrder) (width code : Nat) :
    fieldBits ord (codeOperand ord width code) width =
      (List.range width).map fun k => code.testBit (width - 1 - k) := by
  cases ord with
  | lsb => exact List.map_congr_left fun k hk => testBit_revBits (List.mem_range.mp hk)
  | msb => rfl

section
variable {k : Fin 4} {s : State} (hv : s.huf[k].valid = true)
include hv

theorem hufEncodeEffects_noBitSeq (hseq : s.bs.valid = false) :
    hufEncodeEffects k.val s = .fail s Err.noBitSeq := by
  rw [hufEncodeEffects, withSlot_fin, withTable_valid hv]
  exact if_pos (by simp [hseq])

variable (hseq : s.bs.valid = true)
include hseq

theorem hufEncodeEffects_noSymbol (h : s.huf[k].table.n ≤ s.arg0 ∨ (s.huf[k].table.entry s.arg0).width = 0) :
    hufEncodeEffects k.val s = .fail s Err.noSymbol := by
  rw [hufEncodeEffects, withSlot_fin, withTable_valid hv]
  exact (if_neg (by simp [hseq])).trans (if_pos h)

variable {c : HufCode} (hc : c = s.huf[k].table.entry s.arg0) (hn : s.arg0 < s.huf[k].table.n) (hw : 0 < c.width)
include hc hn hw

theorem hufEncodeEffects_full
    (h : s.bs.cap.toNat < bytesOfBits (s.bs.bits.toNat + c.width) ∨ 2 ^ 32 - 1 < s.bs.bits.toNat + c.width) :
    hufEncodeEffects k.val s = .fail s Err.bitSeqFull := by
  subst hc
  rw [hufEncodeEffects, withSlot_fin, withTable_valid hv]
  exact (if_neg (by simp [hseq])).trans ((if_neg (by omega)).trans (if_pos ((s.bs.full_iff _).mpr h)))

theorem hufEncodeEffects_fits (hcap : bytesOfBits (s.bs.bits.toNat + c.width) ≤ s.bs.cap.toNat)
    (hlen : s.bs.bits.toNat + c.width ≤ 2 ^ 32 - 1) : hufEncodeEffects k.val s =
      .ok ((bsAppendField (codeOperand s.bs.ord c.width c.code) c.width s).setResults c.code c.width 0) := by
  have hfull : ¬ s.bs.full c.width = true := by rw [BitSeq.full_iff]; omega
  rw [← codeField_eq_codeOperand]
  subst hc
  rw [hufEncodeEffects, withSlot_fin, withTable_valid hv]
  exact (if_neg (by simp [hseq])).trans ((if_neg (by omega)).trans (if_neg hfull))

end

/-- A code that fits is appended most significant bit first, and reported with its width (41 R172, R173). -/
theorem hufEncode_ends (c : HufCode) {s : State} (hlen : s.bs.bits.toNat + c.width ≤ 2 ^ 32 - 1) {t : State}
    (ht : t = finishCommand ((bsAppendField (codeOperand s.bs.ord c.width c.code) c.width (startCommand s)).setResults
      c.code c.width 0)) :
    EndedClean s t ∧ ResultsAre t c.code c.width 0 ∧ OnlyBitSeq s t ∧
    AppendsBits c.width ((List.range c.width).map fun j => c.code.testBit (c.width - 1 - j)) s t := by
  have happ := appendsBits_bsAppendField (codeOperand s.bs.ord c.width c.code) hlen
  rw [fieldBits_codeOperand] at happ
  rw [bsAppendField_fields] at ht happ
  subst ht
  exact ⟨⟨rfl, rfl, rfl, rfl⟩, ⟨rfl, rfl, rfl⟩,
    ⟨⟨rfl, rfl, rfl, rfl, rfl, rfl, rfl, rfl⟩, ⟨rfl, rfl, rfl, rfl⟩, rfl⟩, happ⟩

/-- Settles O25: the checks in their order, and the code appended most significant bit first. -/
theorem hufEncodeAppendsTheCode : Obligations.HufEncodeAppendsTheCode := by
  refine ⟨fun ord width code h => ⟨codeOperand_lt ord h, ?_⟩,
    fun slot s => ⟨completes_badSlot (by rw [effects, hufEncodeEffects]), ?_⟩⟩
  · rw [← fieldBits_codeOperand ord]
    cases ord <;> rfl
  rintro k c rfl hc
  refine ⟨completes_invalidSlot (by rw [effects, hufEncodeEffects]),
    fun hv hseq => completes_refused (hufEncodeEffects_noBitSeq (s := startCommand s) hv hseq),
    fun hv hseq h => completes_refused (hufEncodeEffects_noSymbol (s := startCommand s) hv hseq (hc ▸ h)),
    fun hv hseq hn hw =>
      ⟨fun h => completes_refused (hufEncodeEffects_full (s := startCommand s) hv hseq hc hn hw h),
       fun hcap hlen => completes_ok (hufEncodeEffects_fits (s := startCommand s) hv hseq hc hn hw hcap hlen)
         (hufEncode_ends c hlen rfl)⟩⟩

end Sys2Proof.Machine
end

section
/-! SUPPORT. The round trip of HUF_ENCODE and HUF_DECODE_BS (41 R174): the bit sequence holds the codes of the symbols encoded, one behind the other. -/

namespace Sys2Proof.Machine

theorem Completes.of_next {i : Instr} {s t : State} {P : State → Prop} (h : Completes i s P)
    (ht : exec i s = .next t) : P t := by
  obtain ⟨u, hu, hP⟩ := h
  rw [hu] at ht
  injection ht with ht
  exact ht ▸ hP

/-! ### The codes in the bit sequence -/

/-- From bit i to its end the bit sequence holds the codes of the symbols, most significant bits first. -/
def HoldsCodes (t : HufTable) (s : State) : List Nat → Nat → Prop
  | [], i => i = s.bs.bits.toNat
  | a :: rest, i => Coded t a ∧
    (∀ j < (t.entry a).width, s.seqBit (i + j) = (t.entry a).code.testBit ((t.entry a).width - 1 - j)) ∧
    HoldsCodes t s rest (i + (t.entry a).width)

theorem HoldsCodes.le {t : HufTable} {s : State} {syms : List Nat} {i : Nat} (h : HoldsCodes t s syms i) :
    i ≤ s.bs.bits.toNat := by
  induction syms generalizing i with
  | nil => exact le_of_eq h
  | cons a rest ih => exact (Nat.le_add_right _ _).trans (ih h.2.2)

theorem seqBit_congr {s u : State} (hb : u.bs = s.bs) (hm : MemorySame s u) (i : Nat) : u.seqBit i = s.seqBit i := by
  rw [State.seqBit, State.seqBit, hb, State.streamBit, hm, State.streamBit]

theorem HoldsCodes.congr {t : HufTable} {s u : State} (hb : u.bs = s.bs) (hm : MemorySame s u) {syms : List Nat}
    {i : Nat} (h : HoldsCodes t s syms i) : HoldsCodes t u syms i := by
  induction syms generalizing i with
  | nil => rw [HoldsCodes, hb]; exact h
  | cons a rest ih =>
    obtain ⟨hcoded, hbits, hrest⟩ := h
    exact ⟨hcoded, fun j hj => (seqBit_congr hb hm _).trans (hbits j hj), ih hrest⟩

/-- Slot k holds a table and the bit sequence is valid, with no host write racing. -/
structure ReadyToCode (k : Fin 4) (s : State) : Prop where
  raced : s.raced = []
  slot : s.huf[k].valid = true
  sequence : s.bs.valid = true

theorem ReadyToCode.congr {k : Fin 4} {s u : State} (h : ReadyToCode k s) (hr : u.raced = []) (hhuf : u.huf = s.huf)
    (hb : u.bs.valid = s.bs.valid) : ReadyToCode k u :=
  ⟨hr, by rw [hhuf]; exact h.slot, hb.trans h.sequence⟩

/-- What encoding keeps: the tables, the sequence's validity and the bits it holds; nothing races at the end. -/
structure SequenceGrown (s t : State) : Prop where
  raced : t.raced = []
  huf : t.huf = s.huf
  valid : t.bs.valid = s.bs.valid
  le : s.bs.bits.toNat ≤ t.bs.bits.toNat
  old : ∀ i < s.bs.bits.toNat, t.seqBit i = s.seqBit i

theorem SequenceGrown.trans {s t u : State} (h : SequenceGrown s t) (h' : SequenceGrown t u) : SequenceGrown s u :=
  ⟨h'.raced, h'.huf.trans h.huf, h'.valid.trans h.valid, h.le.trans h'.le,
   fun i hi => (h'.old i (hi.trans_le h.le)).trans (h.old i hi)⟩

theorem ReadyToCode.grown {k : Fin 4} {s t : State} (h : ReadyToCode k s) (hg : SequenceGrown s t) : ReadyToCode k t :=
  h.congr hg.raced hg.huf hg.valid

/-! ### A symbol and its width in a result register -/

theorem TableSized.symbol_toNat {t : HufTable} (h : TableSized t) {a : Nat} (ha : Coded t a) : (word a).toNat = a := by
  obtain ⟨-, hcount, -, -⟩ := h
  exact Nat.mod_eq_of_lt ((ha.1.trans_le hcount).trans (by decide))

theorem TableSized.width_toNat {t : HufTable} (h : TableSized t) {a : Nat} (ha : Coded t a) :
    (word (t.entry a).width).toNat = (t.entry a).width := by
  obtain ⟨-, -, -, hcodes⟩ := h
  exact Nat.mod_eq_of_lt ((hcodes a ha.1).1.trans_lt (by decide))

/-! ### One symbol -/

section
variable {k : Fin 4} {s : State} (hready : ReadyToCode k s)
include hready

/-- HUF_ENCODE without error appended the code of its symbol. -/
theorem hufEncode_appended {t : State} (ht : exec (.hufEncode k.val) s = .next t) (herr : t.status.err = false) :
    Coded s.huf[k].table s.arg0 ∧ SequenceGrown s t ∧
    t.bs.bits.toNat = s.bs.bits.toNat + (s.huf[k].table.entry s.arg0).width ∧
    ∀ j < (s.huf[k].table.entry s.arg0).width, t.seqBit (s.bs.bits.toNat + j) =
      (s.huf[k].table.entry s.arg0).code.testBit ((s.huf[k].table.entry s.arg0).width - 1 - j) := by
  obtain ⟨hr, hv, hseq⟩ := hready
  obtain ⟨-, -, hnoSymbol, happends⟩ := (hufEncodeAppendsTheCode.2 k.val s).2 k _ rfl rfl
  have hrefused {e : Err} (h : Completes (.hufEncode k.val) s (RefusedWith e s)) : False := by
    obtain ⟨⟨-, -, -, hstatus⟩, -, -⟩ := h.of_next ht
    rw [hstatus] at herr
    cases herr
  have hcoded : Coded s.huf[k].table s.arg0 := by
    by_contra hno
    exact hrefused (hnoSymbol hv hseq (by simp only [Coded, not_and] at hno; omega))
  obtain ⟨hfull, hfits⟩ := happends hv hseq hcoded.1 hcoded.2
  by_cases hcap : s.bs.cap.toNat < bytesOfBits (s.bs.bits.toNat + (s.huf[k].table.entry s.arg0).width) ∨
      2 ^ 32 - 1 < s.bs.bits.toNat + (s.huf[k].table.entry s.arg0).width
  · exact absurd (hfull hcap) hrefused
  obtain ⟨⟨-, -, hraced, -⟩, -, ⟨-, -, hhuf⟩, hbs, -, hbits⟩ := (hfits (by omega) (by omega)).of_next ht
  obtain ⟨hold, hnew, -⟩ := hbits hr
  have hlen : t.bs.bits.toNat = s.bs.bits.toNat + (s.huf[k].table.entry s.arg0).width := by
    rw [hbs, BitVec.toNat_add, BitVec.toNat_ofNat]
    omega
  refine ⟨hcoded, ⟨hraced, hhuf, by rw [hbs], by omega, hold⟩, hlen, fun j hj => ?_⟩
  rw [hnew j hj, List.getD_eq_getElem _ _ (by simpa using hj), List.getElem_map, List.getElem_range]

/-- At the end of the sequence HUF_DECODE_BS matches nothing. -/
theorem hufDecodeBs_at_end (hi : s.arg0 = s.bs.bits.toNat) :
    Completes (.hufDecodeBs k.val) s fun u => EndedClean s u ∧ OnlyResults s u ∧ ResultsAre u 0 0 0 := by
  obtain ⟨-, -, -, hanswers⟩ := (hufDecodeBsReadsTheSequence k.val s).2 k 0 _ rfl (by omega) rfl
  refine (hanswers hready.slot hready.sequence hi.le).2.1 ?_
  rw [lookup_of_not_found fun a j h => ?_, if_neg (Nat.not_lt_zero _)]
  obtain ⟨hj, hle, -⟩ := lookup_eq_found_iff.mp h
  omega

/-- At the start of a code, HUF_DECODE_BS answers its symbol and its width. -/
theorem hufDecodeBs_of_code (hsized : TableSized s.huf[k].table) (hfree : PrefixFree s.huf[k].table) {a i : Nat}
    (hi : s.arg0 = i) (hcoded : Coded s.huf[k].table a) (hle : i + (s.huf[k].table.entry a).width ≤ s.bs.bits.toNat)
    (hbits : ∀ j < (s.huf[k].table.entry a).width, s.seqBit (i + j) =
      (s.huf[k].table.entry a).code.testBit ((s.huf[k].table.entry a).width - 1 - j)) :
    Completes (.hufDecodeBs k.val) s fun u => EndedClean s u ∧ OnlyResults s u ∧
      ResultsAre u 1 a (s.huf[k].table.entry a).width := by
  obtain ⟨-, -, hmaxw, hcodes⟩ := hsized
  obtain ⟨-, -, -, hanswers⟩ := (hufDecodeBsReadsTheSequence k.val s).2 k _ _ rfl rfl rfl
  refine (hanswers hready.slot hready.sequence (by omega)).1 a _ ?_
  have hmax := width_le_maxw hmaxw hcoded.1
  refine lookup_of_code hfree hcoded hmax (by omega) ?_
  refine (firstBits_congr fun j hj => ?_).trans (firstBits_testBit (hcodes a hcoded.1).2)
  rw [bitAt_of_no_race hready.raced, hi]
  exact hbits j hj

end

/-! ### A list of symbols -/

/-- Symbols encoded without error stand in the sequence behind what it held. -/
theorem encodeSymbols_holdsCodes {k : Fin 4} {syms : List Nat} (hsyms : ∀ a ∈ syms, a < 2 ^ 32) {s t : State}
    (hready : ReadyToCode k s) (ht : encodeSymbols k.val syms s = some t) :
    SequenceGrown s t ∧ HoldsCodes s.huf[k].table t syms s.bs.bits.toNat := by
  induction syms generalizing s with
  | nil =>
    obtain rfl := Option.some.inj ht
    exact ⟨⟨hready.raced, rfl, rfl, le_rfl, fun _ _ => rfl⟩, rfl⟩
  | cons a rest ih =>
    obtain ⟨ha, hrest⟩ := List.forall_mem_cons.mp hsyms
    rw [encodeSymbols] at ht
    split at ht
    · next u hu =>
      split_ifs at ht with herr
      have harg : (word a).toNat = a := Nat.mod_eq_of_lt ha
      obtain ⟨hcoded, hfirst, hlen, hbits⟩ := hufEncode_appended
        (s := { s with larg := { s.larg with a0 := word a } }) (hready.congr hready.raced rfl rfl) hu
        (by simpa using herr)
      simp only [State.arg0, harg] at hcoded hlen hbits
      have hgrown : SequenceGrown s u := ⟨hfirst.raced, hfirst.huf, hfirst.valid, hfirst.le, hfirst.old⟩
      obtain ⟨hgrown', hholds⟩ := ih hrest (hready.grown hgrown) ht
      rw [hgrown.huf, hlen] at hholds
      exact ⟨hgrown.trans hgrown', hcoded, fun j hj => (hgrown'.old _ (by omega)).trans (hbits j hj), hholds⟩
    · cases ht
    · cases ht

/-- Decoding from bit i on gives the symbols whose codes stand there. -/
theorem decodeSymbols_of_holdsCodes {k : Fin 4} {syms : List Nat} {i fuel : Nat} {s : State} (hready : ReadyToCode k s)
    (hsized : TableSized s.huf[k].table) (hfree : PrefixFree s.huf[k].table)
    (h : HoldsCodes s.huf[k].table s syms i) (hfuel : syms.length < fuel) : decodeSymbols k.val fuel i s = syms := by
  induction syms generalizing i fuel s with
  | nil =>
    obtain ⟨fuel, rfl⟩ : ∃ n, fuel = n + 1 := ⟨fuel - 1, by omega⟩
    have harg : (word i).toNat = i := Nat.mod_eq_of_lt (h.le.trans_lt s.bs.bits.isLt)
    obtain ⟨u, hu, -, -, hres, -⟩ := hufDecodeBs_at_end
      (s := { s with larg := { s.larg with a0 := word i } }) (hready.congr hready.raced rfl rfl) (harg.trans h)
    rw [decodeSymbols, hu]
    exact if_neg (by rw [hres]; decide)
  | cons a rest ih =>
    obtain ⟨fuel, rfl⟩ : ∃ n, fuel = n + 1 := ⟨fuel - 1, by omega⟩
    have harg : (word i).toNat = i := Nat.mod_eq_of_lt (h.le.trans_lt s.bs.bits.isLt)
    obtain ⟨hcoded, hbits, hrest⟩ := h
    obtain ⟨u, hu, ⟨-, -, hraced, -⟩, ⟨-, -, hb, hhuf, hmem⟩, hres0, hres1, hres2⟩ := hufDecodeBs_of_code
      (s := { s with larg := { s.larg with a0 := word i } }) (hready.congr hready.raced rfl rfl) hsized hfree harg
      hcoded hrest.le hbits
    rw [decodeSymbols, hu]
    refine (if_pos hres0).trans ?_
    rw [hres1, hres2, hsized.symbol_toNat hcoded]
    refine congrArg (a :: ·) ?_
    rw [hsized.width_toNat hcoded]
    have htable : u.huf[k].table = s.huf[k].table := by rw [hhuf]
    rw [← htable] at hsized hfree hrest
    refine ih (hready.congr hraced hhuf (congrArg BitSeq.valid hb)) hsized hfree ?_ (by simpa using hfuel)
    rw [← htable]
    exact hrest.congr (s := s) hb hmem

/-- Settles O29: the sequence holds the codes of the symbols encoded, and decoding reads them one by one. -/
theorem huffmanRoundTrip : Obligations.HuffmanRoundTrip := by
  intro k syms s t hr hv hsized hfree hseq hempty hsyms ht fuel hfuel
  have hready : ReadyToCode k s := ⟨hr, hv, hseq⟩
  obtain ⟨hgrown, hholds⟩ := encodeSymbols_holdsCodes hsyms hready ht
  have htable : t.huf[k].table = s.huf[k].table := by rw [hgrown.huf]
  rw [hempty, ← htable] at hholds
  rw [← htable] at hsized hfree
  exact decodeSymbols_of_holdsCodes (hready.grown hgrown) hsized hfree hholds hfuel

end Sys2Proof.Machine
end

section
/-! SUPPORT. The table of an association list over distinct symbols, and canonical construction (41 R162): the codes along the order of symbols by (width, symbol). -/

namespace Sys2Proof.Machine

/-! ### The table of codes of distinct symbols -/

theorem lookup_eq_some_of_mem {coded : List (Nat × HufCode)} (hnodup : (coded.map Prod.fst).Nodup) {s : Nat}
    {c : HufCode} (h : (s, c) ∈ coded) : coded.lookup s = some c := by
  cases hl : coded.lookup s with
  | none => simpa using List.lookup_eq_none_iff.mp hl _ h
  | some d => exact congrArg some (Prod.mk.inj (List.inj_on_of_nodup_map hnodup (mem_of_lookup hl) h rfl)).2

theorem tableOf_entry_of_mem {n : Nat} {coded : List (Nat × HufCode)} (hnodup : (coded.map Prod.fst).Nodup) {s : Nat}
    {c : HufCode} (hs : s < n) (h : (s, c) ∈ coded) : (tableOf n coded).entry s = c := by
  rw [tableOf_entry coded hs, lookup_eq_some_of_mem hnodup h]
  rfl

theorem tableOf_entry_of_not_mem {n : Nat} {coded : List (Nat × HufCode)} {s : Nat} (hs : s < n)
    (h : s ∉ coded.map Prod.fst) : (tableOf n coded).entry s = ⟨0, 0⟩ := by
  have hnone : coded.lookup s = none := List.lookup_eq_none_iff.mpr fun p hp => by
    simpa using fun he : s = p.1 => h (he ▸ List.mem_map_of_mem hp)
  rw [tableOf_entry coded hs, hnone]
  rfl

/-- Every code of the table fits its width when every code of the list does. -/
theorem tableOf_code_lt {n : Nat} {coded : List (Nat × HufCode)} (h : CodesOk coded) {s : Nat} (hs : s < n) :
    ((tableOf n coded).entry s).code < 2 ^ ((tableOf n coded).entry s).width := by
  rcases tableOf_entry_cases coded hs with he | he
  · rw [he]; exact Nat.one_pos
  · exact h.fit _ he

theorem widths_eq_iff {t : HufTable} {ws : List Nat} (hn : t.n = ws.length) :
    t.widths = ws ↔ ∀ s < ws.length, (t.entry s).width = ws.getD s 0 := by
  have hlen : t.widths.length = ws.length := by rw [← hn, HufTable.widths, List.length_map, HufTable.n]
  have hentry : ∀ s (hs : s < t.entries.length), t.entry s = t.entries[s] := fun s hs => by
    rw [HufTable.entry, List.getD_eq_getElem _ _ hs]
  constructor
  · rintro h s hs
    have hs' : s < t.entries.length := hs.trans_eq hn.symm
    simp [← h, HufTable.widths, hentry s hs', hs']
  · refine fun h => List.ext_getElem hlen fun s hs hs' => ?_
    have hw := h s hs'
    rw [List.getD_eq_getElem _ _ hs', hentry s (by simpa [HufTable.widths] using hs)] at hw
    simpa [HufTable.widths] using hw

theorem maxWidth_mem_or_zero (ws : List Nat) : maxWidth ws = 0 ∨ maxWidth ws ∈ ws := by
  have hfrom : ∀ m, ws.foldl max m = m ∨ ws.foldl max m ∈ ws := by
    induction ws with
    | nil => exact fun m => .inl rfl
    | cons w rest ih =>
      intro m
      rw [List.foldl_cons]
      rcases ih (max m w) with h | h
      · rw [h]
        exact (max_choice m w).imp_right fun hm => by simp [hm]
      · exact .inr (List.mem_cons_of_mem _ h)
  exact hfrom 0

/-! ### The order of the symbols (41 R162) -/

/-- The order "(W[s], s)" on pairs of a width and a symbol. -/
def PairBefore (p q : Nat × Nat) : Prop := p.1 < q.1 ∨ (p.1 = q.1 ∧ p.2 < q.2)

theorem PairBefore.trans {p q r : Nat × Nat} (h : PairBefore p q) (h' : PairBefore q r) : PairBefore p r := by
  simp only [PairBefore] at *
  omega

theorem PairBefore.asymm {p q : Nat × Nat} (h : PairBefore p q) : ¬ PairBefore q p := by
  simp only [PairBefore] at *
  omega

theorem mem_canonOrder_iff {ws : List Nat} (hw : ∀ w ∈ ws, w ≤ 16) {p : Nat × Nat} :
    p ∈ canonOrder ws ↔ p.2 < ws.length ∧ p.1 = ws.getD p.2 0 ∧ 0 < p.1 := by
  rw [mem_canonOrder, List.mem_zipIdx_iff_getElem?, List.getElem?_eq_some_iff]
  constructor
  · rintro ⟨⟨hs, hp⟩, hpos, -⟩
    exact ⟨hs, by rw [List.getD_eq_getElem _ _ hs, hp], hpos⟩
  · rintro ⟨hs, hp, hpos⟩
    rw [List.getD_eq_getElem _ _ hs] at hp
    exact ⟨⟨hs, hp.symm⟩, hpos, hp ▸ hw _ (List.getElem_mem hs)⟩

theorem canonOrder_pairBefore (ws : List Nat) : (canonOrder ws).Pairwise PairBefore := by
  refine List.pairwise_flatMap.mpr ⟨fun j _ => ?_, ?_⟩
  · have hidx : ws.zipIdx.Pairwise fun p q => p.2 < q.2 :=
      List.pairwise_map.mp (by rw [List.zipIdx_map_snd]; exact List.pairwise_lt_range')
    refine (hidx.filter _).imp_of_mem fun hp hq hlt => .inr ⟨?_, hlt⟩
    simp only [List.mem_filter, beq_iff_eq] at hp hq
    omega
  · refine List.pairwise_lt_range.imp fun hlt p hp q hq => .inl ?_
    simp only [List.mem_filter, beq_iff_eq] at hp hq
    omega

theorem canonOrder_symbols_nodup {ws : List Nat} (hw : ∀ w ∈ ws, w ≤ 16) : ((canonOrder ws).map Prod.snd).Nodup := by
  refine List.pairwise_map.mpr ((canonOrder_pairBefore ws).imp_of_mem fun hp hq hlt he => ?_)
  obtain ⟨-, hp1, -⟩ := (mem_canonOrder_iff hw).mp hp
  obtain ⟨-, hq1, -⟩ := (mem_canonOrder_iff hw).mp hq
  rw [he] at hp1
  simp only [PairBefore] at hlt
  omega

/-- The first pair of an order heads the list. -/
theorem eq_cons_of_first {l : List (Nat × Nat)} (hl : l.Pairwise PairBefore) {p : Nat × Nat} (hp : p ∈ l)
    (hfirst : ∀ q ∈ l, ¬ PairBefore q p) : ∃ rest, l = p :: rest := by
  match l, hl with
  | x :: rest, hl =>
    rcases List.mem_cons.mp hp with rfl | hmem
    · exact ⟨rest, rfl⟩
    · exact absurd ((List.pairwise_cons.mp hl).1 p hmem) (hfirst x (by simp))

/-- A pair and the next one of an order stand side by side in the list. -/
theorem eq_append_of_next {l : List (Nat × Nat)} (hl : l.Pairwise PairBefore) {p q : Nat × Nat} (hp : p ∈ l)
    (hq : q ∈ l) (hpq : PairBefore p q) (hnext : ∀ r ∈ l, PairBefore p r → ¬ PairBefore r q) :
    ∃ pre post, l = pre ++ p :: q :: post := by
  obtain ⟨pre, rest, rfl⟩ := List.append_of_mem hp
  obtain ⟨-, htail, hcross⟩ := List.pairwise_append.mp hl
  obtain ⟨hbehind, hrest⟩ := List.pairwise_cons.mp htail
  have hmem : q ∈ rest := by
    rcases List.mem_append.mp hq with h | h
    · exact absurd hpq (hcross q h p (by simp)).asymm
    · rcases List.mem_cons.mp h with rfl | h
      · exact absurd hpq hpq.asymm
      · exact h
  obtain ⟨post, rfl⟩ := eq_cons_of_first hrest hmem fun r hr => hnext r (by simp [hr]) (hbehind r hr)
  exact ⟨pre, post, rfl⟩

/-! ### The codes along the order (41 R162) -/

/-- The assignment gives each pair of the order one code, of the pair's width. -/
theorem canonAssign_pairs (prev : Option (Nat × Nat)) (order : List (Nat × Nat)) :
    (canonAssign prev order).map (fun p => (p.2.width, p.1)) = order := by
  induction order generalizing prev with
  | nil => rfl
  | cons p rest ih =>
    obtain ⟨w, s⟩ := p
    rw [canonAssign_cons, List.map_cons, ih]

theorem mem_order_of_mem_canonAssign {prev : Option (Nat × Nat)} {order : List (Nat × Nat)} {s : Nat} {c : HufCode}
    (h : (s, c) ∈ canonAssign prev order) : (c.width, s) ∈ order := by
  have hmem := List.mem_map_of_mem (f := fun p : Nat × HufCode => (p.2.width, p.1)) h
  rwa [canonAssign_pairs] at hmem

/-- Symbols that stand side by side have codes that follow each other. -/
theorem canonAssign_next (prev : Option (Nat × Nat)) (pre post : List (Nat × Nat)) (p q : Nat × Nat) :
    ∃ c, (p.2, ⟨p.1, c⟩) ∈ canonAssign prev (pre ++ p :: q :: post) ∧
      (q.2, ⟨q.1, (c + 1) <<< (q.1 - p.1)⟩) ∈ canonAssign prev (pre ++ p :: q :: post) := by
  induction pre generalizing prev with
  | nil =>
    refine ⟨nextCode prev p.1, ?_⟩
    rw [List.nil_append, canonAssign_cons, canonAssign_cons]
    simp [nextCode]
  | cons x pre ih =>
    rw [List.cons_append, canonAssign_cons]
    obtain ⟨c, hp, hq⟩ := ih (some (nextCode prev x.1, x.1))
    exact ⟨c, List.mem_cons_of_mem _ hp, List.mem_cons_of_mem _ hq⟩

/-! ### The table (41 R162) -/

section
variable {ws : List Nat} (hw : ∀ w ∈ ws, w ≤ 16)
include hw

theorem canonAssign_nodup : ((canonAssign none (canonOrder ws)).map Prod.fst).Nodup := by
  have hsyms := canonOrder_symbols_nodup hw
  rw [← canonAssign_pairs none (canonOrder ws), List.map_map] at hsyms
  exact hsyms

theorem canon_entry_of_mem {s : Nat} {c : HufCode} (h : (s, c) ∈ canonAssign none (canonOrder ws)) :
    (tableOf ws.length (canonAssign none (canonOrder ws))).entry s = c := by
  obtain ⟨hs, -⟩ := (mem_canonOrder_iff hw).mp (mem_order_of_mem_canonAssign h)
  exact tableOf_entry_of_mem (canonAssign_nodup hw) hs h

theorem canon_entry_of_width_zero {s : Nat} (hs : s < ws.length) (h : ws.getD s 0 = 0) :
    (tableOf ws.length (canonAssign none (canonOrder ws))).entry s = ⟨0, 0⟩ := by
  refine tableOf_entry_of_not_mem hs fun hmem => ?_
  obtain ⟨⟨s, c⟩, hc, rfl⟩ := List.mem_map.mp hmem
  obtain ⟨-, heq, hpos⟩ := (mem_canonOrder_iff hw).mp (mem_order_of_mem_canonAssign hc)
  simp only [h] at heq
  omega

theorem canon_widths : (tableOf ws.length (canonAssign none (canonOrder ws))).widths = ws := by
  refine (widths_eq_iff (tableOf_n _ _)).mpr fun s hs => ?_
  rcases Nat.eq_zero_or_pos (ws.getD s 0) with hzero | hpos
  · rw [canon_entry_of_width_zero hw hs hzero, hzero]
  · have hp : (ws.getD s 0, s) ∈ canonOrder ws := (mem_canonOrder_iff hw).mpr ⟨hs, rfl, hpos⟩
    rw [← canonAssign_pairs none (canonOrder ws)] at hp
    obtain ⟨⟨a, c⟩, hc, he⟩ := List.mem_map.mp hp
    obtain ⟨hwidth, rfl⟩ := Prod.mk.inj he
    rw [canon_entry_of_mem hw hc, ← hwidth]

theorem canon_first_code {a : Nat} (ha : a < ws.length) (hpos : 0 < ws.getD a 0)
    (hfirst : ∀ b, b < ws.length → 0 < ws.getD b 0 → ¬ CanonBefore ws b a) :
    ((tableOf ws.length (canonAssign none (canonOrder ws))).entry a).code = 0 := by
  obtain ⟨rest, hrest⟩ := eq_cons_of_first (canonOrder_pairBefore ws) (p := (ws.getD a 0, a))
    ((mem_canonOrder_iff hw).mpr ⟨ha, rfl, hpos⟩) fun q hq hbefore => by
      obtain ⟨hlt, hq1, hqpos⟩ := (mem_canonOrder_iff hw).mp hq
      exact hfirst q.2 hlt (hq1 ▸ hqpos) (by rw [CanonBefore, ← hq1]; exact hbefore)
  rw [canon_entry_of_mem hw (c := ⟨ws.getD a 0, 0⟩)]
  rw [hrest, canonAssign_cons]
  exact List.mem_cons_self

theorem canon_next_code {a b : Nat} (ha : a < ws.length) (hb : b < ws.length) (hpos : 0 < ws.getD a 0)
    (hab : CanonBefore ws a b) (hnext : ∀ c, c < ws.length → CanonBefore ws a c → ¬ CanonBefore ws c b) :
    ((tableOf ws.length (canonAssign none (canonOrder ws))).entry b).code =
      (((tableOf ws.length (canonAssign none (canonOrder ws))).entry a).code + 1) <<< (ws.getD b 0 - ws.getD a 0) := by
  have hposb : 0 < ws.getD b 0 := by simp only [CanonBefore] at hab; omega
  obtain ⟨pre, post, horder⟩ := eq_append_of_next (canonOrder_pairBefore ws)
    (p := (ws.getD a 0, a)) (q := (ws.getD b 0, b))
    ((mem_canonOrder_iff hw).mpr ⟨ha, rfl, hpos⟩) ((mem_canonOrder_iff hw).mpr ⟨hb, rfl, hposb⟩) hab
    fun r hr hafter hbefore => by
      obtain ⟨hlt, hr1, -⟩ := (mem_canonOrder_iff hw).mp hr
      exact hnext r.2 hlt (by rw [CanonBefore, ← hr1]; exact hafter) (by rw [CanonBefore, ← hr1]; exact hbefore)
  obtain ⟨c, hca, hcb⟩ := canonAssign_next none pre post (ws.getD a 0, a) (ws.getD b 0, b)
  rw [← horder] at hca hcb
  rw [canon_entry_of_mem hw hca, canon_entry_of_mem hw hcb]

end

/-- Settles O19: the two failures, and the table's widths and codes along the order of the symbols. -/
theorem canonicalConstruction : Obligations.CanonicalConstruction := by
  refine fun ws => ⟨fun ⟨w, hmem, hwide⟩ => ?_, fun hw hover => ?_, fun hw hfits => ?_⟩
  · exact if_pos (List.any_eq_true.mpr ⟨w, hmem, by simpa using hwide⟩)
  · have hnarrow : ¬ ws.any (Config.hufMaxWidth < ·) = true := by simpa using hw
    exact (if_neg hnarrow).trans (if_pos hover)
  · have hwidths := canon_widths hw
    refine ⟨_, canon_eq_ok_iff.mpr ⟨hw, hfits, rfl⟩, hwidths, fun w hmem => ?_, ?_, fun a ha hzero => ?_,
      fun a ha hpos hfirst => canon_first_code hw ha hpos hfirst,
      fun a b ha hb hpos hab hnext => canon_next_code hw ha hb hpos hab hnext⟩
    · rw [tableOf_maxw, hwidths]
      exact le_maxWidth hmem
    · rw [tableOf_maxw, hwidths]
      exact maxWidth_mem_or_zero ws
    · rw [canon_entry_of_width_zero hw ha hzero]

/-- Settles O20: the codes take disjoint intervals of the code space, so none begins another. -/
theorem canonicalCodesArePrefixFree : Obligations.CanonicalCodesArePrefixFree := by
  intro ws t ht
  obtain ⟨hw, hk, rfl⟩ := canon_eq_ok_iff.mp ht
  obtain ⟨hcodes, -⟩ := canonAssign_codesOk hw hk
  exact ⟨tableOf_prefixFree hcodes _, fun s hs => tableOf_code_lt hcodes (by simpa using hs)⟩

end Sys2Proof.Machine
end

section
/-! SUPPORT. Weighted construction (41 R164): the model's queue of nodes is the queue of trees that MergesTo speaks of, and the codes are the paths in the one tree it leaves. -/

namespace Sys2Proof.Machine

/-! ### Nodes of the queue and their trees -/

/-- The code of a path, first bit most significant (41 R164). -/
def pathCode (p : Nat × List Bool) : Nat × HufCode := (p.1, ⟨p.2.length, fieldValue .msb p.2⟩)

/-- The model's node for a node of the queue Q: it lists the leaves of the tree with their codes. -/
def QueueNode.toNode (q : QueueNode) : HufNode := ⟨q.weight, q.seq, q.tree.paths.map pathCode⟩

/-- The node that merging `a` and `b` puts into the queue. -/
def QueueNode.parent (a b : QueueNode) (seq : Nat) : QueueNode := ⟨a.weight + b.weight, seq, .node a.tree b.tree⟩

/-- The symbols at a node's leaves. -/
def QueueNode.symbols (q : QueueNode) : List Nat := q.tree.paths.map Prod.fst

theorem weightedLeaves_eq (wts : List Nat) : weightedLeaves wts = (queueLeaves wts).map QueueNode.toNode := by
  rw [weightedLeaves, queueLeaves, List.map_map]
  rfl

theorem underParent_paths (b : Bool) (paths : List (Nat × List Bool)) :
    underParent b.toNat (paths.map pathCode) = (paths.map fun p => (p.1, b :: p.2)).map pathCode := by
  simp [underParent, pathCode, fieldValue_msb_cons]

theorem mergeNodes_toNode (a b : QueueNode) (seq : Nat) :
    mergeNodes a.toNode b.toNode seq = (a.parent b seq).toNode := by
  have h0 := underParent_paths false a.tree.paths
  have h1 := underParent_paths true b.tree.paths
  simp only [Bool.toNat_false, Bool.toNat_true] at h0 h1
  simp [mergeNodes, QueueNode.toNode, QueueNode.parent, HufTree.paths, h0, h1]

theorem parent_symbols (a b : QueueNode) (seq : Nat) : (a.parent b seq).symbols = a.symbols ++ b.symbols := by
  simp [QueueNode.symbols, QueueNode.parent, HufTree.paths, Function.comp_def]

theorem before_toNode_iff (a b : QueueNode) : a.toNode.before b.toNode = true ↔ a.Precedes b := by
  rw [HufNode.before, Bool.or_eq_true, Bool.and_eq_true, beq_iff_eq, decide_eq_true_iff, decide_eq_true_iff]
  rfl

/-! ### The least node -/

theorem QueueNode.Precedes.trans {a b c : QueueNode} (h : a.Precedes b) (h' : b.Precedes c) : a.Precedes c := by
  simp only [QueueNode.Precedes] at *
  omega

theorem QueueNode.precedes_of_not {a b : QueueNode} (hne : a.seq ≠ b.seq) (h : ¬ a.Precedes b) : b.Precedes a := by
  simp only [QueueNode.Precedes] at *
  omega

/-- Of nodes with distinct sequence numbers the model takes the one that precedes all others. -/
theorem popLeast_toNode (x : QueueNode) (rest : List QueueNode) (hseq : ((x :: rest).map QueueNode.seq).Nodup) :
    ∃ m others, popLeast x.toNode (rest.map QueueNode.toNode) = (m.toNode, others.map QueueNode.toNode) ∧
      (m :: others).Perm (x :: rest) ∧ ∀ y ∈ others, m.Precedes y := by
  induction rest generalizing x with
  | nil => exact ⟨x, [], rfl, .rfl, by simp⟩
  | cons y rest ih =>
    simp only [List.map_cons, List.nodup_cons, List.mem_cons, not_or] at hseq ih
    obtain ⟨⟨hxy, hxrest⟩, hyrest, hrest⟩ := hseq
    have hmin {m z : QueueNode} {others : List QueueNode} (hperm : (m :: others).Perm (z :: rest))
        (hall : ∀ u ∈ others, m.Precedes u) : m = z ∨ m.Precedes z :=
      (List.mem_cons.mp (hperm.mem_iff.mpr List.mem_cons_self)).imp Eq.symm (hall z)
    by_cases hlt : y.Precedes x
    · obtain ⟨m, others, hpop, hperm, hall⟩ := ih y ⟨hyrest, hrest⟩
      refine ⟨m, x :: others, ?_, (List.Perm.swap _ _ _).trans (hperm.cons x), ?_⟩
      · rw [List.map_cons, popLeast, if_pos ((before_toNode_iff y x).mpr hlt), hpop]
        rfl
      · refine List.forall_mem_cons.mpr ⟨?_, hall⟩
        rcases hmin hperm hall with rfl | hmy
        · exact hlt
        · exact hmy.trans hlt
    · obtain ⟨m, others, hpop, hperm, hall⟩ := ih x ⟨hxrest, hrest⟩
      refine ⟨m, y :: others, ?_, (List.Perm.swap _ _ _).trans ((hperm.cons y).trans (List.Perm.swap _ _ _)), ?_⟩
      · rw [List.map_cons, popLeast, if_neg (by rwa [before_toNode_iff]), hpop]
        rfl
      · have hlt' := QueueNode.precedes_of_not (Ne.symm hxy) hlt
        refine List.forall_mem_cons.mpr ⟨?_, hall⟩
        rcases hmin hperm hall with rfl | hmx
        · exact hlt'
        · exact hmx.trans hlt'

/-! ### The loop (41 R164) -/

/-- The sequence numbers of a queue: distinct, and all given before `next`. -/
def SeqsBelow (next : Nat) (q : List QueueNode) : Prop := (q.map QueueNode.seq).Nodup ∧ ∀ x ∈ q, x.seq < next

theorem SeqsBelow.merged {next : Nat} {q others : List QueueNode} {a b : QueueNode} (h : SeqsBelow next q)
    (hperm : q.Perm (a :: b :: others)) : SeqsBelow (next + 1) (a.parent b next :: others) := by
  obtain ⟨hnodup, hlt⟩ := h
  have hothers : ∀ x ∈ others, x.seq < next := fun x hx => hlt x (hperm.mem_iff.mpr (by simp [hx]))
  rw [(hperm.map _).nodup_iff, List.map_cons, List.map_cons, List.nodup_cons, List.nodup_cons] at hnodup
  refine ⟨List.nodup_cons.mpr ⟨fun hmem => ?_, hnodup.2.2⟩, List.forall_mem_cons.mpr ⟨Nat.lt_succ_self next, ?_⟩⟩
  · obtain ⟨x, hx, he⟩ := List.mem_map.mp hmem
    exact absurd he (hothers x hx).ne
  · exact fun x hx => (hothers x hx).trans (Nat.lt_succ_self next)

/-- The model's loop is the loop "while |Q| > 1". -/
theorem mergeAll_mergesTo (fuel next : Nat) (q : List QueueNode) (hpos : q ≠ []) (hfuel : q.length ≤ fuel + 1)
    (hseq : SeqsBelow next q) :
    ∃ r, MergesTo next q r ∧ mergeAll fuel next (q.map QueueNode.toNode) = [r.toNode] := by
  induction fuel generalizing next q with
  | zero =>
    match q, hfuel with
    | [r], _ => exact ⟨r, .single next r, rfl⟩
  | succ fuel ih =>
    match q with
    | [r] => exact ⟨r, .single next r, rfl⟩
    | x :: y :: rest =>
      obtain ⟨a, others, hpop, hperm, hleast⟩ := popLeast_toNode x (y :: rest) hseq.1
      match others with
      | [] => exact absurd hperm.length_eq (by simp)
      | z :: zs =>
        have hseqs : ((a :: z :: zs).map QueueNode.seq).Nodup := (hperm.map _).nodup_iff.mpr hseq.1
        obtain ⟨b, others, hpop', hperm', hleast'⟩ := popLeast_toNode z zs (List.nodup_cons.mp hseqs).2
        have hall : (x :: y :: rest).Perm (a :: b :: others) := hperm.symm.trans (hperm'.symm.cons a)
        have hlen := hall.length_eq
        obtain ⟨r, hr, hmerge⟩ := ih (next + 1) (a.parent b next :: others) (by simp)
          (by simp only [List.length_cons] at *; omega) (hseq.merged hall)
        refine ⟨r, .merge next _ others a b r hall (fun u hu => hleast u (hperm'.mem_iff.mp hu)) hleast' hr, ?_⟩
        rw [List.map_cons] at hpop
        rw [List.map_cons, List.map_cons, mergeAll, hpop]
        simp only [List.map_cons]
        rw [hpop', mergeNodes_toNode]
        exact hmerge

/-! ### What merging keeps -/

/-- The tree that is left has the symbols of the queue. -/
theorem MergesTo.symbols {next : Nat} {q : List QueueNode} {r : QueueNode} (h : MergesTo next q r) :
    r.symbols.Perm (q.flatMap QueueNode.symbols) := by
  induction h with
  | single next r => simp
  | merge next q rest a b r hperm ha hb hrest ih =>
    refine ih.trans ((List.Perm.of_eq ?_).trans (hperm.flatMap_right _).symm)
    show (a.parent b next :: rest).flatMap QueueNode.symbols = _
    simp [parent_symbols]

/-- Of two or more nodes the tree has no leaf at its root, so no path is empty. -/
theorem MergesTo.path_ne_nil {next : Nat} {q : List QueueNode} {r : QueueNode} (h : MergesTo next q r)
    (hq : 2 ≤ q.length) : ∀ p ∈ r.tree.paths, p.2 ≠ [] := by
  have hnode : q = [r] ∨ ∃ a b, r.tree = .node a b := by
    clear hq
    induction h with
    | single next r => exact .inl rfl
    | merge next q rest a b r hperm ha hb hrest ih =>
      rcases ih with he | hnode
      · obtain ⟨rfl, -⟩ := List.cons.inj he
        exact .inr ⟨_, _, rfl⟩
      · exact .inr hnode
  rcases hnode with rfl | ⟨a, b, htree⟩
  · simp at hq
  · rw [htree]
    intro p hp
    rcases List.mem_append.mp hp with hp | hp <;> obtain ⟨q, -, rfl⟩ := List.mem_map.mp hp <;> simp

/-! ### The leaves -/

theorem queueLeaves_seqsBelow (wts : List Nat) : SeqsBelow (queueLeaves wts).length (queueLeaves wts) := by
  have hseqs : (queueLeaves wts).map QueueNode.seq = List.range (queueLeaves wts).length := by
    have hmap : (queueLeaves wts).map QueueNode.seq =
        ((wts.zipIdx.filter fun p => decide (0 < p.1)).zipIdx).map Prod.snd := by
      rw [queueLeaves, List.map_map]
      rfl
    rw [hmap, List.zipIdx_map_snd, queueLeaves, List.length_map, List.length_zipIdx, List.range_eq_range']
  refine ⟨hseqs ▸ List.nodup_range, fun x hx => ?_⟩
  have hmem : x.seq ∈ (queueLeaves wts).map QueueNode.seq := List.mem_map_of_mem hx
  rw [hseqs] at hmem
  exact List.mem_range.mp hmem

/-- The symbols of non-zero weight, ascending. -/
def weightedSymbols (wts : List Nat) : List Nat := (wts.zipIdx.filter fun p => decide (0 < p.1)).map Prod.snd

theorem queueLeaves_symbols (wts : List Nat) : (queueLeaves wts).flatMap QueueNode.symbols = weightedSymbols wts := by
  have hmap : (queueLeaves wts).flatMap QueueNode.symbols =
      (((wts.zipIdx.filter fun p => decide (0 < p.1)).zipIdx).map Prod.fst).map Prod.snd := by
    rw [queueLeaves, List.flatMap_map, List.map_map]
    exact List.flatMap_pure_eq_map _ _
  rw [hmap, List.zipIdx_map_fst, weightedSymbols]

theorem mem_weightedSymbols {wts : List Nat} {s : Nat} :
    s ∈ weightedSymbols wts ↔ s < wts.length ∧ 0 < wts.getD s 0 := by
  simp only [weightedSymbols, List.mem_map, List.mem_filter, List.mem_zipIdx_iff_getElem?, List.getElem?_eq_some_iff,
    decide_eq_true_eq]
  constructor
  · rintro ⟨p, ⟨⟨hs, hw⟩, hpos⟩, rfl⟩
    exact ⟨hs, by rwa [List.getD_eq_getElem _ _ hs, hw]⟩
  · rintro ⟨hs, hpos⟩
    rw [List.getD_eq_getElem _ _ hs] at hpos
    exact ⟨(wts[s], s), ⟨⟨hs, rfl⟩, hpos⟩, rfl⟩

theorem weightedSymbols_nodup (wts : List Nat) : (weightedSymbols wts).Nodup := by
  have hidx : (wts.zipIdx.map Prod.snd).Nodup := by rw [List.zipIdx_map_snd]; exact List.nodup_range'
  exact hidx.sublist (List.filter_sublist.map Prod.snd)

/-! ### The table (41 R164) -/

theorem weightedTree_of_nil {wts : List Nat} (h : queueLeaves wts = []) : weightedTree wts = tableOf wts.length [] := by
  rw [weightedTree, weightedLeaves_eq, h]
  rfl

/-- "a single symbol" gets the code 0 of width 1. -/
theorem weightedTree_of_single {wts : List Nat} {leaf : QueueNode} (h : queueLeaves wts = [leaf]) :
    weightedTree wts = tableOf wts.length (leaf.symbols.map fun s => (s, ⟨1, 0⟩)) := by
  rw [weightedTree, weightedLeaves_eq, h, QueueNode.symbols, List.map_map]
  exact congrArg (tableOf _) (List.map_map ..)

/-- Two or more symbols get their paths in the tree that the loop leaves. -/
theorem weightedTree_of_many {wts : List Nat} (h : 2 ≤ (queueLeaves wts).length) :
    ∃ root, MergesTo (queueLeaves wts).length (queueLeaves wts) root ∧
      weightedTree wts = tableOf wts.length (root.tree.paths.map pathCode) := by
  obtain ⟨root, hroot, hmerge⟩ := mergeAll_mergesTo (queueLeaves wts).length (queueLeaves wts).length (queueLeaves wts)
    (List.ne_nil_of_length_pos (by omega)) (Nat.le_succ _) (queueLeaves_seqsBelow wts)
  refine ⟨root, hroot, ?_⟩
  rw [weightedTree, weightedLeaves_eq]
  match hq : queueLeaves wts, h with
  | a :: b :: rest, _ =>
    rw [hq] at hmerge
    simp only [List.map_cons, List.length_cons, List.length_map] at hmerge ⊢
    rw [hmerge, List.flatMap_singleton]
    rfl

/-- The symbols of non-zero weight have codes of at least one bit, and no others have one. -/
theorem weightedTree_coded (wts : List Nat) : ∃ coded, weightedTree wts = tableOf wts.length coded ∧
    (coded.map Prod.fst).Perm (weightedSymbols wts) ∧ ∀ p ∈ coded, 0 < p.2.width := by
  rw [← queueLeaves_symbols]
  match hq : queueLeaves wts with
  | [] => exact ⟨[], weightedTree_of_nil hq, .rfl, by simp⟩
  | [leaf] => exact ⟨_, weightedTree_of_single hq, by simp [Function.comp_def], by simp⟩
  | a :: b :: rest =>
    have hlen : 2 ≤ (queueLeaves wts).length := by rw [hq]; simp
    obtain ⟨root, hroot, htable⟩ := weightedTree_of_many hlen
    refine ⟨_, htable, ?_, fun p hp => ?_⟩
    · rw [← hq, List.map_map]
      exact hroot.symbols
    · obtain ⟨path, hpath, rfl⟩ := List.mem_map.mp hp
      exact List.length_pos_of_ne_nil (hroot.path_ne_nil hlen path hpath)

theorem weightedTree_entry_of_zero {wts : List Nat} {s : Nat} (hs : s < wts.length) (h : wts.getD s 0 = 0) :
    (weightedTree wts).entry s = ⟨0, 0⟩ := by
  obtain ⟨coded, htable, hsyms, -⟩ := weightedTree_coded wts
  rw [htable]
  refine tableOf_entry_of_not_mem hs fun hmem => ?_
  have := (mem_weightedSymbols.mp (hsyms.mem_iff.mp hmem)).2
  omega

/-- A code of the list over the symbols of non-zero weight is the entry of its symbol. -/
theorem weightedTree_entry_of_mem {wts : List Nat} {coded : List (Nat × HufCode)}
    (htable : weightedTree wts = tableOf wts.length coded) (hsyms : (coded.map Prod.fst).Perm (weightedSymbols wts))
    {s : Nat} {c : HufCode} (h : (s, c) ∈ coded) : (weightedTree wts).entry s = c := by
  have hs := (mem_weightedSymbols.mp (hsyms.mem_iff.mp (List.mem_map_of_mem h))).1
  rw [htable]
  exact tableOf_entry_of_mem (hsyms.nodup_iff.mpr (weightedSymbols_nodup wts)) hs h

theorem weightedTree_width_pos {wts : List Nat} {s : Nat} (hs : s < wts.length) (h : 0 < wts.getD s 0) :
    0 < ((weightedTree wts).entry s).width := by
  obtain ⟨coded, htable, hsyms, hwidth⟩ := weightedTree_coded wts
  have hmem := hsyms.mem_iff.mpr (mem_weightedSymbols.mpr ⟨hs, h⟩)
  obtain ⟨⟨a, c⟩, hc, rfl⟩ := List.mem_map.mp hmem
  rw [weightedTree_entry_of_mem htable hsyms hc]
  exact hwidth _ hc

theorem weightedTree_n (wts : List Nat) : (weightedTree wts).n = wts.length := by
  obtain ⟨coded, htable, -⟩ := weightedTree_coded wts
  rw [htable, tableOf_n]

theorem weightedTree_maxw (wts : List Nat) : (weightedTree wts).maxw = maxWidth (weightedTree wts).widths := by
  obtain ⟨coded, htable, -⟩ := weightedTree_coded wts
  rw [htable, tableOf_maxw]

/-- Settles O21: the codes are the paths of the tree that MergesTo builds, and no path begins another. -/
theorem weightedCodesArePrefixFree : Obligations.WeightedCodesArePrefixFree := by
  intro wts
  obtain ⟨coded, hcodes, htable⟩ := weightedTree_codes wts
  refine ⟨fun s => weightedTree_entry_of_zero, fun leaf hleaf p hp => ?_, fun hlen => ?_, weightedTree_maxw wts,
    weightedTree_n wts, htable ▸ tableOf_prefixFree hcodes _,
    fun s hs => ⟨⟨fun hwidth => ?_, weightedTree_width_pos hs⟩,
      width_le_maxw (weightedTree_maxw wts) (by rwa [weightedTree_n]), htable ▸ tableOf_code_lt hcodes hs⟩⟩
  · refine weightedTree_entry_of_mem (weightedTree_of_single hleaf) ?_
      (List.mem_map_of_mem (List.mem_map_of_mem (f := Prod.fst) hp))
    rw [← queueLeaves_symbols, hleaf]
    simp [Function.comp_def]
  · obtain ⟨root, hroot, hpaths⟩ := weightedTree_of_many hlen
    refine ⟨root, hroot, fun p hp => weightedTree_entry_of_mem hpaths ?_ (List.mem_map_of_mem hp)⟩
    rw [← queueLeaves_symbols, List.map_map]
    exact hroot.symbols
  · by_contra hzero
    rw [weightedTree_entry_of_zero hs (by omega)] at hwidth
    exact absurd hwidth (Nat.lt_irrefl 0)

end Sys2Proof.Machine
end

section
/-! SUPPORT. The commands that fill a Huffman slot (41 R163, R165): HUF_BUILD_CANON and HUF_BUILD_WEIGHTED, the bytes they read, their checks in order, and a failed build invalidating its slot. -/

namespace Sys2Proof.Machine

/-! ### The widths and weights read from memory -/

@[simp] theorem readWidths_startCommand (s : State) (a n : Nat) :
    (startCommand s).readWidths a n = s.readWidths a n := by
  simp [State.readWidths]

@[simp] theorem readWeights_startCommand (s : State) (a n : Nat) :
    (startCommand s).readWeights a n = s.readWeights a n := by
  simp [State.readWeights, State.memRead]

theorem engByte_eq_hostByte {s : State} (hr : s.raced = []) (site : List Nat) (a : Nat) :
    s.engByte site a = s.hostByte a := by
  rw [State.engByte_of_no_race hr, State.hostByte_of_no_race hr]

theorem readWidths_eq_hostBytes {s : State} (hr : s.raced = []) (a n : Nat) :
    s.readWidths a n = (List.range n).map fun j => (s.hostByte (a + j)).toNat :=
  List.map_congr_left fun j _ => by rw [engByte_eq_hostByte hr]

theorem littleEndian_four (b0 b1 b2 b3 : Byte) :
    littleEndian [b0, b1, b2, b3] = b0.toNat + 256 * b1.toNat + 65536 * b2.toNat + 16777216 * b3.toNat := by
  simp only [littleEndian, List.foldr_cons, List.foldr_nil]
  omega

/-- A weight is the little-endian value of four bytes (20 R83). -/
theorem readWeights_eq_hostBytes {s : State} (hr : s.raced = []) (a n : Nat) :
    s.readWeights a n = (List.range n).map fun j => (s.hostByte (a + 4 * j)).toNat +
      256 * (s.hostByte (a + 4 * j + 1)).toNat + 65536 * (s.hostByte (a + 4 * j + 2)).toNat +
      16777216 * (s.hostByte (a + 4 * j + 3)).toNat := by
  refine List.map_congr_left fun j _ => ?_
  simp only [State.memRead, engByte_eq_hostByte hr]
  exact littleEndian_four _ _ _ _

/-! ### The slot written -/

theorem setSlot_huf_same (s : State) (k : Fin 4) (slot : HufSlot) : (s.setSlot k slot).huf[k] = slot := by
  simp

theorem setSlot_huf_other (s : State) {j k : Fin 4} (h : j ≠ k) (slot : HufSlot) :
    (s.setSlot k slot).huf[j] = s.huf[j] := by
  simp only [State.setSlot_huf, Fin.getElem_fin]
  exact Vector.getElem_set_ne _ _ fun he => h (Fin.ext he).symm

/-- A build that reached its end changed slot k and nothing else. -/
theorem setSlot_only (s : State) (k : Fin 4) (slot : HufSlot) {u : State}
    (hu : u = finishCommand ((startCommand s).setSlot k slot)) :
    ResultsAre u 0 0 0 ∧ OnlySlots s u ∧ MemorySame s u ∧ u.huf[k] = slot ∧
    ∀ j : Fin 4, j ≠ k → u.huf[j] = s.huf[j] := by
  subst hu
  exact ⟨⟨rfl, rfl, rfl⟩, ⟨⟨rfl, rfl, rfl, rfl, rfl, rfl, rfl, rfl⟩, ⟨rfl, rfl, rfl, rfl⟩, rfl⟩,
    (WritesIn.of_same (s := startCommand s) (HostSideSame.refl _) rfl rfl rfl rfl).memorySame,
    setSlot_huf_same _ k slot, fun j hj => setSlot_huf_other _ hj slot⟩

/-! ### A build, whatever its construction (41 R163, R165) -/

/-- The checks of a build of slot k from a region of `len` bytes, and its end. -/
def buildRun (len : Nat) (built : Except Err HufTable) (k : Fin 4) (s : State) : Run :=
  if symbolCountBad s.arg1 then .fail s Err.symbolCount
  else if !s.inRange s.arg0 len then .fail s Err.addressRange
  else buildSlot k built s

theorem effects_hufBuildCanon (k : Fin 4) (s : State) : effects (.hufBuildCanon k.val) (startCommand s) =
    buildRun s.arg1 (canon (s.readWidths s.arg0 s.arg1)) k (startCommand s) := by
  rw [effects, hufBuildCanonEffects, withSlot_fin, readWidths_startCommand]
  rfl

theorem effects_hufBuildWeighted (k : Fin 4) (s : State) : effects (.hufBuildWeighted k.val) (startCommand s) =
    buildRun (4 * s.arg1) (weighted (s.readWeights s.arg0 s.arg1)) k (startCommand s) := by
  rw [effects, hufBuildWeightedEffects, withSlot_fin, readWeights_startCommand]
  rfl

theorem symbolCountBad_iff (n : Nat) : symbolCountBad n = true ↔ n < 1 ∨ 288 < n := by
  simp only [symbolCountBad, Bool.or_eq_true, decide_eq_true_eq]

section
variable {i : Instr} {k : Fin 4} {s : State} {len : Nat} {built : Except Err HufTable}
  (hi : effects i (startCommand s) = buildRun len built k (startCommand s))
include hi

theorem completes_symbolCount (h : s.arg1 < 1 ∨ 288 < s.arg1) : Completes i s (RefusedWith Err.symbolCount s) :=
  completes_refused (hi.trans (if_pos ((symbolCountBad_iff _).mpr h)))

variable (hlo : 1 ≤ s.arg1) (hhi : s.arg1 ≤ 288)
include hlo hhi

theorem completes_addressRange (h : memSize s.par < s.arg0 + len) : Completes i s (RefusedWith Err.addressRange s) := by
  have hcount : ¬ symbolCountBad s.arg1 = true := by rw [symbolCountBad_iff]; omega
  have hout : s.inRange s.arg0 len = false := by rw [← Bool.not_eq_true, State.inRange_iff]; omega
  exact completes_refused (hi.trans ((if_neg hcount).trans (if_pos (by rw [Bool.not_eq_true']; exact hout))))

variable (hin : s.arg0 + len ≤ memSize s.par)
include hin

theorem effects_built : effects i (startCommand s) = buildSlot k built (startCommand s) := by
  have hcount : ¬ symbolCountBad s.arg1 = true := by rw [symbolCountBad_iff]; omega
  have hout : s.inRange s.arg0 len = true := (s.inRange_iff _ _).mpr hin
  exact hi.trans ((if_neg hcount).trans (if_neg (by rw [Bool.not_eq_true', Bool.not_eq_false]; exact hout)))

/-- A construction that succeeds fills the slot. -/
theorem completes_built {t : HufTable} (h : built = .ok t) : Completes i s fun u =>
    EndedClean s u ∧ ResultsAre u 0 0 0 ∧ OnlySlots s u ∧ MemorySame s u ∧
    u.huf[k] = ⟨true, t⟩ ∧ ∀ j : Fin 4, j ≠ k → u.huf[j] = s.huf[j] := by
  subst h
  exact completes_ok (effects_built hi hlo hhi hin)
    ⟨⟨rfl, rfl, rfl, rfl⟩, setSlot_only s k ⟨true, t⟩ rfl⟩

/-- "A failed INVALID_CODE_TABLE build leaves slot k invalid" (41 R163). -/
theorem completes_unbuilt {e : Err} (h : built = .error e) : Completes i s fun u =>
    EndedInError e s u ∧ ResultsAre u 0 0 0 ∧ OnlySlots s u ∧ MemorySame s u ∧
    u.huf[k].valid = false ∧ ∀ j : Fin 4, j ≠ k → u.huf[j] = s.huf[j] := by
  subst h
  obtain ⟨hres, honly, hmem, hslot, hothers⟩ := setSlot_only s k ⟨false, s.huf[k].table⟩ rfl
  rw [completes_iff, effects_built hi hlo hhi hin]
  exact ⟨⟨rfl, rfl, rfl, rfl⟩, hres, honly, hmem, congrArg HufSlot.valid hslot, hothers⟩

end

/-! ### HUF_BUILD_CANON and HUF_BUILD_WEIGHTED -/

/-- Settles O22: the checks in their order, and the slot that canonical construction fills or invalidates. -/
theorem hufBuildCanonFillsItsSlot : Obligations.HufBuildCanonFillsItsSlot := by
  refine fun slot s => ⟨completes_badSlot (by rw [effects, hufBuildCanonEffects]), ?_⟩
  rintro k rfl
  have hi := effects_hufBuildCanon k s
  exact ⟨completes_symbolCount hi, fun hlo hhi => ⟨completes_addressRange hi hlo hhi, fun hin =>
    ⟨fun hr => readWidths_eq_hostBytes hr _ _, fun _ => completes_built hi hlo hhi hin,
     fun _ => completes_unbuilt hi hlo hhi hin⟩⟩⟩

/-- Settles O23: the checks in their order, and the slot that weighted construction fills, or invalidates when the tree
is deeper than 16. -/
theorem hufBuildWeightedFillsItsSlot : Obligations.HufBuildWeightedFillsItsSlot := by
  refine fun slot s => ⟨completes_badSlot (by rw [effects, hufBuildWeightedEffects]), ?_⟩
  rintro k rfl
  have hi := effects_hufBuildWeighted k s
  exact ⟨completes_symbolCount hi, fun hlo hhi => ⟨completes_addressRange hi hlo hhi, fun hin =>
    ⟨fun hr => readWeights_eq_hostBytes hr _ _,
     fun hdepth => completes_built hi hlo hhi hin (if_neg hdepth.not_gt),
     fun hdepth => completes_unbuilt hi hlo hhi hin (if_pos hdepth)⟩⟩⟩

end Sys2Proof.Machine
end

section
/-! SUPPORT. The fields that the engine reads from the input (00 R11; 45 R356): when the input lacks bits, and the value of a field bit by bit in both orders. -/

namespace Sys2Proof.Machine

/-! ### The value of a field (00 R11) -/

theorem fieldValue_lsb_cons (b : Bool) (bits : List Bool) :
    fieldValue .lsb (b :: bits) = b.toNat + 2 * fieldValue .lsb bits := rfl

theorem fieldValue_msb_eq_reverse (bits : List Bool) : fieldValue .msb bits = fieldValue .lsb bits.reverse := by
  simp only [fieldValue, List.foldr_reverse, Nat.add_comm]

theorem fieldValue_lsb_lt (bits : List Bool) : fieldValue .lsb bits < 2 ^ bits.length := by
  induction bits with
  | nil => exact Nat.one_pos
  | cons b rest ih =>
    have := b.toNat_le
    rw [fieldValue_lsb_cons, List.length_cons, pow_succ]
    omega

theorem fieldValue_lt (ord : BitOrder) (bits : List Bool) : fieldValue ord bits < 2 ^ bits.length := by
  cases ord with
  | lsb => exact fieldValue_lsb_lt bits
  | msb =>
    rw [fieldValue_msb_eq_reverse, ← bits.length_reverse]
    exact fieldValue_lsb_lt _

theorem testBit_fieldValue_lsb (bits : List Bool) (k : Nat) : (fieldValue .lsb bits).testBit k = bits.getD k false := by
  induction bits generalizing k with
  | nil => simp [fieldValue]
  | cons b rest ih =>
    rw [fieldValue_lsb_cons]
    cases k with
    | zero => cases b <;> simp [Nat.testBit_zero, Nat.add_mod]
    | succ k =>
      have hhalf : (b.toNat + 2 * fieldValue .lsb rest) / 2 = fieldValue .lsb rest := by
        have := b.toNat_le
        omega
      rw [Nat.testBit_succ, hhalf, ih]
      rfl

/-- The place in a field's value of its bit k in stream order (00 R11). -/
def fieldPlace (ord : BitOrder) (w k : Nat) : Nat :=
  match ord with
  | .lsb => k
  | .msb => w - 1 - k

theorem testBit_fieldValue (ord : BitOrder) (bit : Nat → Bool) {w k : Nat} (hk : k < w) :
    (fieldValue ord ((List.range w).map bit)).testBit (fieldPlace ord w k) = bit k := by
  cases ord with
  | lsb => rw [testBit_fieldValue_lsb, List.getD_eq_getElem _ _ (by simpa [fieldPlace] using hk)]; simp [fieldPlace]
  | msb =>
    have hplace : w - 1 - k < w := by omega
    refine (testBit_firstBits bit hplace).trans ?_
    congr 1
    omega

/-! ### Reading a field (45 R356) -/

/-- Bit i of the input as the engine reads it when its cursor stands there. -/
def State.inputBit (s : State) (inp : Input) (i : Nat) : Bool := s.bitAt [i] s.ses.ord inp.base i

theorem inBit_of_lt {s : State} {inp : Input} {c : Nat} (h : c < 8 * inp.len) :
    inBit s inp c = some (s.inputBit inp c) :=
  if_neg h.not_ge

theorem inBit_of_ge {s : State} {inp : Input} {c : Nat} (h : 8 * inp.len ≤ c) : inBit s inp c = none := if_pos h

theorem inBits_of_le {s : State} {inp : Input} {w c : Nat} (h : c + w ≤ 8 * inp.len) :
    inBits s inp w c = some ((List.range w).map fun k => s.inputBit inp (c + k)) := by
  induction w generalizing c with
  | zero => rfl
  | succ w ih =>
    have hplace : ∀ k, c + 1 + k = c + (k + 1) := fun k => by omega
    rw [inBits, inBit_of_lt (by omega), List.range_succ_eq_map]
    simp only [ih (c := c + 1) (by omega), Option.map_some, List.map_cons, List.map_map, hplace]
    rfl

theorem inBits_of_lt {s : State} {inp : Input} {w c : Nat} (hw : 1 ≤ w) (h : 8 * inp.len < c + w) :
    inBits s inp w c = none := by
  induction w generalizing c with
  | zero => cases hw
  | succ w ih =>
    rw [inBits]
    by_cases hc : 8 * inp.len ≤ c
    · rw [inBit_of_ge hc]
    · rw [inBit_of_lt (not_le.mp hc)]
      simp only [ih (c := c + 1) (by omega) (by omega), Option.map_none]

theorem inField_of_le {s : State} {inp : Input} {w c : Nat} (h : c + w ≤ 8 * inp.len) :
    inField s inp w c = .got (fieldValue s.ses.ord ((List.range w).map fun k => s.inputBit inp (c + k))) (c + w) := by
  rw [inField, inBits_of_le h]

theorem inField_of_lt {s : State} {inp : Input} {w c : Nat} (hw : 1 ≤ w) (h : 8 * inp.len < c + w) :
    inField s inp w c = .needMore := by
  rw [inField, inBits_of_lt hw h]

/-- A field of w bits has a value below 2^w. -/
theorem inField_lt {s : State} {inp : Input} {w c v c' : Nat} (h : inField s inp w c = .got v c') : v < 2 ^ w := by
  by_cases hle : c + w ≤ 8 * inp.len
  · rw [inField_of_le hle] at h
    injection h with hv _
    subst hv
    simpa using fieldValue_lt s.ses.ord ((List.range w).map fun k => s.inputBit inp (c + k))
  · cases w with
    | zero =>
      cases h
      exact fieldValue_lt s.ses.ord []
    | succ w =>
      rw [inField_of_lt (Nat.succ_pos w) (not_le.mp hle)] at h
      cases h

end Sys2Proof.Machine
end

section
/-! SUPPORT. Invariants of the session of one codec, over every step: what a start of the codec meets and a FEED of it keeps, every step keeps. -/

namespace Sys2Proof.Machine

/-! ### What the invariants speak of -/

/-- The parameters, the session's kind and state, and the codec state behind it are the same in `t` as in `s`. -/
structure CodecSame (s t : State) : Prop where
  par : t.par = s.par
  mode : t.ses.mode = s.ses.mode
  lit : t.ses.lit = s.ses.lit
  sstate : t.ses.sstate = s.ses.sstate
  lz : t.lz = s.lz
  le : t.le = s.le
  df : t.df = s.df

theorem CodecSame.refl (s : State) : CodecSame s s := ⟨rfl, rfl, rfl, rfl, rfl, rfl, rfl⟩

theorem CodecSame.trans {s t u : State} (h : CodecSame s t) (h' : CodecSame t u) : CodecSame s u :=
  ⟨h'.par.trans h.par, h'.mode.trans h.mode, h'.lit.trans h.lit, h'.sstate.trans h.sstate, h'.lz.trans h.lz,
   h'.le.trans h.le, h'.df.trans h.df⟩

theorem codecSame_start (s : State) : CodecSame s (startCommand s) := ⟨rfl, rfl, rfl, rfl, rfl, rfl, rfl⟩

theorem codecSame_finish (r : Run) : CodecSame r.state r.finish := by
  cases r <;> exact ⟨rfl, rfl, rfl, rfl, rfl, rfl, rfl⟩

theorem codecSame_feedResults (n : Nat) (out0 : Word) (clean : Bool) (s : State) :
    CodecSame s (feedResults n out0 clean s) := ⟨rfl, rfl, rfl, rfl, rfl, rfl, rfl⟩

theorem codecSame_setBitpos (n : Nat) (s : State) : CodecSame s (setBitpos n s) := ⟨rfl, rfl, rfl, rfl, rfl, rfl, rfl⟩

theorem codecSame_bsAppendField (v w : Nat) (s : State) : CodecSame s (bsAppendField v w s) := by
  rw [bsAppendField, putBits_fields]
  exact ⟨rfl, rfl, rfl, rfl, rfl, rfl, rfl⟩

theorem codecSame_outByte (b : Byte) (s : State) : CodecSame s (outByte b s).state := by
  rcases outByte_cases b s with ⟨_, h⟩ | ⟨_, h⟩ <;> rw [h]
  · exact CodecSame.refl s
  · exact ⟨rfl, rfl, rfl, rfl, rfl, rfl, rfl⟩

theorem codecSame_outBytes (bytes : List Byte) (s : State) : CodecSame s (Run.each outByte bytes s).state :=
  Run.each_rel CodecSame.refl (fun _ _ _ => CodecSame.trans) bytes s fun b _ u => codecSame_outByte b u

theorem codecSame_copyBack (dist len : Nat) (s : State) : CodecSame s (copyBack dist len s).state := by
  induction len generalizing s with
  | zero => exact CodecSame.refl s
  | succ len ih =>
    exact Run.andThen_rel (R := CodecSame) (fun _ _ _ => CodecSame.trans) (codecSame_outByte _ s) fun u _ => ih u

/-! ### The invariant of one codec -/

/-- The command starts a session. -/
def Instr.StartsSession (i : Instr) : Prop :=
  (∃ o l, i = .lzwDecStart o l) ∨ (∃ o l, i = .lzwEncStart o l) ∨ i = .dflDecStart ∨ ∃ m, i = .dflEncStart m

/-- `Started u`: `u` is a state in which a start command leaves the session it opens. -/
inductive Started : State → Prop where
  | lzwDecoder (s : State) (o : BitOrder) (l : Nat) : 2 ≤ l → l ≤ 8 →
      Started (lzwReset (sessionStart .lzwDec o l s.larg.a0 s.larg.a1 0 s))
  | lzwEncoder (u : State) : u.ses.mode = .lzwEnc → 2 ≤ u.litWidth → u.litWidth ≤ 8 →
      u.le = { map := [], size := u.firstCode, w := none, dsize := u.firstCode, dwidth := u.litWidth + 1, dprev := false } →
      Started u
  | dflDecoder (u : State) : u.ses.mode = .dflDec → u.df.p = .header → Started u
  | dflEncoder (u : State) : u.ses.mode = .dflEnc → Started u

/-- The literal width of a session that LZW_DEC_START or LZW_ENC_START opens (10 R39). -/
theorem litField_toNat {l : Nat} (h : l ≤ 8) : (BitVec.ofNat 4 l).toNat = l := by
  rw [BitVec.toNat_ofNat, Nat.mod_eq_of_lt (by omega)]

theorem started_of_effects {i : Instr} {s u : State} (hi : Instr.StartsSession i) (h : effects i s = .ok u) :
    Started u := by
  have hstart (hi : (∃ o l, i = .lzwDecStart o l) ∨ i = .dflDecStart ∨ ∃ m, i = .dflEncStart m) : Started u := by
    rcases start_cases i s hi with ⟨e, he⟩ | ⟨-, ⟨o, l, -, hlo, hhi, he⟩ | ⟨-, he⟩ | ⟨m, -, -, -, v, rfl, he⟩⟩ <;>
      rw [he] at h <;> cases h
    · exact .lzwDecoder s o l hlo hhi
    · exact .dflDecoder _ rfl rfl
    · exact .dflEncoder _ rfl
  rcases hi with hi | ⟨o, l, rfl⟩ | hi
  · exact hstart (.inl hi)
  · rcases lzwEncStart_cases o l s with ⟨e, he, -⟩ | ⟨hlo, hhi, -, -, he⟩ <;> rw [effects, he] at h <;> cases h
    refine .lzwEncoder _ rfl ?_ ?_ ?_ <;> simp only [State.firstCode, State.litWidth, litField_toNat hhi]
    · exact hlo
    · exact hhi
  · exact hstart (.inr hi)

/-- A property of the sessions of mode `m`: it depends on the codec's state only, is met by every start of such a
session, and stays when the session ends in error. -/
structure CodecProperty (m : Mode) (P : State → Prop) : Prop where
  congr : ∀ s t, CodecSame s t → P s → P t
  other : ∀ s, s.ses.mode ≠ m → P s
  error : ∀ s e, P s → P (markSessionError e s)
  started : ∀ u, Started u → P u

/-- A property of the sessions of mode `m` that the processing of a FEED keeps. -/
structure CodecInvariant (m : Mode) (P : State → Prop) : Prop extends CodecProperty m P where
  fed : ∀ c s, P s → s.ses.mode = m → s.ses.sstate = .active → P (feedProcess c s).state

section
variable {m : Mode} {P : State → Prop}

variable (hP : CodecInvariant m P)
include hP

theorem CodecInvariant.feed {c : Bool} {s u : State} (hs : P s) (ha : s.ses.sstate = .active)
    (hu : u.ses.mode = s.ses.mode) (h : (feedEffects c s).state = u) : P u := by
  by_cases hm : s.ses.mode = m
  · rw [← h]
    rcases feedEffects_cases c s with ⟨e, he, _⟩ | ⟨_, _, _, he⟩ <;> rw [he]
    · exact hs
    · exact hP.fed c s hs hm ha
  · exact hP.other u (hu ▸ hm)

theorem CodecInvariant.command (hne : m ≠ .none) {i : Instr} {s : State} (hs : P s) : P (effects i s).state := by
  have hdo := effects_do i s
  generalize hr : effects i s = r at hdo
  cases hdo with
  | refused | nothing | results | built | unbuilt | sequence =>
    exact hP.congr s _ ⟨rfl, rfl, rfl, rfl, rfl, rfl, rfl⟩ hs
  | appended v w u hi hc hb hu =>
    have happ := hP.congr s _ (codecSame_bsAppendField v w s) hs
    rcases hu with rfl | ⟨x, y, rfl⟩
    · exact happ
    · exact hP.congr (bsAppendField v w s) _ ⟨rfl, rfl, rfl, rfl, rfl, rfl, rfl⟩ happ
  | lzwDecoder o l hi => exact hP.started _ (started_of_effects (.inl ⟨o, l, hi⟩) hr)
  | lzwEncoder o l le hi => exact hP.started _ (started_of_effects (.inr (.inl ⟨o, l, hi⟩)) hr)
  | dflDecoder df hi => exact hP.started _ (started_of_effects (.inr (.inr (.inl hi))) hr)
  | dflEncoder n u hi => exact hP.started _ (started_of_effects (.inr (.inr (.inr ⟨n, hi⟩))) hr)
  | fed c u n hi _ ha hu => subst hi; exact hP.feed hs ha hu.setup.1 (congrArg Run.state hr)
  | feedFailed c u n e hi _ ha hu => subst hi; exact hP.feed hs ha hu.setup.1 (congrArg Run.state hr)
  | afterEnd c r hi hr => rw [hr]; exact hP.congr s _ ⟨rfl, rfl, rfl, rfl, rfl, rfl, rfl⟩ hs
  | ended | softReset => exact hP.other _ hne.symm

/-- The invariant of a codec is kept by every step. -/
theorem CodecInvariant.kept (hne : m ≠ .none) : StepKept P where
  record s _ _ _ h := hP.congr s _ ⟨rfl, rfl, rfl, rfl, rfl, rfl, rfl⟩ h
  command s _ h := hP.congr _ _ (codecSame_finish _) (hP.command hne (hP.congr s _ (codecSame_start s) h))
  rejected s _ h := hP.congr s _ ⟨rfl, rfl, rfl, rfl, rfl, rfl, rfl⟩ h
  accept s _ h := hP.congr s _ ⟨rfl, rfl, rfl, rfl, rfl, rfl, rfl⟩ h
  overrun s h := hP.congr s _ ⟨rfl, rfl, rfl, rfl, rfl, rfl, rfl⟩ h
  argument s _ h := hP.congr s _ ⟨rfl, rfl, rfl, rfl, rfl, rfl, rfl⟩ h
  race s _ _ h _ _ := hP.congr s _ ⟨rfl, rfl, rfl, rfl, rfl, rfl, rfl⟩ h
  store s _ _ h _ _ := hP.congr s _ ⟨rfl, rfl, rfl, rfl, rfl, rfl, rfl⟩ h
  reset _ _ := hP.other _ hne.symm
  powerOn _ _ := hP.other _ hne.symm

end

/-! ### The decoders -/

/-- The unit leaves a state with the property `P`, once its error, if it raised one, is marked in the session. -/
def UnitResult.Leaves (P : State → Prop) : UnitResult → Prop
  | .needMore => True
  | .raised s e => P (markSessionError e s)
  | .completed s _ => P s

/-- The loop leaves a state with the property `P`, once its error, if it ended in one, is marked in the session. -/
def LoopEnd.Leaves (P : State → Prop) : LoopEnd → Prop
  | .stopped s _ => P s
  | .raised s e _ => P (markSessionError e s)

section
variable {m : Mode} {P : State → Prop}

/-- A read of a unit that leaves the property whatever the read answers. -/
theorem UnitResult.leaves_then {α : Type} {s : State} (herr : ∀ e, P (markSessionError e s)) (r : Read α)
    {f : α → Nat → UnitResult} (hf : ∀ a c, r = .got a c → (f a c).Leaves P) : (r.then s f).Leaves P := by
  cases r with
  | got a c => exact hf a c rfl
  | needMore => trivial
  | bad e => exact herr e

theorem UnitResult.leaves_endUnit {r : Run} (c : Nat) (hok : ∀ u, r = .ok u → P u)
    (hfail : ∀ u e, r = .fail u e → P (markSessionError e u)) : (r.endUnit c).Leaves P := by
  cases r with
  | ok u => exact hok u rfl
  | fail u e => exact hfail u e rfl

theorem decodeLoop_leaves (inp : Input)
    (hunit : ∀ s c, P s → s.ses.mode = m → s.ses.sstate = .active → (decodeUnit s inp c).Leaves P) (fuel : Nat) {c : Nat}
    {s : State} (hs : P s) (hm : s.ses.mode = m) : (decodeLoop inp fuel c s).Leaves P := by
  induction fuel generalizing c s with
  | zero => exact hs
  | succ fuel ih =>
    rw [decodeLoop]
    split
    · next ha =>
      have hleaves := hunit s c hs hm (by simpa [Session.isActive] using ha)
      have hframe := feedFrame_decode.decodeUnit s inp c
      split
      · exact hs
      · next he => rw [he] at hleaves; exact hleaves
      · next he =>
        rw [he] at hleaves hframe
        exact ih hleaves (hframe.setup.1.trans hm)
    · exact hs

/-- A decoder's property that its parse units keep is an invariant. -/
theorem CodecProperty.decoder (hP : CodecProperty m P) (hdec : m = .lzwDec ∨ m = .dflDec)
    (hunit : ∀ s inp c, P s → s.ses.mode = m → s.ses.sstate = .active → (decodeUnit s inp c).Leaves P) :
    CodecInvariant m P := by
  refine { hP with fed := fun c s hs hm ha => ?_ }
  have hact : s.ses.isActive = true := by simp [Session.isActive, ha]
  have hloop := decodeLoop_leaves ⟨s.arg0, s.arg1⟩ (fun s c => hunit s _ c) (8 * s.arg1 + 1) (c := s.ses.bitpos.toNat) hs hm
  rw [feedProcess, if_neg (by simp [hact]), if_pos (hm ▸ hdec), feedDecode]
  split
  · next he =>
    rw [he] at hloop
    exact hP.congr _ _ (codecSame_feedResults _ _ _ _) hloop
  · next u c he =>
    rw [he] at hloop
    have hu : ∀ n, P (setBitpos n u) := fun n => hP.congr u _ (codecSame_setBitpos n u) hloop
    split
    · exact hP.congr _ _ (codecSame_feedResults _ _ _ _) (hu 0)
    · simp only
      split
      · exact hP.congr _ _ (codecSame_feedResults _ _ _ _) (hP.error _ _ (hu _))
      · exact hP.congr _ _ (codecSame_feedResults _ _ _ _) (hu _)

end

end Sys2Proof.Machine
end

section
/-! SUPPORT. The LZW decoder keeps its invariant: what a parse unit does to the dictionary, its width and the previous code (42 R203, R204, R208). -/

namespace Sys2Proof.Machine

/-! ### The dictionary -/

/-- The string is not empty and begins with a byte of the alphabet. -/
def StartsInAlphabet (s : State) (str : List Byte) : Prop := 1 ≤ str.length ∧ ∀ b ∈ str.head?, b.toNat < 2 ^ s.litWidth

/-- `c` is a code with a string: in the dictionary, and neither the clear nor the end code. -/
def DataCode (s : State) (c : Nat) : Prop := c < s.lz.size ∧ c ≠ s.clearCode ∧ c ≠ s.endCode

/-- What LzwDecOk says of an LZW decoder session, apart from its mode. -/
structure LzwDecReady (s : State) : Prop where
  minLit : Config.lzwMinLit ≤ s.litWidth
  maxLit : s.litWidth ≤ Config.lzwMaxLit
  first : s.firstCode ≤ s.lz.size
  full : s.lz.size ≤ 2 ^ Config.lzwMaxWidth
  minWidth : s.litWidth + 1 ≤ s.lz.width
  maxWidth : s.lz.width ≤ Config.lzwMaxWidth
  entries : s.lz.strs.length = s.lz.size - s.firstCode
  strings : ∀ str ∈ s.lz.strs, 2 ≤ str.length ∧ ∀ b ∈ str.head?, b.toNat < 2 ^ s.litWidth
  prev : ∀ p ∈ s.lz.prev, DataCode s p

theorem lzwDecOk_iff (s : State) : LzwDecOk s ↔ (s.ses.mode = .lzwDec → LzwDecReady s) := by
  refine imp_congr_right fun _ => ⟨?_, fun h => ?_⟩
  · rintro ⟨h1, h2, h3, h4, h5, h6, h7, h8, h9⟩
    exact ⟨h1, h2, h3, h4, h5, h6, h7, h8, h9⟩
  · exact ⟨h.minLit, h.maxLit, h.first, h.full, h.minWidth, h.maxWidth, h.entries, h.strings, h.prev⟩

/-- The codes of a session depend on its literal width only. -/
theorem codes_of_lit {s t : State} (h : t.ses.lit = s.ses.lit) : t.litWidth = s.litWidth ∧ t.firstCode = s.firstCode ∧
    t.clearCode = s.clearCode ∧ t.endCode = s.endCode := by
  simp only [State.litWidth, State.firstCode, State.clearCode, State.endCode, h, and_self]

theorem LzwDecReady.congr {s t : State} (hs : LzwDecReady s) (h : t.ses.lit = s.ses.lit) (hlz : t.lz = s.lz) :
    LzwDecReady t := by
  obtain ⟨hlit, hfirst, hclear, hend⟩ := codes_of_lit h
  constructor <;> simp only [DataCode, hlit, hfirst, hclear, hend, hlz]
  exacts [hs.minLit, hs.maxLit, hs.first, hs.full, hs.minWidth, hs.maxWidth, hs.entries, hs.strings, hs.prev]

theorem LzwDecReady.ok {s : State} (h : LzwDecReady s) : LzwDecOk s := (lzwDecOk_iff s).mpr fun _ => h

theorem lzwStr_congr {s t : State} (h : t.ses.lit = s.ses.lit) (hlz : t.lz = s.lz) (c : Nat) :
    t.lzwStr c = s.lzwStr c := by
  obtain ⟨-, hfirst, hclear, -⟩ := codes_of_lit h
  simp only [State.lzwStr, hlz, hfirst, hclear]

theorem lzwDecoded_congr {s t : State} (h : t.ses.lit = s.ses.lit) (hlz : t.lz = s.lz) (c : Nat) :
    t.lzwDecoded c = s.lzwDecoded c := by
  simp only [State.lzwDecoded, hlz, lzwStr_congr h hlz]

/-- The dictionary's initial state is well (42 R203). -/
theorem lzwDecReady_lzwReset {s : State} (hmin : Config.lzwMinLit ≤ s.litWidth) (hmax : s.litWidth ≤ Config.lzwMaxLit) :
    LzwDecReady (lzwReset s) where
  minLit := hmin
  maxLit := hmax
  first := le_rfl
  full := by
    have hpow : 2 ^ s.litWidth ≤ 2 ^ Config.lzwMaxLit := Nat.pow_le_pow_right (by decide) hmax
    simp only [lzwReset_lz, State.firstCode, Config.lzwMaxLit, Config.lzwMaxWidth] at *
    omega
  minWidth := le_rfl
  maxWidth := by
    simp only [lzwReset_lz, Config.lzwMaxLit, Config.lzwMaxWidth] at *
    omega
  entries := (Nat.sub_self _).symm
  strings := by simp
  prev := by simp

/-! ### A data code (42 R204) -/

section
variable {s : State} (h : LzwDecReady s)
include h

theorem LzwDecReady.lzwStr_starts {c : Nat} (hc : DataCode s c) : StartsInAlphabet s (s.lzwStr c) := by
  obtain ⟨hlt, hclear, hend⟩ := hc
  rw [State.lzwStr]
  split_ifs with hlit hfirst
  · have hbyte : 2 ^ s.litWidth ≤ 2 ^ 8 := Nat.pow_le_pow_right (by decide) h.maxLit
    simp only [State.clearCode] at hlit
    refine ⟨le_rfl, fun b hb => ?_⟩
    cases hb
    rw [BitVec.toNat_ofNat, Nat.mod_eq_of_lt (by omega)]
    exact hlit
  · simp only [State.firstCode, State.clearCode, State.endCode] at *
    omega
  · have hplace : c - s.firstCode < s.lz.strs.length := by
      have := h.entries
      omega
    obtain ⟨hlen, hhead⟩ := h.strings _ (List.getElem_mem hplace)
    rw [List.getD_eq_getElem _ _ hplace]
    exact ⟨by omega, hhead⟩

/-- The code of a string to be written: in the dictionary, or the next one when there is a previous code (42 R205). -/
theorem LzwDecReady.decoded {c : Nat} {str : List Byte} (hclear : c ≠ s.clearCode) (hend : c ≠ s.endCode)
    (hdec : s.lzwDecoded c = some str) :
    StartsInAlphabet s str ∧ c ≤ s.lz.size ∧ (s.lz.prev = none → c < s.lz.size) := by
  rw [State.lzwDecoded] at hdec
  split at hdec
  · next hlt =>
    cases hdec
    exact ⟨h.lzwStr_starts ⟨hlt, hclear, hend⟩, hlt.le, fun _ => hlt⟩
  · split at hdec
    · cases hdec
    · next p hp =>
      split at hdec
      · next heq =>
        cases hdec
        obtain ⟨hlen, hhead⟩ := h.lzwStr_starts (h.prev p hp)
        have hne : s.lzwStr p ≠ [] := List.length_pos_iff.mp hlen
        refine ⟨⟨by simp; omega, ?_⟩, heq.le, fun hnone => by rw [hp] at hnone; cases hnone⟩
        rwa [List.head?_append_of_ne_nil _ hne]
      · cases hdec

/-- The entry "previous ++ first byte" has two bytes or more and begins in the alphabet. -/
theorem LzwDecReady.entry_starts {p : Nat} (hp : DataCode s p) {str : List Byte} (hstr : StartsInAlphabet s str) :
    2 ≤ (s.lzwStr p ++ str.take 1).length ∧
    ∀ b ∈ (s.lzwStr p ++ str.take 1).head?, b.toNat < 2 ^ s.litWidth := by
  obtain ⟨hlen, hhead⟩ := h.lzwStr_starts hp
  have := hstr.1
  rw [List.head?_append_of_ne_nil _ (List.length_pos_iff.mp hlen)]
  exact ⟨by simp only [List.length_append, List.length_take]; omega, hhead⟩

/-- The dictionary stays well when a data code is learned, unless it is full (42 R204, R207). -/
theorem LzwDecReady.learn {c : Nat} {str : List Byte} (hclear : c ≠ s.clearCode) (hend : c ≠ s.endCode)
    (hdec : s.lzwDecoded c = some str) (hroom : s.lz.prev ≠ none → s.lz.size ≠ 2 ^ Config.lzwMaxWidth) :
    LzwDecReady (lzwLearn c str s) := by
  obtain ⟨hstr, hle, hlt⟩ := h.decoded hclear hend hdec
  have hfirst := h.first
  have hfull := h.full
  rw [lzwLearn]
  split
  · next hnone => exact { h with prev := fun q hq => by cases hq; exact ⟨hlt hnone, hclear, hend⟩ }
  · next p hp =>
    have hp' := h.prev p hp
    have hsize := hroom (by rw [hp]; exact Option.some_ne_none p)
    have hgrown : s.lz.width ≤ grownWidth s.par (s.lz.size + 1) s.lz.width ∧
        grownWidth s.par (s.lz.size + 1) s.lz.width ≤ Config.lzwMaxWidth := by
      have := h.maxWidth
      rw [grownWidth]
      split_ifs <;> omega
    refine ⟨h.minLit, h.maxLit, hfirst.trans (Nat.le_succ _), by simp only; omega, h.minWidth.trans hgrown.1,
      hgrown.2, ?_, ?_, fun q hq => ?_⟩
    · have := h.entries
      simp only [List.length_append, List.length_singleton, State.firstCode, State.litWidth] at *
      omega
    · intro e he
      rcases List.mem_append.mp he with he | he
      · exact h.strings e he
      · cases List.mem_singleton.mp he
        exact h.entry_starts hp' hstr
    · cases hq
      exact ⟨Nat.lt_succ_of_le hle, hclear, hend⟩

theorem LzwDecReady.lzwData {c : Nat} (hclear : c ≠ s.clearCode) (hend : c ≠ s.endCode) :
    LzwDecReady (lzwData c s).state := by
  rw [Sys2Proof.Machine.lzwData]
  split
  · exact h
  · next str hdec =>
    split
    · exact h
    · next hroom =>
      have hout := codecSame_outBytes str s
      cases hr : Run.each outByte str s with
      | fail u e => rw [hr] at hout; exact h.congr hout.lit hout.lz
      | ok u =>
        replace hout : CodecSame s u := by rwa [hr] at hout
        obtain ⟨-, -, hclear', hend'⟩ := codes_of_lit hout.lit
        refine (h.congr hout.lit hout.lz).learn (hclear' ▸ hclear) (hend' ▸ hend)
          ((lzwDecoded_congr hout.lit hout.lz c).trans hdec) ?_
        rw [hout.lz]
        simpa [Option.isSome_iff_ne_none] using hroom

end

/-! ### Parse units -/

theorem LzwDecReady.unit {s : State} (h : LzwDecReady s) (inp : Input) (c : Nat) :
    (lzwDecUnit s inp c).Leaves LzwDecOk := by
  have hsame : ∀ e, LzwDecOk (markSessionError e s) := fun e => (h.congr (t := markSessionError e s) rfl rfl).ok
  refine UnitResult.leaves_then hsame _ fun code c' _ => ?_
  split_ifs with hclear hend
  · exact (lzwDecReady_lzwReset h.minLit h.maxLit).ok
  · exact (h.congr (t := sessionDone s) rfl rfl).ok
  · have hdata := h.lzwData hclear hend
    refine UnitResult.leaves_endUnit c' (fun u hu => ?_) fun u e hu => ?_
    · rw [hu] at hdata
      exact hdata.ok
    · rw [hu] at hdata
      exact (hdata.congr (t := markSessionError e u) rfl rfl).ok

/-! ### The invariant -/

theorem lzwDec_property : CodecProperty .lzwDec LzwDecOk where
  congr s t h hs := by
    rw [lzwDecOk_iff, h.mode] at *
    exact fun hm => (hs hm).congr h.lit h.lz
  other s hm h := absurd h hm
  error s e hs := by
    rw [lzwDecOk_iff] at *
    exact fun hm => (hs hm).congr rfl rfl
  started u h := by
    cases h with
    | lzwDecoder s o l hlo hhi =>
      have hlit : (sessionStart .lzwDec o l s.larg.a0 s.larg.a1 0 s).litWidth = l := litField_toNat hhi
      exact (lzwDecReady_lzwReset (hlit.symm ▸ hlo) (hlit.symm ▸ hhi)).ok
    | lzwEncoder u hm | dflDecoder u hm | dflEncoder u hm => exact fun h => absurd (hm.symm.trans h) (by decide)

theorem lzwDec_invariant : CodecInvariant .lzwDec LzwDecOk :=
  lzwDec_property.decoder (.inl rfl) fun s inp c hs hm _ => by
    rw [decodeUnit, if_pos hm]
    exact ((lzwDecOk_iff s).mp hs hm).unit inp c

end Sys2Proof.Machine
end

section
/-! SUPPORT. The DEFLATE decoder keeps its invariant: what each parse unit does to the parse state (43 R246 to R257). -/

namespace Sys2Proof.Machine

/-! ### The parse state -/

/-- The counts of a dynamic header (43 R250). -/
def CountsOk (df : DflDec) : Prop :=
  257 ≤ df.nlit ∧ df.nlit ≤ 286 ∧ 1 ≤ df.ndist ∧ df.ndist ≤ 32 ∧ df.nlit + df.ndist ≤ 318

/-- What DflDecOk says of the parse state of an ACTIVE DEFLATE decoder session, by where the parse stands. -/
def DflParseOk (df : DflDec) : Prop :=
  match df.p with
  | .header => True
  | .storedLen => True
  | .storedData => 1 ≤ df.remaining ∧ df.remaining ≤ 65535
  | .dynCounts => True
  | .dynClLen => (df.cli < df.ncl ∧ df.ncl ≤ 19 ∧ df.clw.length = 19) ∧ CountsOk df
  | .dynLens => CountsOk df ∧ df.lens.length < df.nlit + df.ndist ∧ df.cltab.n = 19
  | .body => 257 ≤ df.lit.n ∧ 1 ≤ df.dist.n ∧ TableSized df.lit ∧ TableSized df.dist

theorem dflDecOk_iff (s : State) :
    DflDecOk s ↔ (s.ses.mode = .dflDec → s.ses.sstate = .active → DflParseOk s.df) := by
  refine imp_congr_right fun _ => imp_congr_right fun _ => ?_
  rw [DflParseOk]
  cases s.df.p <;> simp [CountsOk]

theorem DflParseOk.ok {s : State} (h : DflParseOk s.df) : DflDecOk s := (dflDecOk_iff s).mpr fun _ _ => h

/-- A session that is not ACTIVE parses no more. -/
theorem dflDecOk_of_not_active {s : State} (h : s.ses.sstate ≠ .active) : DflDecOk s := fun _ ha => absurd ha h

theorem dflDecOk_error (e : Err) (s : State) : DflDecOk (markSessionError e s) :=
  dflDecOk_of_not_active (by rintro ⟨⟩)

theorem dflDecOk_endBlock (s : State) : DflDecOk (endBlock s) := by
  rw [endBlock]
  split
  · exact dflDecOk_of_not_active (by rintro ⟨⟩)
  · exact DflParseOk.ok trivial

/-- An error leaves the session in ERROR, so the end of a unit turns on its success only. -/
theorem leaves_endUnit_dfl {r : Run} (c : Nat) (hok : ∀ u, r = .ok u → DflDecOk u) : (r.endUnit c).Leaves DflDecOk :=
  UnitResult.leaves_endUnit c hok fun u e _ => dflDecOk_error e u

theorem leaves_then_dfl {α : Type} {s : State} (r : Read α) {f : α → Nat → UnitResult}
    (hf : ∀ a c, r = .got a c → (f a c).Leaves DflDecOk) : (r.then s f).Leaves DflDecOk :=
  UnitResult.leaves_then (fun e => dflDecOk_error e s) r hf

/-- A construction over 1 to 288 widths that gives a table. -/
theorem canon_sized {ws : List Nat} {t : HufTable} (h : canon ws = .ok t) (hlo : 1 ≤ ws.length) (hhi : ws.length ≤ 288) :
    t.n = ws.length ∧ TableSized t := by
  refine ⟨?_, (canon_ok h hlo hhi).1⟩
  obtain ⟨-, -, rfl⟩ := canon_eq_ok_iff.mp h
  exact tableOf_n _ _

theorem builtOr_canon {ws : List Nat} (hw : ∀ w ∈ ws, w ≤ Config.hufMaxWidth)
    (hk : kraftSum ws ≤ 2 ^ Config.hufMaxWidth) : canon ws = .ok (builtOr (canon ws)) := by
  rw [canon_eq_ok_iff.mpr ⟨hw, hk, rfl⟩]
  rfl

theorem fixedLit_sized : fixedLit.n = 288 ∧ TableSized fixedLit := by
  have hlen : fixedLitWidths.length = 288 := by decide +kernel
  have hbuilt := builtOr_canon (ws := fixedLitWidths) (by decide +kernel) (by decide +kernel)
  obtain ⟨hn, hsized⟩ := canon_sized hbuilt (by omega) (by omega)
  exact ⟨hn.trans hlen, hsized⟩

theorem fixedDist_sized : fixedDist.n = 30 ∧ TableSized fixedDist :=
  canon_sized (builtOr_canon (ws := List.replicate 30 5) (by decide) (by decide)) (by simp) (by simp)

/-! ### Parse units -/

section
variable {s : State} (inp : Input) (c : Nat)

theorem headerUnit_leaves : (headerUnit s inp c).Leaves DflDecOk := by
  refine leaves_then_dfl _ fun f c1 _ => leaves_then_dfl _ fun t c2 _ => ?_
  simp only
  split_ifs
  · exact dflDecOk_error _ s
  · exact DflParseOk.ok trivial
  · obtain ⟨hlit, hlit'⟩ := fixedLit_sized
    obtain ⟨hdist, hdist'⟩ := fixedDist_sized
    refine DflParseOk.ok ?_
    simp only [DflParseOk, State.setDf_df]
    exact ⟨by omega, by omega, hlit', hdist'⟩
  · exact DflParseOk.ok trivial

theorem storedLenUnit_leaves : (storedLenUnit s inp c).Leaves DflDecOk := by
  refine leaves_then_dfl _ fun len c1 hlen => leaves_then_dfl _ fun nlen c2 _ => ?_
  have hlt := inField_lt hlen
  split_ifs with hn h0
  · exact dflDecOk_error _ s
  · exact dflDecOk_endBlock _
  · exact DflParseOk.ok ⟨Nat.pos_of_ne_zero h0, Nat.le_pred_of_lt hlt⟩

theorem storedDataUnit_leaves (hp : s.df.p = .storedData) (h : DflParseOk s.df) :
    (storedDataUnit s inp c).Leaves DflDecOk := by
  refine leaves_then_dfl _ fun b c1 _ => leaves_endUnit_dfl c1 fun u hu => ?_
  have hout := codecSame_outByte (BitVec.ofNat 8 b) s
  cases hr : outByte (BitVec.ofNat 8 b) s with
  | fail v e => rw [hr] at hu; cases hu
  | ok v =>
    rw [hr] at hu hout
    cases hu
    replace hout : CodecSame s v := hout
    rw [DflParseOk, hp] at h
    simp only [State.setDf_df, hout.df]
    split_ifs with h0
    · exact dflDecOk_endBlock _
    · refine DflParseOk.ok ?_
      simp only [DflParseOk, State.setDf_df, hp]
      omega

theorem dynCountsUnit_leaves : (dynCountsUnit s inp c).Leaves DflDecOk := by
  refine leaves_then_dfl _ fun hlit c1 _ => leaves_then_dfl _ fun hdist c2 hd => leaves_then_dfl _ fun hclen c3 hc => ?_
  have hdist_lt := inField_lt hd
  have hclen_lt := inField_lt hc
  split_ifs with hbad
  · exact dflDecOk_error _ s
  · exact DflParseOk.ok ⟨⟨Nat.succ_pos _, by simp only [State.setDf_df]; omega, List.length_replicate⟩,
      by simp only [CountsOk, State.setDf_df]; omega⟩

theorem dynClLenUnit_leaves (hp : s.df.p = .dynClLen) (h : DflParseOk s.df) :
    (dynClLenUnit s inp c).Leaves DflDecOk := by
  rw [DflParseOk, hp] at h
  obtain ⟨⟨hcli, hncl, hlen⟩, hcounts⟩ := h
  refine leaves_then_dfl _ fun w c1 _ => ?_
  have hset : (s.df.clw.set (clOrder.getD s.df.cli 0) w).length = 19 := by simpa using hlen
  simp only
  split
  · split
    · exact dflDecOk_error _ _
    · next t ht =>
      have hn := (canon_sized ht (hset ▸ by decide) (hset ▸ by decide)).1.trans hset
      refine DflParseOk.ok ⟨hcounts, ?_, hn⟩
      obtain ⟨hlo, -⟩ := hcounts
      simp only [State.setDf_df, List.length_nil]
      omega
  · next hmore =>
    simp only [State.setDf_df] at hmore
    refine DflParseOk.ok ?_
    simp only [DflParseOk, State.setDf_df, hp]
    exact ⟨⟨by omega, hncl, hset⟩, hcounts⟩

theorem dynLensEffects_ok {add : List Nat} {u : State} (hp : s.df.p = .dynLens) (h : DflParseOk s.df)
    (hu : dynLensEffects add s = .ok u) : DflDecOk u := by
  rw [DflParseOk, hp] at h
  obtain ⟨hcounts, hlen, hcl⟩ := h
  have ⟨hlit, hlit', hdist, hdist', _⟩ := hcounts
  simp only [dynLensEffects] at hu
  split at hu
  · cases hu
  · next hfit =>
    split at hu
    · next hall =>
      simp only [State.setDf_df, List.length_append] at hall
      split at hu
      · next lit dist hl hd =>
        cases hu
        simp only [State.setDf_df] at hl hd
        have hl' := canon_sized hl (by simp; omega) (by simp; omega)
        have hd' := canon_sized hd (by simp; omega) (by simp; omega)
        rw [List.length_take, List.length_append] at hl'
        rw [List.length_drop, List.length_append] at hd'
        exact DflParseOk.ok ⟨by simp only [State.setDf_df]; omega, by simp only [State.setDf_df]; omega, hl'.2, hd'.2⟩
      · cases hu
      · cases hu
    · next hmore =>
      cases hu
      simp only [State.setDf_df, List.length_append] at hmore
      refine DflParseOk.ok ?_
      simp only [DflParseOk, State.setDf_df, hp, List.length_append]
      exact ⟨hcounts, by omega, hcl⟩

theorem dynLensUnit_leaves (hp : s.df.p = .dynLens) (h : DflParseOk s.df) : (dynLensUnit s inp c).Leaves DflDecOk :=
  leaves_then_dfl _ fun _ _ _ => leaves_then_dfl _ fun _ c2 _ => leaves_endUnit_dfl c2 fun _ hu => dynLensEffects_ok hp h hu

/-- A unit of the BODY leaves the two tables as they are (43 R253). -/
theorem bodyUnit_leaves (h : DflParseOk s.df) : (bodyUnit s inp c).Leaves DflDecOk := by
  have hrun : ∀ {r : Run} (c : Nat), CodecSame s r.state → (r.endUnit c).Leaves DflDecOk := fun c hs =>
    leaves_endUnit_dfl c fun u hu => by
      rw [hu] at hs
      exact DflParseOk.ok (hs.df.symm ▸ h)
  refine leaves_then_dfl _ fun sym c1 _ => ?_
  split_ifs
  · exact hrun c1 (codecSame_outByte _ s)
  · exact dflDecOk_endBlock s
  · exact dflDecOk_error _ s
  · generalize lenExtra sym = width
    refine leaves_then_dfl _ fun e c2 _ => leaves_then_dfl _ fun d c3 _ => ?_
    split_ifs
    · exact dflDecOk_error _ s
    · generalize distExtra d = width
      refine leaves_then_dfl _ fun f c4 _ => ?_
      simp only
      split_ifs
      · exact dflDecOk_error _ s
      · exact hrun c4 (codecSame_copyBack _ _ s)

theorem dflDecUnit_leaves (h : DflParseOk s.df) : (dflDecUnit s inp c).Leaves DflDecOk := by
  rw [dflDecUnit]
  split
  · exact headerUnit_leaves inp c
  · exact storedLenUnit_leaves inp c
  · exact storedDataUnit_leaves inp c ‹_› h
  · exact dynCountsUnit_leaves inp c
  · exact dynClLenUnit_leaves inp c ‹_› h
  · exact dynLensUnit_leaves inp c ‹_› h
  · exact bodyUnit_leaves inp c h

end

/-! ### The invariant -/

theorem dflDec_property : CodecProperty .dflDec DflDecOk where
  congr s t h hs := by
    rw [dflDecOk_iff, h.mode, h.sstate, h.df]
    exact (dflDecOk_iff s).mp hs
  other s hm h := absurd h hm
  error s e _ := dflDecOk_error e s
  started u h := by
    cases h with
    | dflDecoder u hm hp => exact DflParseOk.ok (by rw [DflParseOk, hp]; trivial)
    | lzwDecoder s o l => exact fun h => by cases h
    | lzwEncoder u hm | dflEncoder u hm => exact fun h => absurd (hm.symm.trans h) (by decide)

theorem dflDec_invariant : CodecInvariant .dflDec DflDecOk :=
  dflDec_property.decoder (.inr rfl) fun s inp c hs hm ha => by
    rw [decodeUnit, if_neg (by rw [hm]; decide)]
    exact dflDecUnit_leaves inp c ((dflDecOk_iff s).mp hs hm ha)

end Sys2Proof.Machine
end

section
/-! SUPPORT. The LZW encoder's invariant over a FEED, and the codecs' invariants over every step (42 R208, R221 to R224; 43 R257). -/

namespace Sys2Proof.Machine

/-! ### The end of a FEED of an LZW encoder -/

/-- `le` is the encoder's state of `s`, or that with the shadow of the decoder brought up to the dictionary: what a step
that ends the session can leave. -/
def ShadowWithin (s : State) (le : LzwEnc) : Prop :=
  le = s.le ∨ ∃ d, le = { s.le with dsize := s.le.size, dwidth := d, dprev := true } ∧ s.le.dwidth ≤ d ∧
    d ≤ Config.lzwMaxWidth ∧ (d < Config.lzwMaxWidth → s.le.size + s.par.lzwEarlyChange.toNat < 2 ^ d)

section
variable {s : State} (h : LzwEncReady s)
include h

theorem LzwEncReady.shadowWithin : ShadowWithin s (Sys2Proof.Machine.shadowData s).le := .inr h.shadowData

/-- A session that has ended is held to less than an ACTIVE one. -/
theorem LzwEncReady.ended {t : State} (hp : t.par = s.par) (hlit : t.ses.lit = s.ses.lit) (hle : ShadowWithin s t.le)
    (hend : t.ses.sstate ≠ .active) : LzwEncOk t := by
  obtain ⟨hlit, hfirst, hclear, hcode⟩ := codes_of_lit hlit
  have hshadow := h.shadow
  have hsize : s.le.dsize ≤ s.le.size := by omega
  have hfit : s.firstCode ≤ s.le.size := h.first.trans hsize
  intro _
  rw [hlit, hfirst, hclear, hcode, hp]
  rcases hle with hle | ⟨d, hle, hmono, hmax, hgrown⟩ <;> rw [hle]
  · exact ⟨h.minLit, h.maxLit, hfit, h.full, h.first, hsize, fun ha => absurd ha hend, h.minWidth,
      h.maxWidth, h.grown, h.matched, h.codes⟩
  · exact ⟨h.minLit, h.maxLit, hfit, h.full, hfit, le_rfl, fun ha => absurd ha hend,
      h.minWidth.trans hmono, hmax, hgrown, h.matched, h.codes⟩

end

/-- A run goes on to its end when each of its two parts does. -/
theorem Run.andThen_eq_ok {r : Run} {f : State → Run} {t : State} :
    r.andThen f = .ok t ↔ ∃ u, r = .ok u ∧ f u = .ok t := by
  cases r with
  | ok u => simp
  | fail u e => simp

/-- The shadow after a data code depends on the encoder's state only. -/
theorem shadowData_le {s t : State} (hle : t.le = s.le) (hp : t.par = s.par) :
    (shadowData t).le = (shadowData s).le := by
  simp only [shadowData, hle, hp]
  split <;> rfl

theorem outAppendField_state_le (v w : Nat) (s : State) :
    (outAppendField v w s).state.le = s.le ∧ (outAppendField v w s).state.par = s.par := by
  cases h : outAppendField v w s with
  | fail t e => rw [outAppendField_fail h]; exact ⟨rfl, rfl⟩
  | ok t =>
    obtain ⟨hle, hp, -⟩ := outAppendField_le h
    exact ⟨hle, hp⟩

/-- Whatever comes of the finish, the encoder emits at most the matched code (42 R224). -/
theorem lzwEncFinish_state_le (s : State) :
    (lzwEncFinish s).state.le = s.le ∨ (lzwEncFinish s).state.le = (shadowData s).le := by
  have hend : ∀ u, (((emitCode u.endCode u).andThen fun v => .ok (sessionDone v)).state.le = u.le) := fun u =>
    Run.andThen_rel (R := fun a b => b.le = a.le) (fun _ _ _ h h' => h'.trans h) (outAppendField_state_le _ _ u).1
      fun _ _ => rfl
  rw [lzwEncFinish]
  cases s.le.w with
  | none => exact .inl (hend s)
  | some w =>
    have hemit := outAppendField_state_le w s.le.dwidth s
    simp only [emitData, emitCode] at hend ⊢
    cases hout : outAppendField w s.le.dwidth s with
    | fail t e => rw [hout] at hemit; exact .inl hemit.1
    | ok t =>
      rw [hout] at hemit
      exact .inr ((hend (shadowData t)).trans (shadowData_le hemit.1 hemit.2))

/-- A finish without error leaves the session DONE (42 R224). -/
theorem lzwEncFinish_done {s t : State} (h : lzwEncFinish s = .ok t) : t.ses.sstate = .done := by
  obtain ⟨u, -, hu⟩ := Run.andThen_eq_ok.mp h
  cases hu
  rfl

/-! ### A FEED of an LZW encoder -/

theorem encodeLoop_ready (inp : Input) (left j : Nat) {s : State} (h : LzwEncReady s) (hm : s.ses.mode = .lzwEnc) :
    (∀ u i, encodeLoop inp left j s = .stopped u i → LzwEncReady u ∧ u.ses.mode = .lzwEnc) ∧
    ∀ u e i, encodeLoop inp left j s = .raised u e i → LzwEncOk (markSessionError e u) := by
  induction left generalizing j s with
  | zero => exact ⟨fun u i hu => by cases hu; exact ⟨h, hm⟩, fun u e i hu => by cases hu⟩
  | succ left ih =>
    have hframe := feedFrame_encode.encodeByte (s.engByte [j] (inp.base + j)) s
    obtain ⟨hok, hfail⟩ := lzwEncByte_ready (s.engByte [j] (inp.base + j)) s h
    rw [encodeLoop]
    rw [encodeByte, if_pos hm] at hframe ⊢
    cases hbyte : lzwEncByte (s.engByte [j] (inp.base + j)) s with
    | ok t =>
      rw [hbyte] at hframe
      exact ih (j + 1) (hok t hbyte) (hframe.setup.1.trans hm)
    | fail t e =>
      rw [hbyte] at hframe
      refine ⟨fun u i hu => (by cases hu), fun u e' i hu => ?_⟩
      cases hu
      obtain ⟨_, _, hlit, _⟩ := hframe.setup
      exact h.ended (t := markSessionError e t) hframe.host.1 hlit (hfail t e hbyte) (by rintro ⟨⟩)

/-- The finish ends the session, in DONE or in its error. -/
theorem LzwEncReady.finish {s : State} (h : LzwEncReady s) :
    (∀ t, lzwEncFinish s = .ok t → LzwEncOk t) ∧ ∀ t e, lzwEncFinish s = .fail t e → LzwEncOk (markSessionError e t) := by
  have hframe := feedFrame_encode.lzwEncFinish s
  obtain ⟨_, _, hlit, _⟩ := hframe.setup
  have hle : ShadowWithin s (lzwEncFinish s).state.le := by
    rcases lzwEncFinish_state_le s with hle | hle <;> rw [hle]
    · exact .inl rfl
    · exact h.shadowWithin
  refine ⟨fun t ht => ?_, fun t e ht => ?_⟩
  · rw [ht] at hframe hlit hle
    exact h.ended hframe.host.1 hlit hle (by rw [lzwEncFinish_done ht]; decide)
  · rw [ht] at hframe hlit hle
    exact h.ended (t := markSessionError e t) hframe.host.1 hlit hle (by rintro ⟨⟩)

/-! ### The invariant -/

theorem lzwEncReady_started {s : State} (hmin : 2 ≤ s.litWidth) (hmax : s.litWidth ≤ 8)
    (hle : s.le = { map := [], size := s.firstCode, w := none, dsize := s.firstCode, dwidth := s.litWidth + 1, dprev := false }) :
    LzwEncReady s := by
  have hbyte : (0 : Byte).toNat < 2 ^ s.litWidth := Nat.two_pow_pos _
  have h := lzwEncReady_clearEncoder (k := 0) hmin hmax hbyte
  refine ⟨h.minLit, h.maxLit, hle ▸ le_rfl, ?_, ?_, hle ▸ le_rfl, ?_, ?_, ?_, ?_⟩ <;> rw [hle]
  exacts [h.shadow, h.full, h.maxWidth, h.grown, by simp, h.codes]

theorem lzwEnc_property : CodecProperty .lzwEnc LzwEncOk where
  congr s t h hs hm := by
    obtain ⟨hlit, hfirst, hclear, hend⟩ := codes_of_lit h.lit
    rw [hlit, hfirst, hclear, hend, h.le, h.par, h.sstate]
    exact hs (h.mode.symm.trans hm)
  other s hm h := absurd h hm
  error s e hs hm := by
    obtain ⟨h1, h2, h3, h4, h5, h6, -, h8, h9, h10, h11, h12⟩ := hs hm
    exact ⟨h1, h2, h3, h4, h5, h6, fun ha => (by cases ha), h8, h9, h10, h11, h12⟩
  started u h := by
    cases h with
    | lzwEncoder u hm hmin hmax hle => exact (lzwEncReady_started hmin hmax hle).ok
    | lzwDecoder s o l => exact fun h => by cases h
    | dflDecoder u hm | dflEncoder u hm => exact fun h => absurd (hm.symm.trans h) (by decide)

theorem lzwEnc_invariant : CodecInvariant .lzwEnc LzwEncOk where
  toCodecProperty := lzwEnc_property
  fed c s hs hm ha := by
    have hact : s.ses.isActive = true := by simp [Session.isActive, ha]
    have hresults : ∀ {n out0 clean u}, LzwEncOk u → LzwEncOk (feedResults n out0 clean u) := fun hu =>
      lzwEnc_property.congr _ _ (codecSame_feedResults _ _ _ _) hu
    obtain ⟨hstopped, hraised⟩ := encodeLoop_ready ⟨s.arg0, s.arg1⟩ s.arg1 0 (LzwEncReady.of_ok hs hm ha) hm
    rw [feedProcess, if_neg (by simp [hact]), if_neg (by rw [hm]; decide), feedEncode]
    split
    · next he => exact hresults (hraised _ _ _ he)
    · next u j he =>
      obtain ⟨hready, hmode⟩ := hstopped u j he
      split_ifs
      · obtain ⟨hok, hfail⟩ := hready.finish
        rw [encodeFinish, if_pos hmode]
        split
        · next hf => exact hresults (hok _ hf)
        · next hf => exact hresults (hfail _ _ hf)
      · exact hresults hready.ok

/-- Settles O59: a start meets the invariant of its codec, each parse unit, byte step and finish keeps it, and no other
command opens or advances a session. -/
theorem stepKeepsDecoderState : Obligations.StepKeepsDecoderState := by
  refine ⟨fun s t hlzw hdfl h => ⟨?_, ?_⟩, fun s t hs h => ?_⟩
  · exact (lzwDec_invariant.kept (by decide)).step hlzw h
  · exact (dflDec_invariant.kept (by decide)).step hdfl h
  · exact (lzwEnc_invariant.kept (by decide)).step hs h

end Sys2Proof.Machine
end

section
/-! SUPPORT. The session starts LZW_DEC_START, DFL_DEC_START and LZW_ENC_START: each check in its order, the session they open, and the clear code (42 R202, R203, R220, R221; 43 R240; 45 R341). -/

namespace Sys2Proof.Machine

/-! ### What the starts share -/

/-- A command that changed the session, its codec state and memory at most ends clean, with no other effect. -/
theorem finishCommand_onlySession {s u : State}
    (hu : u = { startCommand s with
      ses := u.ses, lz := u.lz, le := u.le, df := u.df, mem := u.mem, raced := u.raced }) :
    EndedClean s (finishCommand u) ∧ ResultsAre (finishCommand u) 0 0 0 ∧ OnlySession s (finishCommand u) := by
  rw [hu]
  exact ⟨⟨rfl, rfl, rfl, rfl⟩, ⟨rfl, rfl, rfl⟩, ⟨rfl, rfl, rfl, rfl, rfl, rfl, rfl, rfl⟩, rfl, rfl⟩

theorem litWidthBad_iff (lit : Nat) : litWidthBad lit = true ↔ lit < 2 ∨ 8 < lit := by
  simp only [litWidthBad, Bool.or_eq_true, decide_eq_true_eq]

section
variable {s : State} {lit : Nat}

theorem litWidthBad_of_range (hlo : 2 ≤ lit) (hhi : lit ≤ 8) : ¬ litWidthBad lit = true := by
  rw [litWidthBad_iff]
  omega

theorem inRange_misfit {a len : Nat} (h : memSize s.par < a + len) : (!s.inRange a len) = true := by
  rw [Bool.not_eq_true', ← Bool.not_eq_true, State.inRange_iff]
  omega

theorem inRange_fits {a len : Nat} (h : a + len ≤ memSize s.par) : ¬ (!s.inRange a len) = true := by
  rw [Bool.not_eq_true', Bool.not_eq_false, State.inRange_iff]
  exact h

end

/-! ### The decoders -/

section
variable {s : State} {ord : BitOrder} {lit : Nat}

theorem lzwDecStartEffects_litWidth (h : lit < 2 ∨ 8 < lit) : lzwDecStartEffects ord lit s = .fail s Err.litWidth :=
  if_pos ((litWidthBad_iff lit).mpr h)

variable (hlo : 2 ≤ lit) (hhi : lit ≤ 8)
include hlo hhi

theorem lzwDecStartEffects_misfit (h : memSize s.par < s.arg0 + s.arg1) :
    lzwDecStartEffects ord lit s = .fail s Err.addressRange :=
  (if_neg (litWidthBad_of_range hlo hhi)).trans (if_pos (inRange_misfit h))

theorem lzwDecStartEffects_fits (h : s.arg0 + s.arg1 ≤ memSize s.par) : lzwDecStartEffects ord lit s =
    .ok (lzwReset (sessionStart .lzwDec ord lit s.larg.a0 s.larg.a1 0 s)) :=
  (if_neg (litWidthBad_of_range hlo hhi)).trans (if_neg (inRange_fits h))

end

theorem dflDecStartEffects_misfit {s : State} (h : memSize s.par < s.arg0 + s.arg1) :
    dflDecStartEffects s = .fail s Err.addressRange := if_pos (inRange_misfit h)

theorem dflDecStartEffects_fits {s : State} (h : s.arg0 + s.arg1 ≤ memSize s.par) : dflDecStartEffects s =
    .ok ((sessionStart .dflDec .lsb 0 s.larg.a0 s.larg.a1 0 s).setDf { DflDec.unused with p := .header, final := false }) :=
  if_neg (inRange_fits h)

/-- Settles O34: the checks in their order, and the session each start opens. -/
theorem decoderStartsOpenASession : Obligations.DecoderStartsOpenASession := by
  refine ⟨fun ord lit s => ⟨fun h => completes_refused (lzwDecStartEffects_litWidth h),
    fun hlo hhi h => completes_refused (lzwDecStartEffects_misfit hlo hhi h),
    fun hlo hhi h => completes_ok (lzwDecStartEffects_fits (s := startCommand s) hlo hhi h) ?_⟩,
    fun s => ⟨fun h => completes_refused (dflDecStartEffects_misfit h),
    fun h => completes_ok (dflDecStartEffects_fits (s := startCommand s) h) ?_⟩⟩
  · obtain ⟨hend, hres, honly⟩ := finishCommand_onlySession (s := s)
      (u := lzwReset (sessionStart .lzwDec ord lit s.larg.a0 s.larg.a1 0 (startCommand s))) rfl
    refine ⟨hend, rfl, hres, honly,
      (WritesIn.of_same (s := startCommand s) (HostSideSame.refl _) rfl rfl rfl rfl).memorySame, rfl, ?_⟩
    simp only [finishCommand_lz, lzwReset_lz, State.firstCode, State.litWidth, sessionStart, litField_toNat hhi]
  · obtain ⟨hend, hres, honly⟩ := finishCommand_onlySession (s := s)
      (u := (sessionStart .dflDec .lsb 0 s.larg.a0 s.larg.a1 0 (startCommand s)).setDf _) rfl
    exact ⟨hend, hres, honly,
      (WritesIn.of_same (s := startCommand s) (HostSideSame.refl _) rfl rfl rfl rfl).memorySame, rfl, rfl, rfl⟩

/-! ### The LZW encoder -/

/-- The state in which the effects of LZW_ENC_START leave the block: the clear code of L + 1 bits is the whole output, and
the encoder is in its initial state (42 R220, R221). -/
def encoderStarted (ord : BitOrder) (lit : Nat) (s : State) : State :=
  { s.putBits ord s.arg0 0 (fieldBits ord (2 ^ lit) (lit + 1)) with
    ses := { Session.released with
      mode := .lzwEnc, ord := ord, lit := BitVec.ofNat 4 lit, sstate := .active, outBase := s.larg.a0,
      outCap := s.larg.a1, outBits := word (lit + 1), outLen := word (bytesOfBits (lit + 1)) }
    lz := LzwDec.unused, df := DflDec.unused
    le := { map := [], size := 2 ^ lit + 2, w := none, dsize := 2 ^ lit + 2, dwidth := lit + 1, dprev := false } }

section
variable {s : State} {ord : BitOrder} {lit : Nat}

theorem lzwEncStartEffects_litWidth (h : lit < 2 ∨ 8 < lit) : lzwEncStartEffects ord lit s = .fail s Err.litWidth :=
  if_pos ((litWidthBad_iff lit).mpr h)

variable (hlo : 2 ≤ lit) (hhi : lit ≤ 8)
include hlo hhi

theorem lzwEncStartEffects_misfit (h : memSize s.par < s.arg0 + s.arg1) :
    lzwEncStartEffects ord lit s = .fail s Err.addressRange :=
  (if_neg (litWidthBad_of_range hlo hhi)).trans (if_pos (inRange_misfit h))

variable (hin : s.arg0 + s.arg1 ≤ memSize s.par)
include hin

theorem lzwEncStartEffects_outputFull (h : s.arg1 < bytesOfBits (lit + 1)) :
    lzwEncStartEffects ord lit s = .fail s Err.outputFull :=
  (if_neg (litWidthBad_of_range hlo hhi)).trans ((if_neg (inRange_fits hin)).trans (if_pos h))

/-- The clear code fits in the new session's output, so the start succeeds. -/
theorem lzwEncStartEffects_succeeds (hcap : bytesOfBits (lit + 1) ≤ s.arg1) :
    ∃ t, lzwEncStartEffects ord lit s = .ok t := by
  have hwidth : (clearEncoder (sessionStart .lzwEnc ord lit s.larg.a0 s.larg.a1 0 s)).le.dwidth = lit + 1 := by
    simp only [clearEncoder_le, State.litWidth, sessionStart, litField_toNat hhi]
  have hfits : OutFits (clearEncoder (sessionStart .lzwEnc ord lit s.larg.a0 s.larg.a1 0 s)) (lit + 1) := by
    show bytesOfBits (0 + (lit + 1)) ≤ s.arg1 ∧ 0 + (lit + 1) ≤ 2 ^ 32 - 1
    rw [Nat.zero_add]
    omega
  rw [lzwEncStartEffects, if_neg (litWidthBad_of_range hlo hhi), if_neg (inRange_fits hin), if_neg hcap.not_gt, lzwEncClear,
    emitCode, hwidth, outAppendField_fits _ (Nat.succ_ne_zero lit) hfits]
  exact ⟨_, rfl⟩

theorem lzwEncStartEffects_fits (hcap : bytesOfBits (lit + 1) ≤ s.arg1) :
    lzwEncStartEffects ord lit s = .ok (encoderStarted ord lit s) := by
  obtain ⟨t, ht⟩ := lzwEncStartEffects_succeeds (ord := ord) hlo hhi hin hcap
  rcases lzwEncStart_cases ord lit s with ⟨e, he, -⟩ | ⟨-, -, -, -, h⟩
  · rw [ht] at he
    cases he
  · exact h

end

/-- Bit i of the clear code 2^L in stream order: its one bit comes last when ORD = 0 and first when ORD = 1. -/
theorem getD_fieldBits_clearCode (ord : BitOrder) {lit i : Nat} (hi : i < lit + 1) :
    (fieldBits ord (2 ^ lit) (lit + 1)).getD i false = match ord with
      | .lsb => decide (i = lit)
      | .msb => decide (i = 0) := by
  have hlen : i < (fieldBits ord (2 ^ lit) (lit + 1)).length := by rwa [fieldBits_length]
  rw [List.getD_eq_getElem _ _ hlen]
  cases ord with
  | lsb => simp [fieldBits, Nat.testBit_two_pow, eq_comm]
  | msb =>
    simp only [fieldBits, List.getElem_map, List.getElem_range, Nat.testBit_two_pow, decide_eq_decide]
    omega

theorem encoderStarted_ends (ord : BitOrder) (lit : Nat) (s : State) :
    EndedClean s (finishCommand (encoderStarted ord lit (startCommand s))) ∧
    ResultsAre (finishCommand (encoderStarted ord lit (startCommand s))) 0 0 0 ∧
    OnlySession s (finishCommand (encoderStarted ord lit (startCommand s))) := by
  refine finishCommand_onlySession ?_
  rw [encoderStarted, putBits_fields]

/-- The start writes the bytes of the clear code and no others. -/
theorem writesIn_encoderStarted (ord : BitOrder) (lit : Nat) (s : State) :
    WritesIn (InRegion s.arg0 (bytesOfBits (lit + 1))) s (encoderStarted ord lit s) := by
  have hwrites := writesIn_putBits ord s.arg0 (fieldBits ord (2 ^ lit) (lit + 1)) 0 s
  rw [fieldBits_length] at hwrites
  refine (hwrites.mono fun a ha => ?_).trans (WritesIn.of_same (HostSideSame.refl _) rfl rfl rfl rfl)
  simpa only [BitBytes, InRegion, Nat.zero_add, Nat.zero_div, Nat.add_zero] using ha

/-- Without races the output begins with the bits of the clear code, and its last byte ends in 0 bits. -/
theorem streamBit_encoderStarted (ord : BitOrder) (lit : Nat) {s : State} (hr : s.raced = []) :
    (∀ i, i < lit + 1 → (finishCommand (encoderStarted ord lit s)).streamBit ord s.arg0 i =
      (fieldBits ord (2 ^ lit) (lit + 1)).getD i false) ∧
    ∀ i, lit + 1 ≤ i → i < ceil8 (lit + 1) → (finishCommand (encoderStarted ord lit s)).streamBit ord s.arg0 i = false := by
  have hlen := fieldBits_length ord (2 ^ lit) (lit + 1)
  have hbit : ∀ i, (finishCommand (encoderStarted ord lit s)).streamBit ord s.arg0 i =
      (s.putBits ord s.arg0 0 (fieldBits ord (2 ^ lit) (lit + 1))).streamBit ord s.arg0 i := fun i =>
    streamBit_finishCommand (s := encoderStarted ord lit s) (putBits_raced hr _ _ _ _) _ _ i
  refine ⟨fun i hi => ?_, fun i hle hlt => ?_⟩
  · have hwritten := streamBit_putBits_written hr ord s.arg0 0 (fieldBits ord (2 ^ lit) (lit + 1)) (hlen.symm ▸ hi)
    rw [hbit, ← hwritten, Nat.zero_add]
  · have hempty : ∀ j, 0 ≤ j → j < ceil8 0 → s.streamBit ord s.arg0 j = false := fun j _ hj => absurd hj (Nat.not_lt_zero j)
    have htail := streamBit_putBits_tail hr ord s.arg0 0 (fieldBits ord (2 ^ lit) (lit + 1)) hempty
    rw [hlen, Nat.zero_add] at htail
    rw [hbit, htail i hle hlt]

/-- Settles O35: the checks in their order, and the clear code written bit by bit at the start of the output. -/
theorem lzwEncStartEmitsTheClearCode : Obligations.LzwEncStartEmitsTheClearCode := by
  refine fun ord lit s => ⟨fun h => completes_refused (lzwEncStartEffects_litWidth h),
    fun hlo hhi h => completes_refused (lzwEncStartEffects_misfit hlo hhi h),
    fun hlo hhi hin h => completes_refused (lzwEncStartEffects_outputFull hlo hhi hin h),
    fun hlo hhi hin hcap => completes_ok (lzwEncStartEffects_fits (s := startCommand s) hlo hhi hin hcap) ?_⟩
  obtain ⟨hend, hres, honly⟩ := encoderStarted_ends ord lit s
  refine ⟨hend, hres, honly, rfl, rfl, (writesIn_encoderStarted ord lit (startCommand s)).memorySameOutside, fun hr => ?_⟩
  obtain ⟨hcode, htail⟩ := streamBit_encoderStarted ord lit (s := startCommand s) (by simp [hr])
  exact ⟨fun i hi => (hcode i hi).trans (getD_fieldBits_clearCode ord hi), htail⟩

end Sys2Proof.Machine
end

section
/-! SUPPORT. The decoder's output, byte after byte (45 R357), and the LZW parse unit by the code it reads (42 R204 to R207). -/

namespace Sys2Proof.Machine

/-! ### Bytes appended to the output (45 R357) -/

theorem appendsOutput_nil (s : State) : AppendsOutput [] s s := by
  refine ⟨fun k hk => absurd hk (Nat.not_lt_zero k), fun _ _ => rfl, ?_⟩
  simp

theorem outByte_full {s : State} (h : s.ses.outLen = s.ses.outCap) (b : Byte) :
    outByte b s = .fail s Err.outputFull := if_pos h

/-- A byte with room for it is appended. -/
theorem outByte_fits {s : State} (h : s.ses.outLen.toNat < s.ses.outCap.toNat) (b : Byte) :
    ∃ t, outByte b s = .ok t ∧ AppendsOutput [b] s t ∧ t.lz = s.lz ∧ t.df = s.df := by
  have hne : s.ses.outLen ≠ s.ses.outCap := fun e => absurd h (by rw [e]; exact lt_irrefl _)
  refine ⟨_, if_neg hne, ⟨fun k hk => ?_, fun a ha => ?_, rfl⟩, rfl, rfl⟩
  · obtain rfl : k = 0 := by simpa using hk
    exact (State.memByte_engWrite s _ _ b).trans (if_pos rfl)
  · have haddr : a ≠ s.ses.outBase.toNat + s.ses.outLen.toNat := fun e =>
      ha (by simp only [InRegion, List.length_singleton]; omega)
    exact (State.memByte_engWrite s _ a b).trans (if_neg haddr)

/-- The output region after one more byte, where there was room for it. -/
theorem AppendsOutput.singleton_region {b : Byte} {s t : State} (h : AppendsOutput [b] s t)
    (hroom : s.ses.outLen.toNat < s.ses.outCap.toNat) : t.ses.outBase = s.ses.outBase ∧ t.ses.outCap = s.ses.outCap ∧
    t.ses.outLen.toNat = s.ses.outLen.toNat + 1 := by
  obtain ⟨-, -, ht⟩ := h
  rw [ht]
  refine ⟨rfl, rfl, ?_⟩
  have := s.ses.outCap.isLt
  simp only [List.length_singleton, BitVec.toNat_add, BitVec.toNat_ofNat]
  omega

/-- One byte and then more bytes appended. -/
theorem AppendsOutput.cons {b : Byte} {bytes : List Byte} {s t u : State} (h : AppendsOutput [b] s t)
    (h' : AppendsOutput bytes t u) (hroom : s.ses.outLen.toNat < s.ses.outCap.toNat) : AppendsOutput (b :: bytes) s u := by
  obtain ⟨hbase, -, hlen⟩ := h.singleton_region hroom
  obtain ⟨hnew, hsame, ht⟩ := h
  obtain ⟨hnew', hsame', hu⟩ := h'
  rw [hbase, hlen] at hnew' hsame'
  refine ⟨fun k hk => ?_, fun a ha => ?_, ?_⟩
  · cases k with
    | zero =>
      rw [hsame' _ (by simp only [InRegion]; omega)]
      exact hnew 0 Nat.one_pos
    | succ k =>
      have hplace : s.ses.outBase.toNat + s.ses.outLen.toNat + (k + 1) =
          s.ses.outBase.toNat + (s.ses.outLen.toNat + 1) + k := by omega
      rw [hplace]
      exact hnew' k (Nat.lt_of_succ_lt_succ hk)
  · rw [List.length_cons] at ha
    rw [hsame' a (fun h => ha (by simp only [InRegion] at *; omega)),
      hsame a (fun h => ha (by simp only [InRegion, List.length_singleton] at *; omega))]
  · rw [hu, ht]
    simp only [List.length_cons, List.length_nil, State.mk.injEq, Session.mk.injEq, true_and, and_true]
    refine ⟨?_, ?_⟩
    · rw [BitVec.add_assoc, ← BitVec.ofNat_add, Nat.add_comm]
    · rw [BitVec.add_assoc, ← BitVec.ofNat_add]
      congr 2
      omega

theorem outBytes_fits {bytes : List Byte} {s : State} (h : s.ses.outLen.toNat + bytes.length ≤ s.ses.outCap.toNat) :
    ∃ t, Run.each outByte bytes s = .ok t ∧ AppendsOutput bytes s t ∧ t.lz = s.lz ∧ t.df = s.df := by
  induction bytes generalizing s with
  | nil => exact ⟨s, rfl, appendsOutput_nil s, rfl, rfl⟩
  | cons b rest ih =>
    rw [List.length_cons] at h
    have hroom : s.ses.outLen.toNat < s.ses.outCap.toNat := by omega
    obtain ⟨t, ht, happ, hlz, hdf⟩ := outByte_fits hroom b
    obtain ⟨-, hcap, hlen⟩ := happ.singleton_region hroom
    obtain ⟨u, hu, happ', hlz', hdf'⟩ := ih (s := t) (by rw [hcap, hlen]; omega)
    exact ⟨u, by rw [Run.each_cons, ht]; exact hu, happ.cons happ' hroom, hlz'.trans hlz, hdf'.trans hdf⟩

/-- With too little room the bytes that fit are written and counted. -/
theorem outBytes_full {bytes : List Byte} {s : State} (hle : s.ses.outLen.toNat ≤ s.ses.outCap.toNat)
    (h : s.ses.outCap.toNat < s.ses.outLen.toNat + bytes.length) :
    ∃ t, Run.each outByte bytes s = .fail t Err.outputFull ∧ t.lz = s.lz ∧ t.df = s.df ∧
      AppendsOutput (bytes.take (s.ses.outCap.toNat - s.ses.outLen.toNat)) s t := by
  induction bytes generalizing s with
  | nil => exact absurd h (by simpa using hle)
  | cons b rest ih =>
    rw [List.length_cons] at h
    by_cases hfull : s.ses.outLen = s.ses.outCap
    · refine ⟨s, by rw [Run.each_cons, outByte_full hfull]; rfl, rfl, rfl, ?_⟩
      rw [hfull, Nat.sub_self]
      exact appendsOutput_nil s
    · have hroom : s.ses.outLen.toNat < s.ses.outCap.toNat :=
        lt_of_le_of_ne hle fun e => hfull (BitVec.eq_of_toNat_eq e)
      obtain ⟨t, ht, happ, hlz, hdf⟩ := outByte_fits hroom b
      obtain ⟨-, hcap, hlen⟩ := happ.singleton_region hroom
      obtain ⟨u, hu, hlz', hdf', happ'⟩ := ih (s := t) (by rw [hcap, hlen]; omega) (by rw [hcap, hlen]; omega)
      have htake : (b :: rest).take (s.ses.outCap.toNat - s.ses.outLen.toNat) =
          b :: rest.take (t.ses.outCap.toNat - t.ses.outLen.toNat) := by
        rw [hcap, hlen, show s.ses.outCap.toNat - s.ses.outLen.toNat =
          s.ses.outCap.toNat - (s.ses.outLen.toNat + 1) + 1 by omega, List.take_succ_cons]
      refine ⟨u, by rw [Run.each_cons, ht]; exact hu, hlz'.trans hlz, hdf'.trans hdf, ?_⟩
      rw [htake]
      exact happ.cons happ' hroom

/-! ### The LZW parse unit by its code (42 R204) -/

section
variable {s : State} {inp : Input} {cursor c cursor' : Nat}

theorem lzwDecUnit_needMore (h : inField s inp s.lz.width cursor = .needMore) :
    lzwDecUnit s inp cursor = .needMore := by
  rw [lzwDecUnit, h]
  rfl

section
variable (h : inField s inp s.lz.width cursor = .got c cursor')
include h

theorem lzwDecUnit_clear (hc : c = s.clearCode) : lzwDecUnit s inp cursor = .completed (lzwReset s) cursor' := by
  rw [lzwDecUnit, h]
  exact if_pos hc

theorem lzwDecUnit_end (hc : c = s.endCode) : lzwDecUnit s inp cursor = .completed (sessionDone s) cursor' := by
  have hne : c ≠ s.clearCode := by
    rw [hc]
    exact Nat.succ_ne_self _
  rw [lzwDecUnit, h]
  exact (if_neg hne).trans (if_pos hc)

theorem lzwDecUnit_data (hclear : c ≠ s.clearCode) (hend : c ≠ s.endCode) :
    lzwDecUnit s inp cursor = (lzwData c s).endUnit cursor' := by
  rw [lzwDecUnit, h]
  exact (if_neg hclear).trans (if_neg hend)

end

/-! ### A data code (42 R204, R205, R207) -/

theorem lzwDecoded_eq_none (h : s.lz.size < c ∨ (c = s.lz.size ∧ s.lz.prev = none)) : s.lzwDecoded c = none := by
  rw [State.lzwDecoded, if_neg (by omega)]
  rcases h with h | ⟨-, h⟩
  · cases s.lz.prev with
    | none => rfl
    | some p => exact if_neg (by omega)
  · rw [h]

theorem lzwDecoded_eq_some {str : List Byte} (h : (c < s.lz.size ∧ str = s.lzwStr c) ∨
    (c = s.lz.size ∧ ∃ p, s.lz.prev = some p ∧ str = s.lzwStr p ++ (s.lzwStr p).take 1)) :
    s.lzwDecoded c = some str := by
  rw [State.lzwDecoded]
  rcases h with ⟨hlt, rfl⟩ | ⟨hc, p, hp, rfl⟩
  · exact if_pos hlt
  · rw [if_neg (by omega), hp]
    exact if_pos hc

theorem lzwData_undefined (h : s.lzwDecoded c = none) : lzwData c s = .fail s Err.undefinedCode := by
  rw [lzwData, h]

section
variable {str : List Byte} (h : s.lzwDecoded c = some str)
include h

theorem lzwData_full (hprev : s.lz.prev ≠ none) (hsize : s.lz.size = 4096) :
    lzwData c s = .fail s Err.dictionaryFull := by
  rw [lzwData, h]
  exact if_pos (by simp [Option.isSome_iff_ne_none, hprev, hsize, Config.lzwMaxWidth])

theorem lzwData_room (hroom : s.lz.prev = none ∨ s.lz.size ≠ 4096) :
    lzwData c s = (Run.each outByte str s).andThen fun s' => .ok (lzwLearn c str s') := by
  rw [lzwData, h]
  refine if_neg ?_
  rcases hroom with hroom | hroom <;> simp [hroom, Config.lzwMaxWidth]

end

theorem lzwLearn_eq (c : Nat) (str : List Byte) (u : State) :
    lzwLearn c str u = { u with lz := (lzwLearn c str u).lz } := by
  rw [lzwLearn]
  split <;> rfl

theorem lzwLearn_lz_none {u : State} (h : u.lz.prev = none) (str : List Byte) :
    (lzwLearn c str u).lz = { u.lz with prev := some c } := by
  rw [lzwLearn, h]

theorem lzwLearn_lz_some {u : State} {p : Nat} (h : u.lz.prev = some p) (str : List Byte) :
    (lzwLearn c str u).lz = {
      size := u.lz.size + 1, width := grownWidth u.par (u.lz.size + 1) u.lz.width, prev := some c,
      strs := u.lz.strs ++ [u.lzwStr p ++ str.take 1] } := by
  rw [lzwLearn, h]

/-- The bytes appended to the output, whatever becomes of the LZW decoder's dictionary. -/
theorem AppendsOutput.setLz {bytes : List Byte} {s u : State} (h : AppendsOutput bytes s u) (lz : LzwDec) :
    AppendsOutput bytes s { u with lz := lz } := by
  obtain ⟨hnew, hsame, hu⟩ := h
  exact ⟨hnew, hsame, by rw [hu]⟩

section
variable {str : List Byte} (h : s.lzwDecoded c = some str) (hroom : s.lz.prev = none ∨ s.lz.size ≠ 4096)
include h hroom

/-- A string that fits is written, and the code is learned with it. -/
theorem lzwData_written (hfit : s.ses.outLen.toNat + str.length ≤ s.ses.outCap.toNat) :
    ∃ t, lzwData c s = .ok t ∧ AppendsOutput str s t ∧ t.df = s.df ∧
      (s.lz.prev = none → t.lz = { s.lz with prev := some c }) ∧
      ∀ p, s.lz.prev = some p → t.lz = {
        size := s.lz.size + 1, prev := some c, strs := s.lz.strs ++ [s.lzwStr p ++ str.take 1],
        width := grownWidth s.par (s.lz.size + 1) s.lz.width } := by
  obtain ⟨u, hu, happ, hlz, hdf⟩ := outBytes_fits hfit
  obtain ⟨hpar, hlit⟩ : u.par = s.par ∧ u.ses.lit = s.ses.lit := by
    obtain ⟨-, -, hu⟩ := happ
    rw [hu]
    exact ⟨rfl, rfl⟩
  refine ⟨lzwLearn c str u, by rw [lzwData_room h hroom, hu]; rfl, ?_, ?_, fun hp => ?_, fun p hp => ?_⟩
  · rw [lzwLearn_eq]
    exact happ.setLz _
  · rw [lzwLearn_eq]
    exact hdf
  · rw [lzwLearn_lz_none (hlz.symm ▸ hp), hlz]
  · rw [lzwLearn_lz_some (hlz.symm ▸ hp), hlz, hpar, lzwStr_congr hlit hlz]

/-- Of a string that does not fit the bytes that fit are written, and nothing is learned (45 R357). -/
theorem lzwData_outputFull (hle : s.ses.outLen.toNat ≤ s.ses.outCap.toNat)
    (hfull : s.ses.outCap.toNat < s.ses.outLen.toNat + str.length) :
    ∃ t, lzwData c s = .fail t Err.outputFull ∧ t.lz = s.lz ∧ t.df = s.df ∧
      AppendsOutput (str.take (s.ses.outCap.toNat - s.ses.outLen.toNat)) s t := by
  obtain ⟨t, ht, hlz, hdf, happ⟩ := outBytes_full hle hfull
  exact ⟨t, by rw [lzwData_room h hroom, ht]; rfl, hlz, hdf, happ⟩

end

end

/-- Settles O45: a field bit by bit, and the unit for each kind of code. -/
theorem lzwCodeDecodes : Obligations.LzwCodeDecodes := by
  refine ⟨fun s inp w cursor => ⟨inField_of_lt, fun hle => ?_⟩, fun s inp cursor => lzwDecUnit_needMore,
    fun s inp cursor c cursor' h => ⟨lzwDecUnit_clear h, lzwDecUnit_end h, fun hclear hend => ?_⟩⟩
  · refine ⟨_, inField_of_le hle, ?_, fun k hk => ⟨?_, fun hr => bitAt_of_no_race hr _ _ _ _⟩⟩
    · simpa using fieldValue_lt s.ses.ord ((List.range w).map fun k => s.inputBit inp (cursor + k))
    · exact testBit_fieldValue s.ses.ord (fun k => s.inputBit inp (cursor + k)) hk
  · have hunit := lzwDecUnit_data h hclear hend
    refine ⟨fun hc => ?_, fun str hstr => ?_⟩
    · rw [hunit, lzwData_undefined (lzwDecoded_eq_none hc)]
      rfl
    · have hdec := lzwDecoded_eq_some hstr
      refine ⟨fun hprev hsize => ?_, fun hroom hfit => ?_, fun hroom hle hfull => ?_⟩
      · rw [hunit, lzwData_full hdec hprev hsize]
        rfl
      · obtain ⟨t, ht, hrest⟩ := lzwData_written hdec hroom hfit
        exact ⟨t, by rw [hunit, ht]; rfl, hrest⟩
      · obtain ⟨t, ht, hrest⟩ := lzwData_outputFull hdec hroom hle hfull
        exact ⟨t, by rw [hunit, ht]; rfl, hrest⟩

end Sys2Proof.Machine
end

section
/-! SUPPORT. The encoder's output field (45 R355), and the LZW encoder's byte step and finish by what they emit (42 R221 to R224). -/

namespace Sys2Proof.Machine

/-! ### A field of the output (45 R355) -/

/-- The state after a field of w bits is written at the end of the output. -/
def fieldWritten (v w : Nat) (s : State) : State :=
  { s.putBits s.ses.ord s.ses.outBase.toNat s.ses.outBits.toNat (fieldBits s.ses.ord v w) with
    ses := { s.ses with
      outBits := word (s.ses.outBits.toNat + w), outLen := word (bytesOfBits (s.ses.outBits.toNat + w)) } }

theorem outAppendField_eq_ok {v w : Nat} {s : State} (hw : w ≠ 0) (h : OutFits s w) :
    outAppendField v w s = .ok (fieldWritten v w s) := outAppendField_fits v hw h

theorem fieldWritten_eq (v w : Nat) (s : State) : fieldWritten v w s = { s with
    mem := (fieldWritten v w s).mem, raced := (fieldWritten v w s).raced
    ses := { s.ses with
      outBits := s.ses.outBits + word w, outLen := word (bytesOfBits (s.ses.outBits.toNat + w)) } } := by
  conv_lhs => rw [fieldWritten, putBits_fields]
  simp only [BitVec.ofNat_add, BitVec.ofNat_toNat, BitVec.setWidth_eq]
  rfl

theorem memByte_fieldWritten (v w : Nat) (s : State) {a : Nat}
    (ha : ¬ InRegion (s.ses.outBase.toNat + s.ses.outBits.toNat / 8)
      (bytesOfBits (s.ses.outBits.toNat + w) - s.ses.outBits.toNat / 8) a) :
    (fieldWritten v w s).memByte a = s.memByte a := by
  have hwrites := writesIn_putBits s.ses.ord s.ses.outBase.toNat (fieldBits s.ses.ord v w) s.ses.outBits.toNat s
  rw [fieldBits_length] at hwrites
  refine hwrites.mem a fun hin => ha ?_
  simp only [BitBytes, InRegion, bytesOfBits] at hin ⊢
  omega

/-- Without races the output holds its old bits and then those of the field, in the session's bit order. -/
theorem outBitsAppended_fieldWritten {v w : Nat} {s : State} (hfit : OutFits s w) (hr : s.raced = []) :
    OutBitsAppended (fieldBits s.ses.ord v w) s (fieldWritten v w s) := by
  have hlen := fieldBits_length s.ses.ord v w
  have hbits : (fieldWritten v w s).ses.outBits.toNat = s.ses.outBits.toNat + w := by
    obtain ⟨-, hlt⟩ := hfit
    exact (BitVec.toNat_ofNat _ _).trans (Nat.mod_eq_of_lt (by omega))
  rw [OutBitsAppended, hlen]
  refine ⟨by rw [fieldWritten_eq], rfl, fun i hi => ?_, fun k hk => ?_, fun htail => ?_⟩
  · exact streamBit_putBits_before hr _ _ _ hi
  · exact streamBit_putBits_written hr _ _ _ _ (hlen.symm ▸ hk)
  · have hclear := streamBit_putBits_tail hr s.ses.ord s.ses.outBase.toNat s.ses.outBits.toNat
      (fieldBits s.ses.ord v w) htail
    rw [hlen] at hclear
    rw [OutTailClear, hbits]
    exact hclear

/-- The output takes a field alike whatever stands in the LZW encoder's state. -/
theorem outAppendField_setLe {v w : Nat} {s t : State} (h : outAppendField v w s = .ok t) (le : LzwEnc) :
    outAppendField v w { s with le := le } = .ok { t with le := le } := by
  by_cases hw : w = 0
  · subst hw
    cases h
    rfl
  · by_cases hfit : OutFits s w
    · rw [outAppendField_eq_ok hw hfit] at h
      cases h
      rw [outAppendField_eq_ok (s := { s with le := le }) hw hfit]
      obtain ⟨hmem, hraced⟩ := putBits_congr s.ses.ord s.ses.outBase.toNat (fieldBits s.ses.ord v w)
        s.ses.outBits.toNat s { s with le := le } rfl rfl rfl rfl
      have hmem : (fieldWritten v w { s with le := le }).mem = (fieldWritten v w s).mem := hmem
      have hraced : (fieldWritten v w { s with le := le }).raced = (fieldWritten v w s).raced := hraced
      rw [fieldWritten_eq, fieldWritten_eq v w s, hmem, hraced]
    · rw [outAppendField_full v hw hfit] at h
      cases h

/-! ### The shadow of the decoder (42 R221, R222) -/

/-- The LZW encoder's state after a data code is emitted. -/
def State.shadowLe (s : State) : LzwEnc :=
  { s.le with
    dsize := if s.le.dprev = true then s.le.dsize + 1 else s.le.dsize, dwidth := s.nextCodeWidth, dprev := true }

theorem shadowData_eq (s : State) : shadowData s = { s with le := s.shadowLe } := by
  rw [shadowData, State.shadowLe, State.nextCodeWidth]
  cases s.le.dprev <;> simp [grownWidth]

theorem shadowLe_congr {s t : State} (hle : t.le = s.le) (hp : t.par = s.par) : t.shadowLe = s.shadowLe := by
  simp only [State.shadowLe, State.nextCodeWidth, hle, hp]

theorem nextCodeWidth_ne_zero {s : State} (h : 1 ≤ s.le.dwidth) : s.nextCodeWidth ≠ 0 := by
  rw [State.nextCodeWidth]
  split_ifs <;> omega

/-! ### What is emitted (42 R221) -/

section
variable {s : State} (hw : 1 ≤ s.le.dwidth)
include hw

theorem emitCode_full (c : Nat) (h : ¬ OutFits s s.le.dwidth) : emitCode c s = .fail s Err.outputFull :=
  outAppendField_full c (Nat.one_le_iff_ne_zero.mp hw) h

theorem emitData_full (c : Nat) (h : ¬ OutFits s s.le.dwidth) : emitData c s = .fail s Err.outputFull := by
  rw [emitData, emitCode_full hw c h]
  rfl

end

theorem emitData_ok {s t : State} {c : Nat} (h : outAppendField c s.le.dwidth s = .ok t) :
    emitData c s = .ok { t with le := s.shadowLe } := by
  obtain ⟨hle, hp, -⟩ := outAppendField_le h
  rw [emitData, emitCode, h, Run.andThen_ok, shadowData_eq, shadowLe_congr hle hp]

/-- The code after a data code does not fit. -/
theorem emitCode_after_full {s t : State} (hw : 1 ≤ s.le.dwidth) (c : Nat) (h : ¬ OutFits t s.nextCodeWidth) :
    emitCode c { t with le := s.shadowLe } = .fail { t with le := s.shadowLe } Err.outputFull :=
  outAppendField_full c (nextCodeWidth_ne_zero hw) h

/-- The code after a data code is emitted at the width the decoder then reads. -/
theorem emitCode_after_ok {s t u : State} {c : Nat} (h : outAppendField c s.nextCodeWidth t = .ok u) :
    emitCode c { t with le := s.shadowLe } = .ok { u with le := s.shadowLe } := outAppendField_setLe h _

/-! ### The byte step (42 R223) -/

section
variable {s : State} {b : Byte}

theorem lzwEncByte_tooWide (h : 2 ^ s.litWidth ≤ b.toNat) : lzwEncByte b s = .fail s Err.literalTooWide := if_pos h

variable (hb : b.toNat < 2 ^ s.litWidth)
include hb

theorem lzwEncByte_first (hw : s.le.w = none) : lzwEncByte b s = .ok (setMatched (some b.toNat) s) := by
  rw [lzwEncByte, if_neg hb.not_ge, hw]

variable {w : Nat} (hw : s.le.w = some w)
include hw

theorem lzwEncByte_known {code : Nat} (hfind : s.le.find w b = some code) :
    lzwEncByte b s = .ok (setMatched (some code) s) := by
  rw [lzwEncByte, if_neg hb.not_ge, hw]
  simp only [hfind]

variable (hfind : s.le.find w b = none)
include hfind

theorem lzwEncByte_new : lzwEncByte b s = ((emitData w s).andThen fun u =>
    if u.le.size < 2 ^ Config.lzwMaxWidth then .ok (learnPair w b u) else lzwEncClear u).andThen
      fun v => .ok (setMatched (some b.toNat) v) := by
  rw [lzwEncByte, if_neg hb.not_ge, hw]
  simp only [hfind]

theorem lzwEncByte_full (hwidth : 1 ≤ s.le.dwidth) (h : ¬ OutFits s s.le.dwidth) :
    lzwEncByte b s = .fail s Err.outputFull := by
  rw [lzwEncByte_new hb hw hfind, emitData_full hwidth w h]
  rfl

variable {t : State} (ht : outAppendField w s.le.dwidth s = .ok t)
include ht

theorem lzwEncByte_learns (hsize : s.le.size < 4096) :
    lzwEncByte b s = .ok (setMatched (some b.toNat) (learnPair w b { t with le := s.shadowLe })) := by
  have hroom : s.shadowLe.size < 2 ^ Config.lzwMaxWidth := hsize
  rw [lzwEncByte_new hb hw hfind, emitData_ok ht, Run.andThen_ok, if_pos hroom]
  rfl

theorem lzwEncByte_clears (hsize : 4096 ≤ s.le.size) : lzwEncByte b s =
    (lzwEncClear { t with le := s.shadowLe }).andThen fun v => .ok (setMatched (some b.toNat) v) := by
  have hfull : ¬ s.shadowLe.size < 2 ^ Config.lzwMaxWidth := Nat.not_lt.mpr hsize
  rw [lzwEncByte_new hb hw hfind, emitData_ok ht, Run.andThen_ok, if_neg hfull]

end

/-- A pair learned is found, and the others are found as before (42 R223). -/
theorem find_of_map_cons {le le' : LzwEnc} {c n : Nat} {b : Byte} (h : le'.map = ⟨c, b, n⟩ :: le.map) :
    le'.find c b = some n ∧ ∀ x y, (x, y) ≠ (c, b) → le'.find x y = le.find x y := by
  simp only [LzwEnc.find, h, List.find?_cons]
  refine ⟨by simp, fun x y hne => ?_⟩
  have hother : (c == x && b == y) = false := by
    rw [Bool.and_eq_false_iff]
    by_contra hsame
    simp only [not_or, Bool.not_eq_false, beq_iff_eq] at hsame
    exact hne (by rw [hsame.1, hsame.2])
  rw [hother]

/-- A new pair with a full dictionary: the matched code, the clear code at the width after it, and the empty dictionary,
or the error of the one that does not fit (42 R223). -/
theorem lzwEncByte_cleared {s t : State} {b : Byte} {w : Nat} (hb : b.toNat < 2 ^ s.litWidth) (hw : s.le.w = some w)
    (hfind : s.le.find w b = none) (hwidth : 1 ≤ s.le.dwidth) (ht : outAppendField w s.le.dwidth s = .ok t)
    (hsize : 4096 ≤ s.le.size) :
    (¬ OutFits t s.nextCodeWidth → lzwEncByte b s = .fail { t with le := s.shadowLe } Err.outputFull) ∧
    ∀ u, outAppendField s.clearCode s.nextCodeWidth t = .ok u → lzwEncByte b s = .ok { u with le :=
      { map := [], size := s.firstCode, w := some b.toNat, dsize := s.firstCode, dwidth := s.litWidth + 1,
        dprev := false } } := by
  obtain ⟨-, -, hlit, -⟩ := outAppendField_le ht
  have hclear : ({ t with le := s.shadowLe } : State).clearCode = s.clearCode := by
    simp only [State.clearCode, State.litWidth, hlit]
  rw [lzwEncByte_clears hb hw hfind ht hsize, lzwEncClear, hclear]
  refine ⟨fun hfull => by rw [emitCode_after_full hwidth _ hfull]; rfl, fun u hu => ?_⟩
  obtain ⟨-, -, hlit', -⟩ := outAppendField_le hu
  rw [emitCode_after_ok hu]
  simp only [Run.andThen_ok, clearEncoder, setMatched, State.firstCode, State.litWidth, hlit', hlit]

/-! ### The finish (42 R224) -/

section
variable {s : State}

theorem lzwEncFinish_unmatched (hw : s.le.w = none) :
    lzwEncFinish s = (emitCode s.endCode s).andThen fun u => .ok (sessionDone u) := by
  rw [lzwEncFinish, hw]
  rfl

theorem lzwEncFinish_matched {w : Nat} (hw : s.le.w = some w) : lzwEncFinish s =
    ((emitData w s).andThen fun u => emitCode u.endCode u).andThen fun u => .ok (sessionDone u) := by
  rw [lzwEncFinish, hw]

theorem lzwEncFinish_full (hwidth : 1 ≤ s.le.dwidth) (h : ¬ OutFits s s.le.dwidth) :
    lzwEncFinish s = .fail s Err.outputFull := by
  cases hw : s.le.w with
  | none => rw [lzwEncFinish_unmatched hw, emitCode_full hwidth _ h]; rfl
  | some w => rw [lzwEncFinish_matched hw, emitData_full hwidth w h]; rfl

theorem lzwEncFinish_unmatched_ok {t : State} (hw : s.le.w = none) (h : outAppendField s.endCode s.le.dwidth s = .ok t) :
    lzwEncFinish s = .ok (sessionDone t) := by
  rw [lzwEncFinish_unmatched hw, emitCode, h]
  rfl

/-- The matched code and the end code at the width after it, or the error of the end code that does not fit. -/
theorem lzwEncFinish_matched_ok {t : State} {w : Nat} (hw : s.le.w = some w) (hwidth : 1 ≤ s.le.dwidth)
    (ht : outAppendField w s.le.dwidth s = .ok t) :
    (¬ OutFits t s.nextCodeWidth → lzwEncFinish s = .fail { t with le := s.shadowLe } Err.outputFull) ∧
    ∀ u, outAppendField s.endCode s.nextCodeWidth t = .ok u →
      lzwEncFinish s = .ok (sessionDone { u with le := s.shadowLe }) := by
  obtain ⟨-, -, hlit, -⟩ := outAppendField_le ht
  have hend : ({ t with le := s.shadowLe } : State).endCode = s.endCode := by
    simp only [State.endCode, State.litWidth, hlit]
  rw [lzwEncFinish_matched hw, emitData_ok ht, Run.andThen_ok, hend]
  refine ⟨fun hfull => by rw [emitCode_after_full hwidth _ hfull]; rfl, fun u hu => ?_⟩
  rw [emitCode_after_ok hu]
  rfl

end

end Sys2Proof.Machine
end

section
/-! SUPPORT. FEED of an LZW encoder: its byte steps in order and its finish, the input as the host left it, and how the command ends (45 R348, R349, R358). -/

namespace Sys2Proof.Machine

/-! ### The input during a FEED (45 R343) -/

/-- A FEED stores inside the output and the history region. -/
theorem FeedStores.region {s u : State} (hset : SessionSetupSame s u) (h : SessionRegionsOk u) {a : Nat}
    (ha : FeedStores s u a) :
    InRegion s.ses.outBase.toNat s.ses.outCap.toNat a ∨ InRegion s.ses.histBase.toNat s.ses.histCap.toNat a := by
  obtain ⟨-, hout, -, hhist, -⟩ := h
  obtain ⟨-, -, -, -, -, hoc, -, hhc⟩ := hset
  rw [hoc] at hout
  rw [hhc] at hhist
  rcases ha with ⟨hlo, hhi⟩ | ⟨hlo, hhi⟩
  · exact .inl ⟨by omega, by omega⟩
  · exact .inr ⟨by omega, by omega⟩

/-- Without races every read of an input byte gives what the host left there, however far the FEED has come. -/
theorem engByte_input {s u : State} (hr : s.raced = []) (hregions : RegionsOk s) (hacc : FeedAccepted s)
    (hu : FeedWrites s.ses.isEncoder (startCommand s) u) (site : List Nat) {k : Nat} (hk : k < s.arg1) :
    u.engByte site (s.arg0 + k) = s.hostByte (s.arg0 + k) := by
  obtain ⟨-, hok, hset, -, hwrites, -⟩ := hu rfl ((regionsOk_iff s).mp hregions).2
  obtain ⟨-, -, hout, hhist⟩ := hacc
  have hraced : u.raced = [] := by simpa [hr] using hwrites.addrs
  have hinput : InRegion s.arg0 s.arg1 (s.arg0 + k) := ⟨Nat.le_add_right _ _, Nat.add_lt_add_left hk _⟩
  have hunstored : ¬ FeedStores (startCommand s) u (s.arg0 + k) := fun ha =>
    (ha.region hset hok).elim (fun h => hout ⟨_, hinput, h⟩) fun h => hhist ⟨_, hinput, h⟩
  rw [State.engByte_of_no_race hraced, hwrites.mem _ hunstored, State.hostByte_of_no_race hr]
  rfl

/-! ### The byte loop (45 R348) -/

theorem encodeLoop_stopped {inp : Input} {left j : Nat} {s u : State} {i : Nat}
    (h : encodeLoop inp left j s = .stopped u i) : i = j + left := by
  induction left generalizing j s with
  | zero => cases h; rfl
  | succ left ih =>
    rw [encodeLoop] at h
    split at h
    · have := ih h
      omega
    · cases h

/-- The loop runs the byte steps on the bytes it reads, in order. -/
theorem encodeLoop_lzwSteps {inp : Input} {s₀ : State} {bytes : Nat → Byte}
    (hread : ∀ u, FeedWrites true s₀ u → ∀ k < inp.len, u.engByte [k] (inp.base + k) = bytes k) (left j : Nat) {s : State}
    (hm : s.ses.mode = .lzwEnc) (hs : FeedWrites true s₀ s) (hj : j + left ≤ inp.len) :
    LzwSteps j ((List.range left).map fun k => bytes (j + k)) s (encodeLoop inp left j s) := by
  induction left generalizing j s with
  | zero => exact .done j s
  | succ left ih =>
    have hframe := feedFrame_encode.lzwEncByte (bytes j) s
    have hwrites := feedWrites_encode.lzwEncByte (bytes j) s
    have hplace : ∀ k, bytes (j + (k + 1)) = bytes (j + 1 + k) := fun k => by congr 1; omega
    rw [encodeLoop, hread s hs j (by omega), encodeByte, if_pos hm, List.range_succ_eq_map]
    simp only [List.map_cons, List.map_map, Function.comp_def, Nat.add_zero, Nat.succ_eq_add_one, hplace]
    cases hbyte : lzwEncByte (bytes j) s with
    | ok t =>
      rw [hbyte] at hframe hwrites
      exact .next j _ _ s t _ hbyte (ih (j + 1) (hframe.setup.1.trans hm) (hs.trans hwrites) (by omega))
    | fail t e => exact .fails j _ _ s t e hbyte

/-! ### How the command ends (45 R349, R358) -/

theorem feedEnded_finish {s u : State} (hu : FeedFrame (startCommand s) u) (n : Nat) (out0 : Word) :
    FeedEnded n u.ses.bitpos u (finishCommand (feedResults n out0 true u)) := by
  have herr : u.status.err = false := by rw [hu.status]; rfl
  have hdetail : u.errDetail = 0 := hu.errDetail
  exact ⟨rfl, herr, hdetail, rfl, rfl, rfl, rfl, rfl, rfl, fun _ => rfl⟩

theorem feedFailed_finish (e : Err) (n : Nat) (out0 : Word) (u : State) :
    FeedFailed e n u (raiseError e (feedResults n out0 false (markSessionError e u))) :=
  ⟨rfl, rfl, rfl, rfl, rfl, rfl, rfl, rfl, rfl, fun _ => rfl⟩

/-- The byte loop leaves the host's side, the status and the session's set-up as they were. -/
theorem encodeLoop_frame {inp : Input} {left j i : Nat} {s u : State} (hm : s.ses.mode = .lzwEnc)
    (h : encodeLoop inp left j s = .stopped u i) : FeedFrame s u ∧ u.ses.mode = .lzwEnc := by
  have hframe := feedFrame_encode.encodeLoop inp left j s
  rw [h] at hframe
  exact ⟨hframe, hframe.setup.1.trans hm⟩

section
variable {s : State} {complete : Bool} (hacc : FeedAccepted s) (ha : s.ses.sstate = .active) (hm : s.ses.mode = .lzwEnc)
include hacc ha hm

theorem effects_feed_lzwEnc : effects (.feed complete) (startCommand s) =
    feedEncode ⟨s.arg0, s.arg1⟩ complete s.ses.outLen (startCommand s) := by
  have hact : ¬ (!(startCommand s).ses.isActive) = true := by simp [Session.isActive, ha]
  have hmode : ¬ ((startCommand s).ses.mode = .lzwDec ∨ (startCommand s).ses.mode = .dflDec) := by simp [hm]
  rw [effects, feedEffects_accepted (s := startCommand s) hacc, feedProcess, if_neg hact, if_neg hmode]
  rfl

variable {u : State} {j : Nat}

theorem feed_lzwEnc_raised {e : Err} (hloop : encodeLoop ⟨s.arg0, s.arg1⟩ s.arg1 0 (startCommand s) = .raised u e j) :
    Completes (.feed complete) s (FeedFailed e j u) := by
  rw [completes_iff, effects_feed_lzwEnc hacc ha hm, feedEncode, hloop]
  exact feedFailed_finish e j _ u

variable (hloop : encodeLoop ⟨s.arg0, s.arg1⟩ s.arg1 0 (startCommand s) = .stopped u j)
include hloop

theorem feed_lzwEnc_stopped (hc : complete = false) :
    Completes (.feed complete) s (FeedEnded s.arg1 u.ses.bitpos u) := by
  rw [completes_iff, effects_feed_lzwEnc hacc ha hm, feedEncode, hloop, hc]
  exact feedEnded_finish (encodeLoop_frame (s := startCommand s) hm hloop).1 s.arg1 _

theorem feed_lzwEnc_finished (hc : complete = true) :
    (∀ v, lzwEncFinish u = .ok v → Completes (.feed complete) s (FeedEnded s.arg1 v.ses.bitpos v)) ∧
    ∀ v e, lzwEncFinish u = .fail v e → Completes (.feed complete) s (FeedFailed e s.arg1 v) := by
  obtain ⟨hframe, hmode⟩ := encodeLoop_frame (s := startCommand s) hm hloop
  have hfinish := feedFrame_encode.lzwEncFinish u
  simp only [completes_iff, effects_feed_lzwEnc hacc ha hm, feedEncode, hloop, hc, if_true, encodeFinish, hmode]
  refine ⟨fun v hv => ?_, fun v e hv => ?_⟩
  · rw [hv] at hfinish ⊢
    exact feedEnded_finish (hframe.trans hfinish) s.arg1 _
  · rw [hv]
    exact feedFailed_finish e s.arg1 _ v

end

/-! ### The byte step, the finish and the output field -/

/-- The byte step on a new pair: the matched code is emitted, and the pair learned or the dictionary cleared. -/
theorem lzwEncByte_emitted {s t : State} {b : Byte} {w : Nat} (hb : b.toNat < 2 ^ s.ses.lit.toNat) (hw : s.le.w = some w)
    (hfind : s.le.find w b = none) (hwidth : 1 ≤ s.le.dwidth) (ht : outAppendField w s.le.dwidth s = .ok t) :
    (s.le.size < 4096 → ∃ t', lzwEncByte b s = .ok t' ∧
      t'.ses = t.ses ∧ t'.mem = t.mem ∧ t'.le.w = some b.toNat ∧ t'.le.size = s.le.size + 1 ∧
      t'.le.find w b = some s.le.size ∧ (∀ x y, (x, y) ≠ (w, b) → t'.le.find x y = s.le.find x y) ∧
      t'.le.dprev = true ∧ t'.le.dwidth = s.nextCodeWidth ∧
      t'.le.dsize = if s.le.dprev = true then s.le.dsize + 1 else s.le.dsize) ∧
    (4096 ≤ s.le.size →
      (¬ OutFits t s.nextCodeWidth → ∃ t', lzwEncByte b s = .fail t' Err.outputFull ∧
        t'.ses = t.ses ∧ t'.mem = t.mem) ∧
      ∀ t2, outAppendField (2 ^ s.ses.lit.toNat) s.nextCodeWidth t = .ok t2 → ∃ t', lzwEncByte b s = .ok t' ∧
        t'.ses = t2.ses ∧ t'.mem = t2.mem ∧
        t'.le = { map := [], size := 2 ^ s.ses.lit.toNat + 2, w := some b.toNat, dsize := 2 ^ s.ses.lit.toNat + 2,
                  dwidth := s.ses.lit.toNat + 1, dprev := false }) := by
  refine ⟨fun hsize => ?_, fun hsize => ?_⟩
  · obtain ⟨hfound, hothers⟩ := find_of_map_cons (le := s.le) (c := w) (b := b) (n := s.le.size)
      (le' := (setMatched (some b.toNat) (learnPair w b { t with le := s.shadowLe })).le) rfl
    exact ⟨_, lzwEncByte_learns hb hw hfind ht hsize, rfl, rfl, rfl, rfl, hfound, hothers, rfl, rfl, rfl⟩
  · obtain ⟨hfull, hcleared⟩ := lzwEncByte_cleared hb hw hfind hwidth ht hsize
    exact ⟨fun h => ⟨_, hfull h, rfl, rfl⟩, fun t2 h => ⟨_, hcleared t2 h, rfl, rfl, rfl⟩⟩

/-- FEED of an LZW encoder runs the byte steps and, with COMPLETE = 1, the finish. -/
theorem feed_lzwEnc_runs {s : State} (complete : Bool) (hr : s.raced = []) (hregions : RegionsOk s)
    (hacc : FeedAccepted s) (ha : s.ses.sstate = .active) (hm : s.ses.mode = .lzwEnc) :
    ∃ r, LzwSteps 0 ((List.range s.arg1).map fun j => s.hostByte (s.arg0 + j)) (startCommand s) r ∧
      (∀ u e j, r = .raised u e j → Completes (.feed complete) s (FeedFailed e j u)) ∧
      ∀ u j, r = .stopped u j → j = s.arg1 ∧
        (complete = false → Completes (.feed complete) s (FeedEnded s.arg1 u.ses.bitpos u)) ∧
        (complete = true →
          (∀ v, lzwEncFinish u = .ok v → Completes (.feed complete) s (FeedEnded s.arg1 v.ses.bitpos v)) ∧
          (∀ v e, lzwEncFinish u = .fail v e → Completes (.feed complete) s (FeedFailed e s.arg1 v))) := by
  have henc : s.ses.isEncoder = true := by simp [Session.isEncoder, hm]
  have hsteps := encodeLoop_lzwSteps (inp := ⟨s.arg0, s.arg1⟩) (s₀ := startCommand s)
    (bytes := fun j => s.hostByte (s.arg0 + j))
    (fun u hu k hk => engByte_input hr hregions hacc (henc.symm ▸ hu) [k] hk) s.arg1 0 (s := startCommand s) hm (FeedWrites.refl true _)
    (Nat.zero_add _).le
  simp only [Nat.zero_add] at hsteps
  refine ⟨_, hsteps, fun u e j hloop => feed_lzwEnc_raised hacc ha hm hloop, fun u j hloop => ⟨?_, ?_, ?_⟩⟩
  · exact (encodeLoop_stopped hloop).trans (Nat.zero_add _)
  · exact feed_lzwEnc_stopped hacc ha hm hloop
  · exact feed_lzwEnc_finished hacc ha hm hloop

/-- Settles O51: a field of the output, the byte step and the finish by what they emit, and a FEED that runs them. -/
theorem lzwEncoderByte : Obligations.LzwEncoderByte := by
  refine ⟨fun s v w hlo _ _ => ⟨outAppendField_full v (by omega), fun hfit => ?_⟩, fun s b => ⟨lzwEncByte_tooWide, fun hb =>
    ⟨lzwEncByte_first hb, fun w hw => ⟨fun code => lzwEncByte_known hb hw, fun hfind hwidth =>
      ⟨lzwEncByte_full hb hw hfind hwidth, fun t => lzwEncByte_emitted hb hw hfind hwidth⟩⟩⟩⟩,
    fun s complete => feed_lzwEnc_runs complete, fun s hwidth => ⟨lzwEncFinish_full hwidth, fun hw t ht =>
      ⟨_, lzwEncFinish_unmatched_ok hw ht, rfl, rfl⟩, fun w t hw ht => ?_⟩⟩
  · refine ⟨_, outAppendField_eq_ok (by omega) hfit, fieldWritten_eq v w s, fun a => memByte_fieldWritten v w s, fun hr => ?_⟩
    convert outBitsAppended_fieldWritten (v := v) hfit hr using 1
    cases s.ses.ord <;> rfl
  · obtain ⟨hfull, hok⟩ := lzwEncFinish_matched_ok hw hwidth ht
    exact ⟨fun h => ⟨_, hfull h, rfl, rfl⟩, fun t2 h => ⟨_, hok t2 h, rfl, rfl⟩⟩

end Sys2Proof.Machine
end

section
/-! SUPPORT. The two fixed tables of DEFLATE (43 R244): in a run of symbols of one width the canonical codes count up, and the run that comes next in the order goes on from the last code. -/

namespace Sys2Proof.Machine

/-! ### Runs of symbols of one width in a canonical table (41 R162) -/

section
variable {ws : List Nat} {t : HufTable} (ht : canon ws = .ok t)
include ht

theorem canon_entry_width {a : Nat} (ha : a < ws.length) : (t.entry a).width = ws.getD a 0 := by
  obtain ⟨hw, -, rfl⟩ := canon_eq_ok_iff.mp ht
  exact (widths_eq_iff (tableOf_n _ _)).mp (canon_widths hw) a ha

/-- The code after that of symbol a goes to the symbol b that comes next in the order (W[s], s). -/
theorem canon_code_next {a b : Nat} (ha : a < ws.length) (hb : b < ws.length) (hpos : 0 < ws.getD a 0)
    (hab : CanonBefore ws a b) (hnext : ∀ c, c < ws.length → CanonBefore ws a c → ¬ CanonBefore ws c b) :
    (t.entry b).code = ((t.entry a).code + 1) <<< (ws.getD b 0 - ws.getD a 0) := by
  obtain ⟨hw, -, rfl⟩ := canon_eq_ok_iff.mp ht
  exact canon_next_code hw ha hb hpos hab hnext

theorem canon_code_first {a : Nat} (ha : a < ws.length) (hpos : 0 < ws.getD a 0)
    (hfirst : ∀ b, b < ws.length → 0 < ws.getD b 0 → ¬ CanonBefore ws b a) : (t.entry a).code = 0 := by
  obtain ⟨hw, -, rfl⟩ := canon_eq_ok_iff.mp ht
  exact canon_first_code hw ha hpos hfirst

/-- The codes of neighbouring symbols of one width count up from that of the first one. -/
theorem canon_run_entry {lo n w code : Nat} (hlen : lo + n ≤ ws.length) (hpos : 0 < w)
    (hrun : ∀ a, lo ≤ a → a < lo + n → ws.getD a 0 = w) (hfirst : (t.entry lo).code = code) (a : Nat) (hlo : lo ≤ a)
    (hhi : a < lo + n) : t.entry a = ⟨w, code + (a - lo)⟩ := by
  have hcode : (t.entry a).code = code + (a - lo) := by
    induction a, hlo using Nat.le_induction with
    | base => rw [hfirst, Nat.sub_self, Nat.add_zero]
    | succ a hlo ih =>
      have hwa := hrun a hlo (by omega)
      have hwb := hrun (a + 1) (by omega) hhi
      have hstep := canon_code_next ht (a := a) (b := a + 1) (by omega) (by omega) (hwa ▸ hpos)
        (.inr ⟨hwa.trans hwb.symm, by omega⟩) fun c _ h h' => by simp only [CanonBefore] at h h'; omega
      rw [hstep, ih (by omega), hwa, hwb, Nat.sub_self, Nat.shiftLeft_zero]
      omega
  rw [← hcode, ← hrun a hlo hhi, ← canon_entry_width ht (by omega)]

end

/-! ### The fixed tables (43 R244) -/

theorem fixedLitWidths_length : fixedLitWidths.length = 288 := by
  simp only [fixedLitWidths, List.length_append, List.length_replicate]

theorem fixedLitWidths_getD {a : Nat} (ha : a < 288) :
    fixedLitWidths.getD a 0 = if a < 144 then 8 else if a < 256 then 9 else if a < 280 then 7 else 8 := by
  simp only [fixedLitWidths, List.getD_eq_getElem?_getD, List.getElem?_append, List.getElem?_replicate,
    List.length_append, List.length_replicate]
  grind

theorem canon_fixedLit : canon fixedLitWidths = .ok fixedLit := builtOr_canon (by decide +kernel) (by decide +kernel)

theorem canon_fixedDist : canon (List.replicate 30 5) = .ok fixedDist := builtOr_canon (by decide) (by decide)

theorem fixedDist_entry {a : Nat} (ha : a < 30) : fixedDist.entry a = ⟨5, a⟩ := by
  have hwidth : ∀ b, b < 30 → (List.replicate 30 5).getD b 0 = 5 := fun b hb => by
    rw [List.getD_eq_getElem _ _ (by simpa using hb), List.getElem_replicate]
  have hfirst : (fixedDist.entry 0).code = 0 :=
    canon_code_first canon_fixedDist (by decide) (by decide) fun b hb _ h => by
      rw [CanonBefore, hwidth b (by simpa using hb), hwidth 0 (by decide)] at h
      omega
  simpa using canon_run_entry canon_fixedDist (lo := 0) (n := 30) (by decide) (by decide)
    (fun b _ hb => hwidth b (by omega)) hfirst a a.zero_le (by omega)

/-- The first run of the fixed literal/length code: 7 bits from 0000000. -/
theorem fixedLit_run_first {a : Nat} (hlo : 256 ≤ a) (hhi : a < 280) : fixedLit.entry a = ⟨7, a - 256⟩ := by
  have hlen := fixedLitWidths_length
  have hfirst : (fixedLit.entry 256).code = 0 :=
    canon_code_first canon_fixedLit (by omega) (by grind [fixedLitWidths_getD]) fun b hb _ h => by
      grind [CanonBefore, fixedLitWidths_getD]
  simpa using canon_run_entry canon_fixedLit (n := 24) (by omega) (by decide) (by grind [fixedLitWidths_getD]) hfirst a
    hlo hhi

/-- A run of symbols of one width that comes right after symbol `last` in the order (W[s], s) of the fixed
literal/length code goes on from its code. -/
theorem fixedLit_run_after {last lo n w w' c : Nat} (he : fixedLit.entry last = ⟨w, c⟩) (hlast : last < 288)
    (hhi : lo + n ≤ 288) (hrun : ∀ a, lo ≤ a → a < lo + n → fixedLitWidths.getD a 0 = w')
    (hafter : CanonBefore fixedLitWidths last lo)
    (hnext : ∀ b, b < 288 → CanonBefore fixedLitWidths last b → ¬ CanonBefore fixedLitWidths b lo) (a : Nat)
    (hlo : lo ≤ a) (ha : a < lo + n) : fixedLit.entry a = ⟨w', (c + 1) <<< (w' - w) + (a - lo)⟩ := by
  have hlen := fixedLitWidths_length
  have hw : fixedLitWidths.getD last 0 = w := by rw [← canon_entry_width canon_fixedLit (by omega), he]
  have hw' : fixedLitWidths.getD lo 0 = w' := hrun lo le_rfl (by omega)
  have hpos : 0 < fixedLitWidths.getD last 0 := by
    rw [fixedLitWidths_getD hlast]
    split_ifs <;> decide
  have hfirst : (fixedLit.entry lo).code = (c + 1) <<< (w' - w) := by
    rw [canon_code_next canon_fixedLit (by omega) (by omega) hpos hafter (hlen ▸ hnext), he, hw, hw']
  have hpos' : 0 < w' := by
    simp only [CanonBefore] at hafter
    omega
  exact canon_run_entry canon_fixedLit (by omega) hpos' hrun hfirst a hlo ha

/-- Settles O32: in the order (W[s], s) the symbols 256 to 279 come first, then 0 to 143, 280 to 287, and 144 to 255. -/
theorem fixedTables : Obligations.FixedTables := by
  have h143 := fixedLit_run_after (last := 279) (lo := 0) (n := 144) (w' := 8)
    (fixedLit_run_first (by decide) (by decide)) (by decide) (by decide) (by grind [fixedLitWidths_getD])
    (by grind [CanonBefore, fixedLitWidths_getD]) (by grind [CanonBefore, fixedLitWidths_getD])
  have h287 := fixedLit_run_after (last := 143) (lo := 280) (n := 8) (w' := 8) (h143 143 (by decide) (by decide))
    (by decide) (by decide) (by grind [fixedLitWidths_getD]) (by grind [CanonBefore, fixedLitWidths_getD])
    (by grind [CanonBefore, fixedLitWidths_getD])
  have h255 := fixedLit_run_after (last := 287) (lo := 144) (n := 112) (w' := 9) (h287 287 (by decide) (by decide))
    (by decide) (by decide) (by grind [fixedLitWidths_getD]) (by grind [CanonBefore, fixedLitWidths_getD])
    (by grind [CanonBefore, fixedLitWidths_getD])
  exact ⟨fixedLit_sized.1, fixedDist_sized.1, fun a ha => by simpa using h143 a a.zero_le (by omega), h255,
    fun a => fixedLit_run_first, h287, fun a => fixedDist_entry⟩

end Sys2Proof.Machine
end

section
/-! SUPPORT. What the DEFLATE decoder reads (43 R245; 45 R356): one symbol by the lookup on the next bits, and fields and bytes of an LSB-first input that nothing races with. -/

namespace Sys2Proof.Machine

/-! ### DecodeSym (43 R245) -/

/-- What DecodeSym answers at cursor `c` when the lookup on the next bits answers `r` (43 R245). -/
def MatchResult.readAt (c : Nat) : MatchResult → Read Nat
  | .found a k => .got a (c + k)
  | .needMore => .needMore
  | .malformed => .bad Err.noCode

section
variable {s : State} {inp : Input} {t : HufTable} {c m : Nat}

theorem decodeSym_eq_lookup (hm : m = min (8 * inp.len - c) (t.maxw + 1)) :
    decodeSym s inp t c = (t.lookup (firstBits (fun j => s.inputBit inp (c + j)) m) m).readAt c := by
  obtain ⟨hres, hused⟩ := readSymbol_eq_lookup (t := t) (bit := fun j => s.inputBit inp (c + j))
    (next := fun n => inBit s inp (c + n)) (fun n hn => inBit_of_lt (by omega)) (fun n hn => inBit_of_ge (by omega)) hm
  simp only [decodeSym, hres]
  cases hr : t.lookup (firstBits (fun j => s.inputBit inp (c + j)) m) m with
  | found a k => rw [hused a k hr]; rfl
  | needMore => rfl
  | malformed => rfl

theorem decodeSym_bad {e : Err} (h : decodeSym s inp t c = .bad e) : e = Err.noCode := by
  rw [decodeSym_eq_lookup rfl] at h
  generalize HufTable.lookup _ _ _ = r at h
  cases r <;> cases h
  rfl

end

/-- Settles O46: the three answers of the lookup on the next bits. -/
theorem decodeSymReadsOneSymbol : Obligations.DecodeSymReadsOneSymbol := by
  rintro s inp t c m r hm rfl
  rw [decodeSym_eq_lookup hm]
  exact ⟨fun a j h => congrArg (MatchResult.readAt c) h, fun h => congrArg (MatchResult.readAt c) h,
    fun h => congrArg (MatchResult.readAt c) h⟩

/-! ### The values of LSB-first fields (00 R11) -/

theorem fieldValue_lsb_append (xs ys : List Bool) :
    fieldValue .lsb (xs ++ ys) = fieldValue .lsb xs + 2 ^ xs.length * fieldValue .lsb ys := by
  induction xs with
  | nil => simp [fieldValue]
  | cons b rest ih =>
    rw [List.cons_append, fieldValue_lsb_cons, fieldValue_lsb_cons, ih, List.length_cons, pow_succ]
    ring

theorem fieldValue_lsb_byte (b : Byte) : fieldValue .lsb ((List.range 8).map b.getLsbD) = b.toNat := by
  refine Nat.eq_of_testBit_eq fun k => ?_
  rw [testBit_fieldValue_lsb, BitVec.testBit_toNat]
  by_cases hk : k < 8
  · simp [hk]
  · rw [List.getD_eq_default _ _ (by simpa using hk), BitVec.getLsbD_of_ge _ _ (not_lt.mp hk)]

section
variable {s : State} {inp : Input} (hr : s.raced = []) (hord : s.ses.ord = .lsb)
include hr hord

theorem inputBit_eq_streamBit (i : Nat) : s.inputBit inp i = s.streamBit .lsb inp.base i := by
  rw [State.inputBit, hord, bitAt_of_no_race hr]

/-- The eight bits of an input byte are its value (20 R84). -/
theorem fieldValue_inputByte (j : Nat) :
    fieldValue .lsb ((List.range 8).map fun k => s.inputBit inp (8 * j + k)) = (s.hostByte (inp.base + j)).toNat := by
  rw [← fieldValue_lsb_byte]
  congr 1
  refine List.map_congr_left fun k hk => ?_
  have hk' := List.mem_range.mp hk
  rw [inputBit_eq_streamBit hr hord, State.streamBit, bitPos]
  congr 3 <;> omega

theorem inField_bit {c : Nat} (h : c < 8 * inp.len) :
    inField s inp 1 c = .got (s.streamBit .lsb inp.base c).toNat (c + 1) := by
  rw [inField_of_le h, hord, ← inputBit_eq_streamBit hr hord]
  rfl

theorem inField_twoBits {c : Nat} (h : c + 2 ≤ 8 * inp.len) : inField s inp 2 c =
    .got ((s.streamBit .lsb inp.base c).toNat + 2 * (s.streamBit .lsb inp.base (c + 1)).toNat) (c + 2) := by
  rw [inField_of_le h, hord, ← inputBit_eq_streamBit hr hord, ← inputBit_eq_streamBit hr hord]
  rfl

/-- A byte read at a byte boundary. -/
theorem inField_byte {j : Nat} (h : j < inp.len) :
    inField s inp 8 (8 * j) = .got (s.hostByte (inp.base + j)).toNat (8 * j + 8) := by
  rw [inField_of_le (by omega), hord, fieldValue_inputByte hr hord]

/-- A 16-bit value read at a byte boundary is little-endian (20 R83). -/
theorem inField_twoBytes {j : Nat} (h : j + 2 ≤ inp.len) : inField s inp 16 (8 * j) =
    .got ((s.hostByte (inp.base + j)).toNat + 256 * (s.hostByte (inp.base + j + 1)).toNat) (8 * (j + 2)) := by
  have hsplit : (List.range 16).map (fun k => s.inputBit inp (8 * j + k)) =
      (List.range 8).map (fun k => s.inputBit inp (8 * j + k)) ++
      (List.range 8).map (fun k => s.inputBit inp (8 * (j + 1) + k)) := by
    rw [show List.range 16 = List.range (8 + 8) from rfl, List.range_add, List.map_append, List.map_map]
    rfl
  rw [inField_of_le (by omega), hord, hsplit, fieldValue_lsb_append, fieldValue_inputByte hr hord,
    fieldValue_inputByte hr hord]
  simp [Nat.mul_add, Nat.add_assoc]

end

end Sys2Proof.Machine
end

section
/-! SUPPORT. Back-references (43 R256): the bytes that a copy appends, known before it starts, and the output after it. -/

namespace Sys2Proof.Machine

section
variable {s : State} {dist len : Nat}

/-- The bytes that a copy of `len` bytes from `dist` bytes back appends: the last `dist` bytes of the output, over and
over. -/
def copiedBytes (dist len : Nat) (s : State) : List Byte :=
  (List.range len).map fun k => s.memByte (s.ses.outBase.toNat + s.ses.outLen.toNat - dist + k % dist)

@[simp] theorem copiedBytes_length : (copiedBytes dist len s).length = len := by simp [copiedBytes]

theorem copiedBytes_getD {k : Nat} (hk : k < len) : (copiedBytes dist len s).getD k 0 =
    s.memByte (s.ses.outBase.toNat + s.ses.outLen.toNat - dist + k % dist) := by
  rw [List.getD_eq_getElem _ _ (by simpa using hk)]
  simp [copiedBytes]

theorem copiedBytes_take {n : Nat} (h : n ≤ len) : (copiedBytes dist len s).take n = copiedBytes dist n s := by
  rw [copiedBytes, ← List.map_take, List.take_range, Nat.min_eq_left h, copiedBytes]

/-- After the first byte, the copy goes on as a copy from the output that has grown by it. -/
theorem copiedBytes_succ {t : State} (hdist : 1 ≤ dist) (hle : dist ≤ s.ses.outLen.toNat)
    (hroom : s.ses.outLen.toNat < s.ses.outCap.toNat)
    (h : AppendsOutput [s.memByte (s.ses.outBase.toNat + s.ses.outLen.toNat - dist)] s t) :
    copiedBytes dist (len + 1) s =
      s.memByte (s.ses.outBase.toNat + s.ses.outLen.toNat - dist) :: copiedBytes dist len t := by
  obtain ⟨hbase, -, hlen⟩ := h.singleton_region hroom
  obtain ⟨hnew, hsame, -⟩ := h
  rw [copiedBytes, List.range_succ_eq_map, List.map_cons, Nat.zero_mod, Nat.add_zero, List.map_map, copiedBytes]
  congr 1
  refine List.map_congr_left fun k _ => ?_
  simp only [Function.comp_apply, hbase, hlen, Nat.succ_eq_add_one]
  rw [← Nat.mod_add_mod]
  rcases (show k % dist + 1 ≤ dist from Nat.mod_lt k hdist).eq_or_lt with hlast | hlt
  · rw [hlast, Nat.mod_self, Nat.add_zero, show s.ses.outBase.toNat + (s.ses.outLen.toNat + 1) - dist + k % dist =
      s.ses.outBase.toNat + s.ses.outLen.toNat + 0 by omega, hnew 0 Nat.one_pos]
    rfl
  · rw [Nat.mod_eq_of_lt hlt, hsame _ (by simp only [InRegion, List.length_singleton]; omega)]
    congr 1
    omega

theorem copyBack_succ (hr : s.raced = []) : copyBack dist (len + 1) s =
    (outByte (s.memByte (s.ses.outBase.toNat + s.ses.outLen.toNat - dist)) s).andThen (copyBack dist len) := by
  rw [copyBack, State.engByte_of_no_race hr]

theorem outByte_raced {b : Byte} {t : State} (hr : s.raced = []) (h : outByte b s = .ok t) : t.raced = [] := by
  rcases outByte_cases b s with ⟨-, h'⟩ | ⟨-, h'⟩ <;> rw [h'] at h <;> cases h
  simp [hr]

/-- A copy appends those bytes one by one, as far as the output has room. -/
theorem copyBack_eq_each (hr : s.raced = []) (hdist : 1 ≤ dist) (hle : dist ≤ s.ses.outLen.toNat)
    (hcap : s.ses.outLen.toNat ≤ s.ses.outCap.toNat) :
    copyBack dist len s = Run.each outByte (copiedBytes dist len s) s := by
  induction len generalizing s with
  | zero => rfl
  | succ len ih =>
    by_cases hfull : s.ses.outLen = s.ses.outCap
    · rw [copyBack_succ hr, outByte_full hfull, copiedBytes, List.range_succ_eq_map, List.map_cons, Run.each_cons,
        outByte_full hfull]
      rfl
    · have hroom : s.ses.outLen.toNat < s.ses.outCap.toNat :=
        lt_of_le_of_ne hcap fun e => hfull (BitVec.eq_of_toNat_eq e)
      obtain ⟨t, ht, happ, -, -⟩ := outByte_fits hroom (s.memByte (s.ses.outBase.toNat + s.ses.outLen.toNat - dist))
      obtain ⟨-, hcap', hlen⟩ := happ.singleton_region hroom
      rw [copyBack_succ hr, copiedBytes_succ hdist hle hroom happ, Run.each_cons, ht]
      exact ih (outByte_raced hr ht) (by omega) (by rw [hcap', hlen]; omega)

/-- Once the bytes stand in the output, each equals the one `dist` before it. -/
theorem AppendsOutput.copiesBack {t : State} (h : AppendsOutput (copiedBytes dist len s) s t) (hlz : t.lz = s.lz)
    (hdf : t.df = s.df) (hdist : 1 ≤ dist) (hle : dist ≤ s.ses.outLen.toNat) : CopiesBack len dist s t := by
  obtain ⟨hnew, hsame, ht⟩ := h
  rw [copiedBytes_length] at hnew hsame ht
  refine ⟨fun k hk => ?_, hsame, by rw [ht, hlz, hdf]⟩
  rw [hnew k hk, copiedBytes_getD hk]
  rcases Nat.lt_or_ge k dist with hlt | hge
  · rw [hsame _ (by simp only [InRegion]; omega), Nat.mod_eq_of_lt hlt]
    congr 1
    omega
  · rw [show s.ses.outBase.toNat + s.ses.outLen.toNat + k - dist =
      s.ses.outBase.toNat + s.ses.outLen.toNat + (k - dist) by omega, hnew _ (by omega), copiedBytes_getD (by omega),
      Nat.mod_eq_sub_mod hge]

end

/-- Settles O49: the copy is a list of bytes appended, the whole of it or the part that fits. -/
theorem backReferenceCopies : Obligations.BackReferenceCopies := by
  refine fun s len dist hr hdist hle => ⟨fun hfit => ?_, fun hcap hfull => ?_⟩
  · obtain ⟨t, ht, happ, hlz, hdf⟩ := outBytes_fits (bytes := copiedBytes dist len s) (by simpa using hfit)
    exact ⟨t, (copyBack_eq_each hr hdist hle (by omega)).trans ht, happ.copiesBack hlz hdf hdist hle⟩
  · obtain ⟨t, ht, hlz, hdf, happ⟩ := outBytes_full (bytes := copiedBytes dist len s) hcap (by simpa using hfull)
    rw [copiedBytes_take (by omega)] at happ
    exact ⟨t, (copyBack_eq_each hr hdist hle hcap).trans ht, happ.copiesBack hlz hdf hdist hle⟩

end Sys2Proof.Machine
end

section
/-! SUPPORT. The DEFLATE parse units by what they read: the block header (43 R246) and stored blocks (43 R247 to R249). -/

namespace Sys2Proof.Machine

/-! ### The reads of a unit (45 R345) -/

section
variable {α : Type} (s : State) (f : α → Nat → UnitResult)

@[simp] theorem Read.then_got (a : α) (c : Nat) : (Read.got a c).then s f = f a c := rfl
@[simp] theorem Read.then_needMore : Read.needMore.then s f = .needMore := rfl
@[simp] theorem Read.then_bad (e : Err) : (Read.bad e).then s f = .raised s e := rfl

end

section
variable {s : State} {inp : Input} {c : Nat}

theorem dflDecUnit_header (hp : s.df.p = .header) : dflDecUnit s inp c = headerUnit s inp c := by rw [dflDecUnit, hp]

theorem dflDecUnit_storedLen (hp : s.df.p = .storedLen) : dflDecUnit s inp c = storedLenUnit s inp c := by
  rw [dflDecUnit, hp]

theorem dflDecUnit_storedData (hp : s.df.p = .storedData) : dflDecUnit s inp c = storedDataUnit s inp c := by
  rw [dflDecUnit, hp]

/-! ### The end of a block (43 R249) -/

theorem endBlock_final (h : s.df.final = true) : endBlock s = sessionDone s := if_pos h

theorem endBlock_more (h : s.df.final = false) : endBlock s = s.setDf { s.df with p := .header } := if_neg (by simp [h])

/-! ### The block header (43 R246) -/

theorem headerUnit_lacks (h : 8 * inp.len < c + 3) : headerUnit s inp c = .needMore := by
  rw [headerUnit]
  by_cases hc : c + 1 ≤ 8 * inp.len
  · rw [inField_of_le hc, Read.then_got, inField_of_lt (by decide) (by omega), Read.then_needMore]
  · rw [inField_of_lt (by decide) (by omega), Read.then_needMore]

end

/-- Settles O47: three bits are lacking, or they are the final flag and one of the four block types. -/
theorem blockHeader : Obligations.BlockHeader := by
  refine fun s inp c hr hord hp => ?_
  rw [dflDecUnit_header hp]
  refine ⟨headerUnit_lacks, ?_⟩
  rintro hle f b0 b1 hf h0 h1
  have hflag : (f.toNat == 1) = f := by cases f <;> rfl
  rw [headerUnit, inField_bit hr hord (by omega), Read.then_got, inField_twoBits hr hord (by omega), Read.then_got,
    ← hf, ← h0, ← h1]
  simp only [hflag]
  refine ⟨?_, ?_, ?_, ?_⟩ <;> rintro rfl rfl <;> rfl

/-! ### The lengths of a stored block (43 R247) -/

/-- The complement of a 16-bit value. -/
theorem xor_ones_eq_sub {n : Nat} (h : n < 2 ^ 16) : n ^^^ 0xFFFF = 65535 - n := by
  have hnot := congrArg BitVec.toNat (BitVec.xor_allOnes (x := BitVec.ofNat 16 n))
  have hmod : n % 65536 = n := Nat.mod_eq_of_lt h
  simpa [hmod] using hnot

section
variable {s : State} {inp : Input} {c : Nat}

theorem storedLenUnit_lacks (h : inp.len < (c + 7) / 8 + 4) : storedLenUnit s inp c = .needMore := by
  rw [storedLenUnit, ceil8]
  by_cases hc : (c + 7) / 8 + 2 ≤ inp.len
  · rw [inField_of_le (by omega), Read.then_got, inField_of_lt (by decide) (by omega), Read.then_needMore]
  · rw [inField_of_lt (by decide) (by omega), Read.then_needMore]

section
variable {len nlen c1 c2 : Nat} (hlen : inField s inp 16 (ceil8 c) = .got len c1)
  (hnlen : inField s inp 16 c1 = .got nlen c2)
include hlen hnlen

theorem storedLenUnit_eq : storedLenUnit s inp c =
    if nlen ≠ 65535 - len then .raised s Err.storedLength
    else .completed (if len = 0 then endBlock (s.setDf { s.df with remaining := len })
      else s.setDf { s.df with remaining := len, p := .storedData }) c2 := by
  rw [storedLenUnit, hlen, Read.then_got, hnlen, Read.then_got, xor_ones_eq_sub (inField_lt hlen)]
  rfl

theorem storedLenUnit_mismatch (h : nlen ≠ 65535 - len) : storedLenUnit s inp c = .raised s Err.storedLength :=
  (storedLenUnit_eq hlen hnlen).trans (if_pos h)

theorem storedLenUnit_data (h : nlen = 65535 - len) (hpos : 0 < len) : storedLenUnit s inp c =
    .completed (s.setDf { s.df with remaining := len, p := .storedData }) c2 := by
  rw [storedLenUnit_eq hlen hnlen, if_neg (not_not.mpr h), if_neg hpos.ne']

theorem storedLenUnit_empty (h : nlen = 65535 - len) (h0 : len = 0) : storedLenUnit s inp c =
    .completed (endBlock (s.setDf { s.df with remaining := 0 })) c2 := by
  rw [storedLenUnit_eq hlen hnlen, if_neg (not_not.mpr h), if_pos h0, h0]

end

/-! ### The data of a stored block (43 R248) -/

/-- The bytes appended to the output, whatever becomes of the DEFLATE decoder's parse state. -/
theorem AppendsOutput.setDf {bytes : List Byte} {u : State} (h : AppendsOutput bytes s u) (df : DflDec) :
    AppendsOutput bytes s (u.setDf df) := by
  obtain ⟨hnew, hsame, hu⟩ := h
  exact ⟨hnew, hsame, by rw [hu]; rfl⟩

section
variable {b c1 : Nat} (hb : inField s inp 8 c = .got b c1)
include hb

theorem storedDataUnit_full (h : s.ses.outLen = s.ses.outCap) : storedDataUnit s inp c = .raised s Err.outputFull := by
  rw [storedDataUnit, hb, Read.then_got, outByte_full h]
  rfl

/-- A byte with room for it is moved to the output and counted; the last one ends the block. -/
theorem storedDataUnit_fits (h : s.ses.outLen.toNat < s.ses.outCap.toNat) :
    ∃ t, storedDataUnit s inp c = .completed (if s.df.remaining - 1 = 0 then endBlock t else t) c1 ∧
      AppendsOutput [BitVec.ofNat 8 b] s t ∧ t.lz = s.lz ∧ t.df = { s.df with remaining := s.df.remaining - 1 } := by
  obtain ⟨u, hu, happ, hlz, hdf⟩ := outByte_fits h (BitVec.ofNat 8 b)
  refine ⟨u.setDf { s.df with remaining := s.df.remaining - 1 }, ?_, happ.setDf _, hlz, rfl⟩
  rw [storedDataUnit, hb, Read.then_got, hu, Run.andThen_ok, hdf]
  rfl

end

end

/-- Settles O48: the two lengths, then one byte after another, and the block's end. -/
theorem storedBlock_units : Obligations.StoredBlock := by
  refine ⟨?_, fun s inp c hp hlack => ?_, fun s inp j hr hord hp hrem hj => ?_⟩
  · rintro s inp c a len nlen hr hord hp rfl hlen hnlen
    rw [dflDecUnit_storedLen hp]
    refine ⟨storedLenUnit_lacks, fun hle => ?_⟩
    have hread := inField_twoBytes (inp := inp) hr hord (j := (c + 7) / 8) (by omega)
    have hread' := inField_twoBytes (inp := inp) hr hord (j := (c + 7) / 8 + 2) (by omega)
    rw [← hlen] at hread
    replace hread' : inField s inp 16 (8 * ((c + 7) / 8 + 2)) = .got nlen (8 * ((c + 7) / 8 + 4)) := hnlen ▸ hread'
    refine ⟨storedLenUnit_mismatch hread hread', storedLenUnit_data hread hread', fun hn h0 hfin => ?_,
      fun hn h0 hfin => ?_⟩
    · exact (storedLenUnit_empty hread hread' hn h0).trans (congrArg (UnitResult.completed · _) (endBlock_more hfin))
    · exact (storedLenUnit_empty hread hread' hn h0).trans (congrArg (UnitResult.completed · _) (endBlock_final hfin))
  · rw [dflDecUnit_storedData hp, storedDataUnit, inField_of_lt (by decide) hlack, Read.then_needMore]
  · have hbyte := inField_byte hr hord hj
    rw [dflDecUnit_storedData hp]
    refine ⟨storedDataUnit_full hbyte, fun hroom => ?_⟩
    obtain ⟨t, ht, happ, hlz, hdf⟩ := storedDataUnit_fits hbyte hroom
    rw [BitVec.ofNat_toNat, BitVec.setWidth_eq] at happ
    refine ⟨t, _, ht, happ, hlz, hdf, fun h => if_neg (by omega), fun h hfin => ?_, fun h hfin => ?_⟩
    · rw [if_pos (by omega), endBlock_more (by rw [hdf]; exact hfin)]
      rfl
    · rw [if_pos (by omega), endBlock_final (by rw [hdf]; exact hfin)]
      rfl

end Sys2Proof.Machine
end

section
/-! SUPPORT. The BODY unit by what it reads (43 R253 to R255), and the two 5-bit patterns of a fixed block that are no distance code (43 R254). -/

namespace Sys2Proof.Machine

/-! ### The unit by its reads (43 R253, R254) -/

/-- The unit from its distance symbol on, once the length `len` is read (43 R253). -/
def distancePart (s : State) (inp : Input) (len c : Nat) : UnitResult :=
  (decodeSym s inp s.df.dist c).then s fun d c' =>
    if 30 ≤ d then .raised s Err.distSymbol
    else (inField s inp (distExtra d) c').then s fun f c'' =>
      if s.ses.outLen.toNat < distBase d + f then .raised s Err.backReference
      else (copyBack (distBase d + f) len s).endUnit c''

section
variable {s : State} {inp : Input} {c : Nat}

theorem dflDecUnit_body (hp : s.df.p = .body) : dflDecUnit s inp c = bodyUnit s inp c := by rw [dflDecUnit, hp]

section
variable {sym c1 : Nat} (h : decodeSym s inp s.df.lit c = .got sym c1)
include h

theorem bodyUnit_literal (hsym : sym ≤ 255) : bodyUnit s inp c = (outByte (BitVec.ofNat 8 sym) s).endUnit c1 := by
  rw [bodyUnit, h, Read.then_got, if_pos hsym]

theorem bodyUnit_endOfBlock (hsym : sym = 256) : bodyUnit s inp c = .completed (endBlock s) c1 := by
  rw [bodyUnit, h, Read.then_got, if_neg (by omega), if_pos hsym]

theorem bodyUnit_undefined (hsym : 286 ≤ sym) : bodyUnit s inp c = .raised s Err.litSymbol := by
  rw [bodyUnit, h, Read.then_got, if_neg (by omega), if_neg (by omega), if_pos hsym]

theorem bodyUnit_length (hlo : 257 ≤ sym) (hhi : sym ≤ 285) : bodyUnit s inp c =
    (inField s inp (lenExtra sym) c1).then s fun e c2 => distancePart s inp (lenBase sym + e) c2 := by
  rw [bodyUnit, h, Read.then_got, if_neg (by omega), if_neg (by omega), if_neg (by omega)]
  rfl

end

section
variable {d c1 len : Nat} (hd : decodeSym s inp s.df.dist c = .got d c1)
include hd

theorem distancePart_undefined (h : 30 ≤ d) : distancePart s inp len c = .raised s Err.distSymbol := by
  rw [distancePart, hd, Read.then_got, if_pos h]

theorem distancePart_lacksBits (h : d ≤ 29) (hf : inField s inp (distExtra d) c1 = .needMore) :
    distancePart s inp len c = .needMore := by
  rw [distancePart, hd, Read.then_got, if_neg (by omega), hf, Read.then_needMore]

section
variable {f c2 : Nat} (h : d ≤ 29) (hf : inField s inp (distExtra d) c1 = .got f c2)
include h hf

theorem distancePart_tooFar (hfar : s.ses.outLen.toNat < distBase d + f) :
    distancePart s inp len c = .raised s Err.backReference := by
  rw [distancePart, hd, Read.then_got, if_neg (by omega), hf, Read.then_got, if_pos hfar]

theorem distancePart_copies (hnear : distBase d + f ≤ s.ses.outLen.toNat) :
    distancePart s inp len c = (copyBack (distBase d + f) len s).endUnit c2 := by
  rw [distancePart, hd, Read.then_got, if_neg (by omega), hf, Read.then_got, if_neg hnear.not_gt]

end

end

end

/-! ### The patterns of a fixed block that are no distance code (43 R254) -/

theorem fixedDist_maxw : fixedDist.maxw = 5 := by
  obtain ⟨hw, -, htable⟩ := canon_eq_ok_iff.mp canon_fixedDist
  rw [htable, tableOf_maxw, canon_widths hw]
  rfl

/-- Four 1 bits begin no code of the fixed distance table: with a fifth bit they are 30 or 31. -/
theorem lookup_fixedDist_ones {bit : Nat → Bool} (hones : ∀ k, k < 4 → bit k = true) (m : Nat) :
    fixedDist.lookup (firstBits bit m) m = if 5 < m then .malformed else .needMore := by
  rw [← fixedDist_maxw]
  refine lookup_of_not_found fun a k h => ?_
  obtain ⟨-, -, -, hsym, -⟩ := lookup_firstBits_eq_found_iff.mp h
  obtain ⟨ha, hwidth, hcode⟩ := symbolOf_eq_some hsym
  rw [fixedDist_sized.1] at ha
  rw [fixedDist_entry ha] at hwidth hcode
  obtain rfl : 5 = k := hwidth
  have hfour : firstBits bit 4 = 15 := firstBits_congr (bit' := fun _ => true) hones
  have hfive : a = 2 * 15 + (bit 4).toNat := by rw [← hfour, ← firstBits_succ]; exact hcode
  omega

theorem decodeSym_fixedDist_ones {s : State} {inp : Input} {c : Nat} (hr : s.raced = []) (hord : s.ses.ord = .lsb)
    (hones : ∀ k, k < 4 → s.streamBit .lsb inp.base (c + k) = true) : decodeSym s inp fixedDist c =
      if 8 * inp.len < c + 6 then .needMore else .bad Err.noCode := by
  have hbits : ∀ k, k < 4 → s.inputBit inp (c + k) = true := fun k hk => by
    rw [inputBit_eq_streamBit hr hord, hones k hk]
  rw [decodeSym_eq_lookup (m := min (8 * inp.len - c) 6) (by rw [fixedDist_maxw]), lookup_fixedDist_ones hbits]
  split_ifs
  · omega
  · rfl
  · rfl
  · omega

/-- Settles O50: the unit by its first symbol and, for a back-reference, by each further read; and the patterns 11110
and 11111 of a fixed block. -/
theorem blockBody : Obligations.BlockBody := by
  refine ⟨fun s inp c hp => ?_, fun s inp c sym c1 hp h => ?_, fun s inp c hr hord hones => ?_⟩
  · rw [dflDecUnit_body hp, bodyUnit]
    exact ⟨fun h => by rw [h, Read.then_needMore], fun e h => ⟨decodeSym_bad h, by rw [h, Read.then_bad]⟩⟩
  · rw [dflDecUnit_body hp]
    refine ⟨fun hsym hroom => ?_, fun hsym hfull => ?_, fun hsym hfin => ?_, fun hsym hfin => ?_, bodyUnit_undefined h,
      fun hlo hhi => ?_⟩
    · obtain ⟨t, ht, happ, hlz, hdf⟩ := outByte_fits hroom (BitVec.ofNat 8 sym)
      exact ⟨t, by rw [bodyUnit_literal h hsym, ht]; rfl, happ, hlz, hdf⟩
    · rw [bodyUnit_literal h hsym, outByte_full hfull]
      rfl
    · rw [bodyUnit_endOfBlock h hsym, endBlock_more hfin]
      rfl
    · rw [bodyUnit_endOfBlock h hsym, endBlock_final hfin]
      rfl
    · rw [bodyUnit_length h hlo hhi]
      refine ⟨fun he => by rw [he, Read.then_needMore], fun e c2 he => ?_⟩
      rw [he, Read.then_got]
      refine ⟨fun hd => by rw [distancePart, hd, Read.then_needMore],
        fun e' hd => ⟨decodeSym_bad hd, by rw [distancePart, hd, Read.then_bad]⟩,
        fun d c3 hd => ⟨distancePart_undefined hd, fun h29 => ⟨distancePart_lacksBits hd h29, fun f c4 hf =>
          ⟨distancePart_tooFar hd h29 hf, fun hnear => ?_⟩⟩⟩⟩
      rw [distancePart_copies hd h29 hf hnear]
      exact ⟨fun t ht => by rw [ht]; rfl, fun t ht => by rw [ht]; rfl⟩
  · rw [decodeSym_fixedDist_ones hr hord hones]
    exact ⟨fun hlack => if_pos hlack, fun hle => if_neg hle.not_gt⟩

end Sys2Proof.Machine
end

section
/-! SUPPORT. DFL_ENC_START: its checks in their order, and the session it opens (44 R290; 45 R341). -/

namespace Sys2Proof.Machine

section
variable {s : State} {mode : Nat}

theorem dflEncStartEffects_blockMode (h : 2 < mode) : dflEncStartEffects mode s = .fail s Err.blockMode := if_pos h

section
variable (hmode : mode ≤ 2)
include hmode

theorem dflEncStartEffects_misfit (h : memSize s.par < s.arg0 + s.arg1 ∨ memSize s.par < s.arg2 + s.arg3) :
    dflEncStartEffects mode s = .fail s Err.addressRange := by
  rw [dflEncStartEffects, if_neg hmode.not_gt]
  by_cases hout : s.arg0 + s.arg1 ≤ memSize s.par
  · rw [if_neg (inRange_fits hout), if_pos (inRange_misfit (h.resolve_left hout.not_gt))]
  · exact if_pos (inRange_misfit (not_le.mp hout))

variable (hout : s.arg0 + s.arg1 ≤ memSize s.par) (hhist : s.arg2 + s.arg3 ≤ memSize s.par)
include hout hhist

theorem dflEncStartEffects_overlap (h : SharesByte s.arg0 s.arg1 s.arg2 s.arg3) :
    dflEncStartEffects mode s = .fail s Err.overlap := by
  rw [dflEncStartEffects, if_neg hmode.not_gt, if_neg (inRange_fits hout), if_neg (inRange_fits hhist),
    if_pos ((shareByte_iff _ _ _ _).mpr h)]

theorem dflEncStartEffects_opens (h : ¬ SharesByte s.arg0 s.arg1 s.arg2 s.arg3) : dflEncStartEffects mode s =
    .ok { sessionStart .dflEnc .lsb 0 s.larg.a0 s.larg.a1 mode s with ses := { Session.released with
      mode := .dflEnc, bmode := BitVec.ofNat 2 mode, sstate := .active, outBase := s.larg.a0,
      outCap := s.larg.a1, histBase := s.larg.a2, histCap := s.larg.a3 } } := by
  rw [dflEncStartEffects, if_neg hmode.not_gt, if_neg (inRange_fits hout), if_neg (inRange_fits hhist),
    if_neg (mt (shareByte_iff _ _ _ _).mp h)]
  rfl

end

end

/-- Settles O36: the checks in their order, and the session that the start opens. -/
theorem dflEncStartOpensAnEncoder : Obligations.DflEncStartOpensAnEncoder := by
  refine fun mode s => ⟨fun h => completes_refused (dflEncStartEffects_blockMode h),
    fun hmode h => completes_refused (dflEncStartEffects_misfit hmode h), fun hmode hout hhist =>
    ⟨fun h => completes_refused (dflEncStartEffects_overlap hmode hout hhist h),
    fun h => completes_ok (dflEncStartEffects_opens (s := startCommand s) hmode hout hhist h) ?_⟩⟩
  obtain ⟨hend, hres, honly⟩ := finishCommand_onlySession (s := s)
    (u := { sessionStart .dflEnc .lsb 0 s.larg.a0 s.larg.a1 mode (startCommand s) with ses := { Session.released with
      mode := .dflEnc, bmode := BitVec.ofNat 2 mode, sstate := .active, outBase := s.larg.a0,
      outCap := s.larg.a1, histBase := s.larg.a2, histCap := s.larg.a3 } }) rfl
  exact ⟨hend, hres, honly,
    (WritesIn.of_same (s := startCommand s) (HostSideSame.refl _) rfl rfl rfl rfl).memorySame, rfl⟩

end Sys2Proof.Machine
end

section
/-! SUPPORT. The length and distance symbols (43 R241, R242; 44 R295): in a table of rising bases whose extra bits reach the next base, the largest base up to a value leaves a rest that fits. -/

namespace Sys2Proof.Machine

/-! ### Tables of bases -/

/-- The bases rise, and the extra bits of each row reach the next row's base, those of the last row `top`. -/
structure BasesCover (table : List (Nat × Nat)) (top : Nat) : Prop where
  rising : (table.map Prod.fst).Pairwise (· < ·)
  reach : ∀ i, i < table.length →
    (table.getD (i + 1) (top, 0)).1 ≤ (table.getD i (0, 0)).1 + 2 ^ (table.getD i (0, 0)).2

/-- In a table of rising bases those up to a value are its first ones. -/
theorem base_le_iff {table : List (Nat × Nat)} (h : (table.map Prod.fst).Pairwise (· < ·)) {i v : Nat}
    (hi : i < table.length) :
    (table.getD i (0, 0)).1 ≤ v ↔ i < (table.takeWhile fun r => r.1 ≤ v).length := by
  induction table generalizing i with
  | nil => cases hi
  | cons r rest ih =>
    obtain ⟨hfirst, hrest⟩ := List.pairwise_cons.mp h
    by_cases hr : r.1 ≤ v
    · rw [List.takeWhile_cons_of_pos (by simpa using hr)]
      cases i with
      | zero => simpa using hr
      | succ i => simpa using ih hrest (Nat.lt_of_succ_lt_succ hi)
    · rw [List.takeWhile_cons_of_neg (by simpa using hr)]
      cases i with
      | zero => simpa using hr
      | succ i =>
        have hi' : i < rest.length := Nat.lt_of_succ_lt_succ hi
        have hlt := hfirst rest[i].1 (List.mem_map_of_mem (List.getElem_mem hi'))
        simp only [List.getD_cons_succ, List.getD_eq_getElem rest (0, 0) hi', List.length_nil, Nat.not_lt_zero, iff_false]
        omega

/-- The last base up to a value that the table covers: it is the largest, and the rest fits its extra bits. -/
theorem BasesCover.lastBase_spec {table : List (Nat × Nat)} {top v : Nat} (h : BasesCover table top)
    (hne : 0 < table.length) (hlo : (table.getD 0 (0, 0)).1 ≤ v) (hhi : v < top) :
    lastBase table v < table.length ∧ (table.getD (lastBase table v) (0, 0)).1 ≤ v ∧
    v - (table.getD (lastBase table v) (0, 0)).1 < 2 ^ (table.getD (lastBase table v) (0, 0)).2 ∧
    ∀ i, i < table.length → (table.getD i (0, 0)).1 ≤ v → i ≤ lastBase table v := by
  have hpos := (base_le_iff h.rising hne).mp hlo
  have hlen := (List.takeWhile_sublist (l := table) fun r => decide (r.1 ≤ v)).length_le
  have hj : lastBase table v + 1 = (table.takeWhile fun r => r.1 ≤ v).length := by rw [lastBase]; omega
  have hlt : lastBase table v < table.length := by omega
  have hle : (table.getD (lastBase table v) (0, 0)).1 ≤ v := (base_le_iff h.rising hlt).mpr (by omega)
  have hnext : v < (table.getD (lastBase table v + 1) (top, 0)).1 := by
    by_cases hend : lastBase table v + 1 < table.length
    · have hover := mt (base_le_iff (v := v) h.rising hend).mp (by omega)
      rw [List.getD_eq_getElem table _ hend] at hover ⊢
      exact not_le.mp hover
    · rw [List.getD_eq_default table _ (not_lt.mp hend)]
      exact hhi
  have hreach := h.reach _ hlt
  refine ⟨hlt, hle, by omega, fun i hi hv => ?_⟩
  have := (base_le_iff h.rising hi).mp hv
  omega

/-! ### The two tables (43 R241, R242) -/

theorem lengthTable_covers : BasesCover (lengthTable.take 28) 258 := ⟨by decide, by decide⟩

theorem distanceTable_covers : BasesCover distanceTable 32769 := ⟨by decide, by decide⟩

theorem lengthTable_take_getD {k : Nat} (hk : k < 28) :
    (lengthTable.take 28).getD k (0, 0) = lengthTable.getD (257 + k - 257) (0, 0) := by
  rw [Nat.add_sub_cancel_left, List.getD_eq_getElem?_getD, List.getElem?_take_of_lt hk, List.getD_eq_getElem?_getD]

/-! ### The symbols (44 R295) -/

theorem lenSym_largest {l : Nat} (hlo : 3 ≤ l) (hhi : l ≤ 257) :
    257 ≤ (lenSym l).1 ∧ (lenSym l).1 ≤ 284 ∧ lenBase (lenSym l).1 + (lenSym l).2 = l ∧
    (lenSym l).2 < 2 ^ lenExtra (lenSym l).1 ∧ ∀ s, 257 ≤ s → s ≤ 284 → lenBase s ≤ l → s ≤ (lenSym l).1 := by
  obtain ⟨hlt, hle, hfit, hmax⟩ := lengthTable_covers.lastBase_spec (by decide) hlo (Nat.lt_succ_of_le hhi)
  rw [lengthTable_take_getD hlt] at hle hfit
  rw [lenSym, if_neg (by omega)]
  refine ⟨Nat.le_add_right _ _, Nat.add_le_add_left (Nat.le_of_lt_succ hlt) 257, Nat.add_sub_cancel' hle, hfit,
    fun s hs hs' hbase => ?_⟩
  obtain ⟨k, rfl⟩ := Nat.exists_eq_add_of_le hs
  have hk : k < 28 := by omega
  exact Nat.add_le_add_left (hmax k hk (by rw [lengthTable_take_getD hk]; exact hbase)) 257

theorem distSym_largest {d : Nat} (hlo : 1 ≤ d) (hhi : d ≤ 32768) :
    distBase (distSym d).1 + (distSym d).2 = d ∧ (distSym d).2 < 2 ^ distExtra (distSym d).1 ∧
    (distSym d).1 ≤ 29 ∧ ∀ j, j ≤ 29 → distBase j ≤ d → j ≤ (distSym d).1 := by
  obtain ⟨hlt, hle, hfit, hmax⟩ := distanceTable_covers.lastBase_spec (by decide) hlo (Nat.lt_succ_of_le hhi)
  exact ⟨Nat.add_sub_cancel' hle, hfit, Nat.le_of_lt_succ hlt, fun j hj => hmax j (Nat.lt_succ_of_le hj)⟩

/-- Settles O31: the tables row by row, and the largest base of a table that covers the values. -/
theorem lengthAndDistanceSymbols : Obligations.LengthAndDistanceSymbols := by
  refine ⟨by decide, fun l hlo hhi => ?_, fun d => distSym_largest⟩
  by_cases h : l = 258
  · subst h
    exact ⟨rfl, by decide, fun _ => rfl, fun hle => absurd hle (by decide)⟩
  · obtain ⟨hge, hle, hsum, hfit, hmax⟩ := lenSym_largest hlo (by omega)
    exact ⟨hsum, hfit, fun h' => absurd h' h, fun _ => ⟨hge, hle, hmax⟩⟩

end Sys2Proof.Machine
end

section
/-! SUPPORT. The LZ77 matcher (44 R292): the length of the match at a distance, the search for the longest and nearest one, and LZ77_MATCH. -/

namespace Sys2Proof.Machine

/-! ### The match at one distance -/

section
variable {s : State} {base p d : Nat}

theorem MatchAt.mono {l m : Nat} (h : MatchAt s base p d l) (hm : m ≤ l) : MatchAt s base p d m :=
  fun k hk => h k (hk.trans_le hm)

theorem matchAt_succ_iff {l : Nat} : MatchAt s base p d (l + 1) ↔
    MatchAt s base p d l ∧ s.hostByte (base + p - d + l) = s.hostByte (base + p + l) := by
  simp only [MatchAt, Nat.lt_succ_iff_lt_or_eq, or_imp, forall_and, forall_eq]

theorem matchLength_le (fuel l : Nat) : matchLength s base p d fuel l ≤ l + fuel := by
  induction fuel generalizing l with
  | zero => exact le_rfl
  | succ fuel ih =>
    rw [matchLength]
    split_ifs
    · have := ih (l + 1)
      omega
    · exact Nat.le_add_right _ _

/-- From a match of l bytes on, the matcher finds the longest match of at most l + fuel bytes. -/
theorem matchAt_iff_le_matchLength (hr : s.raced = []) {fuel l m : Nat} (hl : MatchAt s base p d l) (hm : m ≤ l + fuel) :
    MatchAt s base p d m ↔ m ≤ matchLength s base p d fuel l := by
  induction fuel generalizing l with
  | zero => exact ⟨fun _ => hm, hl.mono⟩
  | succ fuel ih =>
    rw [matchLength, engByte_eq_hostByte hr, engByte_eq_hostByte hr]
    split_ifs with heq
    · exact ih (matchAt_succ_iff.mpr ⟨hl, heq⟩) (by omega)
    · refine ⟨fun h => ?_, hl.mono⟩
      by_contra hlt
      exact heq (matchAt_succ_iff.mp (h.mono (not_le.mp hlt))).2

end

/-! ### The search over the distances -/

/-- Of the lengths `len` at the distances 1 to `far`, `l` is the largest and, unless it is 0, `d` the first distance with
it. -/
structure BestMatch (len : Nat → Nat) (far l d : Nat) : Prop where
  longest : ∀ d', 1 ≤ d' → d' ≤ far → len d' ≤ l
  nearest : ∀ d', 1 ≤ d' → d' < d → len d' < l
  found : 0 < l → 1 ≤ d ∧ d ≤ far ∧ len d = l

section
variable {len : Nat → Nat} {far l d : Nat} (h : BestMatch len far l d)
include h

/-- A longer match at the next distance replaces the best one. -/
theorem BestMatch.longer (hlt : l < len (far + 1)) : BestMatch len (far + 1) (len (far + 1)) (far + 1) where
  longest d' h1 hd' := by
    rcases Nat.lt_succ_iff_lt_or_eq.mp (Nat.lt_succ_of_le hd') with hd' | rfl
    · exact (h.longest d' h1 (by omega)).trans hlt.le
    · exact le_rfl
  nearest d' h1 hd' := (h.longest d' h1 (by omega)).trans_lt hlt
  found _ := ⟨Nat.succ_pos _, le_rfl, rfl⟩

/-- Distances that give no longer match leave the best one as it is. -/
theorem BestMatch.extend {far' : Nat} (hfar : far ≤ far') (hle : ∀ d', far < d' → d' ≤ far' → len d' ≤ l) :
    BestMatch len far' l d where
  longest d' h1 hd' := by
    rcases Nat.lt_or_ge far d' with hgt | hge
    · exact hle d' hgt hd'
    · exact h.longest d' h1 hge
  nearest := h.nearest
  found hl := (h.found hl).imp id (And.imp_left hfar.trans')

end

/-- The search goes on from the best match of the distances up to `far`; it stops early only at the maximal length. -/
theorem matchSearch_bestMatch {s : State} {base p maxlen fuel far l d : Nat}
    (h : BestMatch (fun d => matchLength s base p d maxlen 0) far l d) :
    BestMatch (fun d => matchLength s base p d maxlen 0) (far + fuel)
      (matchSearch s base p maxlen fuel (far + 1) l d).1 (matchSearch s base p maxlen fuel (far + 1) l d).2 := by
  induction fuel generalizing far l d with
  | zero => exact h
  | succ fuel ih =>
    rw [matchSearch]
    split_ifs with hlonger hmax
    · refine (h.longer hlonger).extend (by omega) fun d' _ _ => ?_
      have := matchLength_le (s := s) (base := base) (p := p) (d := d') maxlen 0
      omega
    · rw [← Nat.add_assoc, Nat.add_right_comm]
      exact ih (h.longer hlonger)
    · rw [← Nat.add_assoc, Nat.add_right_comm]
      refine ih (h.extend (Nat.le_succ far) fun d' hlo hhi => ?_)
      obtain rfl : d' = far + 1 := by omega
      exact not_lt.mp hlonger

/-- The matcher answers the longest match of at least 3 bytes, the nearest of equal ones, or (0, 0). -/
theorem lz77MatchAt_longestMatch {s : State} (hr : s.raced = []) (base p n : Nat) :
    LongestMatch s base p n (lz77MatchAt s base p n).1 (lz77MatchAt s base p n).2 := by
  generalize hmax : min Config.lz77MaxMatch (n - p) = maxlen
  have hlen {d m : Nat} (hm : m ≤ maxlen) : MatchAt s base p d m ↔ m ≤ matchLength s base p d maxlen 0 :=
    matchAt_iff_le_matchLength hr (fun k hk => absurd hk (Nat.not_lt_zero k)) (by omega)
  obtain ⟨hlongest, hnearest, hfound⟩ := matchSearch_bestMatch (s := s) (base := base) (p := p) (maxlen := maxlen)
    (fuel := min p Config.lz77Window) (far := 0) (l := 0) (d := 0) ⟨by omega, by omega, by omega⟩
  simp only [Nat.zero_add] at hlongest hnearest hfound
  simp only [LongestMatch, lz77MatchAt, hmax]
  split_ifs with hshort hnone
  · exact .inl ⟨rfl, rfl, fun d' l' _ _ hlo hhi _ => hshort.not_ge (hlo.trans hhi)⟩
  · exact .inl ⟨rfl, rfl, fun d' l' h1 hfar hlo hhi hmatch =>
      hnone.not_ge (hlo.trans (((hlen hhi).mp hmatch).trans (hlongest d' h1 hfar)))⟩
  · generalize matchSearch s base p maxlen (min p Config.lz77Window) 1 0 0 = best at *
    have hmin : Config.lz77MinMatch ≤ best.1 := not_lt.mp hnone
    obtain ⟨hd1, hfar, hl⟩ := hfound ((by decide : 0 < Config.lz77MinMatch).trans_le hmin)
    have hle : best.1 ≤ maxlen := by
      simpa [hl] using matchLength_le (s := s) (base := base) (p := p) (d := best.2) maxlen 0
    exact .inr ⟨hmin, hle, hd1, hfar, (hlen hle).mpr hl.ge,
      fun d' l' h1 hfar' hhi hmatch => ((hlen hhi).mp hmatch).trans (hlongest d' h1 hfar'),
      fun d' h1 hd' hmatch => (hnearest d' h1 hd').not_ge ((hlen hle).mp hmatch)⟩

/-! ### LZ77_MATCH -/

section
variable {s : State}

theorem lz77MatchEffects_position (h : s.arg2 < s.arg1) : lz77MatchEffects s = .fail s Err.matchPosition := if_pos h

theorem lz77MatchEffects_misfit (h : s.arg1 ≤ s.arg2) (hin : memSize s.par < s.arg0 + s.arg2) :
    lz77MatchEffects s = .fail s Err.addressRange :=
  (if_neg h.not_gt).trans (if_pos (inRange_misfit hin))

theorem lz77MatchEffects_answers (h : s.arg1 ≤ s.arg2) (hin : s.arg0 + s.arg2 ≤ memSize s.par) :
    lz77MatchEffects s =
      .ok (s.setResults (lz77MatchAt s s.arg0 s.arg1 s.arg2).1 (lz77MatchAt s s.arg0 s.arg1 s.arg2).2 0) :=
  (if_neg h.not_gt).trans (if_neg (inRange_fits hin))

end

/-- What the matcher answers once the command has started, in terms of the state before it. -/
theorem lz77MatchAt_startCommand_longestMatch {s : State} (hr : s.raced = []) (base p n : Nat) :
    LongestMatch s base p n (lz77MatchAt (startCommand s) base p n).1 (lz77MatchAt (startCommand s) base p n).2 := by
  have h := lz77MatchAt_longestMatch (s := startCommand s) (by rw [startCommand_raced, hr, clearWritten_nil]) base p n
  simpa only [LongestMatch, MatchAt, hostByte_startCommand] using h

/-- Settles O30: the checks in their order, and the answer of the search over all distances. -/
theorem lz77MatchIsLongestAndNearest : Obligations.Lz77MatchIsLongestAndNearest := by
  refine fun s => ⟨fun h => completes_refused (lz77MatchEffects_position h),
    fun h hin => completes_refused (lz77MatchEffects_misfit h hin), fun h hin => ?_⟩
  obtain ⟨hend, honly, hres⟩ := finishCommand_onlyResults s (lz77MatchAt (startCommand s) s.arg0 s.arg1 s.arg2).1
    (lz77MatchAt (startCommand s) s.arg0 s.arg1 s.arg2).2 0
  exact ⟨_, _, completes_ok (lz77MatchEffects_answers (s := startCommand s) h hin)
    ⟨hend, honly, hres, fun hr => lz77MatchAt_startCommand_longestMatch hr _ _ _⟩⟩

end Sys2Proof.Machine
end

section
/-! SUPPORT. The run-length coding of widths (44 R302): it takes the longest run at the front each time, and its symbols expand to the widths again. -/

namespace Sys2Proof.Machine

/-! ### The run at the front -/

/-- A list that begins with `v` is a run of `v` as long as it can be, and what comes after it. -/
theorem eq_run_append (v : Nat) (rest : List Nat) : ∃ after, after.head? ≠ some v ∧
    v :: rest = List.replicate (1 + runLength v rest) v ++ after := by
  induction rest with
  | nil => exact ⟨[], by simp, rfl⟩
  | cons w rest ih =>
    by_cases hw : w = v
    · subst hw
      obtain ⟨after, hafter, heq⟩ := ih
      refine ⟨after, hafter, ?_⟩
      have hrun : runLength w (w :: rest) = 1 + runLength w rest := by simp [runLength, Nat.add_comm]
      rw [hrun, Nat.add_comm, List.replicate_succ, List.cons_append, ← heq]
    · have hrun : runLength v (w :: rest) = 0 := by simp [runLength, hw]
      exact ⟨w :: rest, by simpa using hw, by rw [hrun]; rfl⟩

theorem drop_run {k n : Nat} (h : k ≤ n) (v : Nat) (after : List Nat) :
    (List.replicate n v ++ after).drop k = List.replicate (n - k) v ++ after := by
  rw [List.drop_append_of_le_length (by simpa using h), List.drop_replicate]

/-- A run in two parts. -/
theorem replicate_append_run {k n : Nat} (h : k ≤ n) (v : Nat) (after : List Nat) :
    List.replicate k v ++ (List.replicate (n - k) v ++ after) = List.replicate n v ++ after := by
  rw [← List.append_assoc, List.replicate_append_replicate, Nat.add_sub_cancel' h]

theorem mem_run_of_mem_shorter {k n v w : Nat} {after : List Nat} (h : w ∈ List.replicate (n - k) v ++ after) :
    w ∈ List.replicate n v ++ after := by
  rcases Nat.le_total k n with hk | hk
  · rw [← replicate_append_run hk]
    exact List.mem_append_right _ h
  · rw [Nat.sub_eq_zero_of_le hk] at h
    exact List.mem_append_right _ h

/-! ### The runs of the coding (44 R302) -/

theorem repeatRuns_repeatsOf (v : Nat) {fuel rem : Nat} (h : rem ≤ fuel) : RepeatsOf v rem (repeatRuns v fuel rem) := by
  induction fuel generalizing rem with
  | zero => exact .few rem (by omega)
  | succ fuel ih =>
    rw [repeatRuns]
    split_ifs with h3
    · exact .many rem _ h3 (ih (by omega))
    · exact .few rem (not_le.mp h3)

theorem rleFrom_runsOf {fuel : Nat} {ws : List Nat} (h : ws.length ≤ fuel) : RunsOf ws (rleFrom fuel ws) := by
  induction fuel generalizing ws with
  | zero =>
    obtain rfl := List.length_eq_zero_iff.mp (Nat.le_zero.mp h)
    exact .nil
  | succ fuel ih =>
    cases ws with
    | nil => exact .nil
    | cons v rest =>
      obtain ⟨after, hafter, hrun⟩ := eq_run_append v rest
      have hpos : 1 ≤ 1 + runLength v rest := Nat.le_add_right 1 _
      simp only [rleFrom]
      generalize 1 + runLength v rest = run at *
      have hcoded {k : Nat} (hk : 1 ≤ k) (hle : k ≤ run) :
          RunsOf (List.replicate (run - k) v ++ after) (rleFrom fuel ((v :: rest).drop k)) := by
        rw [← drop_run hle v after, ← hrun]
        exact ih (by simp only [List.length_drop, List.length_cons] at h ⊢; omega)
      have hafter_coded : RunsOf after (rleFrom fuel ((v :: rest).drop run)) := by simpa using hcoded hpos le_rfl
      by_cases hv : v = 0
      · subst hv
        rw [if_pos rfl]
        split_ifs with h11 h3
        · have hruns := RunsOf.manyZeros run after _ h11 hafter (hcoded (by omega) (min_le_left run 138))
          rwa [← hrun] at hruns
        · have hruns := RunsOf.someZeros run after _ h3 (by omega) hafter hafter_coded
          rwa [← hrun] at hruns
        · have hruns := RunsOf.oneZero run after _ hpos (by omega) hafter (hcoded le_rfl hpos)
          rwa [← hrun] at hruns
      · have hruns := RunsOf.width v run after _ _ hv hpos hafter (repeatRuns_repeatsOf v le_rfl) hafter_coded
        rw [if_neg hv]
        rwa [← hrun] at hruns

/-! ### Reading the runs back (43 R252) -/

theorem expandRuns_append (done : List Nat) (xs ys : List (Nat × Nat)) :
    expandRuns done (xs ++ ys) = expandRuns (expandRuns done xs) ys := by
  induction xs generalizing done with
  | nil => rfl
  | cons r rest ih => exact ih _

section
variable (done : List Nat)

theorem expandRun_width {v : Nat} (hv : v < 16) (e : Nat) : expandRun done (v, e) = [v] := by
  simp only [expandRun]
  rw [if_neg (by omega), if_neg (by omega), if_neg (by omega)]

theorem expandRun_repeat (e : Nat) : expandRun done (16, e) = List.replicate (3 + e) (done.getLastD 0) := rfl

theorem expandRun_someZeros (e : Nat) : expandRun done (17, e) = List.replicate (3 + e) 0 := rfl

theorem expandRun_manyZeros (e : Nat) : expandRun done (18, e) = List.replicate (11 + e) 0 := rfl

theorem expandRuns_replicate {v : Nat} (hv : v < 16) (n : Nat) :
    expandRuns done (List.replicate n (v, 0)) = done ++ List.replicate n v := by
  induction n generalizing done with
  | zero => simp [expandRuns]
  | succ n ih => rw [List.replicate_succ, expandRuns, expandRun_width done hv, ih, List.append_assoc]; rfl

end

/-- After a width v, its repeats read back as v again and again. -/
theorem RepeatsOf.expandRuns {v rem : Nat} {rs : List (Nat × Nat)} (h : RepeatsOf v rem rs) (hv : v < 16)
    (done : List Nat) : expandRuns (done ++ [v]) rs = done ++ [v] ++ List.replicate rem v := by
  induction h generalizing done with
  | few rem _ => exact expandRuns_replicate _ hv rem
  | many rem rs h3 _ ih =>
    have htaken : 3 + (min rem 6 - 3) = min rem 6 := by omega
    have hsplit := replicate_append_run (min_le_left rem 6) v []
    rw [List.append_nil, List.append_nil] at hsplit
    have hlast : done ++ [v] ++ List.replicate (min rem 6) v = done ++ List.replicate (min rem 6) v ++ [v] := by
      rw [List.append_assoc, List.append_assoc, List.singleton_append, ← List.replicate_succ, List.replicate_succ']
    rw [Sys2Proof.Machine.expandRuns, expandRun_repeat, htaken, List.getLastD_concat, hlast, ih, ← hlast,
      List.append_assoc (done ++ [v]), hsplit]

/-- A symbol for zeros of a run and the runs of the rest read back as the whole run and what comes after it. -/
theorem expandRuns_zeros {done after : List Nat} {r : Nat × Nat} {rs : List (Nat × Nat)} {k n : Nat} (hk : k ≤ n)
    (hr : expandRun done r = List.replicate k 0)
    (hrs : ∀ done, expandRuns done rs = done ++ (List.replicate (n - k) 0 ++ after)) :
    expandRuns done (r :: rs) = done ++ (List.replicate n 0 ++ after) := by
  rw [expandRuns, hr, hrs, List.append_assoc, replicate_append_run hk]

/-- The runs read back as the widths they were taken from. -/
theorem RunsOf.expandRuns {ws : List Nat} {rs : List (Nat × Nat)} (h : RunsOf ws rs) (hws : ∀ w ∈ ws, w < 16)
    (done : List Nat) : expandRuns done rs = done ++ ws := by
  induction h generalizing done with
  | nil => exact (List.append_nil done).symm
  | manyZeros run rest rs h11 _ _ ih =>
    refine expandRuns_zeros (min_le_left run 138) ?_ (ih fun w hw => hws w (mem_run_of_mem_shorter hw))
    rw [expandRun_manyZeros, Nat.add_sub_cancel' (by omega)]
  | someZeros run rest rs h3 _ _ _ ih =>
    refine expandRuns_zeros le_rfl ?_ fun done => ?_
    · rw [expandRun_someZeros, Nat.add_sub_cancel' h3]
    · rw [ih fun w hw => hws w (List.mem_append_right _ hw), Nat.sub_self]
      rfl
  | oneZero run rest rs h1 _ _ _ ih =>
    exact expandRuns_zeros h1 (expandRun_width done (by decide) 0) (ih fun w hw => hws w (mem_run_of_mem_shorter hw))
  | width v run rest reps rs _ h1 _ hreps _ ih =>
    have hv : v < 16 := hws v (List.mem_append_left _ (List.mem_replicate.mpr ⟨by omega, rfl⟩))
    rw [Sys2Proof.Machine.expandRuns, expandRun_width done hv, expandRuns_append, hreps.expandRuns hv,
      ih fun w hw => hws w (List.mem_append_right _ hw), List.append_assoc, List.append_assoc, ← replicate_append_run h1]
    rfl

/-! ### The symbols and their extra values -/

/-- A code-length symbol and an extra value that fits its extra bits (43 R252). -/
def RunFits (r : Nat × Nat) : Prop := r.1 ≤ 18 ∧ r.2 < 2 ^ clExtra r.1

theorem runFits_width {v : Nat} (hv : v < 16) : RunFits (v, 0) := ⟨by omega, Nat.two_pow_pos _⟩

theorem RepeatsOf.fits {v rem : Nat} {rs : List (Nat × Nat)} (h : RepeatsOf v rem rs) (hv : v < 16) :
    ∀ r ∈ rs, RunFits r := by
  induction h with
  | few rem _ => exact fun r hr => List.eq_of_mem_replicate hr ▸ runFits_width hv
  | many rem rs _ _ ih => exact List.forall_mem_cons.mpr ⟨⟨by simp, by show min rem 6 - 3 < 4; omega⟩, ih⟩

theorem RunsOf.fits {ws : List Nat} {rs : List (Nat × Nat)} (h : RunsOf ws rs) (hws : ∀ w ∈ ws, w < 16) :
    ∀ r ∈ rs, RunFits r := by
  induction h with
  | nil => exact fun r hr => absurd hr List.not_mem_nil
  | manyZeros run rest rs _ _ _ ih =>
    exact List.forall_mem_cons.mpr ⟨⟨le_rfl, by show min run 138 - 11 < 128; omega⟩,
      ih fun w hw => hws w (mem_run_of_mem_shorter hw)⟩
  | someZeros run rest rs _ h10 _ _ ih =>
    exact List.forall_mem_cons.mpr ⟨⟨by simp, by show run - 3 < 8; omega⟩,
      ih fun w hw => hws w (List.mem_append_right _ hw)⟩
  | oneZero run rest rs _ _ _ _ ih =>
    exact List.forall_mem_cons.mpr ⟨runFits_width (by decide), ih fun w hw => hws w (mem_run_of_mem_shorter hw)⟩
  | width v run rest reps rs _ h1 _ hreps _ ih =>
    have hv : v < 16 := hws v (List.mem_append_left _ (List.mem_replicate.mpr ⟨by omega, rfl⟩))
    exact List.forall_mem_cons.mpr ⟨runFits_width hv,
      List.forall_mem_append.mpr ⟨hreps.fits hv, ih fun w hw => hws w (List.mem_append_right _ hw)⟩⟩

theorem rle_runsOf (ws : List Nat) : RunsOf ws (rle ws) := rleFrom_runsOf le_rfl

end Sys2Proof.Machine
end

section
/-! SUPPORT. The units that read the header of a dynamic block (43 R250 to R252): its counts, the code-length widths, and the widths by their code-length symbols. -/

namespace Sys2Proof.Machine

/-! ### DYN_COUNTS (43 R250) -/

section
variable {s : State} {inp : Input} {c : Nat}

theorem dflDecUnit_dynCounts (hp : s.df.p = .dynCounts) : dflDecUnit s inp c = dynCountsUnit s inp c := by
  rw [dflDecUnit, hp]

theorem dflDecUnit_dynClLen (hp : s.df.p = .dynClLen) : dflDecUnit s inp c = dynClLenUnit s inp c := by
  rw [dflDecUnit, hp]

theorem dflDecUnit_dynLens (hp : s.df.p = .dynLens) : dflDecUnit s inp c = dynLensUnit s inp c := by
  rw [dflDecUnit, hp]

theorem dynCountsUnit_lacks (h : 8 * inp.len < c + 14) : dynCountsUnit s inp c = .needMore := by
  rw [dynCountsUnit]
  by_cases h5 : c + 5 ≤ 8 * inp.len
  · rw [inField_of_le h5, Read.then_got]
    by_cases h10 : c + 5 + 5 ≤ 8 * inp.len
    · rw [inField_of_le h10, Read.then_got, inField_of_lt (w := 4) (by decide) h, Read.then_needMore]
    · rw [inField_of_lt (by decide) (not_le.mp h10), Read.then_needMore]
  · rw [inField_of_lt (by decide) (not_le.mp h5), Read.then_needMore]

section
variable {hlit hdist hclen c1 c2 c3 : Nat} (h1 : inField s inp 5 c = .got hlit c1) (h2 : inField s inp 5 c1 = .got hdist c2)
  (h3 : inField s inp 4 c2 = .got hclen c3)
include h1 h2 h3

theorem dynCountsUnit_tooMany (h : 29 < hlit) : dynCountsUnit s inp c = .raised s Err.hlitRange := by
  rw [dynCountsUnit, h1, Read.then_got, h2, Read.then_got, h3, Read.then_got, if_pos h]

theorem dynCountsUnit_counts (h : hlit ≤ 29) : dynCountsUnit s inp c = .completed (s.setDf { s.df with
    nlit := hlit + 257, ndist := hdist + 1, ncl := hclen + 4, clw := List.replicate 19 0, cli := 0, p := .dynClLen }) c3 := by
  rw [dynCountsUnit, h1, Read.then_got, h2, Read.then_got, h3, Read.then_got, if_neg h.not_gt]

end

/-! ### DYN_CLLEN (43 R251) -/

theorem dynClLenUnit_lacks (h : 8 * inp.len < c + 3) : dynClLenUnit s inp c = .needMore := by
  rw [dynClLenUnit, inField_of_lt (by decide) h, Read.then_needMore]

section
variable {w c1 : Nat} {clw : List Nat} (hw : inField s inp 3 c = .got w c1)
  (hclw : clw = s.df.clw.set (clOrder.getD s.df.cli 0) w)
include hw hclw

theorem dynClLenUnit_more (h : s.df.cli + 1 ≠ s.df.ncl) : dynClLenUnit s inp c =
    .completed (s.setDf { s.df with clw := clw, cli := s.df.cli + 1 }) c1 := by
  rw [dynClLenUnit, hw, Read.then_got, ← hclw]
  exact if_neg h

theorem dynClLenUnit_last (h : s.df.cli + 1 = s.df.ncl) :
    (∀ e, canon clw = .error e →
      dynClLenUnit s inp c = .raised (s.setDf { s.df with clw := clw, cli := s.df.cli + 1 }) Err.clTable) ∧
    ∀ t, canon clw = .ok t → dynClLenUnit s inp c = .completed (s.setDf { s.df with
      clw := clw, cli := s.df.cli + 1, cltab := t, lens := [], p := .dynLens }) c1 := by
  rw [dynClLenUnit, hw, Read.then_got, ← hclw]
  refine ⟨fun e he => (if_pos h).trans ?_, fun t ht => (if_pos h).trans ?_⟩
  · simp only [State.setDf, he]
  · simp only [State.setDf, ht]

end

/-! ### The widths of a code-length symbol (43 R252) -/

theorem clExtra_repeat : clExtra 16 = 2 := rfl
theorem clExtra_someZeros : clExtra 17 = 3 := rfl
theorem clExtra_manyZeros : clExtra 18 = 7 := rfl

theorem clExtra_width {sym : Nat} (h : sym < 16) : clExtra sym = 0 := by
  rw [clExtra, if_neg (by omega), if_neg (by omega), if_neg (by omega)]

section
variable {sym : Nat} (hsym : sym ≤ 18)
include hsym

theorem dynLensAdd_lacks (hextra : 0 < clExtra sym) (h : 8 * inp.len < c + clExtra sym) :
    dynLensAdd s inp sym c = .needMore := by
  have hread := inField_of_lt (s := s) hextra h
  obtain hlt | rfl | rfl | rfl : sym < 16 ∨ sym = 16 ∨ sym = 17 ∨ sym = 18 := by omega
  · exact absurd (clExtra_width hlt) hextra.ne'
  · rw [clExtra_repeat] at hread
    simp [dynLensAdd, hread]
  · rw [clExtra_someZeros] at hread
    simp [dynLensAdd, hread]
  · rw [clExtra_manyZeros] at hread
    simp [dynLensAdd, hread]

section
variable {e c' : Nat} (h : inField s inp (clExtra sym) c = .got e c')
include h

theorem dynLensAdd_noPrevious (h16 : sym = 16) (hlens : s.df.lens = []) :
    dynLensAdd s inp sym c = .bad Err.noPreviousWidth := by
  subst h16
  rw [clExtra_repeat] at h
  simp [dynLensAdd, h, hlens]

theorem dynLensAdd_got (hprev : ¬ (sym = 16 ∧ s.df.lens = [])) :
    dynLensAdd s inp sym c = .got (expandRun s.df.lens (sym, e)) c' := by
  obtain hlt | rfl | rfl | rfl : sym < 16 ∨ sym = 16 ∨ sym = 17 ∨ sym = 18 := by omega
  · rw [clExtra_width hlt] at h
    cases h
    rw [expandRun_width _ hlt]
    exact if_pos hlt
  · have hne : s.df.lens ≠ [] := fun hnil => hprev ⟨rfl, hnil⟩
    rw [clExtra_repeat] at h
    simp [dynLensAdd, h, expandRun_repeat, List.getLastD_eq_getLast?, List.getLast?_eq_getLast_of_ne_nil hne]
  · rw [clExtra_someZeros] at h
    simp [dynLensAdd, h, expandRun_someZeros]
  · rw [clExtra_manyZeros] at h
    simp [dynLensAdd, h, expandRun_manyZeros]

end

end

/-! ### DYN_LENS (43 R252) -/

section
variable {add lens : List Nat} (hlens : lens = s.df.lens ++ add)
include hlens

theorem dynLensEffects_pastEnd (h : s.df.nlit + s.df.ndist < lens.length) :
    dynLensEffects add s = .fail s Err.repeatPastEnd := by
  rw [hlens, List.length_append] at h
  exact if_pos h

theorem not_pastEnd (h : lens.length ≤ s.df.nlit + s.df.ndist) :
    ¬ s.df.nlit + s.df.ndist < s.df.lens.length + add.length := by
  rw [← List.length_append, ← hlens]
  exact h.not_gt

theorem dynLensEffects_more (h : lens.length < s.df.nlit + s.df.ndist) :
    dynLensEffects add s = .ok (s.setDf { s.df with lens := lens }) := by
  rw [dynLensEffects, if_neg (not_pastEnd hlens h.le), ← hlens]
  exact if_neg h.ne

section
variable (h : lens.length = s.df.nlit + s.df.ndist)
include h

theorem dynLensEffects_tables {lit dist : HufTable} (hlit : canon (lens.take s.df.nlit) = .ok lit)
    (hdist : canon (lens.drop s.df.nlit) = .ok dist) : dynLensEffects add s =
      .ok (s.setDf { s.df with lens := lens, lit := lit, dist := dist, p := .body }) := by
  rw [dynLensEffects, if_neg (not_pastEnd hlens h.le), ← hlens]
  refine (if_pos h).trans ?_
  simp only [State.setDf, hlit, hdist]

theorem dynLensEffects_noTable {e : Err}
    (he : canon (lens.take s.df.nlit) = .error e ∨ canon (lens.drop s.df.nlit) = .error e) :
    dynLensEffects add s = .fail (s.setDf { s.df with lens := lens }) Err.dynTable := by
  rw [dynLensEffects, if_neg (not_pastEnd hlens h.le), ← hlens]
  refine (if_pos h).trans ?_
  rcases he with he | he
  · simp only [State.setDf, he]
  · cases hlit : canon (lens.take s.df.nlit) <;> simp only [State.setDf, hlit, he]

end

end

section
variable {sym c1 : Nat} (hsym : decodeSym s inp s.df.cltab c = .got sym c1)
include hsym

theorem dynLensUnit_symbol : dynLensUnit s inp c =
    (dynLensAdd s inp sym c1).then s fun add c2 => (dynLensEffects add s).endUnit c2 := by
  rw [dynLensUnit, hsym, Read.then_got]

theorem dynLensUnit_widths (hle : sym ≤ 18) {e c2 : Nat} (hread : inField s inp (clExtra sym) c1 = .got e c2)
    (hprev : ¬ (sym = 16 ∧ s.df.lens = [])) :
    dynLensUnit s inp c = (dynLensEffects (expandRun s.df.lens (sym, e)) s).endUnit c2 := by
  rw [dynLensUnit_symbol hsym, dynLensAdd_got hle hread hprev, Read.then_got]

end

end

/-- Settles O33: the runs of the coding and their widths read back, and the three units of the header by their reads. -/
theorem widthRunsReadBack : Obligations.WidthRunsReadBack := by
  refine ⟨rle_runsOf, fun ws hws => ⟨(rle_runsOf ws).expandRuns hws [], (rle_runsOf ws).fits hws⟩,
    fun s inp sym c e c' hle hread => ⟨dynLensAdd_noPrevious hle hread, dynLensAdd_got hle hread⟩,
    fun s inp c hp => ?_, fun s inp c hp => ?_, fun s inp c hp => ?_⟩
  · rw [dflDecUnit_dynCounts hp]
    exact ⟨dynCountsUnit_lacks, fun hlit hdist hclen h1 h2 h3 =>
      ⟨dynCountsUnit_tooMany h1 h2 h3, dynCountsUnit_counts h1 h2 h3⟩⟩
  · rw [dflDecUnit_dynClLen hp]
    refine ⟨dynClLenUnit_lacks, fun w clw hw hclw => ⟨dynClLenUnit_more hw hclw, fun hlast => ?_⟩⟩
    obtain ⟨herror, hok⟩ := dynClLenUnit_last hw hclw hlast
    exact ⟨fun e he => ⟨_, herror e he, rfl⟩, hok⟩
  · rw [dflDecUnit_dynLens hp]
    refine ⟨fun h => by rw [dynLensUnit, h, Read.then_needMore], fun e h => by rw [dynLensUnit, h, Read.then_bad],
      fun sym c1 hle hsym => ⟨fun hlack hextra => ?_, fun e c2 lens hread hlens => ⟨fun h16 hnil => ?_, fun hprev => ?_⟩⟩⟩
    · rw [dynLensUnit_symbol hsym, dynLensAdd_lacks hle hextra hlack, Read.then_needMore]
    · rw [dynLensUnit_symbol hsym, dynLensAdd_noPrevious hle hread h16 hnil, Read.then_bad]
      rfl
    · rw [dynLensUnit_widths hsym hle hread hprev]
      refine ⟨fun h => ?_, fun h => ?_, fun h => ⟨fun lit dist hlit hdist => ?_, fun e' he =>
        ⟨s.setDf { s.df with lens := lens }, ?_, rfl⟩⟩⟩
      · rw [dynLensEffects_pastEnd hlens h]
        rfl
      · rw [dynLensEffects_more hlens h]
        rfl
      · rw [dynLensEffects_tables hlens h hlit hdist]
        rfl
      · rw [dynLensEffects_noTable hlens h he]
        rfl

end Sys2Proof.Machine
end

section
/-! SUPPORT. FEED of a DEFLATE encoder before its finish: the bytes it appends to the history, and how the command ends (44 R294; 45 R348, R349, R358). -/

namespace Sys2Proof.Machine

/-! ### Bytes appended to the history (44 R294) -/

/-- From `s`, the encoder has appended the first `n` of `bytes` to the history and done nothing else. -/
structure HistoryAppended (bytes : Nat → Byte) (n : Nat) (s u : State) : Prop where
  frame : FeedFrame s u
  feedWrites : FeedWrites true s u
  ses : u.ses = { s.ses with histLen := s.ses.histLen + word n }
  writes : WritesIn (InRegion (s.ses.histBase.toNat + s.ses.histLen.toNat) n) s u
  appended : ∀ k, k < n → u.memByte (s.ses.histBase.toNat + s.ses.histLen.toNat + k) = bytes k

theorem HistoryAppended.refl (bytes : Nat → Byte) (s : State) : HistoryAppended bytes 0 s s where
  frame := FeedFrame.refl s
  feedWrites := FeedWrites.refl true s
  ses := by simp
  writes := WritesIn.refl _ s
  appended k hk := absurd hk (Nat.not_lt_zero k)

section
variable {bytes : Nat → Byte} {n : Nat} {s u : State} (h : HistoryAppended bytes n s u)
include h

/-- The history's length after the bytes, which fit. -/
theorem HistoryAppended.histLen_toNat (hfit : s.ses.histLen.toNat + n ≤ s.ses.histCap.toNat) :
    u.ses.histLen.toNat = s.ses.histLen.toNat + n := by
  have hcap := s.ses.histCap.isLt
  rw [h.ses, BitVec.toNat_add, BitVec.toNat_ofNat, Nat.add_mod_mod, Nat.mod_eq_of_lt (by omega)]

/-- One more byte, while the history is not full. -/
theorem HistoryAppended.next (hfit : s.ses.histLen.toNat + n < s.ses.histCap.toNat) :
    ∃ t, dflEncByte (bytes n) u = .ok t ∧ HistoryAppended bytes (n + 1) s t := by
  have hlen := h.histLen_toNat hfit.le
  have hcap : u.ses.histCap = s.ses.histCap := by rw [h.ses]
  have hbase : u.ses.histBase = s.ses.histBase := by rw [h.ses]
  have hframe := feedFrame_dflEncByte (bytes n) u
  have hwrites := feedWrites_dflEncByte (bytes n) u
  rcases dflEncByte_cases (bytes n) u with ⟨hfull, -⟩ | ⟨-, hbyte⟩
  · rw [← BitVec.toNat_inj, hlen, hcap] at hfull
    omega
  · rw [hbase, hlen, ← Nat.add_assoc] at hbyte
    rw [hbyte] at hframe hwrites
    refine ⟨_, hbyte, h.frame.trans hframe, h.feedWrites.trans hwrites, ?_, ?_, fun k hk => ?_⟩
    · simp only [h.ses, BitVec.ofNat_add, BitVec.add_assoc]
      rfl
    · refine (h.writes.mono fun a ha => ⟨ha.1, by have := ha.2; omega⟩).trans
        (((writesIn_engWrite u _ (bytes n)).mono ?_).trans (WritesIn.of_same (HostSideSame.refl _) rfl rfl rfl rfl))
      rintro a rfl
      exact ⟨Nat.le_add_right _ _, Nat.lt_succ_self _⟩
    · refine (State.memByte_engWrite u _ _ (bytes n)).trans ?_
      split_ifs with heq
      · rw [Nat.add_left_cancel heq]
      · exact h.appended k (by omega)

end

/-! ### The byte loop (45 R348) -/

/-- The loop appends the bytes that fit, and stops at the first one that does not. -/
theorem encodeLoop_history {inp : Input} {bytes : Nat → Byte} {s : State} {room : Nat}
    (hroom : s.ses.histLen.toNat + room = s.ses.histCap.toNat) (hm : s.ses.mode = .dflEnc)
    (hread : ∀ u, FeedWrites true s u → ∀ k, k < inp.len → u.engByte [k] (inp.base + k) = bytes k)
    {left j : Nat} {u : State} (h : HistoryAppended bytes j s u) (hj : j ≤ room) (hend : j + left = inp.len) :
    ∃ v, HistoryAppended bytes (min inp.len room) s v ∧
      encodeLoop inp left j u = if inp.len ≤ room then .stopped v inp.len else .raised v Err.historyFull room := by
  induction left generalizing j u with
  | zero =>
    obtain rfl : j = inp.len := hend
    exact ⟨u, by rwa [min_eq_left hj], (if_pos hj).symm⟩
  | succ left ih =>
    have hmode : u.ses.mode ≠ .lzwEnc := by rw [h.ses, hm]; decide
    rw [encodeLoop, hread u h.feedWrites j (by omega), encodeByte, if_neg hmode]
    rcases hj.lt_or_eq with hlt | rfl
    · obtain ⟨t, ht, hnext⟩ := h.next (by omega)
      rw [ht]
      exact ih hnext hlt (by omega)
    · have hfull : u.ses.histLen = u.ses.histCap := by
        rw [← BitVec.toNat_inj, h.histLen_toNat hroom.le, hroom, h.ses]
      rw [dflEncByte, if_pos hfull]
      exact ⟨u, by rwa [min_eq_right (by omega)], (if_neg (by omega)).symm⟩

/-! ### How the command ends (45 R349, R358) -/

/-- What a FEED that appended n bytes to the history reports and keeps, however it ended. -/
def KeptInput (n : Nat) (s t : State) : Prop :=
  t.ses.histLen = s.ses.histLen + word n ∧ t.ses.outLen = s.ses.outLen ∧ t.ses.outBits = s.ses.outBits ∧
  ResultsAre t n 0 s.ses.outLen.toNat ∧ t.ses.totalIn = s.ses.totalIn + word n ∧
  SessionSetupSame s t ∧ OnlySession s t ∧
  MemorySameOutside (InRegion (s.ses.histBase.toNat + s.ses.histLen.toNat) n) s t ∧
  ∀ j, j < n → t.hostByte (s.ses.histBase.toNat + s.ses.histLen.toNat + j) = s.hostByte (s.arg0 + j)

/-- The results of a FEED and its session error, where it raised one, keep what the byte loop appended. -/
theorem HistoryAppended.keptInput {s u t : State} {n : Nat}
    (h : HistoryAppended (fun k => s.hostByte (s.arg0 + k)) n (startCommand s) u)
    (hr : s.raced = []) (ht : t = { finishCommand (feedResults n s.ses.outLen true u) with
      status := t.status, errDetail := t.errDetail
      ses := { (feedResults n s.ses.outLen true u).ses with
        sstate := t.ses.sstate, serr := t.ses.serr, serrDetail := t.ses.serrDetail, bitpos := t.ses.bitpos } }) :
    KeptInput n s t := by
  have hraced : u.raced = [] := by simpa [hr] using h.writes.addrs
  have hout : u.ses.outLen = s.ses.outLen := by simp only [h.ses, startCommand_ses]
  have hbyte : ∀ a, t.hostByte a = (finishCommand u).hostByte a := fun a => by rw [ht]; rfl
  have hfinal : ∀ a, (finishCommand u).hostByte a = u.memByte a := fun a =>
    (hostByte_finishCommand (by simp [State.racedAt, hraced])).trans (State.hostByte_of_no_race hraced a)
  refine ⟨?_, ?_, ?_, ⟨?_, ?_, ?_⟩, ?_, ?_, ?_, fun a ha => (hbyte a).trans (h.writes.memorySameOutside a ha),
    fun j hj => ((hbyte _).trans (hfinal _)).trans (h.appended j hj)⟩ <;> rw [ht]
  · simp [feedResults, h.ses]
  · exact hout
  · simp [feedResults, h.ses]
  · rfl
  · exact (congrArg (· - s.ses.outLen) hout).trans (BitVec.sub_self _)
  · exact hout.trans (by simp)
  · simp [feedResults, h.ses]
  · exact h.frame.setup
  · exact ⟨h.frame.host, h.frame.bs, h.frame.huf⟩

/-- FEED of an ACTIVE session that is no decoder runs the encoder's byte loop and finish (45 R343, R348). -/
theorem effects_feed_encoder {s : State} {complete : Bool} (hacc : FeedAccepted s) (ha : s.ses.sstate = .active)
    (hdec : ¬ s.ses.isDecoder) : effects (.feed complete) (startCommand s) =
      feedEncode ⟨s.arg0, s.arg1⟩ complete s.ses.outLen (startCommand s) := by
  have hact : ¬ (!(startCommand s).ses.isActive) = true := by simp [Session.isActive, ha]
  rw [effects, feedEffects_accepted (s := startCommand s) hacc, feedProcess, if_neg hact]
  exact if_neg hdec

/-- The bytes that fit are appended; the command ends clean if that is all and it is not the last FEED, and in 0x0B03 if it
is not all. -/
theorem feed_dflEnc_cases {s : State} {complete : Bool} (hr : s.raced = []) (hregions : RegionsOk s)
    (hacc : FeedAccepted s) (ha : s.ses.sstate = .active) (hm : s.ses.mode = .dflEnc) {room : Nat}
    (hroom : s.ses.histLen.toNat + room = s.ses.histCap.toNat) :
    ∃ u, HistoryAppended (fun k => s.hostByte (s.arg0 + k)) (min s.arg1 room) (startCommand s) u ∧
      (s.arg1 ≤ room → complete = false → effects (.feed complete) (startCommand s) =
        .ok (feedResults s.arg1 s.ses.outLen true u)) ∧
      (room < s.arg1 → effects (.feed complete) (startCommand s) =
        sessionError Err.historyFull room s.ses.outLen u) := by
  have henc : s.ses.isEncoder = true := by simp [Session.isEncoder, hm]
  obtain ⟨u, hu, hloop⟩ := encodeLoop_history (inp := ⟨s.arg0, s.arg1⟩) (s := startCommand s) hroom hm
    (fun u hu k hk => engByte_input hr hregions hacc (henc.symm ▸ hu) [k] hk) (HistoryAppended.refl _ _) (Nat.zero_le _)
    (Nat.zero_add _)
  rw [effects_feed_encoder hacc ha (by simp [Session.isDecoder, hm]), feedEncode, hloop]
  refine ⟨u, hu, fun hfit hc => ?_, fun hfull => ?_⟩
  · rw [if_pos hfit, hc]
    rfl
  · rw [if_neg hfull.not_ge]

/-- Settles O52: the byte loop appends what fits to the history, and the finish is not reached. -/
theorem dflEncoderKeepsItsInput : Obligations.DflEncoderKeepsItsInput := by
  intro s hr hregions hacc ha hm n hn complete hc
  obtain ⟨-, -, -, -, -, hlen, -⟩ := id hregions
  obtain ⟨u, hu, hclean, hfailed⟩ := feed_dflEnc_cases (complete := complete) hr hregions hacc ha hm
    (Nat.add_sub_cancel' hlen)
  rw [← hn] at hu
  suffices Completes (.feed complete) s fun t => KeptInput n s t ∧
      (n = s.arg1 → t.status.err = false ∧ t.ses.sstate = .active) ∧
      (n < s.arg1 → t.status.err = true ∧ t.errDetail = 0x0B03 ∧ t.ses.sstate = .error) by
    obtain ⟨t, hexec, ⟨k1, k2, k3, k4, k5, k6, k7, k8, k9⟩, hend⟩ := this
    exact ⟨t, hexec, k1, k2, k3, k4, k5, k6, k7, k8, k9, hend⟩
  by_cases hfit : s.arg1 ≤ s.ses.histCap.toNat - s.ses.histLen.toNat
  · have hall : n = s.arg1 := by omega
    have hnotLast : complete = false := Bool.eq_false_iff.mpr fun h => (hc h).ne hall
    have hstatus : u.status = s.status.atStart := hu.frame.status
    have hstate : u.ses.sstate = .active := by rw [hu.ses]; exact ha
    exact completes_ok (hclean hfit hnotLast)
      ⟨hall ▸ hu.keptInput hr rfl, fun _ => ⟨congrArg Status.err hstatus, hstate⟩, fun h => absurd hall h.ne⟩
  · have hroom : s.ses.histCap.toNat - s.ses.histLen.toNat = n := by omega
    rw [completes_iff, hfailed (not_le.mp hfit), hroom]
    exact ⟨hu.keptInput hr rfl, fun h => by omega, fun _ => ⟨rfl, rfl, rfl⟩⟩

end Sys2Proof.Machine
end

section
/-! SUPPORT. NOP, SESSION_END and SOFT_RESET, and FEED's command checks and its answers after the session's end (45 R342 to R344, R353, R354). -/

namespace Sys2Proof.Machine

/-! ### NOP (45 R353) -/

/-- Settles O13: NOP's effects are none, so only the start and the end of the command are left. -/
theorem nopClearsTheLastStatus : Obligations.NopClearsTheLastStatus := by
  intro s
  obtain ⟨hend, honly, hres⟩ := finishCommand_onlyResults s 0 0 0
  exact completes_ok (u := (startCommand s).setResults 0 0 0) rfl ⟨hend, hres, honly⟩

/-! ### SESSION_END (45 R342) -/

/-- Settles O14: the session's registers are released, and nothing else is written. -/
theorem sessionEndReleasesTheSession : Obligations.SessionEndReleasesTheSession := by
  intro s
  obtain ⟨hend, hres, honly⟩ := finishCommand_onlySession (s := s) (u := { startCommand s with ses := Session.released }) rfl
  have hmem : WritesIn (fun _ => False) (startCommand s) { startCommand s with ses := Session.released } :=
    WritesIn.of_same (HostSideSame.refl _) rfl rfl rfl rfl
  exact completes_ok (i := .sessionEnd) rfl ⟨hend, rfl, hres, honly, hmem.memorySame, rfl⟩

/-! ### SOFT_RESET (45 R354) -/

/-- After reset every register reads 0 (70 R421). -/
theorem readReg_resetWith (par : Params) (offset : Nat) : (State.resetWith par).readReg offset = 0 := by
  have hstatus : (State.resetWith par).statusWord = 0 := by
    simp only [State.statusWord, State.resetWith]
    decide
  have hslots : (State.resetWith par).hufValidWord = 0 := by
    simp [State.hufValidWord, State.resetWith, HufSlot.invalid, fieldAt]
  have hsequence : BitSeq.released.ctrlWord = 0 := by decide
  have hsession : Session.released.ctrlWord = 0 := by decide
  unfold State.readReg
  split
  case h_9 => exact hstatus
  case h_14 => exact hsequence
  case h_15 => exact hsession
  case h_25 => exact hslots
  all_goals rfl

/-- A reset command's end leaves every register 0 and every slot invalid (70 R420, R421). -/
theorem resetTaken_finish_resetRegisters (s : State) : ResetTaken (finishCommand (resetRegisters s)) := by
  refine ⟨fun offset => ?_, rfl, rfl, rfl, fun k => ?_, rfl, rfl, rfl⟩
  · exact (show _ = (State.resetWith s.par).readReg offset from rfl).trans (readReg_resetWith s.par offset)
  · simp [resetRegisters, State.resetWith, HufSlot.invalid]

/-- A reset of the registers and the end of the command leave each byte as the host left it (20 R95). -/
theorem memorySame_finish_resetRegisters (s : State) :
    MemorySame s (finishCommand (resetRegisters (startCommand s))) := by
  intro a
  have hunwritten : ∀ r, (resetRegisters (startCommand s)).racedAt a = some r → r.engineWrote = false := by
    intro r hr
    obtain ⟨_, -, rfl⟩ := Option.map_eq_some_iff.mp ((racedAt_startCommand s a).symm.trans hr)
    rfl
  exact (hostByte_finishCommand hunwritten).trans (hostByte_startCommand s a)

/-- Settles O15: the registers are those after reset, and memory and the host's record are kept. -/
theorem softResetClearsEverythingButMemory : Obligations.SoftResetClearsEverythingButMemory := fun s =>
  completes_ok (i := .softReset) rfl
    ⟨resetTaken_finish_resetRegisters _, rfl, memorySame_finish_resetRegisters s, rfl, rfl⟩

/-! ### The command checks of FEED (45 R343) -/

section
variable {complete : Bool} {s : State}

theorem feedEffects_noSession (hm : s.ses.mode = .none) : feedEffects complete s = .fail s Err.noSession := if_pos hm

variable (hm : s.ses.mode ≠ .none)
include hm

theorem feedEffects_misfit (hin : memSize s.par < s.arg0 + s.arg1) :
    feedEffects complete s = .fail s Err.addressRange :=
  (if_neg hm).trans (if_pos (inRange_misfit hin))

theorem feedEffects_overlap (hin : s.arg0 + s.arg1 ≤ memSize s.par)
    (hshare : SharesByte s.arg0 s.arg1 s.ses.outBase.toNat s.ses.outCap.toNat ∨
      SharesByte s.arg0 s.arg1 s.ses.histBase.toNat s.ses.histCap.toNat) :
    feedEffects complete s = .fail s Err.overlap := by
  rw [← shareByte_iff, ← shareByte_iff, ← Bool.or_eq_true] at hshare
  exact (if_neg hm).trans ((if_neg (inRange_fits hin)).trans (if_pos hshare))

end

/-- Settles O37: each check in its order refuses the command. -/
theorem feedChecksItsOperands : Obligations.FeedChecksItsOperands := fun complete s =>
  ⟨fun hm => completes_refused (feedEffects_noSession (complete := complete) (s := startCommand s) hm),
    fun hm hin => completes_refused (feedEffects_misfit (complete := complete) (s := startCommand s) hm hin),
    fun hm hin hshare => completes_refused (feedEffects_overlap (complete := complete) (s := startCommand s) hm hin hshare)⟩

/-! ### FEED after the session's end (45 R344) -/

/-- FEED of a session that is not ACTIVE answers as after the end. -/
theorem effects_feed_afterEnd {complete : Bool} {s : State} (hacc : FeedAccepted s) (hend : s.ses.sstate ≠ .active) :
    effects (.feed complete) (startCommand s) = feedAfterEnd (startCommand s) :=
  (feedEffects_accepted (s := startCommand s) hacc).trans (feedProcess_afterEnd hend)

/-- The answer of a FEED after the end, before the command ends. -/
def afterEndAnswer (s : State) : State := { startCommand s with res0 := 0, res1 := 0, res2 := s.ses.outLen }

theorem feedAfterEnd_done {s : State} (hd : s.ses.sstate = .done) :
    feedAfterEnd (startCommand s) = .ok (afterEndAnswer s) :=
  if_pos (show (s.ses.sstate == .done) = true by rw [hd]; rfl)

theorem feedAfterEnd_error {s : State} (he : s.ses.sstate = .error) :
    feedAfterEnd (startCommand s) = .fail (afterEndAnswer s) ⟨s.ses.serr, s.ses.serrDetail⟩ :=
  if_neg (show ¬ (s.ses.sstate == .done) = true by rw [he]; decide)

/-- The answer changes nothing but RES0 to RES2, whichever way the command then ends. -/
theorem afterEndAnswer_onlyResults (s : State) :
    ResultsAre (afterEndAnswer s) 0 0 s.ses.outLen.toNat ∧ OnlyResults s (finishCommand (afterEndAnswer s)) :=
  ⟨⟨rfl, rfl, by simp [afterEndAnswer]⟩, ⟨rfl, rfl, rfl, rfl, rfl, rfl, rfl, rfl⟩, ⟨rfl, rfl, rfl, rfl⟩, rfl, rfl,
    (WritesIn.of_same (s := startCommand s) (t := afterEndAnswer s) (HostSideSame.refl _) rfl rfl rfl rfl).memorySame⟩

/-- Settles O38: the answer after the end, without error for a DONE session and with its own error for one in ERROR. -/
theorem feedAfterTheEnd : Obligations.FeedAfterTheEnd := by
  intro complete s hacc
  obtain ⟨hres, honly⟩ := afterEndAnswer_onlyResults s
  refine ⟨fun hd => ?_, fun he => ?_⟩
  · have hdone : (finishCommand (afterEndAnswer s)).status.done = true :=
      show (s.ses.sstate == .done) = true by rw [hd]; rfl
    exact completes_ok ((effects_feed_afterEnd hacc (by rw [hd]; decide)).trans (feedAfterEnd_done hd))
      ⟨⟨rfl, rfl, rfl, rfl⟩, hdone, hres, honly⟩
  · rw [completes_iff, effects_feed_afterEnd hacc (by rw [he]; decide), feedAfterEnd_error he]
    exact ⟨⟨rfl, rfl, rfl, rfl⟩, hres, honly⟩

end Sys2Proof.Machine
end

section
/-! SUPPORT. The cursor of a decoder's parse unit, and the loop of FEED as its parse units one after another (45 R345, R346, R356). -/

namespace Sys2Proof.Machine

/-! ### Cursors -/

/-- From cursor `c` a read came to `c'`, which is past `c` and within the input. -/
def Advances (inp : Input) (c c' : Nat) : Prop := c < c' ∧ c' ≤ 8 * inp.len

/-- A read that took no bit, or advanced. -/
def Moves (inp : Input) (c c' : Nat) : Prop := c' = c ∨ Advances inp c c'

section
variable {inp : Input} {c c₁ c₂ : Nat}

theorem Advances.trans_moves (h : Advances inp c c₁) (h' : Moves inp c₁ c₂) : Advances inp c c₂ := by
  rcases h' with rfl | h'
  · exact h
  · exact ⟨h.1.trans h'.1, h'.2⟩

theorem Advances.trans (h : Advances inp c c₁) (h' : Advances inp c₁ c₂) : Advances inp c c₂ := h.trans_moves (.inr h')

variable {s : State}

theorem inField_cursor {w v : Nat} (h : inField s inp w c = .got v c₁) : c₁ = c + w ∧ (w = 0 ∨ c + w ≤ 8 * inp.len) := by
  by_cases hle : c + w ≤ 8 * inp.len
  · rw [inField_of_le hle] at h
    cases h
    exact ⟨rfl, .inr hle⟩
  · cases w with
    | zero => cases h; exact ⟨rfl, .inl rfl⟩
    | succ w =>
      rw [inField_of_lt (Nat.succ_pos w) (not_le.mp hle)] at h
      cases h

theorem inField_moves {w v : Nat} (h : inField s inp w c = .got v c₁) : Moves inp c c₁ := by
  obtain ⟨rfl, rfl | hle⟩ := inField_cursor h
  · exact .inl rfl
  · rcases Nat.eq_zero_or_pos w with rfl | hw
    · exact .inl rfl
    · exact .inr ⟨Nat.lt_add_of_pos_right hw, hle⟩

theorem inField_advances {w v : Nat} (hw : w ≠ 0) (h : inField s inp w c = .got v c₁) : Advances inp c c₁ := by
  obtain ⟨rfl, h0 | hle⟩ := inField_cursor h
  · exact absurd h0 hw
  · exact ⟨Nat.lt_add_of_pos_right (Nat.pos_of_ne_zero hw), hle⟩

/-- A symbol takes at least one bit. -/
theorem decodeSym_advances {t : HufTable} {sym : Nat} (h : decodeSym s inp t c = .got sym c₁) : Advances inp c c₁ := by
  rw [decodeSym_eq_lookup rfl] at h
  cases hr : t.lookup (firstBits (fun j => s.inputBit inp (c + j)) (min (8 * inp.len - c) (t.maxw + 1)))
      (min (8 * inp.len - c) (t.maxw + 1)) with
  | found a k =>
    rw [hr] at h
    cases h
    obtain ⟨hk, hle, -⟩ := lookup_eq_found_iff.mp hr
    exact ⟨by omega, by omega⟩
  | needMore => rw [hr] at h; cases h
  | malformed => rw [hr] at h; cases h

end

/-! ### The widths of a code-length symbol as one read (43 R252) -/

/-- Go on with a second read. -/
def Read.andThen {α β : Type} (r : Read α) (f : α → Nat → Read β) : Read β :=
  match r with
  | .got a c => f a c
  | .needMore => .needMore
  | .bad e => .bad e

/-- The extra bits that DYN_LENS reads after a code-length symbol. -/
def widthExtra (sym : Nat) : Nat := if sym < 16 then 0 else if sym = 16 then 2 else if sym = 17 then 3 else 7

/-- The widths that a code-length symbol and its extra value add after the widths `lens`. -/
def addedWidths (lens : List Nat) (sym extra c : Nat) : Read (List Nat) :=
  if sym < 16 then .got [sym] c
  else if sym = 16 then
    match lens.getLast? with
    | none => .bad Err.noPreviousWidth
    | some w => .got (List.replicate (3 + extra) w) c
  else if sym = 17 then .got (List.replicate (3 + extra) 0) c
  else .got (List.replicate (11 + extra) 0) c

theorem inField_zero (s : State) (inp : Input) (c : Nat) : inField s inp 0 c = .got (fieldValue s.ses.ord []) c := rfl

theorem dynLensAdd_eq (s : State) (inp : Input) (sym c : Nat) : dynLensAdd s inp sym c =
    (inField s inp (widthExtra sym) c).andThen (addedWidths s.df.lens sym) := by
  unfold dynLensAdd widthExtra addedWidths
  by_cases hlit : sym < 16
  · simp only [if_pos hlit, inField_zero, Read.andThen]
  · by_cases hrepeat : sym = 16
    · simp only [if_neg hlit, if_pos hrepeat]
      cases inField s inp 2 c <;> rfl
    · by_cases hzeros : sym = 17
      · simp only [if_neg hlit, if_neg hrepeat, if_pos hzeros]
        cases inField s inp 3 c <;> rfl
      · simp only [if_neg hlit, if_neg hrepeat, if_neg hzeros]
        cases inField s inp 7 c <;> rfl

theorem addedWidths_cursor {lens add : List Nat} {sym extra c c' : Nat}
    (h : addedWidths lens sym extra c = .got add c') : c' = c := by
  unfold addedWidths at h
  split_ifs at h
  · cases h; rfl
  · split at h <;> cases h
    rfl
  · cases h; rfl
  · cases h; rfl

theorem dynLensAdd_moves {s : State} {inp : Input} {sym c c' : Nat} {add : List Nat}
    (h : dynLensAdd s inp sym c = .got add c') : Moves inp c c' := by
  rw [dynLensAdd_eq] at h
  cases hr : inField s inp (widthExtra sym) c with
  | got r c₁ =>
    rw [hr] at h
    exact addedWidths_cursor h ▸ inField_moves hr
  | needMore => rw [hr] at h; cases h
  | bad e => rw [hr] at h; cases h

/-! ### The cursor of a parse unit (45 R345) -/

/-- Where the unit completed, its cursor is one of those `P` speaks of. -/
def UnitResult.CursorIn (P : Nat → Prop) : UnitResult → Prop
  | .needMore => True
  | .raised _ _ => True
  | .completed _ c => P c

theorem cursorIn_then {α : Type} {P : Nat → Prop} {s : State} (r : Read α) {f : α → Nat → UnitResult}
    (hf : ∀ a c, r = .got a c → (f a c).CursorIn P) : (r.then s f).CursorIn P := by
  cases r with
  | got a c => exact hf a c rfl
  | needMore => trivial
  | bad e => trivial

theorem cursorIn_endUnit {P : Nat → Prop} (r : Run) {c : Nat} (h : P c) : (r.endUnit c).CursorIn P := by
  cases r
  · exact h
  · trivial

section
variable (s : State) (inp : Input) (c : Nat)

theorem headerUnit_advances : (headerUnit s inp c).CursorIn (Advances inp c) := by
  refine cursorIn_then _ fun f c₁ hf => cursorIn_then _ fun t c₂ ht => ?_
  have hc := (inField_advances (by decide) hf).trans (inField_advances (by decide) ht)
  simp only
  split_ifs
  exacts [trivial, hc, hc, hc]

theorem storedLenUnit_advances : (storedLenUnit s inp c).CursorIn (Advances inp c) := by
  refine cursorIn_then _ fun len c₁ hlen => cursorIn_then _ fun nlen c₂ hnlen => ?_
  obtain ⟨hlo, hhi⟩ := (inField_advances (by decide) hlen).trans (inField_advances (by decide) hnlen)
  have hc : Advances inp c c₂ := ⟨by simp only [ceil8] at hlo; omega, hhi⟩
  split_ifs
  exacts [trivial, hc, hc]

theorem dynCountsUnit_advances : (dynCountsUnit s inp c).CursorIn (Advances inp c) := by
  refine cursorIn_then _ fun hlit c₁ h₁ => cursorIn_then _ fun hdist c₂ h₂ => cursorIn_then _ fun hclen c₃ h₃ => ?_
  have hc := ((inField_advances (by decide) h₁).trans (inField_advances (by decide) h₂)).trans
    (inField_advances (by decide) h₃)
  split_ifs
  exacts [trivial, hc]

theorem dynClLenUnit_advances : (dynClLenUnit s inp c).CursorIn (Advances inp c) := by
  refine cursorIn_then _ fun w c₁ hw => ?_
  have hc := inField_advances (by decide) hw
  simp only
  split
  · split
    · trivial
    · exact hc
  · exact hc

theorem bodyUnit_advances : (bodyUnit s inp c).CursorIn (Advances inp c) := by
  refine cursorIn_then _ fun sym c₁ hsym => ?_
  have hc := decodeSym_advances hsym
  split_ifs
  · exact cursorIn_endUnit _ hc
  · exact hc
  · trivial
  · generalize lenExtra sym = width
    refine cursorIn_then _ fun e c₂ he => cursorIn_then _ fun d c₃ hd => ?_
    have hc₃ := (hc.trans_moves (inField_moves he)).trans (decodeSym_advances hd)
    split_ifs
    · trivial
    · generalize distExtra d = width
      refine cursorIn_then _ fun f c₄ hf => ?_
      simp only
      split_ifs
      · trivial
      · exact cursorIn_endUnit _ (hc₃.trans_moves (inField_moves hf))

/-- A DEFLATE parse unit that completes has read at least one bit. -/
theorem dflDecUnit_advances : (dflDecUnit s inp c).CursorIn (Advances inp c) := by
  unfold dflDecUnit
  split
  · exact headerUnit_advances s inp c
  · exact storedLenUnit_advances s inp c
  · exact cursorIn_then _ fun b c₁ hb => cursorIn_endUnit _ (inField_advances (by decide) hb)
  · exact dynCountsUnit_advances s inp c
  · exact dynClLenUnit_advances s inp c
  · exact cursorIn_then _ fun sym c₁ hsym => cursorIn_then _ fun add c₂ hadd =>
      cursorIn_endUnit _ ((decodeSym_advances hsym).trans_moves (dynLensAdd_moves hadd))
  · exact bodyUnit_advances s inp c

/-- An LZW parse unit that completes has read a code of the current width. -/
theorem lzwDecUnit_cursor : (lzwDecUnit s inp c).CursorIn fun c' =>
    c' = c + s.lz.width ∧ (s.lz.width = 0 ∨ c + s.lz.width ≤ 8 * inp.len) := by
  refine cursorIn_then _ fun code c₁ hcode => ?_
  have hc := inField_cursor hcode
  split_ifs
  exacts [hc, hc, cursorIn_endUnit _ hc]

end

section
variable {s t : State} {inp : Input} {c c' : Nat} (h : decodeUnit s inp c = .completed t c')
include h

/-- A parse unit that completes has read at least one bit, in an LZW session at a width of at least 1. -/
theorem decodeUnit_advances (hwidth : s.ses.mode = .lzwDec → s.lz.width ≠ 0) : Advances inp c c' := by
  unfold decodeUnit at h
  split at h
  · next hm =>
    have hcur := lzwDecUnit_cursor s inp c
    rw [h] at hcur
    obtain ⟨rfl, h0 | hle⟩ := hcur
    · exact absurd h0 (hwidth hm)
    · exact ⟨Nat.lt_add_of_pos_right (Nat.pos_of_ne_zero (hwidth hm)), hle⟩
  · have hcur := dflDecUnit_advances s inp c
    rw [h] at hcur
    exact hcur

/-- A code of width 0, which only a state without LzwDecOk reads, is a data code. -/
theorem decodeUnit_zeroWidth (hm : s.ses.mode = .lzwDec) (hwidth : s.lz.width = 0) :
    c' = c ∧ t.ses.sstate = s.ses.sstate := by
  have hclear : 1 ≤ s.clearCode := Nat.one_le_two_pow
  have hfield : fieldValue s.ses.ord [] = 0 := by cases s.ses.ord <;> rfl
  rw [decodeUnit, if_pos hm, lzwDecUnit, hwidth, inField_zero, Read.then_got, hfield, if_neg (by omega),
    if_neg (by simp only [State.clearCode, State.endCode] at *; omega)] at h
  have hdata : ∀ u, lzwData 0 s = .ok u → u.ses.sstate = s.ses.sstate := by
    intro u hu
    rw [lzwData] at hu
    split at hu
    · cases hu
    · next str _ =>
      split_ifs at hu
      obtain ⟨v, hv, hlearn⟩ := Run.andThen_eq_ok.mp hu
      have hsame := codecSame_outBytes str s
      rw [hv] at hsame
      cases hlearn
      refine Eq.trans ?_ hsame.sstate
      rw [lzwLearn]
      split <;> rfl
  cases hr : lzwData 0 s with
  | ok u =>
    rw [hr] at h
    cases h
    exact ⟨rfl, hdata _ hr⟩
  | fail u e => rw [hr] at h; cases h

/-- All that a parse unit which completes can do to the cursor. -/
theorem decodeUnit_cursor : Advances inp c c' ∨ (c' = c ∧ t.ses.sstate = s.ses.sstate) := by
  by_cases hzero : s.ses.mode = .lzwDec ∧ s.lz.width = 0
  · exact .inr (decodeUnit_zeroWidth h hzero.1 hzero.2)
  · exact .inl (decodeUnit_advances h fun hm hwidth => hzero ⟨hm, hwidth⟩)

end

/-! ### The loop (45 R346) -/

theorem isActive_iff (ses : Session) : ses.isActive = true ↔ ses.sstate = .active := by
  simp [Session.isActive]

/-- The cursor at which a loop over the input ended. -/
def LoopEnd.cursor : LoopEnd → Nat
  | .stopped _ c => c
  | .raised _ _ c => c

/-- The loop never leaves the input behind, and stops inside it where a unit ended the session. -/
theorem decodeLoop_cursor (inp : Input) (fuel : Nat) {c : Nat} {s : State} :
    (decodeLoop inp fuel c s).cursor ≤ max c (8 * inp.len) ∧
    ∀ u c', decodeLoop inp fuel c s = .stopped u c' → s.ses.sstate = .active → u.ses.sstate ≠ .active →
      c' ≤ 8 * inp.len := by
  induction fuel generalizing c s with
  | zero =>
    refine ⟨le_max_left _ _, fun u c' h ha hu => ?_⟩
    cases h
    exact absurd ha hu
  | succ fuel ih =>
    rw [decodeLoop]
    split_ifs with hact
    · cases hunit : decodeUnit s inp c with
      | needMore =>
        refine ⟨le_max_left _ _, fun u c' h ha hu => ?_⟩
        cases h
        exact absurd ha hu
      | raised u e => exact ⟨le_max_left _ _, fun u c' h => by cases h⟩
      | completed t c₁ =>
        obtain ⟨hmax, hdone⟩ := ih (c := c₁) (s := t)
        simp only
        rcases decodeUnit_cursor hunit with ⟨hlt, hle⟩ | ⟨rfl, hsame⟩
        · refine ⟨hmax.trans (by omega), fun u c' h ha hu => ?_⟩
          rw [h] at hmax
          simp only [LoopEnd.cursor] at hmax
          omega
        · exact ⟨hmax, fun u c' h ha hu => hdone u c' h (hsame.trans ha) hu⟩
    · rw [isActive_iff] at hact
      exact ⟨le_max_left _ _, fun u c' _ ha => absurd ha hact⟩

/-- A parse unit keeps the session's mode and, of an LZW session, the dictionary well (42 R208). -/
theorem decodeUnit_keeps {s t : State} {inp : Input} {c c' : Nat} (hok : LzwDecOk s)
    (h : decodeUnit s inp c = .completed t c') : LzwDecOk t := by
  have hmode := (feedFrame_decode.decodeUnit s inp c)
  rw [h] at hmode
  by_cases hm : s.ses.mode = .lzwDec
  · have hleaves := ((lzwDecOk_iff s).mp hok hm).unit inp c
    rw [decodeUnit, if_pos hm] at h
    rwa [h] at hleaves
  · exact fun hm' => absurd (hmode.setup.1.symm.trans hm') hm

theorem width_ne_zero_of_lzwDecOk {s : State} (hok : LzwDecOk s) (hm : s.ses.mode = .lzwDec) : s.lz.width ≠ 0 := by
  have := ((lzwDecOk_iff s).mp hok hm).minWidth
  omega

/-- The loop is the parse units one after another: its bound on their number is never reached (45 R346; log 15). -/
theorem decodeLoop_steps {inp : Input} {fuel c : Nat} {s : State} (hok : LzwDecOk s) (hfuel : 8 * inp.len - c < fuel) :
    DecodeSteps inp c s (decodeLoop inp fuel c s) := by
  induction fuel generalizing c s with
  | zero => exact absurd hfuel (Nat.not_lt_zero _)
  | succ fuel ih =>
    rw [decodeLoop]
    split_ifs with hact
    · rw [isActive_iff] at hact
      cases hunit : decodeUnit s inp c with
      | needMore => exact .needMore c s hact hunit
      | raised u e => exact .raised c s u e hact hunit
      | completed t c₁ =>
        obtain ⟨hlt, hle⟩ := decodeUnit_advances hunit (width_ne_zero_of_lzwDecOk hok)
        exact .completed c c₁ s t _ hact hunit (ih (decodeUnit_keeps hok hunit) (by omega))
    · rw [isActive_iff] at hact
      exact .ended c s hact

/-- The unit that a loop ended with an error in began in an ACTIVE session, at the cursor where the loop ended. -/
theorem decodeLoop_raised {inp : Input} {fuel c c' : Nat} {s u : State} {e : Err}
    (h : decodeLoop inp fuel c s = .raised u e c') :
    ∃ v, v.ses.sstate = .active ∧ decodeUnit v inp c' = .raised u e := by
  induction fuel generalizing c s with
  | zero => cases h
  | succ fuel ih =>
    rw [decodeLoop] at h
    split_ifs at h with hact
    rw [isActive_iff] at hact
    split at h
    · cases h
    · next hunit => cases h; exact ⟨s, hact, hunit⟩
    · exact ih h

end Sys2Proof.Machine
end

section
/-! SUPPORT. What FEED of an ACTIVE session consumes and reports, where it stores, and a decoder's FEED by the end of its loop (45 R346 to R349, R358). -/

namespace Sys2Proof.Machine

/-! ### FEED of a decoder by the end of its loop (45 R346, R347) -/

section
variable {s : State} {complete : Bool}

/-- FEED of an ACTIVE session is its processing. -/
theorem effects_feed_accepted (hacc : FeedAccepted s) :
    effects (.feed complete) (startCommand s) = feedProcess complete (startCommand s) :=
  feedEffects_accepted (s := startCommand s) hacc

theorem feedProcess_decoder (ha : s.ses.sstate = .active) (hdec : s.ses.isDecoder) :
    feedProcess complete s = feedDecode ⟨s.arg0, s.arg1⟩ complete s.ses.outLen s := by
  have hact : ¬ (!s.ses.isActive) = true := by simp [Session.isActive, ha]
  exact (if_neg hact).trans (if_pos hdec)

theorem feedProcess_encoder (ha : s.ses.sstate = .active) (hdec : ¬ s.ses.isDecoder) :
    feedProcess complete s = feedEncode ⟨s.arg0, s.arg1⟩ complete s.ses.outLen s := by
  have hact : ¬ (!s.ses.isActive) = true := by simp [Session.isActive, ha]
  exact (if_neg hact).trans (if_neg hdec)

end

/-- What FEED of a decoder makes of the end of its loop (45 R346, R347). -/
def decodeEnd (complete : Bool) (out0 : Word) (r : LoopEnd) : Run :=
  match r with
  | .raised u e c => sessionError e (c / 8) out0 u
  | .stopped u c =>
    if u.ses.isDone then .ok (feedResults (bytesOfBits c) out0 true (setBitpos 0 u))
    else if complete then sessionError Err.prematureEnd (c / 8) out0 (setBitpos (c % 8) u)
    else .ok (feedResults (c / 8) out0 true (setBitpos (c % 8) u))

theorem feedDecode_eq_decodeEnd (inp : Input) (complete : Bool) (out0 : Word) (s : State) :
    feedDecode inp complete out0 s =
      decodeEnd complete out0 (decodeLoop inp (8 * inp.len + 1) s.ses.bitpos.toNat s) := by
  rw [feedDecode]
  cases decodeLoop inp (8 * inp.len + 1) s.ses.bitpos.toNat s <;> rfl

section
variable {complete : Bool} {out0 : Word} {u : State} {c : Nat}

theorem decodeEnd_done (hd : u.ses.sstate = .done) : decodeEnd complete out0 (.stopped u c) =
    .ok (feedResults (bytesOfBits c) out0 true (setBitpos 0 u)) :=
  if_pos (by simp [Session.isDone, hd])

theorem decodeEnd_active (ha : u.ses.sstate = .active) : decodeEnd complete out0 (.stopped u c) =
    if complete then sessionError Err.prematureEnd (c / 8) out0 (setBitpos (c % 8) u)
    else .ok (feedResults (c / 8) out0 true (setBitpos (c % 8) u)) :=
  if_neg (by simp [Session.isDone, ha])

end

/-- The whole bytes that a decoder's loop has consumed where it ends (45 R346, R347). -/
def LoopEnd.consumed : LoopEnd → Nat
  | .raised _ _ c => c / 8
  | .stopped u c => if u.ses.isDone then bytesOfBits c else c / 8

theorem decodeEnd_res0 (complete : Bool) (out0 : Word) (r : LoopEnd) :
    (decodeEnd complete out0 r).state.res0 = word r.consumed := by
  cases r with
  | raised u e c => rfl
  | stopped u c =>
    simp only [decodeEnd, LoopEnd.consumed]
    split_ifs <;> rfl

/-- FEED of an ACTIVE decoder session runs its loop and ends as the loop's end says. -/
theorem effects_feed_decoder {s : State} {complete : Bool} (hacc : FeedAccepted s) (ha : s.ses.sstate = .active)
    (hdec : s.ses.isDecoder) : effects (.feed complete) (startCommand s) = decodeEnd complete s.ses.outLen
      (decodeLoop ⟨s.arg0, s.arg1⟩ (8 * s.arg1 + 1) s.ses.bitpos.toNat (startCommand s)) := by
  rw [effects_feed_accepted hacc, feedProcess_decoder (s := startCommand s) ha hdec, feedDecode_eq_decodeEnd]
  rfl

/-- The loop leaves the session ACTIVE or DONE where it does not end in an error. -/
theorem decodeLoop_stopped_sstate {inp : Input} {fuel c c' : Nat} {s u : State} (ha : s.ses.sstate = .active)
    (h : decodeLoop inp fuel c s = .stopped u c') : u.ses.sstate = .active ∨ u.ses.sstate = .done := by
  have hframe := feedFrame_decode.decodeLoop inp fuel c s
  rw [h] at hframe
  exact hframe.sstate.imp_left (·.trans ha)

/-! ### The bytes consumed (45 R349) -/

/-- The effects wrote RES0 with a number of bytes that are there. -/
def ConsumedWithin (len : Nat) (r : Run) : Prop := ∃ n ≤ len, r.state.res0 = word n

theorem decodeLoop_consumed_le (inp : Input) {s : State} (ha : s.ses.sstate = .active) :
    (decodeLoop inp (8 * inp.len + 1) s.ses.bitpos.toNat s).consumed ≤ inp.len := by
  have hbitpos := s.ses.bitpos.isLt
  obtain ⟨hmax, hdone⟩ := decodeLoop_cursor inp (8 * inp.len + 1) (c := s.ses.bitpos.toNat) (s := s)
  cases hloop : decodeLoop inp (8 * inp.len + 1) s.ses.bitpos.toNat s with
  | raised u e c =>
    rw [hloop] at hmax
    simp only [LoopEnd.cursor] at hmax
    simp only [LoopEnd.consumed]
    omega
  | stopped u c =>
    rw [hloop] at hmax
    simp only [LoopEnd.cursor] at hmax
    simp only [LoopEnd.consumed]
    rcases decodeLoop_stopped_sstate ha hloop with hu | hu
    · rw [if_neg (by simp [Session.isDone, hu])]
      omega
    · have hle := hdone u c hloop ha (by rw [hu]; decide)
      rw [if_pos (by simp [Session.isDone, hu]), bytesOfBits]
      omega

theorem feedDecode_consumed (inp : Input) (complete : Bool) (out0 : Word) {s : State} (ha : s.ses.sstate = .active) :
    ConsumedWithin inp.len (feedDecode inp complete out0 s) :=
  ⟨_, decodeLoop_consumed_le inp ha, by rw [feedDecode_eq_decodeEnd, decodeEnd_res0]⟩

theorem encodeLoop_raised_le {inp : Input} {left j i : Nat} {s u : State} {e : Err}
    (h : encodeLoop inp left j s = .raised u e i) : i ≤ j + left := by
  induction left generalizing j s with
  | zero => cases h
  | succ left ih =>
    rw [encodeLoop] at h
    split at h
    · have := ih h
      omega
    · cases h
      exact Nat.le_add_right _ _

theorem feedEncode_consumed (inp : Input) (complete : Bool) (out0 : Word) (s : State) :
    ConsumedWithin inp.len (feedEncode inp complete out0 s) := by
  unfold feedEncode
  split
  · next hloop => exact ⟨_, (encodeLoop_raised_le hloop).trans (Nat.zero_add _).le, rfl⟩
  · split
    · split
      · exact ⟨_, le_rfl, rfl⟩
      · exact ⟨_, le_rfl, rfl⟩
    · exact ⟨_, le_rfl, rfl⟩

theorem feedProcess_consumed (complete : Bool) {s : State} (ha : s.ses.sstate = .active) :
    ConsumedWithin s.arg1 (feedProcess complete s) := by
  by_cases hdec : s.ses.isDecoder
  · rw [feedProcess_decoder ha hdec]
    exact feedDecode_consumed ⟨s.arg0, s.arg1⟩ complete _ ha
  · rw [feedProcess_encoder ha hdec]
    exact feedEncode_consumed ⟨s.arg0, s.arg1⟩ complete _ s

/-! ### The report of a FEED (45 R349, R358) -/

theorem setBitpos_self (s : State) : setBitpos s.ses.bitpos.toNat s = s := by
  simp only [setBitpos, BitVec.ofNat_toNat, BitVec.setWidth_eq]

/-- A FEED of an ACTIVE session ends with its results or in a session error, of a state that its processing reaches and
some S_BITPOS. -/
theorem feedProcess_ended (complete : Bool) {s : State} (ha : s.ses.sstate = .active) :
    ∃ u b n, FeedFrame s u ∧
      (feedProcess complete s = .ok (feedResults n s.ses.outLen true (setBitpos b u)) ∨
      ∃ e, feedProcess complete s = sessionError e n s.ses.outLen (setBitpos b u)) := by
  obtain ⟨u, n, hu, h⟩ := feedProcess_cases complete s ha (fun _ => feedFrame_decode) (fun _ => feedFrame_encode)
  rcases h with h | ⟨b, h⟩ | ⟨b, e, h⟩ | ⟨e, h⟩
  · exact ⟨u, u.ses.bitpos.toNat, n, hu, .inl (by rwa [setBitpos_self])⟩
  · exact ⟨u, b, n, hu, .inl h⟩
  · exact ⟨u, b, n, hu, .inr ⟨e, h⟩⟩
  · exact ⟨u, u.ses.bitpos.toNat, n, hu, .inr ⟨e, by rwa [setBitpos_self]⟩⟩

section
variable {s u : State} (h : OnlySession s u)
include h

theorem OnlySession.setBitpos (n : Nat) : OnlySession s (setBitpos n u) := h
theorem OnlySession.markSessionError (e : Err) : OnlySession s (markSessionError e u) := h
theorem OnlySession.feedResults (n : Nat) (out0 : Word) (clean : Bool) : OnlySession s (feedResults n out0 clean u) := h
theorem OnlySession.finishCommand : OnlySession s (finishCommand u) := h
theorem OnlySession.raiseError (e : Err) : OnlySession s (raiseError e u) := h

end

theorem FeedFrame.onlySession {s u : State} (h : FeedFrame (startCommand s) u) : OnlySession s u :=
  ⟨h.host, h.bs, h.huf⟩

/-- What a FEED of an ACTIVE session reports, its RES0 aside, and leaves unchanged. -/
def FeedReport (s t : State) : Prop :=
  t.res1 = t.ses.outLen - s.ses.outLen ∧ t.res2 = t.ses.outLen ∧
  t.ses.totalIn = s.ses.totalIn + t.res0 ∧ SessionSetupSame s t ∧ OnlySession s t ∧
  t.busy = false ∧ t.raced = [] ∧ t.status.overrun = s.status.overrun ∧
  t.status.done = (t.ses.sstate == .done) ∧
  t.status.needMore = (!t.status.err && t.ses.sstate == .active) ∧
  (t.status.err = false → t.status.errCode = 0 ∧ t.errDetail = 0 ∧ t.ses.sstate ≠ .error) ∧
  (t.status.err = true → t.status.errCode = t.ses.serr ∧ t.errDetail = t.ses.serrDetail ∧
    t.ses.sstate = .error ∧ t.ses.bitpos = 0)

section
variable {s u : State} (hu : FeedFrame (startCommand s) u) (b n : Nat)
include hu

theorem feedReport_ok (ha : s.ses.sstate = .active) :
    FeedReport s (finishCommand (feedResults n s.ses.outLen true (setBitpos b u))) := by
  have hoverrun : u.status.overrun = s.status.overrun := by rw [hu.status]; rfl
  have herr : u.status.err = false := congrArg Status.err hu.status
  have hstate : u.ses.sstate ≠ .error := by
    rcases hu.sstate with h | h
    · rw [h, startCommand_ses, ha]; decide
    · rw [h]; decide
  refine ⟨rfl, rfl, congrArg (· + word n) hu.totalIn, hu.setup,
    ((hu.onlySession.setBitpos b).feedResults n _ true).finishCommand, rfl, rfl, hoverrun, rfl, ?_, fun _ => ⟨congrArg Status.errCode hu.status, hu.errDetail, hstate⟩,
    fun h => absurd (herr.symm.trans h) (by decide)⟩
  show (true && u.ses.isActive) = (!u.status.err && u.ses.isActive)
  rw [herr]
  rfl

theorem feedReport_error (e : Err) :
    FeedReport s (raiseError e (feedResults n s.ses.outLen false (markSessionError e (setBitpos b u)))) := by
  have hoverrun : u.status.overrun = s.status.overrun := by rw [hu.status]; rfl
  exact ⟨rfl, rfl, congrArg (· + word n) hu.totalIn, hu.setup,
    (((hu.onlySession.setBitpos b).markSessionError e).feedResults n _ false).raiseError e, rfl, rfl, hoverrun, rfl, rfl, fun h => absurd h (by rintro ⟨⟩), fun _ => ⟨rfl, rfl, rfl, rfl⟩⟩

end

theorem feedReport {s : State} (complete : Bool) (hacc : FeedAccepted s) (ha : s.ses.sstate = .active) :
    FeedReport s (effects (.feed complete) (startCommand s)).finish := by
  obtain ⟨u, b, n, hu, h⟩ := feedProcess_ended complete (s := startCommand s) ha
  rw [effects_feed_accepted hacc]
  rcases h with h | ⟨e, h⟩ <;> rw [h]
  · exact feedReport_ok hu b n ha
  · exact feedReport_error hu b n e

@[simp] theorem Run.finish_res0 (r : Run) : r.finish.res0 = r.state.res0 := by cases r <;> rfl

/-- Settles O39: what the processing leaves alone, and the results that FEED then writes of it. -/
theorem feedReportsWhatItDid : Obligations.FeedReportsWhatItDid := by
  intro complete s hacc ha
  obtain ⟨k, hk, hres0⟩ := feedProcess_consumed complete (s := startCommand s) ha
  refine (completes_iff _ _ _).mpr ⟨?_, feedReport complete hacc ha⟩
  rw [effects_feed_accepted hacc, Run.finish_res0, hres0, BitVec.toNat_ofNat]
  exact (Nat.mod_le _ _).trans hk

/-! ### Where a FEED stores (45 R355, R357; 44 R294) -/

/-- What a FEED adds to the output and the history is what it stores to. -/
theorem Processed.storesOnly {s u : State} (hu : Processed (startCommand s) u) (hregions : RegionsOk s) :
    MemorySameOutside (FeedStores s u) s (finishCommand u) ∧
    s.ses.outLen.toNat ≤ u.ses.outLen.toNat ∧ s.ses.histLen.toNat ≤ u.ses.histLen.toNat := by
  obtain ⟨-, -, -, -, hwrites, hout, hhist, -⟩ := hu.writes rfl ((regionsOk_iff s).mp hregions).2
  exact ⟨hwrites.memorySameOutside, hout, hhist⟩

/-- Settles O40: the processing writes only what it adds, and the results write no memory. -/
theorem feedStoresOnlyWhatItAdds : Obligations.FeedStoresOnlyWhatItAdds := by
  intro complete s hregions hacc ha
  obtain ⟨u, n, hu, h⟩ := feedProcess_ends complete (startCommand s) hacc.1 ha
  rw [completes_iff, effects_feed_accepted hacc]
  rcases h with h | ⟨e, h⟩ <;> rw [h]
  · exact hu.storesOnly hregions
  · exact hu.storesOnly hregions

/-! ### A FEED whose first parse unit lacks input (45 R345, R346) -/

/-- Settles O41: the loop stops where it began, and FEED reports nothing consumed and nothing added. -/
theorem feedWithoutAWholeUnit : Obligations.FeedWithoutAWholeUnit := by
  intro s hacc ha hdec hunit
  have hact : (startCommand s).ses.isActive = true := (isActive_iff _).mpr ha
  have hloop : decodeLoop ⟨s.arg0, s.arg1⟩ (8 * s.arg1 + 1) s.ses.bitpos.toNat (startCommand s) =
      .stopped (startCommand s) s.ses.bitpos.toNat := by
    rw [decodeLoop, if_pos hact, hunit]
  have hbitpos : s.ses.bitpos.toNat / 8 = 0 ∧ s.ses.bitpos.toNat % 8 = s.ses.bitpos.toNat := by
    have := s.ses.bitpos.isLt
    omega
  have hself : setBitpos s.ses.bitpos.toNat (startCommand s) = startCommand s := setBitpos_self (startCommand s)
  have hanswer : feedResults 0 s.ses.outLen true (startCommand s) =
      { afterEndAnswer s with status := { s.status.atStart with needMore := true } } := by
    have htotal : s.ses.totalIn + word 0 = s.ses.totalIn := BitVec.add_zero _
    have hadded : s.ses.outLen - s.ses.outLen = 0 := BitVec.sub_self _
    simp only [feedResults, startCommand_ses, htotal, hadded, Bool.true_and]
    simp only [startCommand_ses] at hact
    rw [hact]
    rfl
  have heffects : effects (.feed false) (startCommand s) =
      .ok { afterEndAnswer s with status := { s.status.atStart with needMore := true } } := by
    rw [effects_feed_decoder hacc ha hdec, hloop, decodeEnd_active (u := startCommand s) ha, hbitpos.1, hbitpos.2, hself]
    exact congrArg Run.ok hanswer
  obtain ⟨hres, honly⟩ := afterEndAnswer_onlyResults s
  have hdone : s.ses.isDone = false := by simp [Session.isDone, ha]
  refine completes_ok heffects ⟨hres, honly, rfl, rfl, ?_⟩
  show { s.status.atStart with needMore := true, done := s.ses.isDone } = _
  rw [hdone]
  rfl
end Sys2Proof.Machine
end

section
/-! SUPPORT. A decoder's parse units see only the codec, the memory and the input bits that are there: the same unit, on the same bits at another place or followed by more of them, has the same outcome (45 R345, R351). -/

namespace Sys2Proof.Machine

/-! ### The same decoder in two states -/

/-- Without races, memory and the session's decoder are the same in both states, S_BITPOS and S_TOTAL_IN aside. -/
structure SameDecoder (s t : State) : Prop where
  racedLeft : s.raced = []
  racedRight : t.raced = []
  par : t.par = s.par
  epoch : t.powerEpoch = s.powerEpoch
  mem : t.mem = s.mem
  ses : t.ses = { s.ses with bitpos := t.ses.bitpos, totalIn := t.ses.totalIn }
  lz : t.lz = s.lz
  df : t.df = s.df

theorem SameDecoder.refl {s : State} (h : s.raced = []) : SameDecoder s s := ⟨h, h, rfl, rfl, rfl, rfl, rfl, rfl⟩

theorem SameDecoder.symm {s t : State} (h : SameDecoder s t) : SameDecoder t s where
  racedLeft := h.racedRight
  racedRight := h.racedLeft
  par := h.par.symm
  epoch := h.epoch.symm
  mem := h.mem.symm
  ses := by rw [h.ses]
  lz := h.lz.symm
  df := h.df.symm

theorem SameDecoder.trans {s t u : State} (h : SameDecoder s t) (h' : SameDecoder t u) : SameDecoder s u where
  racedLeft := h.racedLeft
  racedRight := h'.racedRight
  par := h'.par.trans h.par
  epoch := h'.epoch.trans h.epoch
  mem := h'.mem.trans h.mem
  ses := by rw [h'.ses, h.ses]
  lz := h'.lz.trans h.lz
  df := h'.df.trans h.df

section
variable {s t : State} (h : SameDecoder s t)
include h

theorem SameDecoder.mode : t.ses.mode = s.ses.mode := by rw [h.ses]
theorem SameDecoder.ord : t.ses.ord = s.ses.ord := by rw [h.ses]
theorem SameDecoder.lit : t.ses.lit = s.ses.lit := by rw [h.ses]
theorem SameDecoder.sstate : t.ses.sstate = s.ses.sstate := by rw [h.ses]
theorem SameDecoder.outBase : t.ses.outBase = s.ses.outBase := by rw [h.ses]
theorem SameDecoder.outCap : t.ses.outCap = s.ses.outCap := by rw [h.ses]
theorem SameDecoder.outLen : t.ses.outLen = s.ses.outLen := by rw [h.ses]
theorem SameDecoder.outBits : t.ses.outBits = s.ses.outBits := by rw [h.ses]

theorem SameDecoder.engByte (site site' : List Nat) (a : Nat) : t.engByte site a = s.engByte site' a := by
  rw [State.engByte_of_no_race h.racedRight, State.engByte_of_no_race h.racedLeft, State.memByte_congr h.mem h.epoch]

theorem SameDecoder.setDf {df df' : DflDec} (hdf : df' = df) : SameDecoder (s.setDf df) (t.setDf df') :=
  { h with df := hdf }

theorem SameDecoder.setLz {lz lz' : LzwDec} (hlz : lz' = lz) : SameDecoder { s with lz := lz } { t with lz := lz' } :=
  { h with lz := hlz }

theorem SameDecoder.sessionDone : SameDecoder (sessionDone s) (sessionDone t) :=
  { h with ses := congrArg (fun ses : Session => { ses with sstate := .done }) h.ses }

theorem SameDecoder.endBlock : SameDecoder (endBlock s) (endBlock t) := by
  unfold Sys2Proof.Machine.endBlock
  rw [h.df]
  split
  · exact h.sessionDone
  · exact h.setDf rfl

/-- The end of a stored block after its last byte (43 R248). -/
theorem SameDecoder.endOfData : SameDecoder (if s.df.remaining = 0 then Sys2Proof.Machine.endBlock s else s)
    (if t.df.remaining = 0 then Sys2Proof.Machine.endBlock t else t) := by
  rw [h.df]
  split_ifs
  · exact h.endBlock
  · exact h

theorem SameDecoder.lzwReset : SameDecoder (lzwReset s) (lzwReset t) := by
  obtain ⟨hlit, hfirst, -, -⟩ := codes_of_lit h.lit
  unfold Sys2Proof.Machine.lzwReset
  exact h.setLz (by rw [hlit, hfirst])

theorem SameDecoder.lzwLearn (c : Nat) (str : List Byte) : SameDecoder (lzwLearn c str s) (lzwLearn c str t) := by
  have hstr := lzwStr_congr h.lit h.lz
  unfold Sys2Proof.Machine.lzwLearn
  rw [h.lz]
  cases s.lz.prev with
  | none => exact h.setLz rfl
  | some p => exact h.setLz (by rw [h.par, hstr])

end

/-! ### Effects (45 R345) -/

/-- The two runs end alike, in states with the same decoder. -/
inductive SameRun : Run → Run → Prop where
  | ok {s t : State} : SameDecoder s t → SameRun (.ok s) (.ok t)
  | fail {s t : State} (e : Err) : SameDecoder s t → SameRun (.fail s e) (.fail t e)

theorem SameRun.andThen {r r' : Run} {f g : State → Run} (h : SameRun r r')
    (hf : ∀ s t, SameDecoder s t → SameRun (f s) (g t)) : SameRun (r.andThen f) (r'.andThen g) := by
  cases h with
  | ok h => exact hf _ _ h
  | fail e h => exact .fail e h

section
variable {s t : State} (h : SameDecoder s t)
include h

theorem SameDecoder.outByte (b : Byte) : SameRun (outByte b s) (outByte b t) := by
  unfold Sys2Proof.Machine.outByte
  rw [h.outLen, h.outCap, h.outBase, h.outBits]
  split
  · exact .fail _ h
  · refine .ok { h with racedLeft := ?_, racedRight := ?_, mem := ?_, ses := ?_ }
    · exact congrArg (markWritten · _) h.racedLeft
    · exact congrArg (markWritten · _) h.racedRight
    · exact congrArg (Memory.put · _ b) h.mem
    · exact congrArg (fun ses : Session => { ses with outLen := s.ses.outLen + 1, outBits := s.ses.outBits + 8 }) h.ses

theorem SameDecoder.outBytes (bytes : List Byte) : SameRun (Run.each Sys2Proof.Machine.outByte bytes s)
    (Run.each Sys2Proof.Machine.outByte bytes t) := by
  induction bytes generalizing s t with
  | nil => exact .ok h
  | cons b rest ih => exact (h.outByte b).andThen fun _ _ h' => ih h'

theorem SameDecoder.copyBack (dist len : Nat) : SameRun (copyBack dist len s) (copyBack dist len t) := by
  induction len generalizing s t with
  | zero => exact .ok h
  | succ len ih =>
    rw [Sys2Proof.Machine.copyBack, Sys2Proof.Machine.copyBack, h.outLen, h.outBase, h.engByte _ [s.ses.outLen.toNat]]
    exact (h.outByte _).andThen fun _ _ h' => ih h'

theorem SameDecoder.lzwData (c : Nat) : SameRun (lzwData c s) (lzwData c t) := by
  unfold Sys2Proof.Machine.lzwData
  rw [lzwDecoded_congr h.lit h.lz, h.lz]
  split
  · exact .fail _ h
  · split
    · exact .fail _ h
    · exact (h.outBytes _).andThen fun _ _ h' => .ok (h'.lzwLearn c _)

theorem SameDecoder.dynLensEffects (add : List Nat) : SameRun (dynLensEffects add s) (dynLensEffects add t) := by
  have hlens : s.df.lens ++ add = t.df.lens ++ add := by rw [h.df]
  have htotal : t.df.nlit + t.df.ndist = s.df.nlit + s.df.ndist := by rw [h.df]
  have hnlit : t.df.nlit = s.df.nlit := by rw [h.df]
  rcases lt_trichotomy (s.df.lens ++ add).length (s.df.nlit + s.df.ndist) with hmore | hall | hpast
  · rw [dynLensEffects_more rfl hmore, dynLensEffects_more hlens (htotal ▸ hmore)]
    exact .ok (h.setDf (by rw [h.df]))
  · have hall' := hall.trans htotal.symm
    have hnone : ∀ e, canon ((s.df.lens ++ add).take s.df.nlit) = .error e ∨
        canon ((s.df.lens ++ add).drop s.df.nlit) = .error e →
        SameRun (Sys2Proof.Machine.dynLensEffects add s) (Sys2Proof.Machine.dynLensEffects add t) := fun e he => by
      rw [dynLensEffects_noTable rfl hall he, dynLensEffects_noTable hlens hall' (hnlit.symm ▸ he)]
      exact .fail _ (h.setDf (by rw [h.df]))
    cases hlit : canon ((s.df.lens ++ add).take s.df.nlit) with
    | error e => exact hnone e (.inl hlit)
    | ok lit =>
      cases hdist : canon ((s.df.lens ++ add).drop s.df.nlit) with
      | error e => exact hnone e (.inr hdist)
      | ok dist =>
        rw [dynLensEffects_tables rfl hall hlit hdist,
          dynLensEffects_tables hlens hall' (hnlit.symm ▸ hlit) (hnlit.symm ▸ hdist)]
        exact .ok (h.setDf (by rw [h.df]))
  · rw [dynLensEffects_pastEnd rfl hpast, dynLensEffects_pastEnd hlens (htotal ▸ hpast)]
    exact .fail _ h

end

/-! ### Input bits at another place, or with more behind them -/

/-- Every bit of the input `inp` is one of `inp'`, bit 8a of the first standing where bit 8b of the second does. -/
def BitsCovered (inp inp' : Input) (a b : Nat) : Prop :=
  ∀ c c', c' + 8 * a = c + 8 * b → c < 8 * inp.len → c' < 8 * inp'.len ∧ inp'.base + c' / 8 = inp.base + c / 8

/-- Where the first read found its input, the second one answers alike, at the corresponding cursor. -/
inductive ReadCovered (a b : Nat) {α : Type} : Read α → Read α → Prop where
  | lacks (r : Read α) : ReadCovered a b .needMore r
  | got (v : α) {c c' : Nat} : c' + 8 * a = c + 8 * b → ReadCovered a b (.got v c) (.got v c')
  | bad (e : Err) : ReadCovered a b (.bad e) (.bad e)

/-- Where the first unit found its input, the second one ends alike, at the corresponding cursor. -/
inductive UnitCovered (a b : Nat) : UnitResult → UnitResult → Prop where
  | lacks (r : UnitResult) : UnitCovered a b .needMore r
  | raised (e : Err) {s t : State} : SameDecoder s t → UnitCovered a b (.raised s e) (.raised t e)
  | completed {s t : State} {c c' : Nat} : SameDecoder s t → c' + 8 * a = c + 8 * b →
      UnitCovered a b (.completed s c) (.completed t c')

section
variable {a b : Nat}

theorem ReadCovered.andThen {α β : Type} {r r' : Read α} {f g : α → Nat → Read β} (h : ReadCovered a b r r')
    (hf : ∀ v c c', c' + 8 * a = c + 8 * b → ReadCovered a b (f v c) (g v c')) :
    ReadCovered a b (r.andThen f) (r'.andThen g) := by
  cases h with
  | lacks => exact .lacks _
  | got v hc => exact hf v _ _ hc
  | bad e => exact .bad e

theorem ReadCovered.thenUnit {α : Type} {r r' : Read α} {f g : α → Nat → UnitResult} {s t : State}
    (h : ReadCovered a b r r') (hs : SameDecoder s t)
    (hf : ∀ v c c', c' + 8 * a = c + 8 * b → UnitCovered a b (f v c) (g v c')) :
    UnitCovered a b (r.then s f) (r'.then t g) := by
  cases h with
  | lacks => exact .lacks _
  | got v hc => exact hf v _ _ hc
  | bad e => exact .raised e hs

theorem SameRun.endUnit {r r' : Run} (h : SameRun r r') {c c' : Nat} (hc : c' + 8 * a = c + 8 * b) :
    UnitCovered a b (r.endUnit c) (r'.endUnit c') := by
  cases h with
  | ok h => exact .completed h hc
  | fail e h => exact .raised e h

end

/-- More input does not change what the bit-by-bit loop found in less of it (41 R171, 43 R245). -/
theorem symbolLoop_covered {t : HufTable} {next next' : Nat → Option Bool}
    (hnext : ∀ n bit, next n = some bit → next' n = some bit) (fuel v n : Nat) :
    (symbolLoop t next fuel v n).1 = .needMore ∨ symbolLoop t next' fuel v n = symbolLoop t next fuel v n := by
  induction fuel generalizing v n with
  | zero => exact .inl rfl
  | succ fuel ih =>
    rw [symbolLoop, symbolLoop]
    cases t.lookup v n with
    | found a k => exact .inr rfl
    | malformed => exact .inr rfl
    | needMore =>
      cases hbit : next n with
      | none => exact .inl rfl
      | some bit =>
        rw [hnext n bit hbit]
        exact ih _ _

section
variable {s t : State} (h : SameDecoder s t) {inp inp' : Input} {a b : Nat} (hin : BitsCovered inp inp' a b)
  {c c' : Nat} (hc : c' + 8 * a = c + 8 * b)
include h hin hc

theorem inBit_covered {bit : Bool} (hbit : inBit s inp c = some bit) : inBit t inp' c' = some bit := by
  rcases Nat.lt_or_ge c (8 * inp.len) with hlt | hge
  · obtain ⟨hlt', hplace⟩ := hin c c' hc hlt
    have hpos : bitPos s.ses.ord c' = bitPos s.ses.ord c := bitPos_inj.mpr (by omega)
    rw [← hbit, inBit_of_lt hlt, inBit_of_lt hlt', State.inputBit, State.inputBit, State.bitAt, State.bitAt, h.ord,
      hplace, hpos, h.engByte _ [c]]
  · rw [inBit_of_ge hge] at hbit
    cases hbit

theorem inBits_covered {w : Nat} {bits : List Bool} (hbits : inBits s inp w c = some bits) :
    inBits t inp' w c' = some bits := by
  induction w generalizing c c' bits with
  | zero => exact hbits
  | succ w ih =>
    rw [inBits] at hbits ⊢
    cases hbit : inBit s inp c with
    | none => rw [hbit] at hbits; cases hbits
    | some bit =>
      rw [hbit] at hbits
      obtain ⟨rest, hrest, rfl⟩ := Option.map_eq_some_iff.mp hbits
      simp only [inBit_covered h hin hc hbit, ih (c := c + 1) (c' := c' + 1) (by omega) hrest, Option.map_some]

theorem inField_covered (w : Nat) : ReadCovered a b (inField s inp w c) (inField t inp' w c') := by
  unfold inField
  cases hbits : inBits s inp w c with
  | none => exact .lacks _
  | some bits =>
    rw [inBits_covered h hin hc hbits, h.ord]
    exact .got _ (by omega)

theorem decodeSym_covered (table : HufTable) : ReadCovered a b (decodeSym s inp table c) (decodeSym t inp' table c') := by
  have hloop := symbolLoop_covered (t := table) (next := fun n => inBit s inp (c + n))
    (next' := fun n => inBit t inp' (c' + n)) (fun n bit => inBit_covered h hin (by omega)) (table.maxw + 2) 0 0
  unfold decodeSym HufTable.readSymbol
  rcases hloop with hlacks | hsame
  · simp only [hlacks]
    exact .lacks _
  · simp only [hsame]
    cases (symbolLoop table (fun n => inBit s inp (c + n)) (table.maxw + 2) 0 0).1 with
    | found sym k => exact .got _ (by omega)
    | needMore => exact .lacks _
    | malformed => exact .bad _

theorem dynLensAdd_covered (sym : Nat) : ReadCovered a b (dynLensAdd s inp sym c) (dynLensAdd t inp' sym c') := by
  rw [dynLensAdd_eq, dynLensAdd_eq, h.df]
  refine (inField_covered h hin hc _).andThen fun extra c₁ c₁' hc₁ => ?_
  unfold addedWidths
  split_ifs
  · exact .got _ hc₁
  · split
    · exact .bad _
    · exact .got _ hc₁
  · exact .got _ hc₁
  · exact .got _ hc₁

/-! ### The parse units -/

theorem headerUnit_covered : UnitCovered a b (headerUnit s inp c) (headerUnit t inp' c') := by
  refine (inField_covered h hin hc 1).thenUnit h fun f c₁ c₁' hc₁ =>
    (inField_covered h hin hc₁ 2).thenUnit h fun bt c₂ c₂' hc₂ => ?_
  simp only [h.df]
  split_ifs
  · exact .raised _ h
  · exact .completed (h.setDf rfl) hc₂
  · exact .completed (h.setDf rfl) hc₂
  · exact .completed (h.setDf rfl) hc₂

theorem storedLenUnit_covered : UnitCovered a b (storedLenUnit s inp c) (storedLenUnit t inp' c') := by
  have haligned : ceil8 c' + 8 * a = ceil8 c + 8 * b := by simp only [ceil8]; omega
  refine (inField_covered h hin haligned 16).thenUnit h fun len c₁ c₁' hc₁ =>
    (inField_covered h hin hc₁ 16).thenUnit h fun nlen c₂ c₂' hc₂ => ?_
  simp only [State.setDf_df, h.df]
  split_ifs
  · exact .raised _ h
  · exact .completed (h.setDf rfl).endBlock hc₂
  · exact .completed ((h.setDf rfl).setDf rfl) hc₂

theorem storedDataUnit_covered : UnitCovered a b (storedDataUnit s inp c) (storedDataUnit t inp' c') := by
  refine (inField_covered h hin hc 8).thenUnit h fun byte c₁ c₁' hc₁ => SameRun.endUnit ?_ hc₁
  refine (h.outByte _).andThen fun u v h' => ?_
  exact .ok (h'.setDf (by rw [h'.df])).endOfData

theorem dynCountsUnit_covered : UnitCovered a b (dynCountsUnit s inp c) (dynCountsUnit t inp' c') := by
  refine (inField_covered h hin hc 5).thenUnit h fun hlit c₁ c₁' hc₁ =>
    (inField_covered h hin hc₁ 5).thenUnit h fun hdist c₂ c₂' hc₂ =>
    (inField_covered h hin hc₂ 4).thenUnit h fun hclen c₃ c₃' hc₃ => ?_
  simp only [h.df]
  split_ifs
  · exact .raised _ h
  · exact .completed (h.setDf rfl) hc₃

theorem dynClLenUnit_covered : UnitCovered a b (dynClLenUnit s inp c) (dynClLenUnit t inp' c') := by
  have hread := inField_covered h hin hc 3
  generalize hr : inField s inp 3 c = r at hread
  generalize hr' : inField t inp' 3 c' = r' at hread
  cases hread with
  | lacks => rw [dynClLenUnit, hr]; exact .lacks _
  | bad e => rw [dynClLenUnit, dynClLenUnit, hr, hr']; exact .raised e h
  | @got w c₁ c₁' hc₁ =>
    generalize hclw : s.df.clw.set (clOrder.getD s.df.cli 0) w = clw
    have hclw' : clw = t.df.clw.set (clOrder.getD t.df.cli 0) w := by rw [h.df, hclw]
    by_cases hlast : s.df.cli + 1 = s.df.ncl
    · obtain ⟨hfail, hok⟩ := dynClLenUnit_last hr hclw.symm hlast
      obtain ⟨hfail', hok'⟩ := dynClLenUnit_last hr' hclw' (by rw [h.df, hlast])
      cases hcanon : canon clw with
      | error e => rw [hfail e hcanon, hfail' e hcanon]; exact .raised _ (h.setDf (by rw [h.df]))
      | ok table => rw [hok table hcanon, hok' table hcanon]; exact .completed (h.setDf (by rw [h.df])) hc₁
    · rw [dynClLenUnit_more hr hclw.symm hlast, dynClLenUnit_more hr' hclw' (by rwa [h.df])]
      exact .completed (h.setDf (by rw [h.df])) hc₁

theorem dynLensUnit_covered : UnitCovered a b (dynLensUnit s inp c) (dynLensUnit t inp' c') := by
  unfold dynLensUnit
  rw [h.df]
  exact (decodeSym_covered h hin hc _).thenUnit h fun sym c₁ c₁' hc₁ =>
    (dynLensAdd_covered h hin hc₁ sym).thenUnit h fun add c₂ c₂' hc₂ => (h.dynLensEffects add).endUnit hc₂

theorem bodyUnit_covered : UnitCovered a b (bodyUnit s inp c) (bodyUnit t inp' c') := by
  unfold bodyUnit
  rw [h.df]
  refine (decodeSym_covered h hin hc _).thenUnit h fun sym c₁ c₁' hc₁ => ?_
  split_ifs
  · exact (h.outByte _).endUnit hc₁
  · exact .completed h.endBlock hc₁
  · exact .raised _ h
  · generalize lenExtra sym = width
    refine (inField_covered h hin hc₁ width).thenUnit h fun e c₂ c₂' hc₂ =>
      (decodeSym_covered h hin hc₂ _).thenUnit h fun d c₃ c₃' hc₃ => ?_
    split_ifs
    · exact .raised _ h
    · generalize distExtra d = width
      refine (inField_covered h hin hc₃ width).thenUnit h fun f c₄ c₄' hc₄ => ?_
      simp only [h.outLen]
      split_ifs
      · exact .raised _ h
      · exact (h.copyBack _ _).endUnit hc₄

theorem dflDecUnit_covered : UnitCovered a b (dflDecUnit s inp c) (dflDecUnit t inp' c') := by
  unfold dflDecUnit
  rw [h.df]
  cases s.df.p with
  | header => exact headerUnit_covered h hin hc
  | storedLen => exact storedLenUnit_covered h hin hc
  | storedData => exact storedDataUnit_covered h hin hc
  | dynCounts => exact dynCountsUnit_covered h hin hc
  | dynClLen => exact dynClLenUnit_covered h hin hc
  | dynLens => exact dynLensUnit_covered h hin hc
  | body => exact bodyUnit_covered h hin hc

theorem lzwDecUnit_covered : UnitCovered a b (lzwDecUnit s inp c) (lzwDecUnit t inp' c') := by
  obtain ⟨-, -, hclear, hend⟩ := codes_of_lit h.lit
  unfold lzwDecUnit
  rw [h.lz, hclear, hend]
  refine (inField_covered h hin hc _).thenUnit h fun code c₁ c₁' hc₁ => ?_
  split_ifs
  · exact .completed h.lzwReset hc₁
  · exact .completed h.sessionDone hc₁
  · exact (h.lzwData code).endUnit hc₁

/-- A parse unit that does not lack input ends alike on the same bits at another place or with more behind them. -/
theorem decodeUnit_covered : UnitCovered a b (decodeUnit s inp c) (decodeUnit t inp' c') := by
  unfold decodeUnit
  rw [h.mode]
  split
  · exact lzwDecUnit_covered h hin hc
  · exact dflDecUnit_covered h hin hc

end

end Sys2Proof.Machine
end

section
/-! SUPPORT. Two FEEDs of an input split anywhere: the parse units of both, one after another, are those of one FEED of the whole input (45 R350, R351). -/

namespace Sys2Proof.Machine

/-! ### The units one after another (45 R346) -/

/-- From one state and cursor the units end in one way. -/
theorem DecodeSteps.unique {inp : Input} {c : Nat} {s : State} {r r' : LoopEnd} (h : DecodeSteps inp c s r)
    (h' : DecodeSteps inp c s r') : r = r' := by
  induction h generalizing r' with
  | ended c s hend =>
    cases h' with
    | ended => rfl
    | needMore _ _ ha | raised _ _ _ _ ha | completed _ _ _ _ _ ha => exact absurd ha hend
  | needMore c s ha hunit =>
    cases h' with
    | ended _ _ hend => exact absurd ha hend
    | needMore => rfl
    | raised _ _ _ _ _ hunit' | completed _ _ _ _ _ _ hunit' => rw [hunit] at hunit'; cases hunit'
  | raised c s u e ha hunit =>
    cases h' with
    | ended _ _ hend => exact absurd ha hend
    | needMore _ _ _ hunit' | completed _ _ _ _ _ _ hunit' => rw [hunit] at hunit'; cases hunit'
    | raised _ _ _ _ _ hunit' => rw [hunit] at hunit'; cases hunit'; rfl
  | completed c c₁ s t r ha hunit _ ih =>
    cases h' with
    | ended _ _ hend => exact absurd ha hend
    | needMore _ _ _ hunit' | raised _ _ _ _ _ hunit' => rw [hunit] at hunit'; cases hunit'
    | completed _ _ _ _ _ _ hunit' h' =>
      rw [hunit] at hunit'
      cases hunit'
      exact ih h'

/-- Units that stop in an ACTIVE session stop where a unit lacks input. -/
theorem DecodeSteps.lacks {inp : Input} {c c' : Nat} {s u : State} (h : DecodeSteps inp c s (.stopped u c'))
    (ha : u.ses.sstate = .active) : decodeUnit u inp c' = .needMore := by
  generalize hr : LoopEnd.stopped u c' = r at h
  induction h with
  | ended c s hend => cases hr; exact absurd ha hend
  | needMore c s _ hunit => cases hr; exact hunit
  | raised => cases hr
  | completed _ _ _ _ _ _ _ _ ih => exact ih hr

/-- What the units on one input tell of those on an input that covers it, begun at the corresponding cursor with the same
decoder: the same error, or the same units up to where they stopped. -/
def FollowedIn (a b : Nat) (inp' : Input) (c' : Nat) (t : State) : LoopEnd → Prop
  | .raised u e c₁ => ∃ v c₁', SameDecoder u v ∧ c₁' + 8 * a = c₁ + 8 * b ∧ DecodeSteps inp' c' t (.raised v e c₁')
  | .stopped u c₁ => ∃ v c₁', SameDecoder u v ∧ c₁' + 8 * a = c₁ + 8 * b ∧
      ∀ r, DecodeSteps inp' c₁' v r → DecodeSteps inp' c' t r

theorem DecodeSteps.followed {inp inp' : Input} {a b c c' : Nat} {s t : State} {r : LoopEnd}
    (h : DecodeSteps inp c s r) (hin : BitsCovered inp inp' a b) (hs : SameDecoder s t) (hc : c' + 8 * a = c + 8 * b) :
    FollowedIn a b inp' c' t r := by
  induction h generalizing t c' with
  | ended c s _ => exact ⟨t, c', hs, hc, fun _ => id⟩
  | needMore c s _ _ => exact ⟨t, c', hs, hc, fun _ => id⟩
  | raised c s u e ha hunit =>
    have hcovered := decodeUnit_covered hs hin hc
    rw [hunit] at hcovered
    generalize hunit' : decodeUnit t inp' c' = r' at hcovered
    cases hcovered with
    | raised _ hu => exact ⟨_, c', hu, hc, .raised c' t _ e (hs.sstate.trans ha) hunit'⟩
  | completed c c₁ s s₁ r ha hunit _ ih =>
    have hcovered := decodeUnit_covered hs hin hc
    rw [hunit] at hcovered
    generalize hunit' : decodeUnit t inp' c' = r' at hcovered
    cases hcovered with
    | @completed _ t₁ _ c₁' hs₁ hc₁ =>
      have hstep : ∀ r, DecodeSteps inp' c₁' t₁ r → DecodeSteps inp' c' t r := fun r =>
        .completed c' c₁' t t₁ r (hs.sstate.trans ha) hunit'
      have hfollowed := ih hs₁ hc₁
      cases r with
      | raised u e c₂ =>
        obtain ⟨v, c₂', hu, hc₂, hraised⟩ := hfollowed
        exact ⟨v, c₂', hu, hc₂, hstep _ hraised⟩
      | stopped u c₂ =>
        obtain ⟨v, c₂', hu, hc₂, hrest⟩ := hfollowed
        exact ⟨v, c₂', hu, hc₂, fun r hr => hstep r (hrest r hr)⟩

/-! ### Two ends of a loop with the same decoder -/

/-- The loops ended alike, the second one k bytes further in its input. -/
inductive SameEnd (k : Nat) : LoopEnd → LoopEnd → Prop where
  | stopped {u v : State} (c : Nat) : SameDecoder u v → SameEnd k (.stopped u c) (.stopped v (c + 8 * k))
  | raised {u v : State} (e : Err) (c : Nat) : SameDecoder u v → SameEnd k (.raised u e c) (.raised v e (c + 8 * k))

theorem SameEnd.consumed {k : Nat} {r r' : LoopEnd} (h : SameEnd k r r') : r'.consumed = r.consumed + k := by
  cases h with
  | @stopped u v c h =>
    have hdone : v.ses.isDone = u.ses.isDone := by rw [Session.isDone, Session.isDone, h.sstate]
    simp only [LoopEnd.consumed, hdone, bytesOfBits]
    split <;> omega
  | raised e c h =>
    simp only [LoopEnd.consumed]
    omega

/-- What the statement of fragmentation compares of the states in which two FEEDs left the block, results aside. -/
structure SameOutcome (t u : State) : Prop where
  ses : t.ses = u.ses
  lz : t.lz = u.lz
  df : t.df = u.df
  mem : t.mem = u.mem
  status : t.status = u.status
  errDetail : t.errDetail = u.errDetail

theorem SameOutcome.trans {t u v : State} (h : SameOutcome t u) (h' : SameOutcome u v) : SameOutcome t v :=
  ⟨h.ses.trans h'.ses, h.lz.trans h'.lz, h.df.trans h'.df, h.mem.trans h'.mem, h.status.trans h'.status,
   h.errDetail.trans h'.errDetail⟩

/-- Without races a command's end leaves memory as the effects left it. -/
theorem finishCommand_mem_of_no_race {s : State} (h : s.raced = []) : (finishCommand s).mem = s.mem := by
  rw [finishCommand_mem, h]
  rfl

section
variable {u v : State} (h : SameDecoder u v) {n m : Nat} (htotal : u.ses.totalIn + word n = v.ses.totalIn + word m)
include h htotal

/-- The session after the results of a FEED, whose S_BITPOS was written just before. -/
theorem SameDecoder.results_ses (b : BitVec 3) :
    { u.ses with bitpos := b, totalIn := u.ses.totalIn + word n } =
      { v.ses with bitpos := b, totalIn := v.ses.totalIn + word m } := by
  rw [← htotal, h.ses]

theorem SameDecoder.outcome_ok (hstatus : v.status.overrun = u.status.overrun ∧ v.status.err = u.status.err ∧
    v.status.errCode = u.status.errCode) (hdetail : v.errDetail = u.errDetail) (out0 out0' : Word) (b : Nat) :
    SameOutcome (finishCommand (feedResults n out0 true (setBitpos b u)))
      (finishCommand (feedResults m out0' true (setBitpos b v))) where
  ses := h.results_ses htotal _
  lz := h.lz.symm
  df := h.df.symm
  mem := (finishCommand_mem_of_no_race (s := feedResults n out0 true (setBitpos b u)) h.racedLeft).trans
    (h.mem.symm.trans
      (finishCommand_mem_of_no_race (s := feedResults m out0' true (setBitpos b v)) h.racedRight).symm)
  status := by
    obtain ⟨hover, herr, hcode⟩ := hstatus
    show ({ overrun := u.status.overrun, needMore := u.ses.sstate == .active, done := u.ses.sstate == .done,
            err := u.status.err, errCode := u.status.errCode } : Status) =
      { overrun := v.status.overrun, needMore := v.ses.sstate == .active, done := v.ses.sstate == .done,
        err := v.status.err, errCode := v.status.errCode }
    rw [h.sstate, hover, herr, hcode]
  errDetail := hdetail.symm

theorem SameDecoder.outcome_error (hover : v.status.overrun = u.status.overrun) (e : Err) (out0 out0' : Word) :
    SameOutcome (raiseError e (feedResults n out0 false (markSessionError e u)))
      (raiseError e (feedResults m out0' false (markSessionError e v))) where
  ses := congrArg (fun ses : Session => { ses with sstate := .error, serr := e.code, serrDetail := e.detail })
    (h.results_ses htotal 0)
  lz := h.lz.symm
  df := h.df.symm
  mem := (finishCommand_mem_of_no_race (s := u) h.racedLeft).trans
    (h.mem.symm.trans (finishCommand_mem_of_no_race (s := v) h.racedRight).symm)
  status := by
    show ({ overrun := u.status.overrun, needMore := false, done := false, err := true, errCode := e.code } : Status) =
      { overrun := v.status.overrun, needMore := false, done := false, err := true, errCode := e.code }
    rw [hover]
  errDetail := rfl

end

theorem SameDecoder.setBitpos {s t : State} (h : SameDecoder s t) (n : Nat) :
    SameDecoder (setBitpos n s) (setBitpos n t) :=
  { h with ses := congrArg (fun ses : Session => { ses with bitpos := BitVec.ofNat 3 n, totalIn := t.ses.totalIn }) h.ses }

/-- Loops that ended alike make two FEEDs end alike, where the first one found the k bytes consumed before. -/
theorem SameEnd.outcome {k : Nat} {r r' : LoopEnd} (h : SameEnd k r r') {x y : State}
    (hx : FeedFrame (startCommand x) r.state) (hy : FeedFrame (startCommand y) r'.state)
    (hover : y.status.overrun = x.status.overrun) (htotal : x.ses.totalIn = y.ses.totalIn + word k)
    (complete : Bool) (out0 out0' : Word) :
    SameOutcome (decodeEnd complete out0 r).finish (decodeEnd complete out0' r').finish := by
  have htotals : r.state.ses.totalIn + word r.consumed = r'.state.ses.totalIn + word r'.consumed := by
    rw [hx.totalIn, hy.totalIn, startCommand_ses, startCommand_ses, htotal, h.consumed, BitVec.add_assoc,
      ← BitVec.ofNat_add, Nat.add_comm k]
  have hover' : r'.state.status.overrun = r.state.status.overrun := by rw [hx.status, hy.status]; exact hover
  have hstatus : r'.state.status.overrun = r.state.status.overrun ∧ r'.state.status.err = r.state.status.err ∧
      r'.state.status.errCode = r.state.status.errCode :=
    ⟨hover', by rw [hx.status, hy.status]; rfl, by rw [hx.status, hy.status]; rfl⟩
  have hdetail : r'.state.errDetail = r.state.errDetail := hy.errDetail.trans hx.errDetail.symm
  cases h with
  | raised e c h => exact h.outcome_error htotals hover' e out0 out0'
  | @stopped u v c h =>
    have hdone : v.ses.isDone = u.ses.isDone := by rw [Session.isDone, Session.isDone, h.sstate]
    have hmod : (c + 8 * k) % 8 = c % 8 := by omega
    simp only [LoopEnd.consumed, LoopEnd.state, hdone] at htotals hstatus hdetail hover'
    simp only [decodeEnd, hdone, hmod]
    cases hd : u.ses.isDone with
    | true =>
      rw [hd] at htotals
      exact h.outcome_ok htotals hstatus hdetail out0 out0' 0
    | false =>
      rw [hd] at htotals
      cases complete with
      | true => exact (h.setBitpos (c % 8)).outcome_error htotals hover' _ out0 out0'
      | false => exact h.outcome_ok htotals hstatus hdetail out0 out0' (c % 8)

/-! ### FEED again after the end (45 R344) -/

/-- The status fields report how the session has ended, and no host write races. -/
def ReportsItsEnd (t : State) : Prop :=
  t.raced = [] ∧
  (t.ses.sstate = .done → t.errDetail = 0 ∧ t.status =
    { overrun := t.status.overrun, needMore := false, done := true, err := false, errCode := 0 }) ∧
  (t.ses.sstate = .error → t.errDetail = t.ses.serrDetail ∧ t.status =
    { overrun := t.status.overrun, needMore := false, done := false, err := true, errCode := t.ses.serr })

theorem FeedReport.reportsItsEnd {s t : State} (h : FeedReport s t) : ReportsItsEnd t := by
  obtain ⟨-, -, -, -, -, -, hraced, -, hdone, hmore, hclean, hfailed⟩ := h
  refine ⟨hraced, fun hd => ?_, fun he => ?_⟩ <;> cases herr : t.status.err
  · obtain ⟨hcode, hdetail, -⟩ := hclean herr
    rw [hd, herr] at hmore
    rw [hd] at hdone
    exact ⟨hdetail, by rw [Status.mk.injEq]; exact ⟨rfl, hmore, hdone, herr, hcode⟩⟩
  · obtain ⟨-, -, he, -⟩ := hfailed herr
    rw [hd] at he
    cases he
  · obtain ⟨-, -, hne⟩ := hclean herr
    exact absurd he hne
  · obtain ⟨hcode, hdetail, -, -⟩ := hfailed herr
    rw [he, herr] at hmore
    rw [he] at hdone
    exact ⟨hdetail, by rw [Status.mk.injEq]; exact ⟨rfl, hmore, hdone, herr, hcode⟩⟩

/-- FEED of a session that has ended reports its end again and consumes nothing. -/
theorem ReportsItsEnd.again {t : State} (h : ReportsItsEnd t) (hend : t.ses.sstate = .done ∨ t.ses.sstate = .error)
    (complete : Bool) (hacc : FeedAccepted t) :
    SameOutcome (effects (.feed complete) (startCommand t)).finish t ∧
    (effects (.feed complete) (startCommand t)).finish.res0 = 0 := by
  obtain ⟨hraced, hdone, herror⟩ := h
  have hmem : (finishCommand (afterEndAnswer t)).mem = t.mem :=
    finishCommand_mem_of_no_race (s := afterEndAnswer t) (congrArg clearWritten hraced)
  have hactive : t.ses.sstate ≠ .active := by rcases hend with h | h <;> rw [h] <;> decide
  have hisDone : t.ses.isDone = (t.ses.sstate == .done) := rfl
  rw [effects_feed_afterEnd hacc hactive]
  rcases hend with hd | he
  · obtain ⟨hdetail, hstatus⟩ := hdone hd
    rw [feedAfterEnd_done hd]
    refine ⟨⟨rfl, rfl, rfl, hmem, Eq.trans ?_ hstatus.symm, hdetail.symm⟩, rfl⟩
    show ({ t.status.atStart with done := t.ses.isDone } : Status) = _
    rw [hisDone, hd]
    rfl
  · obtain ⟨hdetail, hstatus⟩ := herror he
    rw [feedAfterEnd_error he]
    refine ⟨⟨rfl, rfl, rfl, hmem, Eq.trans ?_ hstatus.symm, hdetail.symm⟩, rfl⟩
    show ({ (t.status.atStart.withError ⟨t.ses.serr, t.ses.serrDetail⟩) with done := t.ses.isDone } : Status) = _
    rw [hisDone, he]
    rfl

/-! ### The two parts of an input -/

/-- A FEED of a part of an accepted input is accepted, whatever FEEDs of the session came between. -/
theorem FeedAccepted.part {s x : State} (h : FeedAccepted s) (hset : SessionSetupSame s x) (hpar : x.par = s.par)
    (hfit : x.arg0 + x.arg1 ≤ memSize s.par)
    (hpart : ∀ a, InRegion x.arg0 x.arg1 a → InRegion s.arg0 s.arg1 a) : FeedAccepted x := by
  obtain ⟨hmode, -, hout, hhist⟩ := h
  obtain ⟨h1, -, -, -, h2, h3, h4, h5⟩ := hset
  rw [FeedAccepted, h1, hpar, h2, h3, h4, h5]
  exact ⟨hmode, hfit, fun ⟨a, ha, hb⟩ => hout ⟨a, hpart a ha, hb⟩, fun ⟨a, ha, hb⟩ => hhist ⟨a, hpart a ha, hb⟩⟩

/-- The state in which the host presents the first n bytes of the input. -/
def firstPart (s : State) (n : Nat) : State := { s with larg := { s.larg with a1 := word n } }

/-- The state in which the host presents the rest of the input of `s`, from the first byte on that FEED had not consumed
when it left `t`. -/
def restAfter (s t : State) : State :=
  { t with larg := { s.larg with a0 := s.larg.a0 + t.res0, a1 := s.larg.a1 - t.res0 } }

/-- How a decoder's loop over the input of `s` ends. -/
def feedLoop (s : State) : LoopEnd :=
  decodeLoop ⟨s.arg0, s.arg1⟩ (8 * s.arg1 + 1) s.ses.bitpos.toNat (startCommand s)

theorem feedLoop_steps {s : State} (h : LzwDecOk s) :
    DecodeSteps ⟨s.arg0, s.arg1⟩ s.ses.bitpos.toNat (startCommand s) (feedLoop s) :=
  decodeLoop_steps (lzwDec_property.congr _ _ (codecSame_start s) h) (by simp only; omega)

theorem feedLoop_frame (s : State) : FeedFrame (startCommand s) (feedLoop s).state :=
  feedFrame_decode.decodeLoop _ _ _ _

section
variable {s : State} {n : Nat} (hn : n ≤ s.arg1)
include hn

theorem firstPart_arg1 : (firstPart s n).arg1 = n := by
  have := s.larg.a1.isLt
  simp only [State.arg1] at hn
  exact (BitVec.toNat_ofNat _ _).trans (Nat.mod_eq_of_lt (by omega))

theorem feedAccepted_firstPart (hacc : FeedAccepted s) : FeedAccepted (firstPart s n) := by
  have harg1 := firstPart_arg1 hn
  have harg0 : (firstPart s n).arg0 = s.arg0 := rfl
  refine hacc.part (SessionSetupSame.refl s) rfl ?_ fun a ha => ?_
  · obtain ⟨-, hfit, -⟩ := hacc
    omega
  · obtain ⟨hlo, hhi⟩ := ha
    exact ⟨by omega, by omega⟩

end

section
variable {s t : State} {k : Nat} (ht : t.res0 = word k)
include ht

/-- The rest begins k bytes further on, unless nothing is left (the address may then wrap around). -/
theorem restAfter_arg0 (hfit : s.arg0 + s.arg1 ≤ memSize s.par) :
    (restAfter s t).arg0 ≤ s.arg0 + k ∧ (k < s.arg1 → (restAfter s t).arg0 = s.arg0 + k) := by
  have hmem := s.par.memTop.isLt
  have harg0 : (restAfter s t).arg0 = (s.arg0 + k) % 2 ^ 32 := by
    simp only [restAfter, State.arg0, ht, BitVec.toNat_add, BitVec.toNat_ofNat, Nat.add_mod_mod]
  simp only [memSize] at hfit
  rw [harg0]
  exact ⟨Nat.mod_le _ _, fun hlt => Nat.mod_eq_of_lt (by omega)⟩

variable (hk : k ≤ s.arg1)
include hk

theorem restAfter_arg1 : (restAfter s t).arg1 = s.arg1 - k := by
  have := s.larg.a1.isLt
  simp only [State.arg1] at hk
  simp only [restAfter, State.arg1, ht, BitVec.toNat_sub, BitVec.toNat_ofNat]
  omega

theorem feedAccepted_restAfter (hacc : FeedAccepted s) (hset : SessionSetupSame s t) (hpar : t.par = s.par) :
    FeedAccepted (restAfter s t) := by
  have hfit := hacc.2.1
  have harg1 := restAfter_arg1 ht hk
  obtain ⟨hle, heq⟩ := restAfter_arg0 ht hfit
  refine hacc.part hset hpar (by omega) fun a ha => ?_
  obtain ⟨hlo, hhi⟩ := ha
  rw [heq (by omega)] at hlo hhi
  exact ⟨by omega, by omega⟩

/-- The rest of the input and the part of the input from byte k on hold the same bits. -/
theorem bitsCovered_restAfter (hfit : s.arg0 + s.arg1 ≤ memSize s.par) :
    BitsCovered ⟨(restAfter s t).arg0, (restAfter s t).arg1⟩ ⟨s.arg0, s.arg1⟩ 0 k ∧
    BitsCovered ⟨s.arg0, s.arg1⟩ ⟨(restAfter s t).arg0, (restAfter s t).arg1⟩ k 0 := by
  obtain ⟨-, heq⟩ := restAfter_arg0 ht hfit
  rw [restAfter_arg1 ht hk]
  refine ⟨fun c c' hc hlt => ?_, fun c c' hc hlt => ?_⟩
  · simp only at hlt ⊢
    rw [heq (by omega)]
    exact ⟨by omega, by omega⟩
  · simp only at hlt ⊢
    rw [heq (by omega)]
    exact ⟨by omega, by omega⟩

end

/-! ### The loops of two FEEDs and of one (45 R351) -/

section
variable {s : State} {n : Nat} (hr : s.raced = []) (hlz : LzwDecOk s) (hn : n ≤ s.arg1)
include hr hlz hn

/-- What the loop over the first part tells of the loop over the whole input. -/
theorem followed_firstPart :
    FollowedIn 0 0 ⟨s.arg0, s.arg1⟩ s.ses.bitpos.toNat (startCommand s) (feedLoop (firstPart s n)) := by
  have hraced : clearWritten s.raced = [] := congrArg clearWritten hr
  have hsame : SameDecoder (startCommand (firstPart s n)) (startCommand s) :=
    ⟨hraced, hraced, rfl, rfl, rfl, rfl, rfl, rfl⟩
  have hlz' : LzwDecOk (firstPart s n) := lzwDec_property.congr s _ ⟨rfl, rfl, rfl, rfl, rfl, rfl, rfl⟩ hlz
  refine (feedLoop_steps hlz').followed (fun c c' hc hlt => ?_) hsame rfl
  rw [firstPart_arg1 hn] at hlt
  obtain rfl : c' = c := by omega
  exact ⟨by simp only at hlt ⊢; omega, rfl⟩

/-- A loop that has ended the session in the first part is the loop of one FEED. -/
theorem sameEnd_of_ended (hend : ∀ u c, feedLoop (firstPart s n) = .stopped u c → u.ses.sstate ≠ .active) :
    SameEnd 0 (feedLoop (firstPart s n)) (feedLoop s) := by
  have hfollowed := followed_firstPart hr hlz hn
  have hwhole := feedLoop_steps hlz
  cases hloop : feedLoop (firstPart s n) with
  | raised u e c =>
    rw [hloop] at hfollowed
    obtain ⟨v, c', hu, hc, hsteps⟩ := hfollowed
    rw [hwhole.unique hsteps, show c' = c + 8 * 0 from hc]
    exact .raised e c hu
  | stopped u c =>
    rw [hloop] at hfollowed
    obtain ⟨v, c', hu, hc, hsteps⟩ := hfollowed
    have hv : v.ses.sstate ≠ .active := hu.sstate ▸ hend u c hloop
    rw [hwhole.unique (hsteps _ (.ended c' v hv)), show c' = c + 8 * 0 from hc]
    exact .stopped c hu

/-- A loop that goes on with the rest after an ACTIVE end of the first part ends as the loop of one FEED. -/
theorem sameEnd_of_active {t u : State} {c : Nat} (hfit : s.arg0 + s.arg1 ≤ memSize s.par)
    (hloop : feedLoop (firstPart s n) = .stopped u c) (hk : c / 8 ≤ s.arg1) (ht : t.res0 = word (c / 8))
    (hbitpos : t.ses.bitpos.toNat = c % 8) (hsame : SameDecoder u (startCommand (restAfter s t)))
    (hlz' : LzwDecOk (restAfter s t)) : SameEnd (c / 8) (feedLoop (restAfter s t)) (feedLoop s) := by
  have hfollowed := followed_firstPart hr hlz hn
  rw [hloop] at hfollowed
  obtain ⟨v, c', hu, hc, hrest⟩ := hfollowed
  obtain rfl : c' = c := hc
  obtain ⟨hforth, hback⟩ := bitsCovered_restAfter ht hk hfit
  have hsecond := feedLoop_steps hlz'
  rw [show (restAfter s t).ses.bitpos.toNat = c' % 8 from hbitpos] at hsecond
  have hwhole := feedLoop_steps hlz
  have hfollowed := hsecond.followed hforth (hsame.symm.trans hu) (c' := c') (by omega)
  cases hend : feedLoop (restAfter s t) with
  | raised w e c₂ =>
    rw [hend] at hfollowed
    obtain ⟨w', c₂', hw, hc₂, hraised⟩ := hfollowed
    rw [hwhole.unique (hrest _ hraised), show c₂' = c₂ + 8 * (c' / 8) from hc₂]
    exact .raised e c₂ hw
  | stopped w c₂ =>
    rw [hend] at hfollowed hsecond
    obtain ⟨w', c₂', hw, hc₂, hmore⟩ := hfollowed
    have hstops : DecodeSteps ⟨s.arg0, s.arg1⟩ c₂' w' (.stopped w' c₂') := by
      by_cases ha : w'.ses.sstate = .active
      · refine .needMore c₂' w' ha ?_
        have hcovered := decodeUnit_covered hw.symm hback (c := c₂') (c' := c₂) (by omega)
        rw [hsecond.lacks (hw.sstate.symm.trans ha)] at hcovered
        generalize decodeUnit w' ⟨s.arg0, s.arg1⟩ c₂' = r at hcovered ⊢
        cases hcovered
        rfl
      · exact .ended c₂' w' ha
    rw [hwhole.unique (hrest _ (hmore _ hstops)), show c₂' = c₂ + 8 * (c' / 8) from hc₂]
    exact .stopped c₂ hw

end

/-! ### Fragmentation (45 R351) -/

theorem feedLoop_consumed_le {s : State} (ha : s.ses.sstate = .active) : (feedLoop s).consumed ≤ s.arg1 :=
  decodeLoop_consumed_le ⟨s.arg0, s.arg1⟩ (s := startCommand s) ha

section
variable {s : State} {complete : Bool} (hacc : FeedAccepted s) (ha : s.ses.sstate = .active) (hdec : s.ses.isDecoder)
include hacc ha hdec

/-- The state in which FEED of an ACTIVE decoder session leaves the block. -/
theorem finish_feed_decoder : (effects (.feed complete) (startCommand s)).finish =
    (decodeEnd complete s.ses.outLen (feedLoop s)).finish := by
  rw [effects_feed_decoder hacc ha hdec]
  rfl

theorem res0_feed_decoder : (effects (.feed complete) (startCommand s)).finish.res0 = word (feedLoop s).consumed := by
  rw [finish_feed_decoder hacc ha hdec, Run.finish_res0, decodeEnd_res0]

/-- A number of bytes that are there is what RES0 holds. -/
theorem res0_feed_decoder_toNat :
    (effects (.feed complete) (startCommand s)).finish.res0.toNat = (feedLoop s).consumed := by
  have hle := feedLoop_consumed_le ha
  have hlt : s.arg1 < 2 ^ 32 := s.larg.a1.isLt
  rw [res0_feed_decoder hacc ha hdec, BitVec.toNat_ofNat, Nat.mod_eq_of_lt (by omega)]

end

/-- Where the loop did not stop in an ACTIVE session, COMPLETE makes no difference (45 R346, R347). -/
theorem decodeEnd_of_ended {r : LoopEnd} (hend : ∀ u c, r = .stopped u c → u.ses.sstate = .done)
    (complete complete' : Bool) (out0 : Word) : decodeEnd complete out0 r = decodeEnd complete' out0 r := by
  cases r with
  | raised u e c => rfl
  | stopped u c => rw [decodeEnd_done (hend u c rfl), decodeEnd_done (hend u c rfl)]

/-- What the statement of fragmentation says of the two FEEDs that left t1 and t2 and the one that left u. -/
def TogetherAsOne (t1 t2 u : State) : Prop :=
  SameOutcome t2 u ∧ u.res0.toNat = t1.res0.toNat + t2.res0.toNat

section
variable {s t1 : State} {n : Nat} (complete : Bool) (hacc : FeedAccepted s)
  (ha : s.ses.sstate = .active) (hdec : s.ses.isDecoder) (hn : n ≤ s.arg1)
  (ht1 : (effects (.feed false) (startCommand (firstPart s n))).finish = t1)
include hacc ha hdec hn ht1

/-- The second FEED is accepted, too. -/
theorem feedAccepted_second : FeedAccepted (restAfter s t1) := by
  have hacc₁ := feedAccepted_firstPart hn hacc
  obtain ⟨-, -, -, hset, ⟨⟨hpar, -⟩, -⟩, -⟩ := ht1 ▸ feedReport false hacc₁ ha
  have hres0 := ht1 ▸ res0_feed_decoder (complete := false) hacc₁ ha hdec
  have hle : (feedLoop (firstPart s n)).consumed ≤ s.arg1 :=
    (feedLoop_consumed_le (s := firstPart s n) ha).trans ((firstPart_arg1 hn).le.trans hn)
  exact feedAccepted_restAfter hres0 hle hacc hset hpar

variable (hr : s.raced = []) (hlz : LzwDecOk s)
include hr hlz

/-- The first FEED has ended the session: the second one repeats its end. -/
theorem fragmentation_ended
    (hend : ∀ u c, feedLoop (firstPart s n) = .stopped u c → u.ses.sstate = .done) :
    TogetherAsOne t1 (effects (.feed complete) (startCommand (restAfter s t1))).finish
      (effects (.feed complete) (startCommand s)).finish := by
  have hacc₁ := feedAccepted_firstPart hn hacc
  have hfirst := finish_feed_decoder (complete := false) hacc₁ ha hdec
  have hsame := sameEnd_of_ended hr hlz hn fun u c h => by rw [hend u c h]; decide
  have houtcome := hsame.outcome (feedLoop_frame (firstPart s n)) (feedLoop_frame s) rfl
    (BitVec.add_zero _).symm false (firstPart s n).ses.outLen s.ses.outLen
  have hend' : ∀ u c, feedLoop s = .stopped u c → u.ses.sstate = .done := by
    intro v c hloop
    rw [hloop] at hsame
    generalize hloop₁ : feedLoop (firstPart s n) = r at hsame
    cases hsame with
    | stopped c hu => exact hu.sstate.trans (hend _ c hloop₁)
  rw [decodeEnd_of_ended hend' false complete, ← finish_feed_decoder hacc ha hdec, ← hfirst, ht1] at houtcome
  have hsstate : t1.ses.sstate = .done ∨ t1.ses.sstate = .error := by
    rw [← ht1, hfirst]
    cases hloop : feedLoop (firstPart s n) with
    | raised u e c => exact .inr rfl
    | stopped u c =>
      rw [decodeEnd_done (hend u c hloop)]
      exact .inl (hend u c hloop)
  have hreports : ReportsItsEnd (restAfter s t1) := (ht1 ▸ feedReport false hacc₁ ha).reportsItsEnd
  obtain ⟨hagain, hres0⟩ := hreports.again hsstate complete (feedAccepted_second hacc ha hdec hn ht1)
  have hagain' : SameOutcome (effects (.feed complete) (startCommand (restAfter s t1))).finish t1 :=
    ⟨hagain.ses, hagain.lz, hagain.df, hagain.mem, hagain.status, hagain.errDetail⟩
  refine ⟨hagain'.trans houtcome, ?_⟩
  rw [hres0, ← ht1, res0_feed_decoder_toNat hacc ha hdec, res0_feed_decoder_toNat hacc₁ ha hdec, hsame.consumed]
  rfl

/-- The first FEED has left the session ACTIVE: the second one goes on where it stopped. -/
theorem fragmentation_active {u : State} {c : Nat} (hloop : feedLoop (firstPart s n) = .stopped u c)
    (hu : u.ses.sstate = .active) :
    TogetherAsOne t1 (effects (.feed complete) (startCommand (restAfter s t1))).finish
      (effects (.feed complete) (startCommand s)).finish := by
  have hacc₁ := feedAccepted_firstPart hn hacc
  have hacc₂ := feedAccepted_second hacc ha hdec hn ht1
  have hconsumed : (feedLoop (firstPart s n)).consumed = c / 8 := by
    rw [hloop, LoopEnd.consumed, if_neg (by simp [Session.isDone, hu])]
  have hk : c / 8 ≤ s.arg1 := by
    have := feedLoop_consumed_le (s := firstPart s n) ha
    rw [hconsumed, firstPart_arg1 hn] at this
    omega
  have hres0 : t1.res0 = word (c / 8) := by rw [← ht1, res0_feed_decoder hacc₁ ha hdec, hconsumed]
  have hframe := feedLoop_frame (firstPart s n)
  have hleft : t1 = finishCommand (feedResults (c / 8) s.ses.outLen true (setBitpos (c % 8) u)) := by
    rw [← ht1, finish_feed_decoder hacc₁ ha hdec, hloop, decodeEnd_active hu]
    rfl
  have hlz₁ : LzwDecOk t1 := ht1 ▸ lzwDec_property.congr _ _ (codecSame_finish _)
    (lzwDec_invariant.command (i := .feed false) (by decide)
      (lzwDec_property.congr s (startCommand (firstPart s n)) ⟨rfl, rfl, rfl, rfl, rfl, rfl, rfl⟩ hlz))
  have hlz₂ : LzwDecOk (restAfter s t1) := lzwDec_property.congr t1 _ ⟨rfl, rfl, rfl, rfl, rfl, rfl, rfl⟩ hlz₁
  have hbitpos : t1.ses.bitpos.toNat = c % 8 := by
    rw [hleft]
    exact (BitVec.toNat_ofNat _ _).trans (Nat.mod_eq_of_lt (by omega))
  rw [hloop] at hframe
  have hraced : u.raced = [] := by
    have haddrs : u.raced.map RacedByte.addr = (clearWritten s.raced).map RacedByte.addr := hframe.addrs
    rw [hr] at haddrs
    exact List.map_eq_nil_iff.mp haddrs
  have hsame : SameDecoder u (startCommand (restAfter s t1)) := by
    rw [hleft]
    exact ⟨hraced, rfl, rfl, rfl, finishCommand_mem_of_no_race (s := feedResults _ _ _ (setBitpos _ u)) hraced,
      rfl, rfl, rfl⟩
  obtain ⟨hset, ha₂⟩ : SessionSetupSame s (restAfter s t1) ∧ (restAfter s t1).ses.sstate = .active := by
    rw [hleft]
    exact ⟨hframe.setup, hu⟩
  obtain ⟨hover, htotal⟩ : s.status.overrun = (restAfter s t1).status.overrun ∧
      (restAfter s t1).ses.totalIn = s.ses.totalIn + word (c / 8) := by
    rw [hleft]
    exact ⟨(congrArg Status.overrun hframe.status).symm, congrArg (· + word (c / 8)) hframe.totalIn⟩
  have hdec₂ : (restAfter s t1).ses.isDecoder := by
    rw [Session.isDecoder, hset.1]
    exact hdec
  have hend := sameEnd_of_active hr hlz hn hacc.2.1 hloop hk hres0 hbitpos hsame hlz₂
  have houtcome := hend.outcome (feedLoop_frame _) (feedLoop_frame s) hover htotal complete
    (restAfter s t1).ses.outLen s.ses.outLen
  rw [← finish_feed_decoder hacc₂ ha₂ hdec₂, ← finish_feed_decoder hacc ha hdec] at houtcome
  have hres0' : t1.res0.toNat = c / 8 := by rw [← ht1, res0_feed_decoder_toNat hacc₁ ha hdec, hconsumed]
  refine ⟨houtcome, ?_⟩
  rw [res0_feed_decoder_toNat hacc ha hdec, res0_feed_decoder_toNat hacc₂ ha₂ hdec₂, hres0', hend.consumed, Nat.add_comm]

end

/-- Settles O42: by whether the first FEED has ended the session or the second one goes on where it stopped. -/
theorem fragmentationInvariance : Obligations.FragmentationInvariance := by
  intro complete s n hr _ hlz hacc ha hdec hn
  have htogether : TogetherAsOne (effects (.feed false) (startCommand (firstPart s n))).finish
      (effects (.feed complete) (startCommand
        (restAfter s (effects (.feed false) (startCommand (firstPart s n))).finish))).finish
      (effects (.feed complete) (startCommand s)).finish := by
    cases hloop : feedLoop (firstPart s n) with
    | raised u e c =>
      exact fragmentation_ended complete hacc ha hdec hn rfl hr hlz fun v c' h => by rw [hloop] at h; cases h
    | stopped u c =>
      rcases decodeLoop_stopped_sstate (s := startCommand (firstPart s n)) ha hloop with hu | hu
      · exact fragmentation_active complete hacc ha hdec hn rfl hr hlz hloop hu
      · exact fragmentation_ended complete hacc ha hdec hn rfl hr hlz fun v c' h => by rw [hloop] at h; cases h; exact hu
  obtain ⟨⟨hses, hlz', hdf, hmem, hstatus, hdetail⟩, hres0⟩ := htogether
  exact ⟨_, _, _, exec_eq _ _, exec_eq _ _, exec_eq _ _, hses, hlz', hdf, hmem, hstatus, hdetail, hres0⟩

end Sys2Proof.Machine
end

section
/-! SUPPORT. What the pieces of the DEFLATE encoder's finish write, as bits at the end of the output: a field, a code, a token, the blocks of the three modes (44 R296 to R301; 45 R355). -/

namespace Sys2Proof.Machine

/-! ### Bits at the end of the output (45 R355) -/

/-- Nothing but the output has changed in memory and in the session, and no host write races. -/
structure OutputOnly (s t : State) : Prop where
  raced : t.raced = []
  ses : t.ses = { s.ses with outBits := t.ses.outBits, outLen := t.ses.outLen }
  mem : ∀ a, ¬ InRegion s.ses.outBase.toNat s.ses.outCap.toNat a → t.memByte a = s.memByte a

/-- The output of an LSB-first encoder session as no host write races with it. -/
structure OutputReady (s : State) : Prop where
  raced : s.raced = []
  ord : s.ses.ord = .lsb
  fits : OutFits s 0
  outLen : s.ses.outLen = word (bytesOfBits s.ses.outBits.toNat)

/-- `bits` were appended to the output, and nothing else was done. -/
structure BitsWritten (bits : List Bool) (s t : State) : Prop extends OutputOnly s t where
  ready : OutputReady t
  count : t.ses.outBits.toNat = s.ses.outBits.toNat + bits.length
  appended : OutBitsAppended bits s t

/-- The run appends `bits` to the output where they fit, and ends in 0x0B01 where they do not. -/
structure WritesBits (bits : List Bool) (s : State) (r : Run) : Prop where
  fits : OutFits s bits.length → ∃ t, r = .ok t ∧ BitsWritten bits s t
  full : ¬ OutFits s bits.length → ∃ t, r = .fail t Err.outputFull ∧ OutputOnly s t

theorem OutFits.mono {s : State} {m n : Nat} (h : OutFits s n) (hle : m ≤ n) : OutFits s m := by
  obtain ⟨hcap, hmax⟩ := h
  simp only [OutFits, bytesOfBits] at *
  omega

theorem OutputOnly.trans {s t u : State} (h : OutputOnly s t) (h' : OutputOnly t u) : OutputOnly s u where
  raced := h'.raced
  ses := by rw [h'.ses, h.ses]
  mem a ha := (h'.mem a (by rw [h.ses]; exact ha)).trans (h.mem a ha)

theorem OutputReady.written_nil {s : State} (h : OutputReady s) : BitsWritten [] s s where
  raced := h.raced
  ses := rfl
  mem _ _ := rfl
  ready := h
  count := rfl
  appended := ⟨(BitVec.add_zero _).symm, h.outLen, fun _ _ => rfl, fun k hk => absurd hk (Nat.not_lt_zero k), id⟩

section
variable {xs ys : List Bool} {s t u : State} (h : BitsWritten xs s t)
include h

theorem BitsWritten.outFits_iff (n : Nat) : OutFits t n ↔ OutFits s (xs.length + n) := by
  have hcap : t.ses.outCap = s.ses.outCap := by rw [h.ses]
  rw [OutFits, OutFits, h.count, hcap, Nat.add_assoc]

theorem BitsWritten.ord : t.ses.ord = s.ses.ord := by rw [h.ses]
theorem BitsWritten.outBase : t.ses.outBase = s.ses.outBase := by rw [h.ses]

theorem BitsWritten.trans (h' : BitsWritten ys t u) : BitsWritten (xs ++ ys) s u where
  toOutputOnly := h.toOutputOnly.trans h'.toOutputOnly
  ready := h'.ready
  count := by rw [h'.count, h.count, List.length_append, Nat.add_assoc]
  appended := by
    have hcount := h.count
    obtain ⟨hbits, -, hold, hnew, htail⟩ := h.appended
    obtain ⟨hbits', hlen', hold', hnew', htail'⟩ := h'.appended
    rw [h.ord, h.outBase] at hold' hnew'
    rw [hcount, Nat.add_assoc] at hlen'
    refine ⟨?_, by rwa [List.length_append], fun i hi => (hold' i (by omega)).trans (hold i hi), fun k hk => ?_,
      htail' ∘ htail⟩
    · have hsum : word (xs ++ ys).length = word xs.length + word ys.length := by
        rw [List.length_append]
        exact BitVec.ofNat_add _ _
      rw [hbits', hbits, hsum, BitVec.add_assoc]
    · rcases Nat.lt_or_ge k xs.length with hlt | hge
      · rw [List.getD_append _ _ _ _ hlt, ← hnew k hlt]
        exact hold' _ (by omega)
      · rw [List.length_append] at hk
        rw [List.getD_append_right _ _ _ _ hge, ← hnew' (k - xs.length) (by omega), hcount, Nat.add_assoc,
          Nat.add_sub_cancel' hge]

end

section
variable {s : State} {r : Run} {f : State → Run} {xs ys : List Bool}

/-- Two runs, one after the other. -/
theorem WritesBits.andThen (h : WritesBits xs s r) (hf : ∀ t, BitsWritten xs s t → WritesBits ys t (f t)) :
    WritesBits (xs ++ ys) s (r.andThen f) := by
  by_cases hxs : OutFits s xs.length
  · obtain ⟨t, rfl, ht⟩ := h.fits hxs
    have hys := hf t ht
    refine ⟨fun hfit => ?_, fun hfull => ?_⟩ <;> rw [List.length_append, ← ht.outFits_iff] at *
    · obtain ⟨u, hu, hwritten⟩ := hys.fits hfit
      exact ⟨u, hu, ht.trans hwritten⟩
    · obtain ⟨u, hu, honly⟩ := hys.full hfull
      exact ⟨u, hu, ht.toOutputOnly.trans honly⟩
  · obtain ⟨t, rfl, ht⟩ := h.full hxs
    refine ⟨fun hfit => absurd (hfit.mono ?_) hxs, fun _ => ⟨t, rfl, ht⟩⟩
    rw [List.length_append]
    exact Nat.le_add_right _ _

end

theorem OutputReady.writesBits_nil {s : State} (h : OutputReady s) : WritesBits [] s (.ok s) :=
  ⟨fun _ => ⟨s, rfl, h.written_nil⟩, fun hfull => absurd h.fits hfull⟩

/-- A run over a list, whose elements each find the states that the elements before them leave. -/
theorem writesBits_each {α : Type} {P : State → Prop} {f : α → State → Run} {bits : α → List Bool} {xs : List α}
    (hP : ∀ t, P t → OutputReady t) (hf : ∀ x ∈ xs, ∀ t, P t → WritesBits (bits x) t (f x t))
    (hkept : ∀ x ∈ xs, ∀ t u, P t → BitsWritten (bits x) t u → P u) {s : State} (hs : P s) :
    WritesBits (xs.flatMap bits) s (Run.each f xs s) := by
  induction xs generalizing s with
  | nil => exact (hP s hs).writesBits_nil
  | cons x xs ih =>
    rw [List.forall_mem_cons] at hf hkept
    obtain ⟨hx, hxs⟩ := hf
    obtain ⟨hkx, hkxs⟩ := hkept
    exact (hx s hs).andThen fun t ht => ih hxs hkxs (hkx s t hs ht)

/-- A run over a list whose elements each need no more than an output to write to. -/
theorem writesBits_each_ready {α : Type} {f : α → State → Run} {bits : α → List Bool} (xs : List α)
    (hf : ∀ x t, OutputReady t → WritesBits (bits x) t (f x t)) {s : State} (hs : OutputReady s) :
    WritesBits (xs.flatMap bits) s (Run.each f xs s) :=
  writesBits_each (fun _ => id) (fun x _ => hf x) (fun _ _ _ _ _ ht => ht.ready) hs

/-! ### Fields and codes (44 R296; 45 R355) -/

section
variable {s : State} (hs : OutputReady s)
include hs

theorem bitsWritten_fieldWritten {v w : Nat} (hfit : OutFits s w) :
    BitsWritten (lsbBits v w) s (fieldWritten v w s) := by
  have hlen : (lsbBits v w).length = w := by simp [lsbBits]
  have hcount : (fieldWritten v w s).ses.outBits.toNat = s.ses.outBits.toNat + w := by
    obtain ⟨-, hmax⟩ := hfit
    exact (BitVec.toNat_ofNat _ _).trans (Nat.mod_eq_of_lt (by omega))
  have hraced : (fieldWritten v w s).raced = [] := by
    have haddrs := (writesIn_putBits s.ses.ord s.ses.outBase.toNat (fieldBits s.ses.ord v w) s.ses.outBits.toNat s).addrs
    rw [hs.raced] at haddrs
    exact List.map_eq_nil_iff.mp haddrs
  have happended := outBitsAppended_fieldWritten (v := v) hfit hs.raced
  rw [hs.ord] at happended
  refine ⟨⟨hraced, rfl, fun a ha => memByte_fieldWritten v w s fun hin => ha ?_⟩, ⟨hraced, hs.ord, ?_, ?_⟩,
    by rw [hcount, hlen], happended⟩
  · obtain ⟨hcap, -⟩ := hfit
    obtain ⟨hlo, hhi⟩ := hin
    simp only [bytesOfBits] at *
    exact ⟨by omega, by omega⟩
  · rw [OutFits, hcount]
    exact hfit
  · rw [hcount]
    rfl

theorem writesBits_outAppendField (v w : Nat) : WritesBits (lsbBits v w) s (outAppendField v w s) := by
  have hlen : (lsbBits v w).length = w := by simp [lsbBits]
  rcases Nat.eq_zero_or_pos w with rfl | hw
  · exact hs.writesBits_nil
  · refine ⟨fun hfit => ?_, fun hfull => ?_⟩ <;> rw [hlen] at *
    · exact ⟨_, outAppendField_eq_ok hw.ne' hfit, bitsWritten_fieldWritten hs hfit⟩
    · exact ⟨s, outAppendField_full v hw.ne' hfull, ⟨hs.raced, rfl, fun _ _ => rfl⟩⟩

/-- A code is written most significant bit first. -/
theorem writesBits_outCode (c : HufCode) : WritesBits (codeBits c) s (outCode c s) := by
  have hbits : codeBits c = lsbBits (revBits c.width c.code) c.width :=
    List.map_congr_left fun k hk => (testBit_revBits (List.mem_range.mp hk)).symm
  rw [hbits]
  exact writesBits_outAppendField hs _ _

/-! ### Tokens (44 R297) -/

theorem writesBits_putToken (lit dist : HufTable) (t : Token) : WritesBits (tokenBits lit dist t) s (putToken lit dist t s) := by
  cases t with
  | lit b => exact writesBits_outCode hs _
  | copy l d =>
    exact (((writesBits_outCode hs _).andThen fun t ht => writesBits_outAppendField ht.ready _ _).andThen
      fun t ht => writesBits_outCode ht.ready _).andThen fun t ht => writesBits_outAppendField ht.ready _ _

theorem writesBits_putTokens (lit dist : HufTable) (ts : List Token) :
    WritesBits (bodyBits lit dist ts) s (putTokens ts lit dist s) :=
  (writesBits_each_ready ts (fun t _ hu => writesBits_putToken hu lit dist t) hs).andThen
    fun _ ht => writesBits_outCode ht.ready _

/-! ### Fixed and dynamic blocks (44 R300, R301) -/

theorem writesBits_fixedOutput (ts : List Token) : WritesBits (fixedBits ts) s (fixedOutput ts s) :=
  ((writesBits_outAppendField hs 1 1).andThen fun _ ht => writesBits_outAppendField ht.ready 1 2).andThen
    fun _ ht => writesBits_putTokens ht.ready fixedLit fixedDist ts

theorem writesBits_dynOutput (h : DynHeader) (ts : List Token) : WritesBits (dynamicBits h ts) s (dynOutput h ts s) :=
  (((((((writesBits_outAppendField hs 1 1).andThen fun _ ht => writesBits_outAppendField ht.ready 2 2).andThen
    fun _ ht => writesBits_outAppendField ht.ready _ 5).andThen
    fun _ ht => writesBits_outAppendField ht.ready _ 5).andThen
    fun _ ht => writesBits_outAppendField ht.ready _ 4).andThen
    fun _ ht => writesBits_each_ready _ (fun w _ hu => writesBits_outAppendField hu w 3) ht.ready).andThen
    fun _ ht => writesBits_each_ready _ (fun r _ hu => (writesBits_outCode hu (h.cl.entry r.1)).andThen
      fun _ hv => writesBits_outAppendField hv.ready r.2 _) ht.ready).andThen
    fun _ ht => writesBits_putTokens ht.ready h.lit h.dist ts

end

/-! ### Stored blocks (44 R299) -/

theorem lsbBits_zero (w : Nat) : lsbBits 0 w = List.replicate w false := by
  simp only [lsbBits, Nat.zero_testBit, List.map_const', List.length_range]

/-- The bytes at `base`, none of them in the output region, are `bytes`. -/
structure HoldsApart (base : Nat) (bytes : List Byte) (s : State) : Prop where
  ready : OutputReady s
  holds : ∀ j, j < bytes.length → s.memByte (base + j) = bytes.getD j 0
  apart : ∀ j, j < bytes.length → ¬ InRegion s.ses.outBase.toNat s.ses.outCap.toNat (base + j)

/-- Bytes apart from the output stay. -/
theorem OutputOnly.holds {base : Nat} {bytes : List Byte} {s t : State} (h : OutputOnly s t)
    (hs : HoldsApart base bytes s) {j : Nat} (hj : j < bytes.length) : t.memByte (base + j) = bytes.getD j 0 :=
  (h.mem _ (hs.apart j hj)).trans (hs.holds j hj)

theorem HoldsApart.written {base : Nat} {bytes : List Byte} {xs : List Bool} {s t : State}
    (hs : HoldsApart base bytes s) (ht : BitsWritten xs s t) : HoldsApart base bytes t where
  ready := ht.ready
  holds j hj := ht.holds hs hj
  apart := by
    rw [ht.ses]
    exact hs.apart

theorem range_map_getD (bytes : List Byte) {a m : Nat} (h : m ≤ bytes.length - a) :
    (List.range m).map (fun j => bytes.getD (a + j) 0) = (bytes.drop a).take m := by
  refine List.ext_getElem (by simp; omega) fun j hj _ => ?_
  rw [List.length_map, List.length_range] at hj
  rw [List.getElem_map, List.getElem_range, List.getElem_take, List.getElem_drop, List.getD_eq_getElem _ _ (by omega)]

section
variable {base : Nat} {bytes : List Byte} {s : State} (hs : HoldsApart base bytes s)
include hs

theorem writesBits_padToByte : WritesBits (List.replicate (ceil8 s.ses.outBits.toNat - s.ses.outBits.toNat) false) s
    (padToByte s) := by
  rw [← lsbBits_zero]
  exact writesBits_outAppendField hs.ready _ _

/-- The bytes of a stored block, read while the block is written. -/
theorem writesBits_storedBytes {a m : Nat} (hm : m ≤ bytes.length - a) :
    WritesBits (((bytes.drop a).take m).flatMap fun b => lsbBits b.toNat 8) s
      (Run.each (fun j t => outAppendField (t.engByte [a + j] (base + a + j)).toNat 8 t) (List.range m) s) := by
  rw [← range_map_getD bytes hm, List.flatMap_map]
  refine writesBits_each (P := HoldsApart base bytes) (fun t ht => ht.ready) (fun j hj t ht => ?_)
    (fun _ _ _ _ => HoldsApart.written) hs
  rw [List.mem_range] at hj
  rw [State.engByte_of_no_race ht.ready.raced, Nat.add_assoc, ht.holds (a + j) (by omega)]
  exact writesBits_outAppendField ht.ready _ _

theorem writesBits_storedBlock {a m : Nat} (hm : m ≤ bytes.length - a) (hmax : m ≤ 65535) (last : Bool) :
    WritesBits (storedBlockBits s.ses.outBits.toNat last ((bytes.drop a).take m)) s (storedBlock base a m last s) := by
  have hlen : ((bytes.drop a).take m).length = m := by simp; omega
  have hheader : lsbBits last.toNat 1 ++ lsbBits 0 2 = [last, false, false] := by cases last <;> rfl
  rw [storedBlockBits, hlen, ← xor_ones_eq_sub (by omega), ← hheader]
  refine (((((writesBits_outAppendField hs.ready _ 1).andThen fun t ht => writesBits_outAppendField ht.ready 0 2).andThen
    fun t ht => ?_).andThen fun t ht => writesBits_outAppendField ht.ready m 16).andThen
    fun t ht => writesBits_outAppendField ht.ready _ 16).andThen
    fun t ht => writesBits_storedBytes (hs.written ht) hm
  have hcount : t.ses.outBits.toNat = s.ses.outBits.toNat + 3 := by rw [ht.count, hheader]; rfl
  rw [← hcount]
  exact writesBits_padToByte (hs.written ht)

end

/-- A stored block ends at a byte boundary. -/
theorem storedBlockBits_end (pos : Nat) (last : Bool) (bytes : List Byte) :
    (pos + (storedBlockBits pos last bytes).length) % 8 = 0 := by
  have hbytes : (bytes.flatMap fun b => lsbBits b.toNat 8).length = 8 * bytes.length := by
    simp [List.length_flatMap, lsbBits, Nat.mul_comm]
  rw [storedBlockBits, List.length_append, hbytes]
  simp only [List.length_append, List.length_replicate, lsbBits, List.length_map, List.length_range,
    List.length_cons, List.length_nil, ceil8]
  omega

/-- A block that begins at a byte is the same at every byte. -/
theorem storedBlockBits_aligned {pos : Nat} (h : pos % 8 = 0) (last : Bool) (bytes : List Byte) :
    storedBlockBits pos last bytes = storedBlockBits 0 last bytes := by
  have hpad : ceil8 (pos + 3) - (pos + 3) = ceil8 (0 + 3) - (0 + 3) := by
    simp only [ceil8]
    omega
  rw [storedBlockBits, hpad, ← storedBlockBits]

theorem writesBits_nthStoredBlock {base : Nat} {bytes : List Byte} {s : State} (hs : HoldsApart base bytes s) (i : Nat)
    (last : Bool) : WritesBits (storedBlockBits s.ses.outBits.toNat last ((bytes.drop (65535 * i)).take 65535)) s
      (storedBlock base (i * 65535) (min 65535 (bytes.length - i * 65535)) last s) := by
  have htake : (bytes.drop (65535 * i)).take 65535 =
      (bytes.drop (i * 65535)).take (min 65535 (bytes.length - i * 65535)) := by
    rw [Nat.mul_comm, List.take_eq_take_iff, List.length_drop]
    omega
  rw [htake]
  exact writesBits_storedBlock hs (min_le_right _ _) (min_le_left _ _) last

/-- The first block begins where the output ends, the others at a byte. -/
theorem writesBits_storedOutput {base : Nat} {bytes : List Byte} {s : State} (hs : HoldsApart base bytes s) :
    WritesBits (storedBits s.ses.outBits.toNat bytes) s (storedOutput base bytes.length s) := by
  obtain ⟨k, hk⟩ : ∃ k, max 1 ((bytes.length + 65534) / 65535) = k + 1 :=
    ⟨_, (Nat.sub_add_cancel (le_max_left _ _)).symm⟩
  have hblocks : storedBlocks bytes.length = k + 1 := hk
  simp only [storedBits, storedOutput, hk, hblocks, List.range_succ_eq_map, List.flatMap_cons, Run.each_cons]
  have hlast : ∀ i, (i == k + 1 - 1) = decide (i + 1 = k + 1) := fun i => by simp [beq_eq_decide]
  simp only [hlast]
  refine (writesBits_nthStoredBlock hs 0 _).andThen fun t ht => ?_
  refine writesBits_each (P := fun u => HoldsApart base bytes u ∧ u.ses.outBits.toNat % 8 = 0) (fun u hu => hu.1.ready)
    (fun i hi u hu => ?_) (fun i _ u v hu hv => ⟨hu.1.written hv, ?_⟩) ⟨hs.written ht, ?_⟩
  · obtain ⟨j, -, rfl⟩ := List.mem_map.mp hi
    rw [if_neg (Nat.succ_ne_zero j), ← storedBlockBits_aligned hu.2]
    exact writesBits_nthStoredBlock hu.1 _ _
  · obtain ⟨j, -, rfl⟩ := List.mem_map.mp ‹_›
    rw [if_neg (Nat.succ_ne_zero j), ← storedBlockBits_aligned hu.2] at hv
    rw [hv.count, storedBlockBits_end]
  · rw [ht.count, storedBlockBits_end]

end Sys2Proof.Machine
end

section
/-! SUPPORT. The choices behind the DEFLATE encoder's finish: the greedy parse (44 R293), and what dynamic mode chooses (44 R301, R302). -/

namespace Sys2Proof.Machine

/-! ### The greedy parse (44 R293) -/

section
variable {u t : State} {base n : Nat} (hr : u.raced = [])
  (hbytes : ∀ j, j < n → t.hostByte (base + j) = u.hostByte (base + j))
include hbytes

theorem matchAt_congr {p d l : Nat} (hd : d ≤ p) (hl : p + l ≤ n) : MatchAt t base p d l ↔ MatchAt u base p d l := by
  refine forall₂_congr fun k hk => ?_
  rw [show base + p - d + k = base + (p - d + k) by omega, Nat.add_assoc base, hbytes _ (by omega), hbytes _ (by omega)]

theorem LongestMatch.congr {p l d : Nat} (hp : p < n) (h : LongestMatch u base p n l d) : LongestMatch t base p n l d := by
  have hcongr : ∀ d' l', d' ≤ min p Config.lz77Window → l' ≤ min Config.lz77MaxMatch (n - p) →
      (MatchAt t base p d' l' ↔ MatchAt u base p d' l') := fun d' l' hd hl =>
    matchAt_congr hbytes (by omega) (by omega)
  rcases h with ⟨hl, hd, hnone⟩ | ⟨hmin, hle, h1, hfar, hmatch, hlongest, hnearest⟩
  · exact .inl ⟨hl, hd, fun d' l' h1 hfar hlo hhi hm => hnone d' l' h1 hfar hlo hhi ((hcongr d' l' hfar hhi).mp hm)⟩
  · exact .inr ⟨hmin, hle, h1, hfar, (hcongr d l hfar hle).mpr hmatch,
      fun d' l' h1 hfar' hhi hm => hlongest d' l' h1 hfar' hhi ((hcongr d' l' hfar' hhi).mp hm),
      fun d' h1 hlt hm => hnearest d' h1 hlt ((hcongr d' l (hlt.le.trans hfar) hle).mp hm)⟩

include hr

/-- The encoder's tokens are the greedy parse in every state that holds the same bytes. -/
theorem greedyTokens_tokensFrom {fuel p : Nat} (h : n ≤ p + fuel) :
    GreedyTokens t base n p (tokensFrom u base n fuel p) := by
  induction fuel generalizing p with
  | zero => exact .done p h
  | succ fuel ih =>
    rw [tokensFrom]
    split
    · next hp =>
      have hmatch := (lz77MatchAt_longestMatch hr base p n).congr hbytes hp
      simp only
      split
      · next hpos => exact .copy p _ _ _ hp hpos hmatch (ih (by omega))
      · next hzero =>
        rw [engByte_eq_hostByte hr, ← hbytes p hp]
        obtain ⟨hl, hd⟩ : (lz77MatchAt u base p n).1 = 0 ∧ (lz77MatchAt u base p n).2 = 0 := by
          rcases hmatch with ⟨hl, hd, -⟩ | ⟨hmin, -⟩
          · exact ⟨hl, hd⟩
          · exact absurd ((by decide : 0 < Config.lz77MinMatch).trans_le hmin) hzero
        rw [hl, hd] at hmatch
        exact .lit p _ hp hmatch (ih (by omega))
    · next hp => exact .done p (not_lt.mp hp)

end

/-! ### The widths that are used (44 R301) -/

theorem usedLength_concat (ws : List Nat) (w : Nat) :
    usedLength (ws ++ [w]) = if w = 0 then usedLength ws else ws.length + 1 := by
  rw [usedLength, List.reverse_concat, List.dropWhile_cons]
  split_ifs <;> simp_all [usedLength]

theorem getD_of_usedLength_le {ws : List Nat} {i : Nat} (h : usedLength ws ≤ i) : ws.getD i 0 = 0 := by
  induction ws using List.reverseRecOn with
  | nil => rfl
  | append_singleton ws w ih =>
    rw [usedLength_concat] at h
    rcases Nat.lt_or_ge i ws.length with hlt | hge
    · rw [List.getD_append _ _ _ _ hlt]
      split_ifs at h
      · exact ih h
      · omega
    · rw [List.getD_append_right _ _ _ _ hge]
      split_ifs at h with hw
      · subst hw
        cases i - ws.length <;> rfl
      · exact List.getD_eq_default _ _ (by simp; omega)

theorem getD_usedLength_pos {ws : List Nat} (h : 0 < usedLength ws) : 0 < ws.getD (usedLength ws - 1) 0 := by
  induction ws using List.reverseRecOn with
  | nil => cases h
  | append_singleton ws w ih =>
    rw [usedLength_concat] at h ⊢
    split_ifs at h ⊢ with hw
    · have hlt : usedLength ws - 1 < ws.length := by
        by_contra hge
        have := ih h
        rw [List.getD_eq_default _ _ (not_lt.mp hge)] at this
        omega
      rw [List.getD_append _ _ _ _ hlt]
      exact ih h
    · rw [Nat.add_sub_cancel, List.getD_append_right _ _ _ _ le_rfl, Nat.sub_self]
      exact Nat.pos_of_ne_zero hw

theorem usedCount_iff (low : Nat) (ws : List Nat) (n : Nat) : UsedCount low ws n ↔ n = max low (usedLength ws) := by
  have hafter : ∀ i, usedLength ws ≤ i → ws.getD i 0 = 0 := fun i => getD_of_usedLength_le
  have hlast : 0 < usedLength ws → 0 < ws.getD (usedLength ws - 1) 0 := getD_usedLength_pos
  refine ⟨fun ⟨hlow, hzero, hend⟩ => ?_, fun h => ?_⟩
  · have hle : usedLength ws ≤ n := by
      by_contra hlt
      have := hzero (usedLength ws - 1) (by omega)
      have := hlast (by omega)
      omega
    rcases hend with rfl | hpos
    · omega
    · by_contra hne
      have := hafter (n - 1) (by omega)
      omega
  · subst h
    refine ⟨le_max_left _ _, fun i hi => hafter i ((le_max_right _ _).trans hi), ?_⟩
    rcases Nat.le_total (usedLength ws) low with hle | hle
    · exact .inl (max_eq_left hle)
    · rcases Nat.eq_zero_or_pos (usedLength ws) with hz | hpos
      · exact .inl (by omega)
      · rw [max_eq_right hle]
        exact .inr (hlast hpos)

/-! ### The runs of widths are determined (44 R302) -/

theorem RepeatsOf.eq_repeatRuns {v rem : Nat} {rs : List (Nat × Nat)} (h : RepeatsOf v rem rs) {fuel : Nat}
    (hfuel : rem ≤ fuel) : rs = repeatRuns v fuel rem := by
  induction h generalizing fuel with
  | few rem hlt =>
    cases fuel with
    | zero => rfl
    | succ fuel => rw [repeatRuns, if_neg (by omega)]
  | many rem rs h3 _ ih =>
    obtain ⟨fuel, rfl⟩ : ∃ m, fuel = m + 1 := ⟨fuel - 1, by omega⟩
    rw [repeatRuns, if_pos h3, ← ih (by omega)]

/-- The length of a run at the front that is as long as it can be. -/
theorem runLength_run {v k : Nat} {rest : List Nat} (h : rest.head? ≠ some v) :
    runLength v (List.replicate k v ++ rest) = k := by
  have hrest : rest.takeWhile (· == v) = [] := by
    cases rest with
    | nil => rfl
    | cons w rest => exact List.takeWhile_cons_of_neg (by simpa using h)
  rw [runLength, List.takeWhile_append_of_pos (by simp), hrest, List.append_nil, List.length_replicate]

section
variable {v run fuel : Nat} {rest : List Nat} (hpos : 1 ≤ run) (hrest : rest.head? ≠ some v)
include hpos hrest

/-- The coding of a list that begins with a run, by the run's length. -/
theorem rleFrom_run : rleFrom (fuel + 1) (List.replicate run v ++ rest) =
    if v = 0 then
      if 11 ≤ run then (18, min run 138 - 11) :: rleFrom fuel (List.replicate (run - min run 138) v ++ rest)
      else if 3 ≤ run then (17, run - 3) :: rleFrom fuel rest
      else (0, 0) :: rleFrom fuel (List.replicate (run - 1) v ++ rest)
    else (v, 0) :: (repeatRuns v (run - 1) (run - 1) ++ rleFrom fuel rest) := by
  obtain ⟨k, rfl⟩ : ∃ k, run = k + 1 := ⟨run - 1, by omega⟩
  have hlen : 1 + runLength v (List.replicate k v ++ rest) = k + 1 := by rw [runLength_run hrest, Nat.add_comm]
  have hdrop : ∀ {m}, m ≤ k + 1 →
      (v :: (List.replicate k v ++ rest)).drop m = List.replicate (k + 1 - m) v ++ rest :=
    fun hm => drop_run hm v rest
  have hall : (v :: (List.replicate k v ++ rest)).drop (k + 1) = rest := by rw [hdrop le_rfl, Nat.sub_self]; rfl
  show rleFrom (fuel + 1) (v :: (List.replicate k v ++ rest)) = _
  simp only [rleFrom, hlen, hdrop (min_le_left (k + 1) 138), hall, Nat.add_sub_cancel]

end

/-- The runs are those of the model's coding, the fuel being enough. -/
theorem RunsOf.eq_rleFrom {ws : List Nat} {rs : List (Nat × Nat)} (h : RunsOf ws rs) {fuel : Nat}
    (hfuel : ws.length ≤ fuel) : rs = rleFrom fuel ws := by
  have hmore {fuel run : Nat} {rest : List Nat} {v : Nat} (hpos : 1 ≤ run)
      (hle : (List.replicate run v ++ rest).length ≤ fuel) :
      ∃ m, fuel = m + 1 ∧ ∀ k, 1 ≤ k → (List.replicate (run - k) v ++ rest).length ≤ m := by
    simp only [List.length_append, List.length_replicate] at *
    exact ⟨fuel - 1, by omega, fun k hk => by omega⟩
  induction h generalizing fuel with
  | nil => cases fuel <;> rfl
  | manyZeros run rest rs h11 hrest _ ih =>
    obtain ⟨m, rfl, hm⟩ := hmore (by omega) hfuel
    rw [rleFrom_run (by omega) hrest, if_pos rfl, if_pos h11, ← ih (hm _ (by omega))]
  | someZeros run rest rs h3 h10 hrest _ ih =>
    obtain ⟨m, rfl, hm⟩ := hmore (by omega) hfuel
    have hm := hm run (by omega)
    rw [Nat.sub_self] at hm
    rw [rleFrom_run (by omega) hrest, if_pos rfl, if_neg (by omega), if_pos h3, ← ih hm]
  | oneZero run rest rs h1 h2 hrest _ ih =>
    obtain ⟨m, rfl, hm⟩ := hmore h1 hfuel
    rw [rleFrom_run h1 hrest, if_pos rfl, if_neg (by omega), if_neg (by omega), ← ih (hm 1 le_rfl)]
  | width v run rest reps rs hv h1 hrest hreps _ ih =>
    obtain ⟨m, rfl, hm⟩ := hmore h1 hfuel
    have hm := hm run h1
    rw [Nat.sub_self] at hm
    rw [rleFrom_run h1 hrest, if_neg hv, ← ih hm, ← hreps.eq_repeatRuns le_rfl]

theorem runsOf_iff (ws : List Nat) (rs : List (Nat × Nat)) : RunsOf ws rs ↔ rs = rle ws :=
  ⟨fun h => h.eq_rleFrom le_rfl, fun h => h ▸ rle_runsOf ws⟩

/-! ### What dynamic mode chooses (44 R301) -/

/-- The widths of the code-length code. -/
def clCodeWidths (runs : List (Nat × Nat)) : List Nat := (weightedTree (countsOf 19 (runs.map Prod.fst))).widths

/-- The runs that the header of the dynamic block codes. -/
def headerRuns (ts : List Token) : List (Nat × Nat) :=
  rle ((litWidths ts).take (max 257 (usedLength (litWidths ts))) ++
    (distWidths ts).take (max 1 (usedLength (distWidths ts))))

/-- The header with the three tables that the widths give. -/
def headerWith (ts : List Token) (cl lit dist : HufTable) : DynHeader where
  nlit := max 257 (usedLength (litWidths ts))
  ndist := max 1 (usedLength (distWidths ts))
  ncl := trimClCount (clCodeWidths (headerRuns ts))
  clWidths := (clOrder.take (trimClCount (clCodeWidths (headerRuns ts)))).map
    fun s => (clCodeWidths (headerRuns ts)).getD s 0
  runs := headerRuns ts
  cl := cl
  lit := lit
  dist := dist

/-- The widths are no longer than a DEFLATE block can say. -/
def WidthsFit (ts : List Token) : Prop :=
  maxWidth (litWidths ts) ≤ 15 ∧ maxWidth (distWidths ts) ≤ 15 ∧ maxWidth (clCodeWidths (headerRuns ts)) ≤ 7

/-- The widths give the three tables of the header. -/
def TablesOf (ts : List Token) (cl lit dist : HufTable) : Prop :=
  canon (clCodeWidths (headerRuns ts)) = .ok cl ∧
  canon ((litWidths ts).take (max 257 (usedLength (litWidths ts)))) = .ok lit ∧ canon (distWidths ts) = .ok dist

/-- The choices of dynamic mode by the widths. -/
theorem dynamicChoice_iff_widths (ts : List Token) (h : DynHeader) : DynamicChoice ts h ↔
    maxWidth (litWidths ts) ≤ 15 ∧ maxWidth (distWidths ts) ≤ 15 ∧ maxWidth (clCodeWidths h.runs) ≤ 7 ∧
    h.nlit = max 257 (usedLength (litWidths ts)) ∧ h.ndist = max 1 (usedLength (distWidths ts)) ∧
    h.runs = rle ((litWidths ts).take h.nlit ++ (distWidths ts).take h.ndist) ∧
    h.ncl = trimClCount (clCodeWidths h.runs) ∧
    h.clWidths = (clOrder.take h.ncl).map (fun s => (clCodeWidths h.runs).getD s 0) ∧
    canon (clCodeWidths h.runs) = .ok h.cl ∧ canon ((litWidths ts).take h.nlit) = .ok h.lit ∧
    canon (distWidths ts) = .ok h.dist := by
  simp only [DynamicChoice, usedCount_iff, runsOf_iff]
  rfl

/-- The model's choice is the header of widths that fit and have their three tables. -/
theorem dynHeader_eq_some_iff (ts : List Token) (h : DynHeader) : dynHeader ts = some h ↔
    WidthsFit ts ∧ TablesOf ts h.cl h.lit h.dist ∧ h = headerWith ts h.cl h.lit h.dist := by
  simp only [dynHeader, WidthsFit, TablesOf, headerWith, headerRuns, clCodeWidths, litWidths, distWidths]
  refine ⟨fun hsome => ?_, fun ⟨⟨hl, hd, hc⟩, ⟨hcl, hlit, hdist⟩, heq⟩ => ?_⟩
  · split at hsome
    · cases hsome
    · next hshort =>
      obtain ⟨hl, hd⟩ := not_or.mp hshort
      split at hsome
      · cases hsome
      · next hc =>
        split at hsome <;> cases hsome
        next hcl hlit hdist => exact ⟨⟨not_lt.mp hl, not_lt.mp hd, not_lt.mp hc⟩, ⟨hcl, hlit, hdist⟩, rfl⟩
  · rw [if_neg (not_or.mpr ⟨hl.not_gt, hd.not_gt⟩), if_neg hc.not_gt, hcl, hlit, hdist]
    exact congrArg some heq.symm

theorem dynamicChoice_iff (ts : List Token) (h : DynHeader) : DynamicChoice ts h ↔ dynHeader ts = some h := by
  rw [dynHeader_eq_some_iff, dynamicChoice_iff_widths]
  constructor
  · rintro ⟨hl, hd, hc, hnlit, hndist, hruns, hncl, hclw, hcl, hlit, hdist⟩
    rw [hnlit, hndist] at hruns
    change h.runs = headerRuns ts at hruns
    rw [hruns] at hc hncl hclw hcl
    rw [hncl] at hclw
    rw [hnlit] at hlit
    refine ⟨⟨hl, hd, hc⟩, ⟨hcl, hlit, hdist⟩, ?_⟩
    obtain ⟨nlit, ndist, ncl, clWidths, runs, cl, lit, dist⟩ := h
    simp only at hnlit hndist hruns hncl hclw
    rw [hnlit, hndist, hruns, hncl, hclw]
    rfl
  · rintro ⟨⟨hl, hd, hc⟩, ⟨hcl, hlit, hdist⟩, heq⟩
    generalize h.cl = cl at *
    generalize h.lit = lit at *
    generalize h.dist = dist at *
    subst heq
    simp only [headerWith, true_and]
    exact ⟨hl, hd, hc, rfl, hcl, hlit, hdist⟩

end Sys2Proof.Machine
end

section
/-! SUPPORT. How a FEED of an ACTIVE session ends: with COMPLETE no session ACTIVE, a decoder by the end of its loop, a DEFLATE encoder with its output bit for bit (45 R346 to R349, R358; 44 R293, R298 to R301). -/

namespace Sys2Proof.Machine

/-! ### The encoders' byte loop leaves the session's state alone (45 R348) -/

/-- The session is in the state it was in. -/
def SStateSame (s t : State) : Prop := t.ses.sstate = s.ses.sstate

theorem SStateSame.trans (s t u : State) (h : SStateSame s t) (h' : SStateSame t u) : SStateSame s u := Eq.trans h' h

theorem sstateSame_outAppendField (v w : Nat) (s : State) : SStateSame s (outAppendField v w s).state := by
  cases h : outAppendField v w s with
  | ok t => exact (outAppendField_le h).2.2.2.1
  | fail t e => rw [outAppendField_fail h]; rfl

theorem sstateSame_emitData (c : Nat) (s : State) : SStateSame s (emitData c s).state :=
  Run.andThen_rel SStateSame.trans (sstateSame_outAppendField _ _ s) fun u _ => by rw [shadowData_eq]; rfl

theorem sstateSame_lzwEncByte (b : Byte) (s : State) : SStateSame s (lzwEncByte b s).state := by
  by_cases hb : b.toNat < 2 ^ s.litWidth
  · cases hw : s.le.w with
    | none => rw [lzwEncByte_first hb hw]; rfl
    | some w =>
      cases hfind : s.le.find w b with
      | some code => rw [lzwEncByte_known hb hw hfind]; rfl
      | none =>
        rw [lzwEncByte_new hb hw hfind]
        refine Run.andThen_rel SStateSame.trans (Run.andThen_rel SStateSame.trans (sstateSame_emitData w s)
          fun u _ => ?_) fun _ _ => rfl
        split
        · rfl
        · exact Run.andThen_rel SStateSame.trans (sstateSame_outAppendField _ _ u) fun _ _ => rfl
  · rw [lzwEncByte_tooWide (not_lt.mp hb)]
    rfl

theorem sstateSame_encodeByte (b : Byte) (s : State) : SStateSame s (encodeByte b s).state := by
  rw [encodeByte]
  split
  · exact sstateSame_lzwEncByte b s
  · rcases dflEncByte_cases b s with ⟨-, h⟩ | ⟨-, h⟩ <;> rw [h] <;> rfl

theorem sstateSame_encodeLoop {inp : Input} {left j i : Nat} {s u : State}
    (h : encodeLoop inp left j s = .stopped u i) : SStateSame s u := by
  induction left generalizing j s with
  | zero => cases h; rfl
  | succ left ih =>
    have hbyte := sstateSame_encodeByte (s.engByte [j] (inp.base + j)) s
    rw [encodeLoop] at h
    split at h
    · next t ht =>
      rw [ht] at hbyte
      exact hbyte.trans _ _ _ (ih h)
    · cases h

/-- A finish without error leaves the session DONE. -/
theorem encodeFinish_done {s t : State} (h : encodeFinish s = .ok t) : t.ses.sstate = .done := by
  rw [encodeFinish] at h
  split at h
  · exact lzwEncFinish_done h
  · obtain ⟨u, -, hu⟩ := Run.andThen_eq_ok.mp h
    cases hu
    rfl

/-! ### FEED without error (45 R347, R348) -/

/-- An encoder FEED without error consumed every byte, left S_BITPOS, and ended the session exactly with COMPLETE. -/
theorem feedEncode_ok {inp : Input} {complete : Bool} {out0 : Word} {s v : State}
    (h : feedEncode inp complete out0 s = .ok v) : v.res0 = word inp.len ∧ v.ses.bitpos = s.ses.bitpos ∧
      v.ses.sstate = if complete then .done else s.ses.sstate := by
  have hframe := feedFrame_encode.encodeLoop inp inp.len 0 s
  rw [feedEncode] at h
  split at h
  · cases h
  · next u i hloop =>
    rw [hloop] at hframe
    split at h
    · next hc =>
      split at h <;> cases h
      next w hfinish =>
      have hframe' := feedFrame_encode.encodeFinish u
      rw [hfinish] at hframe'
      exact ⟨rfl, hframe'.bitpos.trans hframe.bitpos, (encodeFinish_done hfinish).trans (if_pos hc).symm⟩
    · next hc =>
      cases h
      exact ⟨rfl, hframe.bitpos, (show u.ses.sstate = _ from sstateSame_encodeLoop hloop).trans (if_neg hc).symm⟩

section
variable {s v : State} (hacc : FeedAccepted s) (ha : s.ses.sstate = .active)
include hacc ha

/-- With COMPLETE a FEED without error ends the session. -/
theorem feed_complete_done (h : effects (.feed true) (startCommand s) = .ok v) : v.ses.sstate = .done := by
  by_cases hdec : s.ses.isDecoder
  · rw [effects_feed_decoder hacc ha hdec] at h
    generalize hloop : decodeLoop ⟨s.arg0, s.arg1⟩ (8 * s.arg1 + 1) s.ses.bitpos.toNat (startCommand s) = r at h
    cases r with
    | raised u e c => cases h
    | stopped u c =>
      rcases decodeLoop_stopped_sstate (s := startCommand s) ha hloop with hu | hu
      · rw [decodeEnd_active hu] at h
        cases h
      · rw [decodeEnd_done hu] at h
        cases h
        exact hu
  · rw [effects_feed_encoder hacc ha hdec] at h
    obtain ⟨-, -, hstate⟩ := feedEncode_ok h
    exact hstate

end

/-- What FEED says of its end, for every kind of session. -/
theorem feed_completes (complete : Bool) {s : State} (hacc : FeedAccepted s) (ha : s.ses.sstate = .active) :
    Completes (.feed complete) s fun t =>
      (complete = true →
        (t.ses.sstate = .done ∧ t.status.err = false) ∨ (t.ses.sstate = .error ∧ t.status.err = true)) ∧
      (s.ses.isEncoder = true → t.status.err = false → t.res0 = s.larg.a1 ∧ t.ses.bitpos = s.ses.bitpos ∧
        (t.ses.sstate = .done ↔ complete = true)) := by
  rw [completes_iff]
  obtain ⟨-, -, -, -, -, -, -, -, -, -, -, hfailed⟩ := feedReport complete hacc ha
  cases heffects : effects (.feed complete) (startCommand s) with
  | ok v =>
    rw [heffects] at hfailed
    refine ⟨?_, fun henc _ => ?_⟩
    · rintro rfl
      have hdone : v.ses.sstate = .done := feed_complete_done hacc ha heffects
      refine .inl ⟨hdone, Bool.eq_false_iff.mpr fun herr => ?_⟩
      obtain ⟨-, -, herror, -⟩ := hfailed herr
      cases hdone.symm.trans herror
    · have hdec : ¬ s.ses.isDecoder := by
        simp only [Session.isEncoder, Bool.or_eq_true, beq_iff_eq] at henc
        rcases henc with h | h <;> simp [Session.isDecoder, h]
      rw [effects_feed_encoder hacc ha hdec] at heffects
      obtain ⟨hres0, hbitpos, hstate⟩ := feedEncode_ok heffects
      have hall : word s.arg1 = s.larg.a1 := BitVec.ofNat_toNat _ _
      refine ⟨hres0.trans hall, hbitpos, ?_⟩
      show v.ses.sstate = .done ↔ complete = true
      rw [hstate]
      cases complete <;> simp [ha]
  | fail v e =>
    rw [heffects] at hfailed
    obtain ⟨-, -, herror, -⟩ := hfailed rfl
    exact ⟨fun _ => .inr ⟨herror, rfl⟩, fun _ herr => by cases herr⟩

/-! ### FEED of a decoder by the end of its loop (45 R346, R347, R358) -/

/-- A clean end that also leaves the bits of the last byte that are consumed in S_BITPOS. -/
theorem feedEnded_setBitpos {s u : State} (hu : FeedFrame (startCommand s) u) (n b : Nat) (out0 : Word) :
    FeedEnded n (BitVec.ofNat 3 b) u (finishCommand (feedResults n out0 true (setBitpos b u))) := by
  have herr : u.status.err = false := by rw [hu.status]; rfl
  have hdetail : u.errDetail = 0 := hu.errDetail
  exact ⟨rfl, herr, hdetail, rfl, rfl, rfl, rfl, rfl, rfl, fun _ => rfl⟩

section
variable {s : State} (hacc : FeedAccepted s) (ha : s.ses.sstate = .active) (hdec : s.ses.isDecoder) {u : State} {c : Nat}
include hacc ha hdec

theorem feed_decoder_active (hloop : feedLoop s = .stopped u c) (hu : u.ses.sstate = .active) :
    Completes (.feed false) s (FeedEnded (c / 8) (BitVec.ofNat 3 (c % 8)) u) ∧
    Completes (.feed true) s (FeedFailed (Err.ofDetail 0x0601) (c / 8) u) := by
  have hframe := feedLoop_frame s
  rw [hloop] at hframe
  rw [completes_iff, completes_iff, finish_feed_decoder hacc ha hdec, finish_feed_decoder hacc ha hdec, hloop,
    decodeEnd_active hu, decodeEnd_active hu]
  exact ⟨feedEnded_setBitpos hframe _ _ _, feedFailed_finish Err.prematureEnd _ _ u⟩

theorem feed_decoder_done (complete : Bool) (hloop : feedLoop s = .stopped u c) (hu : u.ses.sstate = .done) :
    Completes (.feed complete) s (FeedEnded (bytesOfBits c) 0 u) := by
  have hframe := feedLoop_frame s
  rw [hloop] at hframe
  rw [completes_iff, finish_feed_decoder hacc ha hdec, hloop, decodeEnd_done hu]
  exact feedEnded_setBitpos hframe _ 0 _

theorem feed_decoder_raised (complete : Bool) {e : Err} (hloop : feedLoop s = .raised u e c) :
    Completes (.feed complete) s (FeedFailed e (c / 8) u) := by
  rw [completes_iff, finish_feed_decoder hacc ha hdec, hloop]
  exact feedFailed_finish e _ _ u

end

/-! ### What the DEFLATE encoder's finish writes (44 R298) -/

/-- The finish writes the block or blocks of its mode, for the greedy parse of the history where the mode has one. -/
theorem writesBits_dflEncOutput {s : State} {bytes : List Byte} (hs : HoldsApart s.ses.histBase.toNat bytes s)
    (hlen : s.ses.histLen.toNat = bytes.length) :
    ∃ bits, FinishBits s.ses.bmode s.ses.outBits.toNat bytes (tokens s s.ses.histBase.toNat bytes.length) bits ∧
      WritesBits bits s (dflEncOutput s) := by
  rw [dflEncOutput, hlen]
  generalize tokens s s.ses.histBase.toNat bytes.length = ts
  have hfixed := writesBits_fixedOutput hs.ready ts
  by_cases h0 : s.ses.bmode = 0
  · exact ⟨_, ⟨fun _ => rfl, by simp [h0], by simp [h0]⟩, by rw [if_pos h0]; exact writesBits_storedOutput hs⟩
  · by_cases h2 : s.ses.bmode = 2
    · simp only [if_neg h0, if_pos h2]
      cases hdyn : dynHeader ts with
      | some h =>
        refine ⟨dynamicBits h ts, ⟨fun h' => absurd h' h0, by simp [h2], fun _ => ⟨fun h' hchoice => ?_, fun hnone => ?_⟩⟩,
          writesBits_dynOutput hs.ready h ts⟩
        · rw [dynamicChoice_iff, hdyn] at hchoice
          cases hchoice
          rfl
        · exact absurd ((dynamicChoice_iff ts h).mpr hdyn) (hnone h)
      | none =>
        refine ⟨fixedBits ts, ⟨fun h' => absurd h' h0, fun _ => rfl, fun _ => ⟨fun h hchoice => ?_, fun _ => rfl⟩⟩, hfixed⟩
        rw [dynamicChoice_iff, hdyn] at hchoice
        cases hchoice
    · simp only [if_neg h0, if_neg h2]
      exact ⟨fixedBits ts, ⟨fun h' => absurd h' h0, fun _ => rfl, fun h' => absurd h' h2⟩, hfixed⟩

/-! ### Bits appended to an output that is the same in two states -/

section
variable {bits : List Bool} {s t : State} (h : OutBitsAppended bits s t)
include h

theorem OutBitsAppended.congr_left {s' : State} (hbits : s.ses.outBits = s'.ses.outBits) (hord : s.ses.ord = s'.ses.ord)
    (hbase : s.ses.outBase = s'.ses.outBase)
    (hold : ∀ i, i < ceil8 s'.ses.outBits.toNat →
      s'.streamBit s'.ses.ord s'.ses.outBase.toNat i = s.streamBit s'.ses.ord s'.ses.outBase.toNat i) :
    OutBitsAppended bits s' t := by
  obtain ⟨hcount, hlen, hsame, hnew, htail⟩ := h
  rw [hbits] at hcount hlen
  rw [hbits, hord, hbase] at hsame hnew
  refine ⟨hcount, hlen, fun i hi => (hsame i hi).trans (hold i ?_).symm, hnew, fun htail' => htail ?_⟩
  · simp only [ceil8]
    omega
  · rw [OutTailClear, hbits, hord, hbase]
    exact fun i hlo hhi => (hold i hhi).symm.trans (htail' i hlo hhi)

theorem OutBitsAppended.congr_right {t' : State} (hbits : t'.ses.outBits = t.ses.outBits)
    (hlen : t'.ses.outLen = t.ses.outLen) (hord : t'.ses.ord = t.ses.ord) (hbase : t'.ses.outBase = t.ses.outBase)
    (hbytes : ∀ a, t'.hostByte a = t.hostByte a) : OutBitsAppended bits s t' := by
  have hstream : ∀ ord base i, t'.streamBit ord base i = t.streamBit ord base i := fun ord base i => by
    rw [State.streamBit, State.streamBit, hbytes]
  obtain ⟨hcount, hlen', hsame, hnew, htail⟩ := h
  refine ⟨hbits.trans hcount, hlen.trans hlen', fun i hi => (hstream _ _ i).trans (hsame i hi),
    fun k hk => (hstream _ _ _).trans (hnew k hk), fun htail' i hlo hhi => ?_⟩
  rw [hbits] at hlo hhi
  rw [hord, hbase, hstream]
  exact htail htail' i hlo hhi

end

/-! ### The history with the bytes of the FEED at its end (44 R294) -/

/-- The bytes of the history and then those of the input. -/
def historyThenInput (s : State) : List Byte :=
  (List.range s.ses.histLen.toNat).map (fun j => s.hostByte (s.ses.histBase.toNat + j)) ++
    (List.range s.arg1).map (fun j => s.hostByte (s.arg0 + j))

theorem historyThenInput_length (s : State) : (historyThenInput s).length = s.ses.histLen.toNat + s.arg1 := by
  simp [historyThenInput]

theorem getD_historyThenInput_old {s : State} {j : Nat} (h : j < s.ses.histLen.toNat) :
    (historyThenInput s).getD j 0 = s.hostByte (s.ses.histBase.toNat + j) := by
  rw [historyThenInput, List.getD_append _ _ _ _ (by simpa using h), List.getD_eq_getElem _ _ (by simpa using h)]
  simp

theorem getD_historyThenInput_new {s : State} {j : Nat} (h : j < s.arg1) :
    (historyThenInput s).getD (s.ses.histLen.toNat + j) 0 = s.hostByte (s.arg0 + j) := by
  rw [historyThenInput, List.getD_append_right _ _ _ _ (by simp), List.getD_eq_getElem _ _ (by simpa using h)]
  simp

section
variable {s u : State} (hu : HistoryAppended (fun k => s.hostByte (s.arg0 + k)) s.arg1 (startCommand s) u)
include hu

theorem HistoryAppended.ses_eq : u.ses = { s.ses with histLen := s.ses.histLen + s.larg.a1 } := by
  have hall : word s.arg1 = s.larg.a1 := BitVec.ofNat_toNat _ _
  rw [hu.ses, hall, startCommand_ses]

theorem HistoryAppended.raced_nil (hr : s.raced = []) : u.raced = [] := by simpa [hr] using hu.writes.addrs

/-- The history after the byte loop. -/
theorem HistoryAppended.holds (hr : s.raced = []) {j : Nat} (hj : j < (historyThenInput s).length) :
    u.memByte (s.ses.histBase.toNat + j) = (historyThenInput s).getD j 0 := by
  rw [historyThenInput_length] at hj
  rcases Nat.lt_or_ge j s.ses.histLen.toNat with hlt | hge
  · rw [getD_historyThenInput_old hlt, State.hostByte_of_no_race hr]
    exact hu.writes.mem _ fun ⟨hlo, _⟩ => by simp only [startCommand_ses] at hlo; omega
  · obtain ⟨k, rfl⟩ := Nat.exists_eq_add_of_le hge
    rw [getD_historyThenInput_new (by omega), ← Nat.add_assoc]
    exact hu.appended k (by omega)

section
variable (hfit : s.ses.histLen.toNat + s.arg1 ≤ s.ses.histCap.toNat)
include hfit

theorem HistoryAppended.memByte_eq {a : Nat}
    (ha : ¬ InRegion s.ses.histBase.toNat s.ses.histCap.toNat a) : u.memByte a = s.memByte a := by
  refine hu.writes.mem a fun hin => ha ?_
  obtain ⟨hlo, hhi⟩ := hin
  simp only [startCommand_ses] at hlo hhi
  exact ⟨by omega, by omega⟩

variable (hr : s.raced = []) (hregions : RegionsOk s) (hshape : SessionShapeOk s) (hm : s.ses.mode = .dflEnc)
include hr hregions hshape hm

/-- After the byte loop the output is ready, and the history holds all bytes, apart from the output. -/
theorem HistoryAppended.holdsApart : HoldsApart s.ses.histBase.toNat (historyThenInput s) u := by
  obtain ⟨-, -, -, hlen, -, -, henc, -⟩ := hregions
  obtain ⟨hapart, hord⟩ := hshape
  have hses := hu.ses_eq
  have hbits : s.ses.outLen.toNat = bytesOfBits s.ses.outBits.toNat := henc (by simp [Session.isEncoder, hm])
  refine ⟨⟨hu.raced_nil hr, ?_, ?_, ?_⟩, fun j => hu.holds hr, fun j hj hin => ?_⟩
  · rw [hses]
    exact hord (.inr hm)
  · rw [OutFits, hses]
    exact ⟨hbits.ge.trans hlen, Nat.le_sub_one_of_lt s.ses.outBits.isLt⟩
  · have hword : word s.ses.outLen.toNat = s.ses.outLen := by simp [word]
    rw [hses, ← hbits]
    exact hword.symm
  · rw [hses] at hin
    rw [historyThenInput_length] at hj
    exact hapart ⟨_, hin, Nat.le_add_right _ _, by omega⟩

/-- Bits appended to the output after the byte loop are appended to the output before it. -/
theorem HistoryAppended.outBitsAppended {bits : List Bool} {v : State} (hv : OutBitsAppended bits u v) :
    OutBitsAppended bits s v := by
  obtain ⟨-, -, -, hlen, -, -, henc, -⟩ := hregions
  obtain ⟨hapart, -⟩ := hshape
  have hses := hu.ses_eq
  have hbits : s.ses.outLen.toNat = bytesOfBits s.ses.outBits.toNat := henc (by simp [Session.isEncoder, hm])
  refine hv.congr_left (by rw [hses]) (by rw [hses]) (by rw [hses]) fun i hi => ?_
  have hin : InRegion s.ses.outBase.toNat s.ses.outCap.toNat (s.ses.outBase.toNat + i / 8) := by
    simp only [ceil8, bytesOfBits] at hi hbits
    exact ⟨Nat.le_add_right _ _, by omega⟩
  rw [State.streamBit, State.streamBit, State.hostByte_of_no_race hr, State.hostByte_of_no_race (hu.raced_nil hr),
    hu.memByte_eq hfit fun hhist => hapart ⟨_, hin, hhist⟩]

end

/-- What the finish leaves of the history, and its greedy parse. -/
theorem HistoryAppended.kept (hr : s.raced = []) {v t : State}
    (hholds : HoldsApart s.ses.histBase.toNat (historyThenInput s) u) (hv : OutputOnly u v)
    (hlen : t.ses.histLen = v.ses.histLen) (hmem : ∀ a, t.hostByte a = v.memByte a) :
    t.ses.histLen = s.ses.histLen + s.larg.a1 ∧
    (∀ j, j < (historyThenInput s).length →
      t.hostByte (s.ses.histBase.toNat + j) = (historyThenInput s).getD j 0) ∧
    GreedyTokens t s.ses.histBase.toNat (historyThenInput s).length 0
      (tokens u s.ses.histBase.toNat (historyThenInput s).length) := by
  have hbytes : ∀ j, j < (historyThenInput s).length →
      t.hostByte (s.ses.histBase.toNat + j) = (historyThenInput s).getD j 0 := fun j hj =>
    (hmem _).trans (hv.holds hholds hj)
  have hraced := hu.raced_nil hr
  refine ⟨by rw [hlen, hv.ses, hu.ses_eq], hbytes, greedyTokens_tokensFrom hraced (fun j hj => ?_) (Nat.zero_add _).ge⟩
  rw [hbytes j hj, State.hostByte_of_no_race hraced, hholds.holds j hj]

end

/-- What the host reads in a state without races that holds the memory of `v`. -/
theorem hostByte_of_left {t v : State} (hraced : t.raced = []) (hmem : t.mem = v.mem)
    (hepoch : t.powerEpoch = v.powerEpoch) (a : Nat) : t.hostByte a = v.memByte a :=
  (State.hostByte_of_no_race hraced a).trans (State.memByte_congr hmem hepoch a)

section
variable {s : State} (hr : s.raced = []) (hregions : RegionsOk s) (hshape : SessionShapeOk s) (hacc : FeedAccepted s)
  (ha : s.ses.sstate = .active) (hm : s.ses.mode = .dflEnc)
  (hfit : s.ses.histLen.toNat + s.arg1 ≤ s.ses.histCap.toNat)
include hr hregions hacc ha hm hfit

/-- With COMPLETE the byte loop appends the whole input to the history, and the command ends as the output does. -/
theorem feed_dflEnc_complete : ∃ u,
    HistoryAppended (fun k => s.hostByte (s.arg0 + k)) s.arg1 (startCommand s) u ∧
    (∀ v, dflEncOutput u = .ok v → effects (.feed true) (startCommand s) =
      .ok (feedResults s.arg1 s.ses.outLen true (sessionDone v))) ∧
    ∀ v e, dflEncOutput u = .fail v e → effects (.feed true) (startCommand s) =
      sessionError e s.arg1 s.ses.outLen v := by
  have henc : s.ses.isEncoder = true := by simp [Session.isEncoder, hm]
  obtain ⟨room, hroom⟩ := Nat.exists_eq_add_of_le (Nat.le_of_add_right_le hfit)
  obtain ⟨u, hu, hloop⟩ := encodeLoop_history (inp := ⟨s.arg0, s.arg1⟩) (s := startCommand s) hroom.symm hm
    (fun u hu k hk => engByte_input hr hregions hacc (henc.symm ▸ hu) [k] hk) (HistoryAppended.refl _ _) (Nat.zero_le _)
    (Nat.zero_add _)
  have hle : s.arg1 ≤ room := by omega
  have hmode : u.ses.mode ≠ .lzwEnc := by rw [hu.ses, startCommand_ses, hm]; decide
  rw [min_eq_left hle] at hu
  rw [effects_feed_encoder hacc ha (by simp [Session.isDecoder, hm]), feedEncode, hloop, if_pos hle]
  refine ⟨u, hu, fun v hv => ?_, fun v e hv => ?_⟩ <;>
    simp only [encodeFinish, if_neg hmode, dflEncFinish, hv, Run.andThen_ok, Run.andThen_fail, if_true]

include hshape

/-- The output of a DEFLATE encoder's FEED with COMPLETE, bit for bit. -/
theorem feed_dflEnc_bits : ∃ ts bits, Completes (.feed true) s fun t =>
    (t.ses.histLen = s.ses.histLen + s.larg.a1 ∧
      (∀ j, j < (historyThenInput s).length →
        t.hostByte (s.ses.histBase.toNat + j) = (historyThenInput s).getD j 0) ∧
      GreedyTokens t s.ses.histBase.toNat (historyThenInput s).length 0 ts) ∧
    FinishBits s.ses.bmode s.ses.outBits.toNat (historyThenInput s) ts bits ∧
    (OutFits s bits.length → t.status.err = false ∧ t.ses.sstate = .done ∧ OutBitsAppended bits s t) ∧
    (¬ OutFits s bits.length → t.errDetail = 0x0B01 ∧ t.ses.sstate = .error) := by
  obtain ⟨u, hu, hok, hfail⟩ := feed_dflEnc_complete hr hregions hacc ha hm hfit
  have hholds := hu.holdsApart hfit hr hregions hshape hm
  have hses := hu.ses_eq
  have hbase : u.ses.histBase = s.ses.histBase := by rw [hses]
  have hlen : u.ses.histLen.toNat = (historyThenInput s).length := by
    rw [hu.histLen_toNat hfit, historyThenInput_length]
    rfl
  obtain ⟨bits, hbits, hwrites⟩ := writesBits_dflEncOutput (hbase.symm ▸ hholds) hlen
  have hfits : OutFits u bits.length ↔ OutFits s bits.length := by rw [OutFits, OutFits, hses]
  rw [hbase, show u.ses.bmode = s.ses.bmode by rw [hses], show u.ses.outBits = s.ses.outBits by rw [hses]] at hbits
  refine ⟨tokens u s.ses.histBase.toNat (historyThenInput s).length, bits, ?_⟩
  by_cases h : OutFits s bits.length
  · obtain ⟨v, hv, hwritten⟩ := hwrites.fits (hfits.mpr h)
    have hframe := feedFrame_encode.dflEncFinish u
    rw [dflEncFinish, hv] at hframe
    have hstatus : v.status = s.status.atStart := hframe.status.trans hu.frame.status
    have hbytes : ∀ a, (finishCommand (feedResults s.arg1 s.ses.outLen true (sessionDone v))).hostByte a = v.memByte a :=
      hostByte_of_left rfl (finishCommand_mem_of_no_race (s := feedResults _ _ _ (sessionDone v)) hwritten.raced) rfl
    have happended := hu.outBitsAppended hfit hr hregions hshape hm hwritten.appended
    exact completes_ok (hok v hv) ⟨hu.kept hr hholds hwritten.toOutputOnly rfl hbytes, hbits,
      fun _ => ⟨congrArg Status.err hstatus, rfl, happended.congr_right rfl rfl rfl rfl fun a =>
        (hbytes a).trans (State.hostByte_of_no_race hwritten.raced a).symm⟩, fun hfull => absurd h hfull⟩
  · obtain ⟨v, hv, honly⟩ := hwrites.full (fun hu => h (hfits.mp hu))
    rw [completes_iff, hfail v _ hv]
    have hbytes : ∀ a, (sessionError Err.outputFull s.arg1 s.ses.outLen v).finish.hostByte a = v.memByte a :=
      hostByte_of_left rfl (finishCommand_mem_of_no_race (s := v) honly.raced) rfl
    exact ⟨hu.kept hr hholds honly rfl hbytes, hbits, fun hfit => absurd hfit h, fun _ => ⟨rfl, rfl⟩⟩

end

/-- Settles O43: the ends of every FEED, a decoder's by the end of its loop, and a DEFLATE encoder's output. -/
theorem completeEndsTheSession : Obligations.CompleteEndsTheSession := by
  refine ⟨fun complete s => feed_completes complete, fun s r hacc ha hdec hr => ?_, ?_⟩
  · change r = feedLoop s at hr
    subst hr
    exact ⟨feedLoop_steps, fun u c => feed_decoder_active hacc ha hdec,
      fun u c complete => feed_decoder_done hacc ha hdec complete, fun u e c complete hloop =>
        ⟨feed_decoder_raised hacc ha hdec complete hloop, decodeLoop_raised hloop⟩⟩
  · intro s hr hregions hshape hacc ha hm hroom
    obtain ⟨-, -, -, -, -, hlen, -⟩ := id hregions
    obtain ⟨ts, bits, t, hexec, ⟨hhist, hbytes, hgreedy⟩, hbits, hfits, hfull⟩ :=
      feed_dflEnc_bits hr hregions hshape hacc ha hm (by omega)
    exact ⟨ts, bits, historyThenInput s, t, hexec, rfl, hhist, hbytes, hgreedy, hbits, hfits, hfull⟩

end Sys2Proof.Machine
end

section
/-! SUPPORT. What a command other than FEED leaves behind when it ends in error (60 R382, R383). -/

namespace Sys2Proof.Machine

/-! ### The errors of a build are INVALID_CODE_TABLE (60 R380) -/

theorem canon_error_code {ws : List Nat} {e : Err} (h : canon ws = .error e) : e.detail.extractLsb' 8 8 = 12 := by
  unfold canon at h
  split_ifs at h <;> cases h <;> decide

theorem weighted_error_code {ws : List Nat} {e : Err} (h : weighted ws = .error e) : e.detail.extractLsb' 8 8 = 12 := by
  simp only [weighted] at h
  split at h <;> cases h
  decide

/-! ### The effects that an error leaves behind -/

/-- Effects that raise an error raised it before they changed anything, or are a build whose construction failed. -/
theorem effects_fail_cases {i : Instr} {s u : State} {e : Err} (hfeed : ∀ c, i ≠ .feed c)
    (h : effects i s = .fail u e) :
    u = s ∨ ∃ k : Fin 4, (i = .hufBuildCanon k.val ∨ i = .hufBuildWeighted k.val) ∧
      e.detail.extractLsb' 8 8 = 12 ∧ u = s.setSlot k ⟨false, s.huf[k].table⟩ := by
  by_cases hbuild : ∃ slot, i = .hufBuildCanon slot ∨ i = .hufBuildWeighted slot
  · obtain ⟨slot, hi⟩ := hbuild
    rcases build_cases i slot s hi with ⟨e', hr, -⟩ | ⟨k, rfl, -, -, ⟨t, hr, -⟩ | ⟨e', hr, hbuilt⟩⟩ <;> rw [h] at hr
    · injection hr with hu
      exact .inl hu
    · cases hr
    · injection hr with hu he
      subst he
      exact .inr ⟨k, hi, hbuilt.elim (fun hc => canon_error_code hc.2) (fun hw => weighted_error_code hw.2), hu⟩
  · have hdo := effects_do i s
    rw [h] at hdo
    cases hdo with
    | refused => exact .inl rfl
    | unbuilt k _ hi => exact absurd ⟨k.val, hi⟩ hbuild
    | feedFailed c _ _ _ hi => exact absurd hi (hfeed c)
    | afterEnd c _ hi => exact absurd hi (hfeed c)

/-- A command that ends in error raised it: effects that run to their end leave ERR as the start cleared it. -/
theorem effects_fail_of_err {i : Instr} {s : State} (h : (effects i (startCommand s)).finish.status.err = true) :
    ∃ u e, effects i (startCommand s) = .fail u e := by
  obtain ⟨hclear, -⟩ := effects_noError i s
  cases hr : effects i (startCommand s) with
  | ok u =>
    rw [hr] at h hclear
    exact absurd (hclear.symm.trans h) Bool.false_ne_true
  | fail u e => exact ⟨u, e, rfl⟩

/-- Settles O54: the error stopped the effects at the state the command started in, but for the slot of a failed build. -/
theorem failingCommandsChangeNothingElse : Obligations.FailingCommandsChangeNothingElse := by
  intro i s t ht herr hfeed
  rw [exec_eq] at ht
  injection ht with ht
  subst ht
  obtain ⟨u, e, hr⟩ := effects_fail_of_err herr
  rw [hr]
  rcases effects_fail_cases hfeed hr with rfl | ⟨k, hi, hcode, rfl⟩
  · obtain ⟨-, hres, hhost, hses, hbs, hhuf, hmem⟩ := refusedWith_raiseError e s
    exact ⟨hres, hhost, hses, hbs, hmem, fun k => .inl (congrArg (·[k]) hhuf)⟩
  · obtain ⟨hres, ⟨hhost, hses, hbs⟩, hmem, hslot, hothers⟩ := setSlot_only s k ⟨false, s.huf[k].table⟩ rfl
    refine ⟨hres, hhost, hses, hbs, hmem, fun j => ?_⟩
    by_cases hj : j = k
    · subst hj
      exact .inr ⟨hi, hcode, congrArg HufSlot.valid hslot⟩
    · exact .inl (hothers j hj)

end Sys2Proof.Machine
end

section
/-! SUPPORT. Reset and hazards (70): the decoder's bounded loop, OVERRUN over every step, what the reset input and power-on leave, the end of every command, and the invariants of the state after reset. -/

namespace Sys2Proof.Machine

/-! ### The decoder's loop (70 R441) -/

/-- Settles O44: the loop's bound exceeds the input bits left, so the units themselves end it, and where they stop in an
ACTIVE session a unit lacks input. -/
theorem decoderLoopIsNotCutShort : Obligations.DecoderLoopIsNotCutShort := by
  intro s inp c hok
  have hsteps : DecodeSteps inp c s (decodeLoop inp (8 * inp.len + 1) c s) := decodeLoop_steps hok (by omega)
  refine ⟨hsteps, fun t c' hstop => ?_⟩
  rw [hstop] at hsteps
  by_cases ha : t.ses.sstate = .active
  · exact .inr (hsteps.lacks ha)
  · exact .inl ha

/-! ### OVERRUN (70 R431; 10 R36) -/

theorem effects_overrun {i : Instr} (hi : i ≠ .softReset) (s : State) :
    (effects i s).state.status.overrun = s.status.overrun := by
  rw [(effects_frame i s hi).status]

@[simp] theorem Run.finish_overrun (r : Run) : r.finish.status.overrun = r.state.status.overrun := by cases r <;> rfl

/-- What a step does to OVERRUN: a reset of either kind or SOFT_RESET clears it, a CMD write while BUSY = 1 sets it, and
every other step keeps it. -/
theorem step_overrun {s t : State} (h : step s = .next t) :
    t.status.overrun = s.status.overrun ∨
    (t.status.overrun = false ∧ ((∃ rest, s.agenda = .reset :: rest ∨ s.agenda = .powerOn :: rest) ∨
      (s.busy = true ∧ decode s.lcmd = .ok .softReset))) ∨
    (t.status.overrun = true ∧ s.busy = true ∧ ∃ w rest, s.agenda = .regWrite 0x00 4 w :: rest) := by
  rcases step_cases h with hcommand | hidle | hwrite | hread | hmemWrite | hmemRead | hreset | hpower
  · obtain ⟨r, hb, rfl, u, hu, hr⟩ := hcommand
    have hu : u.status.overrun = s.status.overrun := by rcases hu with ⟨_, rfl⟩ | ⟨_, _, rfl⟩ | ⟨_, rfl⟩ <;> rfl
    rcases hr with ⟨i, hi, rfl⟩ | ⟨d, _, rfl⟩
    · by_cases hsoft : i = .softReset
      · subst hsoft
        exact .inr (.inl ⟨rfl, .inr ⟨hb, hi⟩⟩)
      · exact .inl (((Run.finish_overrun _).trans (effects_overrun hsoft _)).trans hu)
    · exact .inl hu
  · obtain ⟨-, rfl | ⟨rest, rfl⟩ | ⟨rest, rfl⟩⟩ := hidle <;> exact .inl rfl
  · obtain ⟨o, b, v, rest, hag, rfl, -, -, rfl⟩ := hwrite
    rcases writeReg_cases (s.withAgenda rest) o v with ⟨rfl, ⟨hb, hw⟩ | ⟨_, hw⟩⟩ | ⟨a, hw⟩ <;> rw [hw]
    · exact .inr (.inr ⟨rfl, hb, v, rest, hag⟩)
    · exact .inl rfl
    · exact .inl rfl
  · obtain ⟨o, b, rest, -, rfl⟩ := hread
    exact .inl rfl
  · obtain ⟨a, v, rest, -, -, ⟨-, rfl⟩ | ⟨-, rfl⟩⟩ := hmemWrite <;> exact .inl rfl
  · obtain ⟨a, rest, -, d, rfl⟩ := hmemRead
    exact .inl rfl
  · obtain ⟨rest, hag, rfl⟩ := hreset
    exact .inr (.inl ⟨rfl, .inl ⟨rest, .inl hag⟩⟩)
  · obtain ⟨rest, hag, rfl⟩ := hpower
    exact .inr (.inl ⟨rfl, .inl ⟨rest, .inr hag⟩⟩)

/-- Settles O6: only a step that clears OVERRUN takes it from 1 to 0, and only one that sets it from 0 to 1. -/
theorem overrunIsSticky : Obligations.OverrunIsSticky := by
  intro s t h
  rcases step_overrun h with hkept | ⟨hclear, hcause⟩ | ⟨hset, hcause⟩
  · rw [hkept]
    exact ⟨fun h1 h0 => absurd (h0.symm.trans h1) Bool.false_ne_true,
      fun h0 h1 => absurd (h0.symm.trans h1) Bool.false_ne_true⟩
  · exact ⟨fun _ _ => hcause, fun _ h1 => absurd (hclear.symm.trans h1) Bool.false_ne_true⟩
  · exact ⟨fun _ h0 => absurd (h0.symm.trans hset) Bool.false_ne_true, fun _ _ => hcause⟩

/-! ### The reset input, power-on and the state after reset (70 R420 to R422) -/

/-- Every state with the registers of reset has taken it, whatever its memory and the model's own record (70 R421). -/
theorem resetTaken_resetWith (par : Params) (m : Memory) (epoch draw : Nat) (agenda : List Event) (d : Word) :
    ResetTaken { State.resetWith par with
      mem := m, powerEpoch := epoch, drawNo := draw, agenda := agenda, hostData := d } :=
  ⟨fun offset => readReg_resetWith par offset, rfl, rfl, rfl, resetWith_huf_valid par, rfl, rfl, rfl⟩

/-- The reset input settles the races as the end of SOFT_RESET does: no command has written a raced byte, so each one
keeps what the host wrote (20 R95; log 16). -/
theorem memorySame_resetInput (s : State) : MemorySame s (resetInput s) := memorySame_finish_resetRegisters s

theorem hostByte_unwritten {s : State} (hm : s.mem = []) (hr : s.raced = []) (a : Nat) :
    s.hostByte a = Config.powerOnByte s.powerEpoch a := by
  rw [State.hostByte_of_no_race hr, State.memByte, hm]
  rfl

/-- Settles O10: the reset input settles the races and clears the registers, power-on draws memory anew. -/
theorem resetClearsEverything : Obligations.ResetClearsEverything := by
  refine ⟨fun s rest => ⟨fun h => ?_, fun h => ?_⟩, ?_, hostByte_unwritten rfl rfl⟩
  · exact ⟨resetInput (s.withAgenda rest), step_cons h, resetTaken_resetWith .., rfl, rfl,
      memorySame_resetInput (s.withAgenda rest)⟩
  · exact ⟨powerOnReset (s.withAgenda rest), step_cons h, resetTaken_resetWith .., rfl, rfl, rfl,
      hostByte_unwritten rfl rfl⟩
  · exact resetTaken_resetWith ..

/-! ### The end of every command (70 R440; 10 R36) -/

theorem Run.finish_done (r : Run) : r.finish.status.done = (r.finish.ses.sstate == .done) := by cases r <;> rfl

/-- Settles O55: every command is a run of effects, and both ends of a run clear BUSY and settle the races. -/
theorem everyCommandEnds : Obligations.EveryCommandEnds := fun i s =>
  (completes_iff i s _).mpr ⟨Run.finish_busy _, Run.finish_raced _, Run.finish_done _⟩

/-! ### The invariants of the state after reset (70 R420) -/

/-- After reset memory lists no byte and nothing races. -/
theorem memoryOk_reset : MemoryOk State.reset :=
  ⟨reset_memory_wf, by simp [State.reset, State.resetWith], by simp [State.reset, State.resetWith]⟩

/-- Settles O60: memory, the bit sequence and the session are released, every slot is invalid, and without a session no
codec's invariant asks for anything. -/
theorem resetMeetsTheInvariants : Obligations.ResetMeetsTheInvariants := by
  have hmode : ∀ m : Mode, m ≠ .none → State.reset.ses.mode ≠ m := fun _ => Ne.symm
  exact ⟨memoryOk_reset, regionsOk_reset rfl rfl, ⟨errorFieldsOk_clear rfl rfl, sessionCtrlOk_released rfl⟩,
    racesOk_none rfl, slotsOk_of_invalid (resetWith_huf_valid _), lzwDec_property.other _ (hmode _ (by decide)),
    dflDec_property.other _ (hmode _ (by decide)), lzwEnc_property.other _ (hmode _ (by decide)),
    sessionShapeOk_released rfl⟩

end Sys2Proof.Machine
end
